-- ==== Sys2Proof/Word.lean ====
section
/-! DEFINITION. The words the part's registers, lines and frames carry. -/

namespace Sys2Proof

/-- One byte of a management frame, one lane of a halfword, or one argument byte. -/
abbrev Byte := BitVec 8

/-- A halfword on HD15..HD0, MD15..MD0 or xLD15..xLD0. -/
abbrev Half := BitVec 16

/-- A 32-bit counter, acceptance number, stamp component or item value. -/
abbrev Word := BitVec 32

/-- A carrier serial (R87, R169). -/
abbrev Serial := BitVec 64

end Sys2Proof
end

