-- ==== Sys2Proof/Syntax.lean ====
section
/-! DEFINITION. The commands of the CJ620: one constructor of `Instr` for each row of the table of
operations and events, with what the event brings to the part. -/

namespace Sys2Proof

/-- The two bays (05, introduction). -/
inductive BayId where
  | A
  | B
deriving DecidableEq, Repr

/-- The two detect contacts of a bay, xDET1# and xDET2# (R80, R168). -/
inductive DetContact where
  | det1
  | det2
deriving DecidableEq, Repr

/-- What a key read samples (R82), with the level of power-good at that moment, which R84 examines
"including the moment of entry" to POWERING. `true` is made, or asserted. -/
structure KeySample where
  k1 : Bool
  k2 : Bool
  pgood : Bool
deriving DecidableEq, Repr

/-- One cycle that the host presents with HCS# asserted (R34), and what local memory shows at that
moment (R35). `true` is asserted. -/
structure HostCycle where
  /-- HRD# -/
  rd : Bool
  /-- HWR# -/
  wr : Bool
  /-- HLB# -/
  lb : Bool
  /-- HUB# -/
  ub : Bool
  /-- HA23..HA1 -/
  addr : BitVec 23
  /-- HD15..HD0 as the host drives it for a write -/
  data : Half
  /-- MRDY -/
  mrdy : Bool
  /-- MD15..MD0 as local memory drives it for a read -/
  md : Half
deriving DecidableEq, Repr

/-- The twenty commands of the management port (section 9.6). -/
inductive Cmd where
  | readStatus | readItem | writeItem
  | commitWindow | disableWindow | readWindow
  | readBay | eject | cancelEject | retryBay | forget | forceReplay
  | discardHeld | readHold
  | popLoss | readCounts | zeroCounts | readError
  | readEvents | clearEvents
deriving DecidableEq, Repr

/-- The commands of the block, in the table's order. The operand `passed` of the commands whose
effect depends on the phase of a transfer on a link says whether the minimum request-high time of
the links has passed before the event (R166, section 10.6; DESIGN CHOICE, log 11). A last operand
with a default may be left out where the event is meant at once. -/
inductive Instr where
  /-- POR: RST# is asserted (R165). -/
  | por
  /-- HRST: HRST# is asserted, or negated again (R53; DESIGN CHOICE, log 13). -/
  | hrst (asserted : Bool) (passed : Bool := false)
  /-- CLASSIFICATION: a host access begins (R26). -/
  | classification (cycle : HostCycle)
  /-- MAIN_ACCESS_READY: local memory asserts MRDY (R35). -/
  | mainAccessReady (md : Half)
  /-- ACCESS_END: HCS# is negated after the release (R34). -/
  | accessEnd
  /-- HOST_WITHDRAWAL: HCS# is negated before the release (R54). -/
  | hostWithdrawal (passed : Bool := false)
  /-- STALL_TIMER_EXPIRY: the access's stall timer expires (R38). -/
  | stallTimerExpiry (passed : Bool := false)
  /-- WAITING_WRITE_ACCEPTED: a write waiting for queue space meets space (R41). -/
  | waitingWriteAccepted
  /-- STALLED_ACCESS_REHANDLED: a stalled access meets its bay's new state (R39). -/
  | stalledAccessRehandled
  /-- LINK_GRANT: the free link of a bay is granted (R71). -/
  | linkGrant (bay : BayId)
  /-- COMMIT: ACK to the head entry's write transfer (R65). -/
  | commit (bay : BayId) (passed : Bool := false)
  /-- FAILED_ATTEMPT: FLT, or xACK and xFLT together, to the attempt in flight (R64, R166). -/
  | failedAttempt (bay : BayId) (passed : Bool := false)
  /-- RESPONSE_TIMEOUT: the response timer of the attempt expires (R63). -/
  | responseTimeout (bay : BayId) (passed : Bool := false)
  /-- READ_TRANSFER_ANSWER: ACK to a host read transfer, with xLD15..xLD0 (R47). -/
  | readTransferAnswer (bay : BayId) (data : Half) (passed : Bool := false)
  /-- DESCRIPTOR_READ_ANSWER: ACK to an identification read, with xLD15..xLD0, and the lock
  contact as it stands, which the verdict samples (R86, R89). -/
  | descriptorReadAnswer (bay : BayId) (data : Half) (lock : Bool) (passed : Bool := false)
  /-- BINDING_WRITE_ANSWER: ACK to a binding write (R93). -/
  | bindingWriteAnswer (bay : BayId) (passed : Bool := false)
  /-- ABANDONED_TRANSFER_END: the abandoned transfer is answered or times out (R73). -/
  | abandonedTransferEnd (bay : BayId)
  /-- DETECT_MAKE: both detect contacts are made in EMPTY (R80). -/
  | detectMake (bay : BayId)
  /-- DEBOUNCE_BREAK: a detect contact breaks in DEBOUNCE (R81). -/
  | debounceBreak (bay : BayId) (contact : DetContact)
  /-- DEBOUNCE_EXPIRY: the debounce timer expires (R81). -/
  | debounceExpiry (bay : BayId) (keys : KeySample)
  /-- POWER_GOOD_RISE: power-good is found asserted in POWERING (R84). -/
  | powerGoodRise (bay : BayId)
  /-- POWER_TIMER_EXPIRY: the 50 ms power timer expires (R84). -/
  | powerTimerExpiry (bay : BayId)
  /-- IDENTIFICATION_TIMER_EXPIRY: the 100 ms identification timer expires (R96). -/
  | identificationTimerExpiry (bay : BayId)
  /-- POWER_LOSS: power-good falls (R107). -/
  | powerLoss (bay : BayId) (passed : Bool := false)
  /-- REMOVAL: a detect contact breaks in a serving state (R103). -/
  | removal (bay : BayId) (contact : DetContact) (passed : Bool := false)
  /-- REMOVAL_DURING_MOUNT: a detect contact breaks in POWERING or IDENTIFYING (R104). -/
  | removalDuringMount (bay : BayId) (contact : DetContact)
  /-- REMOVAL_OF_STOPPED_CARRIER: a detect contact breaks in UNSUPPORTED, REJECTED, FAULTED or
  RELEASED (R105). -/
  | removalOfStoppedCarrier (bay : BayId) (contact : DetContact)
  /-- DRAIN_TIMEOUT: the drain timer expires (R115). -/
  | drainTimeout (bay : BayId) (passed : Bool := false)
  /-- REPLAY_MOVE: eligible hold entries move to the queue (R131). -/
  | replayMove (bay : BayId)
  /-- FRAME_START: SCS# falls (R152). -/
  | frameStart
  /-- FRAME_END: SCS# rises after the command has run (R152). -/
  | frameEnd
  /-- FRAME_DISCARD: SCS# rises before the command has run; `bits` are those of SDI that the rising
  edges of SCK have sampled since its fall (R152, R155). -/
  | frameDiscard (bits : List Bool := [])
  /-- BAD_COMMAND: byte 0 names no command (R156). -/
  | badCommand (code : Byte)
  /-- READ_STATUS (R163). -/
  | readStatus
  /-- READ_ITEM (R159). -/
  | readItem (code : Byte)
  /-- WRITE_ITEM, of an item with no behaviour of its own (R160). -/
  | writeItem (code : Byte) (value : Word)
  /-- WRITE_EVENT_ENABLE: WRITE_ITEM of EVENT_ENABLE (R144). -/
  | writeEventEnable (value : Word)
  /-- COMMIT_WINDOW n (R20 to R23). -/
  | commitWindow (n : Byte)
  /-- DISABLE_WINDOW n (R24). -/
  | disableWindow (n : Byte)
  /-- READ_WINDOW n (R25). -/
  | readWindow (n : Byte)
  /-- READ_BAY n (R164). -/
  | readBay (n : Byte)
  /-- EJECT n (R110). -/
  | eject (n : Byte)
  /-- CANCEL_EJECT n (R117). -/
  | cancelEject (n : Byte)
  /-- RETRY_BAY n, with what its key read samples (R100). -/
  | retryBay (n : Byte) (keys : KeySample)
  /-- FORGET n (R119). -/
  | forget (n : Byte)
  /-- FORCE_REPLAY n (R137, R138). -/
  | forceReplay (n : Byte) (passed : Bool := false)
  /-- DISCARD_HELD (R139). -/
  | discardHeld (serial : Serial) (scope : Byte)
  /-- READ_HOLD i (R141). -/
  | readHold (index : Byte)
  /-- POP_LOSS (R12). -/
  | popLoss
  /-- READ_COUNTS (R14). -/
  | readCounts
  /-- ZERO_COUNTS (R15). -/
  | zeroCounts
  /-- READ_ERROR (R52). -/
  | readError
  /-- READ_EVENTS (R146). -/
  | readEvents
  /-- CLEAR_EVENTS (R147). -/
  | clearEvents (set : Word)
  /-- RESET_END: RST# is negated; `seatedA` and `seatedB` say whether both detect contacts of the
  bay are made, `scsLow` and `hrstLow` whether SCS# and HRST# are low at that moment (R53, R80,
  R165). -/
  | resetEnd (seatedA seatedB scsLow : Bool) (hrstLow : Bool := false)
deriving DecidableEq, Repr

end Sys2Proof
end

