-- ==== Sys2Proof/Decode.lean ====
section
/-! DEFINITION. The command codes of the management port (R172), the command that the bytes of a
frame spell (R153, R171), and `decodeTableWord` for the host's table. -/

namespace Sys2Proof

/-- The command codes of R172. -/
def Cmd.code : Cmd → Byte
  | .readStatus => 0x01#8
  | .readItem => 0x02#8
  | .writeItem => 0x03#8
  | .commitWindow => 0x10#8
  | .disableWindow => 0x11#8
  | .readWindow => 0x12#8
  | .readBay => 0x20#8
  | .eject => 0x21#8
  | .cancelEject => 0x22#8
  | .retryBay => 0x23#8
  | .forget => 0x24#8
  | .forceReplay => 0x25#8
  | .discardHeld => 0x30#8
  | .readHold => 0x31#8
  | .popLoss => 0x40#8
  | .readCounts => 0x41#8
  | .zeroCounts => 0x42#8
  | .readError => 0x43#8
  | .readEvents => 0x50#8
  | .clearEvents => 0x51#8

/-- The number of argument bytes of each command (section 9.6). -/
def Cmd.argBytes : Cmd → Nat
  | .readStatus | .popLoss | .readCounts | .zeroCounts | .readError | .readEvents => 0
  | .readItem | .commitWindow | .disableWindow | .readWindow | .readBay | .eject | .cancelEject
  | .retryBay | .forget | .forceReplay | .readHold => 1
  | .clearEvents => 4
  | .writeItem => 5
  | .discardHeld => 9

/-- Every command of section 9.6. -/
def Cmd.all : List Cmd :=
  [.readStatus, .readItem, .writeItem, .commitWindow, .disableWindow, .readWindow, .readBay, .eject,
   .cancelEject, .retryBay, .forget, .forceReplay, .discardHeld, .readHold, .popLoss, .readCounts,
   .zeroCounts, .readError, .readEvents, .clearEvents]

/-- The look-up of byte 0 (R153, R172): a code outside the table names no command. -/
def cmdOfCode (b : Byte) : Option Cmd :=
  Cmd.all.find? fun c => c.code == b

/-- A value is sent most significant byte first (R171). -/
def wordOfBytes (a b c d : Byte) : Word := a ++ b ++ c ++ d

/-- A serial is eight bytes, most significant first (R171). -/
def serialOfBytes (a b c d e f g h : Byte) : Serial := a ++ b ++ c ++ d ++ e ++ f ++ g ++ h

/-- Byte `i` of a word as it is sent: byte 0 is the most significant of four (R171). -/
def wordBytes (w : Word) : List Byte :=
  [w.extractLsb' 24 8, w.extractLsb' 16 8, w.extractLsb' 8 8, w.extractLsb' 0 8]

/-- A serial's eight bytes, most significant first (R171). -/
def serialBytes (s : Serial) : List Byte :=
  [s.extractLsb' 56 8, s.extractLsb' 48 8, s.extractLsb' 40 8, s.extractLsb' 32 8,
   s.extractLsb' 24 8, s.extractLsb' 16 8, s.extractLsb' 8 8, s.extractLsb' 0 8]

/-- The item code of EVENT_ENABLE (R158). -/
def eventEnableCode : Byte := 0x0C#8

/-- The command with its argument bytes (R153, R171, section 9.6). `keys` is what the part finds on its
pins when the command runs, and `passed` the operand of FORCE_REPLAY; they are no bytes of the frame. -/
def Cmd.instr (keys : KeySample) (passed : Bool) : Cmd → List Byte → Option Instr
  | .readStatus, [] => some .readStatus
  | .popLoss, [] => some .popLoss
  | .readCounts, [] => some .readCounts
  | .zeroCounts, [] => some .zeroCounts
  | .readError, [] => some .readError
  | .readEvents, [] => some .readEvents
  | .readItem, [c] => some (.readItem c)
  | .commitWindow, [n] => some (.commitWindow n)
  | .disableWindow, [n] => some (.disableWindow n)
  | .readWindow, [n] => some (.readWindow n)
  | .readBay, [n] => some (.readBay n)
  | .eject, [n] => some (.eject n)
  | .cancelEject, [n] => some (.cancelEject n)
  | .retryBay, [n] => some (.retryBay n keys)
  | .forget, [n] => some (.forget n)
  | .forceReplay, [n] => some (.forceReplay n passed)
  | .readHold, [i] => some (.readHold i)
  | .clearEvents, [a, b, c, d] => some (.clearEvents (wordOfBytes a b c d))
  | .writeItem, [i, a, b, c, d] =>
      some (if i = eventEnableCode then .writeEventEnable (wordOfBytes a b c d)
        else .writeItem i (wordOfBytes a b c d))
  | .discardHeld, [a, b, c, d, e, f, g, h, sc] =>
      some (.discardHeld (serialOfBytes a b c d e f g h) sc)
  | _, _ => none

/-! ### The SPI shift -/

/-- A rising edge of SCK shifts the level of SDI in; bytes are received most significant bit first
(R152). -/
def shiftIn (r : Byte) (bit : Bool) : Byte := r <<< 1 ||| (BitVec.ofBool bit).setWidth 8

/-- The whole bytes that sampled bits make, eight to a byte (R152). -/
def bytesOfBits : List Bool → List Byte
  | a :: b :: c :: d :: e :: f :: g :: h :: rest =>
      [a, b, c, d, e, f, g, h].foldl shiftIn 0 :: bytesOfBits rest
  | _ => []

/-- A byte as it is sent, most significant bit first (R152). -/
def bitsOfByte (x : Byte) : List Bool :=
  [x.getMsbD 0, x.getMsbD 1, x.getMsbD 2, x.getMsbD 3, x.getMsbD 4, x.getMsbD 5, x.getMsbD 6,
   x.getMsbD 7]

/-- The bytes received in a frame have run a command: the last argument byte of a known code is among
them, or byte 0 names no command (R153, R156). -/
def frameRuns : List Byte → Bool
  | [] => false
  | b :: args =>
      match cmdOfCode b with
      | none => true
      | some c => decide (c.argBytes ≤ args.length)

/-- The command that the bytes received in a frame have run: none before the last argument byte
(R153); a byte 0 that names no command runs as BAD_COMMAND at once, and the bytes after the last
argument byte are ignored (R152, R156). -/
def decodeFrame (keys : KeySample) (passed : Bool) : List Byte → Option Instr
  | [] => none
  | b :: args =>
      match cmdOfCode b with
      | none => some (.badCommand b)
      | some c => c.instr keys passed (args.take c.argBytes)

/-- The bytes a controller sends, up to the last argument byte, to run a management command
(R171, R172, section 9.6); empty for the rows that are no command of the port. -/
def encodeFrame : Instr → List Byte
  | .badCommand c => [c]
  | .readStatus => [Cmd.readStatus.code]
  | .readItem c => [Cmd.readItem.code, c]
  | .writeItem c v => Cmd.writeItem.code :: c :: wordBytes v
  | .writeEventEnable v => Cmd.writeItem.code :: eventEnableCode :: wordBytes v
  | .commitWindow n => [Cmd.commitWindow.code, n]
  | .disableWindow n => [Cmd.disableWindow.code, n]
  | .readWindow n => [Cmd.readWindow.code, n]
  | .readBay n => [Cmd.readBay.code, n]
  | .eject n => [Cmd.eject.code, n]
  | .cancelEject n => [Cmd.cancelEject.code, n]
  | .retryBay n _ => [Cmd.retryBay.code, n]
  | .forget n => [Cmd.forget.code, n]
  | .forceReplay n _ => [Cmd.forceReplay.code, n]
  | .discardHeld s sc => Cmd.discardHeld.code :: (serialBytes s ++ [sc])
  | .readHold i => [Cmd.readHold.code, i]
  | .popLoss => [Cmd.popLoss.code]
  | .readCounts => [Cmd.readCounts.code]
  | .zeroCounts => [Cmd.zeroCounts.code]
  | .readError => [Cmd.readError.code]
  | .readEvents => [Cmd.readEvents.code]
  | .clearEvents v => Cmd.clearEvents.code :: wordBytes v
  | .por | .hrst _ _ | .classification _ | .mainAccessReady _ | .accessEnd | .hostWithdrawal _
  | .stallTimerExpiry _ | .waitingWriteAccepted | .stalledAccessRehandled | .linkGrant _
  | .commit _ _ | .failedAttempt _ _ | .responseTimeout _ _ | .readTransferAnswer _ _ _
  | .descriptorReadAnswer _ _ _ _ | .bindingWriteAnswer _ _ | .abandonedTransferEnd _ | .detectMake _
  | .debounceBreak _ _ | .debounceExpiry _ _ | .powerGoodRise _ | .powerTimerExpiry _
  | .identificationTimerExpiry _ | .powerLoss _ _ | .removal _ _ _ | .removalDuringMount _ _
  | .removalOfStoppedCarrier _ _ | .drainTimeout _ _ | .replayMove _ | .frameStart | .frameEnd
  | .frameDiscard _ | .resetEnd _ _ _ _ => []

/-- What the part finds on the key and power-good inputs when the command runs. -/
def Instr.keys : Instr → KeySample
  | .retryBay _ k => k
  | _ => ⟨false, false, false⟩

/-- The operand `passed` of the command; false for a command without it. -/
def Instr.passed : Instr → Bool
  | .hrst _ p | .hostWithdrawal p | .stallTimerExpiry p | .commit _ p | .failedAttempt _ p
  | .responseTimeout _ p | .readTransferAnswer _ _ p | .descriptorReadAnswer _ _ _ p
  | .bindingWriteAnswer _ p | .powerLoss _ p | .removal _ _ p | .drainTimeout _ p
  | .forceReplay _ p => p
  | _ => false

/-- The same event with no request-high time passed before it. -/
def Instr.atOnce : Instr → Instr
  | .hrst a _ => .hrst a false
  | .hostWithdrawal _ => .hostWithdrawal false
  | .stallTimerExpiry _ => .stallTimerExpiry false
  | .commit b _ => .commit b false
  | .failedAttempt b _ => .failedAttempt b false
  | .responseTimeout b _ => .responseTimeout b false
  | .readTransferAnswer b d _ => .readTransferAnswer b d false
  | .descriptorReadAnswer b d l _ => .descriptorReadAnswer b d l false
  | .bindingWriteAnswer b _ => .bindingWriteAnswer b false
  | .powerLoss b _ => .powerLoss b false
  | .removal b c _ => .removal b c false
  | .drainTimeout b _ => .drainTimeout b false
  | .forceReplay n _ => .forceReplay n false
  | c => c

/-- The command that a word spells by the table's bits. No row of spec/opcode_table.json has any
bits (every row's "fields" is empty and it has no "fixed"), so no word spells a command. -/
def decodeTableWord (_nbits _w : Nat) : Option Instr := none

end Sys2Proof
end

