-- ==== Sys2Proof/Config.lean ====
section
/-! DEFINITION. What one CJ620 fixes for itself, and the values the spec leaves open. -/

namespace Sys2Proof

/-- DEVICE_NUMBER, "fused into the part when it is made, and each CJ620 holds its own" (R162).
An open constant: no proof can see its value (DESIGN CHOICE, log 2). -/
opaque Config.deviceNumber : Word

/-- The byte that stands on the lane of HD15..HD0 that a LOW or HIGH read does not name ("only the
named lane carries meaning", R47). A free value for each such read
(DESIGN CHOICE, log 14). -/
opaque Config.freeByte : Nat → Byte

end Sys2Proof
end

