-- ==== Sys2Proof/Machine/State.lean ====
section
/-! DEFINITION. The state of the CJ620, its value right after reset, and the reasons a step can stop. -/

namespace Sys2Proof.Machine

/-- A mount stamp: device number, epoch, mount sequence; equal when all three are equal (R91). -/
structure Stamp where
  device : Word
  epoch : Word
  sequence : Word
deriving DecidableEq, Repr

/-- The lane sets of 00_scope.md 5.2. -/
inductive Lanes where
  | low
  | high
  | both
deriving DecidableEq, Repr

/-- The two carrier regions (R18). -/
inductive Region where
  | data
  | descriptor
deriving DecidableEq, Repr

/-- The window modes (R18). -/
inductive Mode where
  | posted
  | through
  | readOnly
deriving DecidableEq, Repr

/-- The absent-reads policies (R18). -/
inductive AbsentReads where
  | refuse
  | fill
deriving DecidableEq, Repr

/-- The absent-writes policies (R18). -/
inductive AbsentWrites where
  | refuse
  | hold
deriving DecidableEq, Repr

/-- Every field of a window record except enabled; the staging record has this type (R18, R19). -/
structure WindowRec where
  base : BitVec 12
  limit : BitVec 12
  bay : BayId
  region : Region
  start : BitVec 14
  mode : Mode
  absentReads : AbsentReads
  absentWrites : AbsentWrites
deriving DecidableEq, Repr

/-- A window record (R18). -/
structure Window where
  enabled : Bool
  record : WindowRec
deriving DecidableEq, Repr

/-- The zero value of every window and staging field (R18, R19). -/
def zeroWindowRec : WindowRec :=
  ⟨0, 0, .A, .data, 0, .posted, .refuse, .refuse⟩

/-- An accepted write, with the fields that travel with it between the collections and into a loss
record (R8, R56, R121). The carrier halfword address is a data-region address. -/
structure Write where
  num : Word
  serial : Serial
  stamp : Stamp
  addr : Nat
  lanes : Lanes
  data : Half
  window : Fin 8
  uncertain : Bool
  forced : Bool
deriving DecidableEq, Repr

/-- A posting queue entry (R56). `ord` is the write's place in the one order of acceptance (R122;
DEDUCED, log 12). -/
structure QEntry where
  ord : Nat
  write : Write
  through : Bool
deriving DecidableEq, Repr

/-- A hold entry (R121). `ord` as in `QEntry`. -/
structure HoldEntry where
  ord : Nat
  write : Write
  stale : Bool
deriving DecidableEq, Repr

/-- The causes of a loss (R5). -/
inductive LossCause where
  | writeFault
  | holdFull
  | discarded
deriving DecidableEq, Repr

/-- A loss record (R8). -/
structure LossRecord where
  cause : LossCause
  write : Write
  stale : Bool
deriving DecidableEq, Repr

/-- The summary record when present (R9). -/
structure Summary where
  count : Word
  first : Word
  last : Word
deriving DecidableEq, Repr

/-- The causes of a host error (R51). -/
inductive HostCause where
  | readOnly | locked | range | absent | ejecting | stalled | readFault | throughTimeout | held | lost
  | holdFull
deriving DecidableEq, Repr

/-- The host error record when present (R51). `accepted` is the acceptance number when the record's
accepted field is yes; `addr` is HA23..HA1, so that bit 0 of the byte address is 0. -/
structure HostError where
  addr : BitVec 23
  lanes : Lanes
  write : Bool
  window : Fin 8
  cause : HostCause
  accepted : Option Word
  overrun : Bool
deriving DecidableEq, Repr

/-- A diverted access as the host port controller keeps it from its classification on (R26): what
the host presents, the window copy, the translated carrier halfword address, and the interval of
its stall timer once HWAIT has been asserted for it (R37). -/
structure Access where
  addr : BitVec 23
  lanes : Lanes
  write : Bool
  data : Half
  window : Fin 8
  copy : WindowRec
  carrier : Nat
  stall : Option (BitVec 10)
deriving DecidableEq, Repr

/-- Where a waiting diverted access stands (R37). -/
inductive Wait where
  /-- in REPLAY, waiting for the bay to become READY -/
  | replay
  /-- a write in READY, waiting for space in a full posting queue -/
  | space
  /-- a THROUGH write accepted under this acceptance number, waiting for its entry's fate -/
  | fate (num : Word)
  /-- a read waiting for no queued write to match its address -/
  | queueMatch
  /-- a read waiting for the link arbiter's grant -/
  | grant
  /-- a read whose transfer is on the bay link -/
  | onLink
deriving DecidableEq, Repr

/-- What the part drives on HD15..HD0 for a read, lane by lane. -/
structure BusHalf where
  hi : Byte
  lo : Byte
deriving DecidableEq, Repr

/-- A main access as it is mirrored to the main port (R35). -/
structure MainDrive where
  addr : BitVec 23
  lanes : Lanes
  write : Bool
  data : Half
deriving DecidableEq, Repr

/-- The host port controller (R34, R35, R37). HWAIT, HERR#, HD15..HD0 and the main port's lines are
read off this value (Machine/Pins.lean). -/
inductive HostPort where
  | idle
  /-- a main access while MRDY is negated -/
  | mainWait (drive : MainDrive)
  /-- a main access after MRDY, until HCS# is negated (DEDUCED, log 18) -/
  | mainDone (drive : MainDrive) (hd : Option BusHalf)
  /-- a diverted access with HWAIT asserted -/
  | diverted (access : Access) (wait : Wait)
  /-- a diverted access after its release, until HCS# is negated -/
  | released (herr : Bool) (hd : Option BusHalf)
deriving DecidableEq, Repr

/-- The eleven bay states (R77). -/
inductive BayState where
  | empty | debounce | unsupported | powering | identifying | rejected | replay | ready | draining
  | released | faulted
deriving DecidableEq, Repr

/-- The causes a mount record can hold (R79, R102). -/
inductive MountCause where
  | none | noKey | supplyNotAllowed | powerTimeout | idTimeout | unrecognized | conflict | bindFault
  | powerLost | writeFaults
deriving DecidableEq, Repr

/-- The supply of a mount record, and the bay's supply switch (R78, R79). -/
inductive Supply where
  | none
  | v18
  | v33
deriving DecidableEq, Repr

/-- The resume verdicts (R79). -/
inductive Verdict where
  | none
  | clean
  | resume
  | stale
  | locked
deriving DecidableEq, Repr

/-- The mount record of a bay (R79). -/
structure MountRecord where
  cause : MountCause
  supply : Supply
  serial : Option Serial
  capacity : Option (BitVec 16)
  stamp : Option Stamp
  locked : Bool
  verdict : Verdict
deriving DecidableEq, Repr

/-- The stamp and locked flag of a last-carrier record: a binding sets a stamp and locked no, a
LOCKED verdict sets the slot stamp or none and locked yes (R89, R94, R98; DEDUCED, log 19). -/
inductive RecordStamp where
  | bound (stamp : Stamp)
  | locked (stamp : Option Stamp)
deriving DecidableEq, Repr

/-- A last-carrier record when present (R98). -/
structure LastCarrier where
  serial : Serial
  capacity : BitVec 16
  stamp : RecordStamp
deriving DecidableEq, Repr

/-- Where the attempt of a transfer stands on its link (R63, R64, R166). The transfer is in flight
in each phase. A link's request, once negated, stays negated for the minimum request-high time
before it is asserted for the next attempt or transfer. -/
inductive Phase where
  /-- the first attempt of an entry that was granted the link in the step of the ACK to the entry
  before it; its xREQ is asserted once the request-high time has passed, and an evacuation in that
  time flags no entry (R75; DEDUCED, log 35) -/
  | afterAck
  /-- any other attempt that begins in the request-high time: its xREQ is asserted once that has passed
  (R64, R166; for a first attempt DEDUCED, log 35) -/
  | presenting
  /-- xREQ is asserted, and the response timer runs with the interval it was started with (R63) -/
  | requested (timer : BitVec 8)
deriving DecidableEq, Repr

/-- A transfer on a bay link: what the part drives for it (R166), how many attempts remain after
the present one (R62), and where the present one stands. -/
structure Transfer where
  region : Region
  addr : Nat
  lanes : Lanes
  write : Bool
  data : Half
  left : Nat
  phase : Phase
deriving DecidableEq, Repr

/-- The three holders of a bay link (R70). -/
inductive Holder where
  | ident
  | read
  | drain
deriving DecidableEq, Repr

/-- A bay link and its arbiter. A holder always has a transfer (R64, R85); a transfer that lost its
holder occupies the link until its end (R73). -/
inductive Link where
  | free
  | held (holder : Holder) (transfer : Transfer)
  | abandoned (transfer : Transfer)
deriving DecidableEq, Repr

/-- The states of a drain engine (R61). -/
inductive Engine where
  | stopped
  | idle
  | requesting
  | writing
deriving DecidableEq, Repr

/-- A binding under way: the stamp being written, how many of its eight writes have been answered
(R93), and the verdict taken before it (R90; DEDUCED, log 30). -/
structure Binding where
  stamp : Stamp
  answered : Nat
  verdict : Verdict
deriving DecidableEq, Repr

/-- The identification sequence: the descriptor halfwords kept (R86), and the binding once the
descriptor check has passed and the carrier is not locked. -/
structure Ident where
  halves : List Half
  binding : Option Binding
deriving DecidableEq, Repr

/-- The input levels of a bay as they were last sampled; `true` is made, or asserted (R168;
DESIGN CHOICE, log 15). -/
structure Contacts where
  det1 : Bool
  det2 : Bool
  k1 : Bool
  k2 : Bool
  lock : Bool
  pgood : Bool
deriving DecidableEq, Repr

/-- One bay: its controller, its posting queue and its link. A timer is stopped (`none`) or running
with the interval it was started with (DESIGN CHOICE, log 5). -/
structure Bay where
  state : BayState
  mount : MountRecord
  last : Option LastCarrier
  /-- the consecutive-loss count (R67; unbounded in the type: DESIGN CHOICE, log 31) -/
  lossCount : Nat
  ejectPending : Bool
  lamp : Bool
  debounceTimer : Option (BitVec 8)
  /-- the power timer, in ms (R84) -/
  powerTimer : Option (BitVec 8)
  /-- the identification timer, in ms (R85) -/
  identTimer : Option (BitVec 8)
  drainTimer : Option (BitVec 8)
  queue : List QEntry
  link : Link
  /-- xREQ has been negated for less than the minimum request-high time (R166, section 10.6) -/
  reqHigh : Bool
  ident : Option Ident
  contacts : Contacts
deriving DecidableEq, Repr

/-- The values of SUPPLY_MASK_A and SUPPLY_MASK_B (R82, R158). -/
inductive SupplyMask where
  | none
  | v18
  | v33
  | both
deriving DecidableEq, Repr

/-- The configuration items that are neither fixed, nor staging fields, nor EVENT_ENABLE (R158). -/
structure Items where
  epoch : Word
  debounceMs : BitVec 8
  responseUs : BitVec 8
  retryLimit : BitVec 3
  stallUs : BitVec 10
  drainMs : BitVec 8
  faultThreshold : BitVec 4
  holdThreshold : BitVec 6
  supplyMaskA : SupplyMask
  supplyMaskB : SupplyMask
deriving DecidableEq, Repr

/-- The status codes (R157). -/
inductive Status where
  | ok
  | badCommand
  | badArg
  | badState
  | overlap
  | badWindow
  | empty
deriving DecidableEq, Repr

/-- The byte and bit counts of a frame: the whole bytes received, and the bits of the next one
(R152). -/
structure Count where
  bytes : Nat
  bits : Fin 8
deriving DecidableEq, Repr

/-- The counts at the fall of SCS# (R152). -/
def Count.zero : Count := ⟨0, 0⟩

/-- A rising edge of SCK samples one bit; eight of them make one byte (R152). -/
def Count.clock (c : Count) : Count :=
  if c.bits = 7 then ⟨c.bytes + 1, 0⟩ else ⟨c.bytes, c.bits + 1⟩

/-- The counts after `n` more rising edges of SCK (R152). -/
def Count.clocks (c : Count) : Nat → Count
  | 0 => c
  | n + 1 => (c.clocks n).clock

/-- The management port (R152 to R155, R165). -/
inductive Frame where
  /-- SCS# is high -/
  | idle
  /-- SCS# was low when RST# was negated: the port waits for its rise (R165) -/
  | waitRise
  /-- a frame whose command has not run yet, with its counts; the bits that a command's frame brings
  come with the command that they complete (DESIGN CHOICE, log 16) -/
  | receiving (count : Count)
  /-- a frame whose command, of `args` argument bytes, has run, with its counts -/
  | ran (count : Count) (args : Nat) (status : Status) (result : List Byte)
deriving DecidableEq, Repr

/-- The state of the CJ620, and the queue of commands that wait for it. -/
structure State where
  /-- RST# is asserted (R165) -/
  rst : Bool
  /-- HRST# is asserted (R53) -/
  hrst : Bool
  deviceNumber : Word
  host : HostPort
  hostError : Option HostError
  windows : Vector Window 8
  staging : WindowRec
  items : Items
  accSource : Word
  accepted : Word
  committed : Word
  lost : Word
  lossLog : List LossRecord
  summary : Option Summary
  /-- the model's own: the place in the order of acceptance that the next write takes (R122) -/
  nextOrd : Nat
  hold : List HoldEntry
  mountSeq : Word
  bayA : Bay
  bayB : Bay
  latches : BitVec 23
  enables : BitVec 23
  frame : Frame
  frameError : Bool
  /-- the model's own: the index of the next free value -/
  free : Nat
  pending : List Instr
deriving DecidableEq, Repr

/-- Why the part stops: never. No command of the table ends the part's work, so this type has no
constructor, nothing raises it, and that is safe. -/
inductive Fault where
deriving DecidableEq, Repr

/-- Why a command is refused. -/
inductive Refusal where
  /-- Raised by an arm of `exec` for a command without a meaning; no arm does, and that is safe. -/
  | notModelled (mnemonic : String)
deriving DecidableEq, Repr

/-- The mount record after POR: every field at its cleared value (R79). -/
def MountRecord.cleared : MountRecord :=
  ⟨.none, .none, none, none, none, false, .none⟩

/-- No contact made, power-good negated. -/
def Contacts.none : Contacts := ⟨false, false, false, false, false, false⟩

/-- A bay after POR (R55, R67, R73, R77, R79, R98, R101), with the levels of its inputs. -/
def Bay.reset (contacts : Contacts) : Bay where
  state := .empty
  mount := .cleared
  last := none
  lossCount := 0
  ejectPending := false
  lamp := false
  debounceTimer := none
  powerTimer := none
  identTimer := none
  drainTimer := none
  queue := []
  link := .free
  reqHigh := false
  ident := none
  contacts := contacts

/-- The values after POR of R158. -/
def Items.reset : Items where
  epoch := 0
  debounceMs := 20
  responseUs := 64
  retryLimit := 3
  stallUs := 200
  drainMs := 50
  faultThreshold := 4
  holdThreshold := 40
  supplyMaskA := .both
  supplyMaskB := .both

/-- The part right after reset: every piece of state at its value after POR (R2, R6, R9, R10, R18,
R19, R34, R51, R92, R120, R142, R144, R158, R165), RST# and HRST# negated, no carrier seated and
SCS# high (DESIGN CHOICE, log 1). -/
def State.reset : State where
  rst := false
  hrst := false
  deviceNumber := Config.deviceNumber
  host := .idle
  hostError := none
  windows := Vector.replicate 8 ⟨false, zeroWindowRec⟩
  staging := zeroWindowRec
  items := .reset
  accSource := 0
  accepted := 0
  committed := 0
  lost := 0
  lossLog := []
  summary := none
  nextOrd := 0
  hold := []
  mountSeq := 1
  bayA := .reset .none
  bayB := .reset .none
  latches := 0
  enables := 0
  frame := .idle
  frameError := false
  free := 0
  pending := []

end Sys2Proof.Machine
end

