-- ==== Sys2Proof/Machine/Flags.lean ====
section
/-! DEFINITION. The event latches, their enables and ATTN# (chapter 8). -/

namespace Sys2Proof.Machine

/-- The ten latches of a bay (R142). -/
inductive BayLatch where
  | inserted | identified | resumed | staleFound | rejected | unsupported | faulted | removed
  | ejectDone | drainTimeout
deriving DecidableEq, Repr

/-- The twenty-three event latches (R142). -/
inductive Latch where
  | bay (bay : BayId) (latch : BayLatch)
  | loss
  | holdHigh
  | hostError
deriving DecidableEq, Repr

/-- The place of a bay latch among its bay's ten (R142). -/
def BayLatch.index : BayLatch → Nat
  | .inserted => 0
  | .identified => 1
  | .resumed => 2
  | .staleFound => 3
  | .rejected => 4
  | .unsupported => 5
  | .faulted => 6
  | .removed => 7
  | .ejectDone => 8
  | .drainTimeout => 9

/-- The number of a latch (R142). -/
def Latch.number : Latch → Nat
  | .bay .A l => l.index
  | .bay .B l => 10 + l.index
  | .loss => 20
  | .holdHigh => 21
  | .hostError => 22

/-- A latch is set by its owner, in the owner's step; setting a set latch leaves it set (R142). -/
def setLatch (l : Latch) (s : State) : State :=
  { s with latches := s.latches ||| (1#23 <<< l.number) }

/-- A latch is set. -/
def State.latch (s : State) (l : Latch) : Bool := s.latches.getLsbD l.number

/-- A latch's enable is set (R144). -/
def State.enable (s : State) (l : Latch) : Bool := s.enables.getLsbD l.number

/-- ATTN# is asserted exactly while a set latch has its enable set; it is negated while RST# is
asserted (R145). -/
def attention (s : State) : Bool := !s.rst && (s.latches &&& s.enables) != 0#23

/-- An event set names no number from 23 to 31 (R144, R147, R171). -/
def eventSetValid (v : Word) : Bool := v.extractLsb' 23 9 == 0#9

/-- Bits 0 to 22 of an event set (R171). -/
def latchesOfWord (v : Word) : BitVec 23 := v.extractLsb' 0 23

/-- An event set as a 32-bit value; bits 23 to 31 are 0 (R171). -/
def wordOfLatches (l : BitVec 23) : Word := l.setWidth 32

/-- The latches named in the set become clear, the others stay (R147). -/
def clearLatches (v : Word) (s : State) : State :=
  { s with latches := s.latches &&& ~~~(latchesOfWord v) }

end Sys2Proof.Machine
end

