-- ==== Sys2Proof/Machine/Operands.lean ====
section
/-! DEFINITION. The operand forms: the host cycle, the lanes, the translation of addresses and the
range check, the argument bytes of the management port, and the descriptor's fields. -/

namespace Sys2Proof.Machine

/-! ### The host cycle -/

/-- The lane set that HLB# and HUB# give; none when neither is asserted (00_scope.md 5.2). -/
def lanesOf (lb ub : Bool) : Option Lanes :=
  match lb, ub with
  | true, true => some .both
  | true, false => some .low
  | false, true => some .high
  | false, false => none

/-- The lane set of a cycle that begins an access: one strobe asserted, and at least one lane
enable; none for a cycle that begins no access (R34). -/
def accessLanes (c : HostCycle) : Option Lanes :=
  if c.rd == c.wr then none else lanesOf c.lb c.ub

/-- The host byte address of the halfword on HA23..HA1. -/
def byteAddr (addr : BitVec 23) : Nat := addr.toNat * 2

/-- The host page, "the host byte address divided by 4096, discarding the remainder" (R26). -/
def hostPage (addr : BitVec 23) : Nat := byteAddr addr / 4096

/-- The halfword as it stands on the data lines, both lanes. -/
def busBoth (d : Half) : BusHalf := ⟨d.extractLsb' 8 8, d.extractLsb' 0 8⟩

/-- FFFFH on HD15..HD0: a FILL read, and a read released with an error (R34, R49). -/
def busOnes : BusHalf := ⟨0xFF#8, 0xFF#8⟩

/-- The named byte in its lane (R30, R166); `other` stands on a lane that the read does not name. -/
def busLanes (l : Lanes) (d : Half) (other : Byte) : BusHalf :=
  match l with
  | .both => busBoth d
  | .low => ⟨other, d.extractLsb' 0 8⟩
  | .high => ⟨d.extractLsb' 8 8, other⟩

/-! ### Windows -/

/-- The window claims the host page: enabled, and base page to limit page inclusive (R18, R26). -/
def Window.claims (w : Window) (page : Nat) : Bool :=
  w.enabled && decide (w.record.base.toNat ≤ page) && decide (page ≤ w.record.limit.toNat)

/-- The eight window numbers. -/
def windowNumbers : List (Fin 8) := [0, 1, 2, 3, 4, 5, 6, 7]

/-- The look-up of a host page among the enabled windows (R26). -/
def findWindow (windows : Vector Window 8) (page : Nat) : Option (Fin 8) :=
  windowNumbers.find? fun i => windows[i].claims page

/-- The carrier halfword address of R27, which R29 gives for a DESCRIPTOR window too. It does not
wrap (R28). -/
def carrierAddr (w : WindowRec) (addr : BitVec 23) : Nat :=
  (w.start.toNat * 4096 + (byteAddr addr - w.base.toNat * 4096)) / 2

/-- The carrier page of a carrier halfword address (R27). -/
def carrierPage (carrier : Nat) : Nat := carrier / 2048

/-- The range check: a DATA access by its carrier page against a capacity (R31), a DESCRIPTOR access
by its byte offset (R32). -/
def inRange (region : Region) (carrier capacity : Nat) : Bool :=
  match region with
  | .data => decide (carrierPage carrier < capacity)
  | .descriptor => decide (carrier * 2 < 256)

/-- The staging record has the shape of a window (R21). -/
def validShape (w : WindowRec) : Bool :=
  decide (w.base ≤ w.limit) &&
    match w.region with
    | .data => true
    | .descriptor =>
        decide (w.limit = w.base) && decide (w.start = 0#14) && decide (w.mode = .readOnly)

/-- Two host page ranges share a page (R22). -/
def rangesMeet (a b : WindowRec) : Bool := decide (a.base ≤ b.limit) && decide (b.base ≤ a.limit)

/-- The range of `w` shares a page with an enabled window other than window `n` (R22). -/
def overlaps (windows : Vector Window 8) (n : Fin 8) (w : WindowRec) : Bool :=
  windowNumbers.any fun i => decide (i ≠ n) && windows[i].enabled && rangesMeet w windows[i].record

/-! ### Argument bytes -/

/-- A window argument: 0 to 7 (R20). -/
def windowArg (n : Byte) : Option (Fin 8) :=
  if h : n.toNat < 8 then some ⟨n.toNat, h⟩ else none

/-- A bay argument: 0 for A, 1 for B (R171). -/
def bayArg (n : Byte) : Option BayId :=
  if n = 0#8 then some .A else if n = 1#8 then some .B else none

/-- The scopes of DISCARD_HELD: 0 for STALE, 1 for ALL (R139); the answer is "stale entries only". -/
def scopeArg (n : Byte) : Option Bool :=
  if n = 0#8 then some true else if n = 1#8 then some false else none

/-! ### The carrier descriptor -/

/-- Halfword `k` of the descriptor halfwords kept (R86). -/
def descHalf (halves : List Half) (k : Nat) : Half := halves.getD k 0#16

/-- A 32-bit descriptor word: its low halfword is at the lower halfword address (R169, R170). -/
def descWord (halves : List Half) (k : Nat) : Word := descHalf halves (k + 1) ++ descHalf halves k

/-- The signature, 5A3CH when it is right (R169). -/
def descSignature (halves : List Half) : Half := descHalf halves 0

/-- The format version, the low lane of halfword 1 (R169). -/
def descVersion (halves : List Half) : Byte := (descHalf halves 1).extractLsb' 0 8

/-- The serial, halfwords 2 to 5 (R169). -/
def descSerial (halves : List Half) : Serial := descWord halves 4 ++ descWord halves 2

/-- The capacity in pages, halfword 6 (R169). -/
def descCapacity (halves : List Half) : BitVec 16 := descHalf halves 6

/-- The four requirements of the descriptor check (R87). -/
def descriptorValid (halves : List Half) : Bool :=
  descSignature halves == 0x5A3C#16 && descVersion halves == 1#8 && descSerial halves != 0#64
    && decide (1 ≤ (descCapacity halves).toNat) && decide ((descCapacity halves).toNat ≤ 16384)

/-- The check word that makes a slot's stamp valid: the bitwise inverse of the sum of the three
components modulo 2^32 (R88). -/
def checkWord (t : Stamp) : Word := ~~~(t.device + t.epoch + t.sequence)

/-- The stamp of the binding slot's first three words, halfwords 8 to 13 (R170). -/
def slotWords (halves : List Half) : Stamp :=
  ⟨descWord halves 8, descWord halves 10, descWord halves 12⟩

/-- The slot stamp: present when the slot's check word is valid (R88). -/
def slotStamp (halves : List Half) : Option Stamp :=
  if descWord halves 14 = checkWord (slotWords halves) then some (slotWords halves) else none

/-- The eight halfwords of a binding in the order they are written (R93, R170). -/
def bindingHalves (t : Stamp) : List Half :=
  [t.device.extractLsb' 0 16, t.device.extractLsb' 16 16,
   t.epoch.extractLsb' 0 16, t.epoch.extractLsb' 16 16,
   t.sequence.extractLsb' 0 16, t.sequence.extractLsb' 16 16,
   (checkWord t).extractLsb' 0 16, (checkWord t).extractLsb' 16 16]

/-! ### Keys and the supply mask -/

/-- The supply that a key read chooses: the lower voltage in the intersection of the keyed set and
the mask, or the cause that finds the carrier UNSUPPORTED (R82). -/
def chooseSupply (k1 k2 : Bool) (mask : SupplyMask) : Supply ⊕ MountCause :=
  if !k1 && !k2 then .inr .noKey
  else if k2 && (mask == .v18 || mask == .both) then .inl .v18
  else if k1 && (mask == .v33 || mask == .both) then .inl .v33
  else .inr .supplyNotAllowed

end Sys2Proof.Machine
end

