-- ==== Sys2Proof/Machine/Ops.lean ====
section
/-! DEFINITION. The operations that the commands share: the account of writes, the collections, the
releases of the host, the bay link, the bay states, and what settles a bay inside one step. -/

namespace Sys2Proof.Machine

/-! ### Bays -/

/-- The other bay. -/
def otherBay : BayId → BayId
  | .A => .B
  | .B => .A

/-- A bay of the part. -/
def State.bay (s : State) : BayId → Bay
  | .A => s.bayA
  | .B => s.bayB

/-- Change one bay and nothing else. -/
def modBay (b : BayId) (f : Bay → Bay) (s : State) : State :=
  match b with
  | .A => { s with bayA := f s.bayA }
  | .B => { s with bayB := f s.bayB }

/-- REPLAY, READY and DRAINING are the serving states (R77). -/
def BayState.serving : BayState → Bool
  | .replay | .ready | .draining => true
  | .empty | .debounce | .unsupported | .powering | .identifying | .rejected | .released
  | .faulted => false

/-- The states in which a bay's supply is on (R78). -/
def BayState.powered : BayState → Bool
  | .powering | .identifying | .replay | .ready | .draining => true
  | .empty | .debounce | .unsupported | .rejected | .released | .faulted => false

/-- READY and DRAINING: host reads are served from the carrier (R46). -/
def BayState.servesReads : BayState → Bool
  | .ready | .draining => true
  | .empty | .debounce | .unsupported | .powering | .identifying | .rejected | .replay | .released
  | .faulted => false

/-- xREQ is asserted for the attempt (R166). -/
def Phase.asserted : Phase → Bool
  | .requested _ => true
  | .afterAck | .presenting => false

/-- An attempt that begins in the request-high time, in the step of an ACK (R75; DEDUCED, log 35). -/
def Phase.markAck : Phase → Phase
  | .afterAck | .presenting => .afterAck
  | .requested n => .requested n

/-- The level of xREQ, `true` when asserted (R166, R167). -/
def Link.request : Link → Bool
  | .held _ t | .abandoned t => t.phase.asserted
  | .free => false

/-- An evacuation flags the head entry: the drain engine holds the link, so that the head entry's write
transfer is in flight (R64, R74), and the evacuation does not meet the ACK to the entry before it (R75;
DEDUCED, log 35). -/
def Link.flagsHead : Link → Bool
  | .held .drain t => t.phase != .afterAck
  | _ => false

/-- The drain engine's grant, if one was made, was made in the step of an ACK (R65, R75). -/
def Link.markAck : Link → Link
  | .held .drain t => .held .drain { t with phase := t.phase.markAck }
  | l => l

/-- The drain engine holds the link. -/
def Link.heldByDrain : Link → Bool
  | .held .drain _ => true
  | _ => false

/-- The drain engine's state, by the meanings R61 gives its four states. -/
def Bay.engine (x : Bay) : Engine :=
  if !x.state.serving then .stopped
  else if x.link.heldByDrain then .writing
  else if x.queue.isEmpty then .idle
  else .requesting

/-- The bay holds an identified carrier: it serves, or it is IDENTIFYING with its own descriptor
check passed (R87). -/
def Bay.identified (x : Bay) : Bool :=
  x.state.serving || (x.state == .identifying &&
    match x.ident with
    | some i => i.binding.isSome
    | none => false)

/-! ### The account of writes (chapter 1) -/

/-- The posting queue's capacity (R55). -/
def queueCapacity : Nat := 16

/-- The hold store's capacity (R120). -/
def holdCapacity : Nat := 48

/-- The loss FIFO's capacity (R10). -/
def logCapacity : Nat := 15

/-- The total occupancy of the three collections (R7). -/
def occupancy (s : State) : Nat := s.bayA.queue.length + s.bayB.queue.length + s.hold.length

/-- An acceptance: the next acceptance number is issued, ACCEPTED rises by 1, and the write takes
its place after every outstanding write (R1, R2, R122). -/
def takeNumber (s : State) : State :=
  { s with accSource := s.accSource + 1, accepted := s.accepted + 1, nextOrd := s.nextOrd + 1 }

/-- A loss reaches the loss log (R10). -/
def logLoss (r : LossRecord) (s : State) : State :=
  match s.summary with
  | some m => { s with summary := some ⟨m.count + 1, m.first, r.write.num⟩ }
  | none =>
      if s.lossLog.length < logCapacity then { s with lossLog := s.lossLog ++ [r] }
      else { s with summary := some ⟨1, r.write.num, r.write.num⟩ }

/-- One loss at the accounting unit: LOST rises by 1, the LOSS latch is set, and the loss is
recorded (R5). The caller has taken the entry out of its collection. -/
def lose (r : LossRecord) (s : State) : State :=
  logLoss r (setLatch .loss { s with lost := s.lost + 1 })

/-! ### The hold store (chapter 7) -/

/-- Insert at the place that `key` gives: after the last element that precedes it (R122). -/
def ordInsert {α : Type} (key : α → Nat) (x : α) : List α → List α
  | [] => [x]
  | y :: ys => if key y < key x then y :: ordInsert key x ys else x :: y :: ys

/-- The elements in the order that `key` gives (R125). -/
def ordSort {α : Type} (key : α → Nat) (l : List α) : List α :=
  l.foldr (ordInsert key) []

/-- HOLD_HIGH is set at a join after which the occupancy is at or above HOLD_THRESHOLD (R127). -/
def holdHigh (s : State) : State :=
  if s.items.holdThreshold.toNat ≤ s.hold.length then setLatch .holdHigh s else s

/-- An evacuated entry joins the hold store at its place in acceptance order (R125). -/
def joinEvacuated (e : HoldEntry) (s : State) : State :=
  holdHigh { s with hold := ordInsert HoldEntry.ord e s.hold }

/-- An absent acceptance joins as the newest hold entry (R124). -/
def joinNewest (e : HoldEntry) (s : State) : State :=
  holdHigh { s with hold := s.hold ++ [e] }

/-! ### Releases of the host (chapter 3) -/

/-- A normal release of the access in progress (R34). -/
def releaseOk (hd : Option BusHalf) (s : State) : State :=
  { s with host := .released false hd }

/-- An error release of a diverted access: HERR#, the host error record with its overrun flag, and
the HOST_ERROR latch, in one step (R34, R51). `accepted` is the acceptance number when the write
had been accepted. -/
def releaseError (a : Access) (cause : HostCause) (accepted : Option Word) (s : State) : State :=
  setLatch .hostError
    { s with
      hostError :=
        some ⟨a.addr, a.lanes, a.write, a.window, cause, accepted, s.hostError.isSome⟩
      host := .released true (if a.write then none else some busOnes) }

/-- The access waits: HWAIT is asserted, and its stall timer starts with STALL_US unless it already
runs (R37). -/
def waitIn (a : Access) (w : Wait) (s : State) : State :=
  { s with host := .diverted { a with stall := some (a.stall.getD s.items.stallUs) } w }

/-- The outcome of a THROUGH entry releases the host that waits on it: normally for a commit, with
the cause given otherwise (R43). -/
def releaseThrough (cause : Option HostCause) (s : State) : State :=
  match s.host with
  | .diverted a (.fate num) =>
      match cause with
      | none => releaseOk none s
      | some c => releaseError a c (some num) s
  | _ => s

/-! ### Evacuation (R74, R125) -/

/-- The head entry's uncertain flag is set when its write transfer is in flight (R74, R75). -/
def flagHead (flags : Bool) : List QEntry → List QEntry
  | [] => []
  | e :: es =>
      if flags then { e with write := { e.write with uncertain := true } } :: es else e :: es

/-- One offer to the hold store: the entry joins, or it is lost with cause HOLD_FULL; a host
waiting on it is released with HELD or LOST (R74, R125). -/
def evacuateOne (s : State) (e : QEntry) : State :=
  if s.hold.length < holdCapacity then
    let s' := joinEvacuated ⟨e.ord, e.write, false⟩ s
    if e.through then releaseThrough (some .held) s' else s'
  else
    let s' := lose ⟨.holdFull, e.write, false⟩ s
    if e.through then releaseThrough (some .lost) s' else s'

/-- The posting queue of bay `b` is emptied into the hold store in acceptance order (R74, R125). -/
def evacuate (b : BayId) (s : State) : State :=
  let x := s.bay b
  (ordSort QEntry.ord (flagHead x.link.flagsHead x.queue)).foldl evacuateOne
    (modBay b (fun x => { x with queue := [] }) s)

/-! ### Bay states -/

/-- The link comes free. If xREQ was asserted it is negated now, and its request-high time begins
(R166). -/
def Bay.dropLink (x : Bay) : Bay :=
  { x with link := .free, reqHigh := x.link.request || x.reqHigh }

/-- The supply is switched off: the mount record's supply becomes NONE and every transfer on the
link ends without its result being taken (R73, R78). -/
def Bay.supplyOff (x : Bay) : Bay :=
  { x.dropLink with mount := { x.mount with supply := .none } }

/-- The bay enters a state, with the cause that its mount record then holds (R79). -/
def Bay.enter (st : BayState) (cause : MountCause) (x : Bay) : Bay :=
  { x with state := st, mount := { x.mount with cause := cause } }

/-- The power timer, the identification timer and the identification sequence are given up. -/
def Bay.endMount (x : Bay) : Bay :=
  { x with powerTimer := none, identTimer := none, ident := none }

/-- The common step of leaving the serving states, but for the host port's part, which `settle`
takes (R102): the queue is evacuated, the supply goes off, the drain timer stops, the eject-pending
flag is cleared, and the bay enters its new state; the lamp is on in RELEASED alone (R118). -/
def leaveServing (b : BayId) (st : BayState) (cause : MountCause) (s : State) : State :=
  modBay b
    (fun x => { (x.supplyOff.enter st cause) with
      drainTimer := none, ejectPending := false, lamp := st == .released })
    (evacuate b s)

/-- Entry to DRAINING: the drain timer starts with DRAIN_MS (R101, R110, R111). -/
def enterDraining (b : BayId) (s : State) : State :=
  modBay b (fun x => { (x.enter .draining .none) with drainTimer := some s.items.drainMs }) s

/-- The bay enters REJECTED from POWERING or IDENTIFYING (R97). -/
def reject (b : BayId) (cause : MountCause) (s : State) : State :=
  setLatch (.bay b .rejected)
    (modBay b (fun x => (x.endMount.supplyOff).enter .rejected cause) s)

/-! ### The bay link (chapter 4) -/

/-- The attempt budget that a grant fixes, less the first attempt: RETRY_LIMIT (R62). -/
def attemptsLeft (s : State) : Nat := s.items.retryLimit.toNat

/-- The first attempt of a grant on a link with this request-high flag: the attempt begins with the
grant, and its xREQ is asserted at once with RESPONSE_US as it stands, or when the request-high time
has passed (R62, R63, R64, R166; DEDUCED, log 35). -/
def firstPhase (reqHigh : Bool) (s : State) : Phase :=
  if reqHigh then .presenting else .requested s.items.responseUs

/-- The write transfer of a queue entry (R63). -/
def entryTransfer (e : QEntry) (p : Phase) (s : State) : Transfer :=
  ⟨.data, e.write.addr, e.write.lanes, true, e.write.data, attemptsLeft s, p⟩

/-- The read transfer of a host read (R47). -/
def readTransfer (a : Access) (p : Phase) (s : State) : Transfer :=
  ⟨a.copy.region, a.carrier, a.lanes, false, 0, attemptsLeft s, p⟩

/-- The identification sequence's next transfer: descriptor reads at ascending halfwords from 0,
then the binding writes from halfword 8 (R86, R93). -/
def identTransfer (i : Ident) (p : Phase) (s : State) : Transfer :=
  match i.binding with
  | none => ⟨.descriptor, i.halves.length, .both, false, 0, attemptsLeft s, p⟩
  | some w =>
      ⟨.descriptor, 8 + w.answered, .both, true, (bindingHalves w.stamp).getD w.answered 0,
        attemptsLeft s, p⟩

/-- The host read that waits at bay `b`'s arbiter, if one does; a host read requests in READY and
DRAINING (R70). -/
def waitingRead (b : BayId) (s : State) : Option Access :=
  match s.host with
  | .diverted a .grant =>
      if a.copy.bay = b ∧ (s.bay b).state.servesReads then some a else none
  | _ => none

/-- The requester that a free link of bay `b` is granted to: a waiting host read, otherwise the
drain engine, otherwise the identification sequence (R71). -/
def requester (b : BayId) (s : State) : Option Holder :=
  let x := s.bay b
  if (waitingRead b s).isSome then some .read
  else if x.state.serving && !x.queue.isEmpty then some .drain
  else if x.state == .identifying && x.ident.isSome then some .ident
  else none

/-- Whenever the link is free and a requester waits, the link is granted and makes the first attempt
(R71). -/
def grantLink (b : BayId) (s : State) : State :=
  let x := s.bay b
  let p := firstPhase x.reqHigh s
  match x.link with
  | .free =>
      match waitingRead b s with
      | some a =>
          { modBay b (fun x => { x with link := .held .read (readTransfer a p s) }) s with
            host := .diverted a .onLink }
      | none =>
          match x.state.serving, x.queue with
          | true, e :: _ =>
              modBay b (fun x => { x with link := .held .drain (entryTransfer e p s) }) s
          | _, _ =>
              match x.state, x.ident with
              | .identifying, some i =>
                  modBay b (fun x => { x with link := .held .ident (identTransfer i p s) }) s
              | _, _ => s
  | .held _ _ => s
  | .abandoned _ => s

/-- The holder gives the link back. -/
def freeLink (b : BayId) (s : State) : State := modBay b Bay.dropLink s

/-- A read transfer loses its holder with the supply on: it is abandoned and goes on occupying the
link (R73), unless its xREQ is not asserted, when the link is free at once (R166). -/
def abandonRead (b : BayId) (s : State) : State :=
  match (s.bay b).link with
  | .held .read t =>
      modBay b (fun x => { x with link := if t.phase.asserted then .abandoned t else .free }) s
  | _ => s

/-- The request-high time of an attempt that waits for it passes: its xREQ is asserted, and its response
timer starts with RESPONSE_US as it stands (R63, R166). -/
def Phase.elapse (responseUs : BitVec 8) : Phase → Phase
  | .afterAck | .presenting => .requested responseUs
  | .requested n => .requested n

/-- The minimum request-high time passes on a link (R166). -/
def Link.elapse (responseUs : BitVec 8) : Link → Link
  | .free => .free
  | .held h t => .held h { t with phase := t.phase.elapse responseUs }
  | .abandoned t => .abandoned t

/-- The minimum request-high time passes on a bay's link (R166). -/
def Bay.elapse (responseUs : BitVec 8) (x : Bay) : Bay :=
  { x with link := x.link.elapse responseUs, reqHigh := false }

/-- The minimum request-high time passes on both links (R166; DESIGN CHOICE, log 11). -/
def elapse (s : State) : State :=
  modBay .B (Bay.elapse s.items.responseUs) (modBay .A (Bay.elapse s.items.responseUs) s)

/-- An event that comes after the minimum request-high time of the links, or at once (R166;
DESIGN CHOICE, log 11). -/
def timed (passed : Bool) (f : State → State) (s : State) : State :=
  f (if passed then elapse s else s)

/-! ### Handling a diverted access (chapter 3) -/

/-- The capacity that the range check takes from the mounted carrier (R31; the 0 for a record without
one: DESIGN CHOICE, log 20). -/
def mountedCapacity (x : Bay) : Nat := (x.mount.capacity.getD 0).toNat

/-- The write that an access becomes at its acceptance, with the data as HD15..HD0 carried it (R40;
DESIGN CHOICE for the bytes outside the lanes, log 32). -/
def acceptedWrite (a : Access) (num : Word) (serial : Serial) (stamp : Stamp) : Write :=
  ⟨num, serial, stamp, a.carrier, a.lanes, a.data, a.window, false, false⟩

/-- The posting queue entry that an access becomes at its acceptance: the next acceptance number, the
mounted carrier's serial and stamp, and THROUGH-waiting for a THROUGH window (R40; the 0 for a record
without these: DESIGN CHOICE, log 20). -/
def acceptedEntry (a : Access) (s : State) : QEntry :=
  let m := (s.bay a.copy.bay).mount
  ⟨s.nextOrd,
   acceptedWrite a (s.accSource + 1) (m.serial.getD 0) (m.stamp.getD ⟨0, 0, 0⟩),
   decide (a.copy.mode = .through)⟩

/-- A write is accepted into its bay's posting queue: it joins the tail; a POSTED write is released, a
THROUGH write waits for its entry's fate (R1, R40, R42, R43). -/
def acceptQueue (a : Access) (s : State) : State :=
  let s' := modBay a.copy.bay (fun x => { x with queue := x.queue ++ [acceptedEntry a s] })
    (takeNumber s)
  if a.copy.mode = .through then waitIn a (.fate (s.accSource + 1)) s' else releaseOk none s'

/-- A write to a bay in READY: the checks of R40 in their order, then acceptance, or the wait for
queue space of R41. -/
def writeReady (a : Access) (s : State) : State :=
  let x := s.bay a.copy.bay
  if !inRange a.copy.region a.carrier (mountedCapacity x) then releaseError a .range none s
  else if a.copy.mode = .readOnly then releaseError a .readOnly none s
  else if x.mount.locked then releaseError a .locked none s
  else if x.queue.length < queueCapacity then acceptQueue a s
  else waitIn a .space s

/-- A queue entry matches the read: the same region and carrier halfword address, whatever the lanes
(R46). Queue entries are writes to the data region. -/
def readMatches (a : Access) (x : Bay) : Bool :=
  a.copy.region == .data && x.queue.any fun e => e.write.addr == a.carrier

/-- A read from a bay in READY or DRAINING: the range check, then the wait for matching entries, or
the request to the arbiter (R46). -/
def readServing (a : Access) (s : State) : State :=
  let x := s.bay a.copy.bay
  if !inRange a.copy.region a.carrier (mountedCapacity x) then releaseError a .range none s
  else if readMatches a x then waitIn a .queueMatch s
  else waitIn a .grant s

/-- A read under its absent-reads policy: FFFFH, or an error release with ABSENT (R48, R49). -/
def absentRead (a : Access) (s : State) : State :=
  match a.copy.absentReads with
  | .fill => releaseOk (some busOnes) s
  | .refuse => releaseError a .absent none s

/-- The hold entry that an absent acceptance makes, under the record's serial and stamp (R50, R124). -/
def absentEntry (a : Access) (serial : Serial) (stamp : Stamp) (s : State) : HoldEntry :=
  ⟨s.nextOrd, acceptedWrite a (s.accSource + 1) serial stamp, false⟩

/-- Absent acceptance: the write joins the hold store under the record's serial and stamp, and the
host is released at once (R1, R50, R124). -/
def acceptAbsent (a : Access) (serial : Serial) (stamp : Stamp) (s : State) : State :=
  releaseOk none (joinNewest (absentEntry a serial stamp s) (takeNumber s))

/-- A write under its absent-writes policy: the checks of R50 in their order. -/
def absentWrite (a : Access) (s : State) : State :=
  match a.copy.absentWrites with
  | .refuse => releaseError a .absent none s
  | .hold =>
      match (s.bay a.copy.bay).last with
      | none => releaseError a .absent none s
      | some r =>
          match r.stamp with
          | .locked _ => releaseError a .locked none s
          | .bound stamp =>
              if a.copy.mode = .readOnly then releaseError a .readOnly none s
              else if !inRange a.copy.region a.carrier r.capacity.toNat then
                releaseError a .range none s
              else if s.hold.length < holdCapacity then acceptAbsent a r.serial stamp s
              else releaseError a .holdFull none s

/-- A diverted access is handled by the rule of its bay's state as it stands (R36, R39). -/
def handleAccess (a : Access) (s : State) : State :=
  match (s.bay a.copy.bay).state with
  | .ready => if a.write then writeReady a s else readServing a s
  | .draining => if a.write then releaseError a .ejecting none s else readServing a s
  | .replay => waitIn a .replay s
  | .empty | .debounce | .unsupported | .powering | .identifying | .rejected | .released
  | .faulted => if a.write then absentWrite a s else absentRead a s

/-- The waiting access meets its bay as the step leaves it: an access stalled in REPLAY, or waiting
for queue space, is handled again under a new state (R39); a write waiting for space is accepted
when READY has space (R41); a read whose bay has left READY and DRAINING is finished under its
absent-reads policy (R48); and a read that no queue entry matches any more requests the link
(R46). -/
def meetHost (s : State) : State :=
  match s.host with
  | .diverted a w =>
      let x := s.bay a.copy.bay
      match w with
      | .replay => if x.state = .replay then s else handleAccess a s
      | .space =>
          if x.state = .ready then
            if x.queue.length < queueCapacity then acceptQueue a s else s
          else handleAccess a s
      | .fate _ => s
      | .queueMatch =>
          if x.state.servesReads then
            if readMatches a x then s else { s with host := .diverted a .grant }
          else absentRead a s
      | .grant => if x.state.servesReads then s else absentRead a s
      | .onLink =>
          if x.state.servesReads then s
          else absentRead a (abandonRead a.copy.bay s)
  | .idle | .mainWait _ | .mainDone _ _ | .released _ _ => s

/-- No entry of the bay's queue carries THROUGH-waiting any more: its host has been released, or its
access abandoned (R43, R53, R60). -/
def clearThrough (b : BayId) (s : State) : State :=
  modBay b (fun x => { x with queue := x.queue.map fun e => { e with through := false } }) s

/-- The diverted access in progress is given up without a release: an accepted THROUGH write stays in
its queue with its flag cleared, a read's request is withdrawn, and a read's transfer on the link is
abandoned (R53, R54, R73). -/
def abandonAccess (s : State) : State :=
  match s.host with
  | .diverted a w =>
      match w with
      | .fate _ => clearThrough a.copy.bay { s with host := .idle }
      | .onLink =>
          grantLink a.copy.bay (abandonRead a.copy.bay { s with host := .idle })
      | .replay | .space | .queueMatch | .grant => { s with host := .idle }
  | .mainWait _ => { s with host := .idle }
  | .idle | .mainDone _ _ | .released _ _ => s

/-! ### Replay (chapter 7) -/

/-- The hold entry is eligible for replay into the bay (R130). -/
def eligible (m : MountRecord) (e : HoldEntry) : Bool :=
  !e.stale && m.serial == some e.write.serial && m.stamp == some e.write.stamp

/-- The first `n` elements that satisfy `p`, and what remains, both in order (R131). -/
def takeFirst {α : Type} (p : α → Bool) : Nat → List α → List α × List α
  | _, [] => ([], [])
  | 0, x :: xs => ([], x :: xs)
  | n + 1, x :: xs =>
      if p x then
        let r := takeFirst p n xs
        (x :: r.1, r.2)
      else
        let r := takeFirst p (n + 1) xs
        (r.1, x :: r.2)

/-- The replay moves of a bay in REPLAY: the oldest eligible hold entries join the tail of the queue,
one for each free place, with THROUGH-waiting clear (R131). -/
def replayMoves (b : BayId) (s : State) : State :=
  let x := s.bay b
  let r := takeFirst (eligible x.mount) (queueCapacity - x.queue.length) s.hold
  modBay b (fun x => { x with queue := x.queue ++ r.1.map fun e => ⟨e.ord, e.write, false⟩ })
    { s with hold := r.2 }

/-- Replay ends when no eligible hold entry remains: RESUMED is set, and the bay enters READY, or
DRAINING if an eject is pending (R111, R132). -/
def replayEnd (b : BayId) (s : State) : State :=
  let x := s.bay b
  if s.hold.any (eligible x.mount) then s
  else
    let s' := setLatch (.bay b .resumed) s
    if x.ejectPending then
      enterDraining b (modBay b (fun x => { x with ejectPending := false }) s')
    else modBay b (Bay.enter .ready .none) s'

/-- The work of REPLAY inside a step: the moves, and the end when it has come (R131, R132). -/
def replayWork (b : BayId) (s : State) : State :=
  if (s.bay b).state = .replay then replayEnd b (replayMoves b s) else s

/-- The clean end of a drain: a DRAINING bay whose queue is empty enters RELEASED with EJECT_DONE
(R114). -/
def drainEnd (b : BayId) (s : State) : State :=
  let x := s.bay b
  if x.state = .draining && x.queue.isEmpty then
    setLatch (.bay b .ejectDone) (leaveServing b .released .none s)
  else s

/-- What the rest of the part does inside the step of an event that reached bay `b`: the work of
replay, the clean end of a drain, the waiting host, and the grant of the link (DEDUCED, logs 6 to 10
and 26). -/
def settle (b : BayId) (s : State) : State :=
  grantLink b (meetHost (drainEnd b (replayWork b s)))

/-! ### Ends of the head entry (chapter 4) -/

/-- The head entry leaves the queue and the link is given back (R65, R66). -/
def dropHead (b : BayId) (s : State) : State :=
  modBay b (fun x => { x.dropLink with queue := x.queue.tail }) s

/-- A grant that the step of an ACK to the head entry made to the drain engine is marked, so that an
evacuation that meets this ACK does not flag the entry then at the head (R75; DEDUCED, log 35). -/
def markAck (b : BayId) (s : State) : State :=
  modBay b (fun x => { x with link := x.link.markAck }) s

/-- The WRITE_FAULT loss of the head entry `e`: it leaves the queue, the loss is taken, the
consecutive-loss count rises, and a waiting THROUGH host is released with LOST (R66, items 1 to 4). -/
def countLoss (b : BayId) (e : QEntry) (s : State) : State :=
  let s' := modBay b (fun x => { x with lossCount := x.lossCount + 1 })
    (lose ⟨.writeFault, e.write, false⟩ (dropHead b s))
  if e.through then releaseThrough (some .lost) s' else s'

/-- The comparison of the consecutive-loss count with FAULT_THRESHOLD, which takes the bay to FAULTED
(R68, R108). -/
def checkThreshold (b : BayId) (s : State) : State :=
  if s.items.faultThreshold.toNat ≤ (s.bay b).lossCount then
    setLatch (.bay b .faulted) (leaveServing b .faulted .writeFaults s)
  else s

/-- A WRITE_FAULT loss of the head entry `e` (R66). -/
def loseHead (b : BayId) (e : QEntry) (s : State) : State := checkThreshold b (countLoss b e s)

/-- The transfer on bay `b`'s link has failed after all its attempts (R47, R66, R85). -/
def failTransfer (b : BayId) (h : Holder) (s : State) : State :=
  match h with
  | .drain =>
      match (s.bay b).queue with
      | e :: _ => settle b (loseHead b e s)
      | [] => s
  | .read =>
      match s.host with
      | .diverted a .onLink =>
          if a.copy.bay = b then grantLink b (releaseError a .readFault none (freeLink b s)) else s
      | _ => s
  | .ident =>
      match (s.bay b).ident with
      | some i => reject b (if i.binding.isSome then .bindFault else .unrecognized) s
      | none => s

/-- The attempt whose xREQ is asserted has failed: xREQ is negated, and the presentation of the next
attempt begins in the same step, or the transfer fails when its budget is used up. An answer while xREQ
is negated has no effect, and no response timer runs then (R63, R64, R166, R167). -/
def failAttempt (b : BayId) (s : State) : State :=
  match (s.bay b).link with
  | .held h t =>
      if t.phase.asserted then
        match t.left with
        | n + 1 =>
            modBay b
              (fun x => { x with
                link := .held h { t with left := n, phase := .presenting }, reqHigh := true }) s
        | 0 => failTransfer b h s
      else s
  | .free => s
  | .abandoned _ => s

/-! ### Mounting (chapter 5) -/

/-- In EMPTY with both detect contacts made, the bay enters DEBOUNCE and the debounce timer starts
with DEBOUNCE_MS (R80). -/
def detectSample (b : BayId) (s : State) : State :=
  let x := s.bay b
  if x.state = .empty && x.contacts.det1 && x.contacts.det2 then
    modBay b (fun x => { (x.enter .debounce .none) with debounceTimer := some s.items.debounceMs }) s
  else s

/-- Both detect contacts are found made, or not (R80). -/
def sampleDetect (b : BayId) (made : Bool) (s : State) : State :=
  modBay b (fun x => { x with contacts := { x.contacts with det1 := made, det2 := made } }) s

/-- A detect contact breaks. -/
def breakDetect (b : BayId) (c : DetContact) (s : State) : State :=
  modBay b
    (fun x => { x with contacts :=
      match c with
      | .det1 => { x.contacts with det1 := false }
      | .det2 => { x.contacts with det2 := false } }) s

/-- The key contacts and power-good are sampled (R82, R84; DESIGN CHOICE, log 28). -/
def sampleKeys (b : BayId) (k : KeySample) (s : State) : State :=
  modBay b
    (fun x => { x with contacts := { x.contacts with k1 := k.k1, k2 := k.k2, pgood := k.pgood } }) s

/-- The level of power-good is found. -/
def samplePower (b : BayId) (level : Bool) (s : State) : State :=
  modBay b (fun x => { x with contacts := { x.contacts with pgood := level } }) s

/-- The lock contact is sampled (R89). -/
def sampleLock (b : BayId) (made : Bool) (s : State) : State :=
  modBay b (fun x => { x with contacts := { x.contacts with lock := made } }) s

/-- The supply mask of a bay (R82). -/
def supplyMask (b : BayId) (s : State) : SupplyMask :=
  match b with
  | .A => s.items.supplyMaskA
  | .B => s.items.supplyMaskB

/-- Entry to IDENTIFYING: the 100 ms identification timer starts and the sequence begins with its
first descriptor read, whose request is granted at once (R84, R85). -/
def enterIdentifying (b : BayId) (s : State) : State :=
  grantLink b
    (modBay b
      (fun x => { (x.enter .identifying .none) with
        powerTimer := none, identTimer := some 100, ident := some ⟨[], none⟩ }) s)

/-- Entry to POWERING at the chosen voltage: the 50 ms power timer starts, and power-good found
asserted at the moment of entry ends the wait (R82, R84). -/
def enterPowering (b : BayId) (v : Supply) (s : State) : State :=
  let s' := modBay b
    (fun x => { (x.enter .powering .none) with
      powerTimer := some 50, mount := { x.mount with supply := v, cause := .none } }) s
  if (s'.bay b).contacts.pgood then enterIdentifying b s' else s'

/-- The fields of the mount record that a key read clears (R79, R82). -/
def MountRecord.keyCleared (m : MountRecord) : MountRecord :=
  { m with serial := none, capacity := none, stamp := none, locked := false, verdict := .none }

/-- The key read: the mount record's fields are cleared, and the keys and the supply mask choose the
supply, or find the carrier UNSUPPORTED (R82, R83). -/
def keyRead (b : BayId) (s : State) : State :=
  let s' := modBay b (fun x => { x with debounceTimer := none, mount := x.mount.keyCleared }) s
  let x := s'.bay b
  match chooseSupply x.contacts.k1 x.contacts.k2 (supplyMask b s') with
  | .inl v => enterPowering b v s'
  | .inr cause => setLatch (.bay b .unsupported) (modBay b (Bay.enter .unsupported cause) s')

/-- Whether a hold entry is newly marked stale when a carrier is judged against its slot stamp
(R90, R94). -/
def marksStale (serial : Serial) (slot : Option Stamp) (e : HoldEntry) : Bool :=
  decide (e.write.serial = serial) && !e.stale && slot != some e.write.stamp

/-- The stale test on the hold store: STALE_FOUND is set if any entry is newly marked (R90, R94). -/
def judgeHold (b : BayId) (serial : Serial) (slot : Option Stamp) (s : State) : State :=
  let s' := { s with
    hold := s.hold.map fun e => if marksStale serial slot e then { e with stale := true } else e }
  if s.hold.any (marksStale serial slot) then setLatch (.bay b .staleFound) s' else s'

/-- The verdict on the hold entries for a serial (R90, R94). -/
def verdictOn (serial : Serial) (hold : List HoldEntry) : Verdict :=
  if hold.any fun e => decide (e.write.serial = serial) && !e.stale then .resume
  else if hold.any fun e => decide (e.write.serial = serial) then .stale
  else .clean

/-- Every entry for the serial that is not stale is re-stamped (R94). -/
def restamp (serial : Serial) (t : Stamp) (hold : List HoldEntry) : List HoldEntry :=
  hold.map fun e =>
    if decide (e.write.serial = serial) && !e.stale then { e with write := { e.write with stamp := t } }
    else e

/-- Identification completes: IDENTIFIED is set, the identification timer stops, and the bay enters
REPLAY for the verdict RESUME and READY for the others (R95). -/
def completeMount (b : BayId) (v : Verdict) (s : State) : State :=
  settle b
    (setLatch (.bay b .identified)
      (modBay b
        (fun x => (x.dropLink.endMount).enter
          (if v = Verdict.resume then .replay else .ready) .none) s))

/-- The LOCKED verdict (R89). -/
def mountLocked (b : BayId) (serial : Serial) (capacity : BitVec 16) (slot : Option Stamp)
    (s : State) : State :=
  completeMount b .locked
    (modBay b
      (fun x => { x with
        mount := { x.mount with stamp := slot, locked := true, verdict := .locked }
        last := some ⟨serial, capacity, .locked slot⟩ }) s)

/-- A binding begins: it takes EPOCH and a mount sequence value as they stand, and its first write
is presented (R90, R91, R92, R93). -/
def beginBinding (b : BayId) (i : Ident) (serial : Serial) (s : State) : State :=
  let t : Stamp := ⟨s.deviceNumber, s.items.epoch, s.mountSeq⟩
  let s' := { s with mountSeq := s.mountSeq + 1 }
  grantLink b
    (modBay b (fun x => { x.dropLink with
      ident := some { i with binding := some ⟨t, 0, verdictOn serial s.hold⟩ } }) s')

/-- The step that takes the sixteenth descriptor halfword: the descriptor check, the conflict check,
the lock contact, the verdict, and the start of binding (R86 to R90). -/
def checkDescriptor (b : BayId) (i : Ident) (s : State) : State :=
  if !descriptorValid i.halves then reject b .unrecognized s
  else
    let serial := descSerial i.halves
    let capacity := descCapacity i.halves
    let s1 := modBay b
      (fun x => { x with mount :=
        { x.mount with serial := some serial, capacity := some capacity } }) s
    let y := s1.bay (otherBay b)
    if y.identified && y.mount.serial == some serial then reject b .conflict s1
    else if (s1.bay b).contacts.lock then mountLocked b serial capacity (slotStamp i.halves) s1
    else beginBinding b i serial (judgeHold b serial (slotStamp i.halves) s1)

/-- Binding completes, in the order of R94. -/
def completeBinding (b : BayId) (i : Ident) (w : Binding) (s : State) : State :=
  let serial := descSerial i.halves
  let s1 := judgeHold b serial (slotStamp i.halves) s
  let v := verdictOn serial s1.hold
  let s2 := { s1 with hold := restamp serial w.stamp s1.hold }
  let s3 := modBay b
    (fun x => { x with
      mount := { x.mount with stamp := some w.stamp, locked := false, verdict := v }
      lossCount := 0
      last := some ⟨serial, descCapacity i.halves, .bound w.stamp⟩ }) s2
  let s4 := modBay (otherBay b)
    (fun y => { y with last := y.last.filter fun r => decide (r.serial ≠ serial) }) s3
  completeMount b v s4

/-! ### The management port (chapter 9) -/

/-- What a management command answers: the new state, the status, and the result bytes. -/
structure Reply where
  state : State
  status : Status
  result : List Byte
deriving DecidableEq, Repr

/-- The command returns OK with these result bytes. -/
def replyOk (s : State) (result : List Byte) : Reply := ⟨s, .ok, result⟩

/-- The command returns a status other than OK and leaves the part as it was (R157). -/
def replyBad (s : State) (status : Status) : Reply := ⟨s, status, []⟩

/-- A command of `args` argument bytes runs at the reception of its last byte, once in a frame
(R152, R153); outside a frame that still awaits its command the part takes no byte (DESIGN CHOICE,
logs 4 and 16). -/
def runCommand (args : Nat) (f : State → Reply) (s : State) : State :=
  match s.frame with
  | .receiving _ => { (f s).state with frame := .ran ⟨args + 1, 0⟩ args (f s).status (f s).result }
  | .idle | .waitRise | .ran _ _ _ _ => s

/-- Every command of the table acts only while RST# is negated, but for POR and RESET_END (R34, R80,
R165); a step always ends in a next state (DEDUCED, log 22). -/
def live (f : State → State) (s : State) : Host.Outcome State Fault Refusal :=
  .next (if s.rst then s else f s)

/-- A management command, while RST# is negated. -/
def manage (args : Nat) (f : State → Reply) (s : State) : Host.Outcome State Fault Refusal :=
  live (runCommand args f) s

end Sys2Proof.Machine
end

