-- ==== Sys2Proof/Machine/BayLink.lean ====
section
/-! DEFINITION. The meanings of the bay link's commands (chapters 4 and 5). -/

namespace Sys2Proof.Machine

/-- LINK_GRANT (R71). -/
def execLinkGrant (b : BayId) (s : State) : Host.Outcome State Fault Refusal :=
  live (grantLink b) s

/-- ACK to the head entry's write transfer, while its xREQ is asserted (R167): the entry is removed,
COMMITTED rises by 1, the consecutive-loss count returns to 0, a waiting THROUGH host is released
normally, and the grant ends (R4, R65, R67). An entry that is granted the link in this step is
marked, so that an evacuation that meets this ACK does not flag it (R75). -/
def commitHead (b : BayId) (s : State) : State :=
  let x := s.bay b
  match x.engine, x.queue with
  | .writing, e :: _ =>
      if x.link.request then
        let s1 := dropHead b { s with committed := s.committed + 1 }
        let s2 := modBay b (fun x => { x with lossCount := 0 }) s1
        markAck b (settle b (if e.through then releaseThrough none s2 else s2))
      else s
  | _, _ => s

/-- COMMIT (R65). -/
def execCommit (b : BayId) (s : State) (passed : Bool := false) : Host.Outcome State Fault Refusal :=
  live (timed passed (commitHead b)) s

/-- FAILED_ATTEMPT (R64): FLT, or xACK and xFLT together (R166; DEDUCED, log 33). An abandoned
transfer ends otherwise (DEDUCED, log 25). -/
def execFailedAttempt (b : BayId) (s : State) (passed : Bool := false) :
    Host.Outcome State Fault Refusal :=
  live (timed passed (failAttempt b)) s

/-- RESPONSE_TIMEOUT (R63, R64): the response timer of the attempt in flight expires. -/
def execResponseTimeout (b : BayId) (s : State) (passed : Bool := false) :
    Host.Outcome State Fault Refusal :=
  live (timed passed (failAttempt b)) s

/-- ACK to a host read transfer: the host is released with the halfword, and the link comes free. The
byte of a lane that the read does not name is a free value (R30, R47, R166). -/
def readAnswer (b : BayId) (data : Half) (s : State) : State :=
  match (s.bay b).link, s.host with
  | .held .read t, .diverted a .onLink =>
      if a.copy.bay = b ∧ t.phase.asserted then
        grantLink b
          (releaseOk (some (busLanes a.lanes data (Config.freeByte s.free)))
            (freeLink b { s with free := s.free + 1 }))
      else s
  | _, _ => s

/-- READ_TRANSFER_ANSWER (R47). -/
def execReadTransferAnswer (b : BayId) (data : Half) (s : State) (passed : Bool := false) :
    Host.Outcome State Fault Refusal :=
  live (timed passed (readAnswer b data)) s

/-- ACK to a descriptor read: the halfword is kept, and the next read is presented; the sixteenth
triggers the checks, for which the lock contact is sampled (R86, R89). -/
def descriptorAnswer (b : BayId) (data : Half) (lock : Bool) (s : State) : State :=
  let x := s.bay b
  match x.state, x.link, x.ident with
  | .identifying, .held .ident t, some ⟨halves, none⟩ =>
      if t.phase.asserted then
        let i : Ident := ⟨halves ++ [data], none⟩
        let s1 := modBay b (fun x => { x with ident := some i }) s
        if i.halves.length < 16 then grantLink b (freeLink b s1)
        else checkDescriptor b i (sampleLock b lock s1)
      else s
  | _, _, _ => s

/-- DESCRIPTOR_READ_ANSWER (R86). -/
def execDescriptorReadAnswer (b : BayId) (data : Half) (lock : Bool) (s : State)
    (passed : Bool := false) :
    Host.Outcome State Fault Refusal :=
  live (timed passed (descriptorAnswer b data lock)) s

/-- ACK to a binding write: the next write is presented, or binding completes after the eighth
(R93, R94). -/
def bindingAnswer (b : BayId) (s : State) : State :=
  let x := s.bay b
  match x.state, x.link, x.ident with
  | .identifying, .held .ident t, some ⟨halves, some w⟩ =>
      if !t.phase.asserted then s
      else if w.answered < 7 then
        grantLink b
          (modBay b (fun x => { x.dropLink with
            ident := some ⟨halves, some { w with answered := w.answered + 1 }⟩ }) s)
      else completeBinding b ⟨halves, some w⟩ w s
  | _, _, _ => s

/-- BINDING_WRITE_ANSWER (R93). -/
def execBindingWriteAnswer (b : BayId) (s : State) (passed : Bool := false) :
    Host.Outcome State Fault Refusal :=
  live (timed passed (bindingAnswer b)) s

/-- The abandoned transfer is answered, or times out: the answer is ignored and the link is free
(R73, R167). -/
def abandonedEnd (b : BayId) (s : State) : State :=
  match (s.bay b).link with
  | .abandoned _ => grantLink b (freeLink b s)
  | .free => s
  | .held _ _ => s

/-- ABANDONED_TRANSFER_END (R73). -/
def execAbandonedTransferEnd (b : BayId) (s : State) : Host.Outcome State Fault Refusal :=
  live (abandonedEnd b) s

end Sys2Proof.Machine
end

