-- ==== Sys2Proof/Machine/HostPort.lean ====
section
/-! DEFINITION. The meanings of the host port's commands (chapters 2 and 3). -/

namespace Sys2Proof.Machine

/-- A main access begins: it is mirrored to the main port, and HWAIT is asserted while MRDY is
negated (R35; the level of MRDY at its beginning: DESIGN CHOICE, log 27). -/
def beginMain (c : HostCycle) (l : Lanes) (s : State) : State :=
  let d : MainDrive := ⟨c.addr, l, c.wr, c.data⟩
  if c.mrdy then
    { s with host := .mainDone d (if c.wr then none else some (busBoth c.md)) }
  else { s with host := .mainWait d }

/-- The diverted access of a cycle through window `n`, with its window copy and its translated
address (R26, R27, R29). -/
def divertedAccess (c : HostCycle) (l : Lanes) (n : Fin 8) (s : State) : Access :=
  let w := s.windows[n].record
  ⟨c.addr, l, c.wr, c.data, n, w, carrierAddr w c.addr, none⟩

/-- A host access begins, is looked up once in the window table, and is handled: a main access by
R35, a diverted access by its bay's state (R26, R36). A cycle of no access, or a cycle while an
access is in progress, begins nothing (R34), and while HRST# is asserted no access is taken (R53). -/
def classify (c : HostCycle) (s : State) : State :=
  match s.hrst, s.host, accessLanes c with
  | false, .idle, some l =>
      match findWindow s.windows (hostPage c.addr) with
      | none => beginMain c l s
      | some n =>
          let a := divertedAccess c l n s
          grantLink a.copy.bay (handleAccess a s)
  | _, _, _ => s

/-- CLASSIFICATION (R26). -/
def execClassification (c : HostCycle) (s : State) : Host.Outcome State Fault Refusal :=
  live (classify c) s

/-- Local memory asserts MRDY: HWAIT is negated, and a read passes the data to the host (R35). -/
def mainReady (md : Half) (s : State) : State :=
  match s.host with
  | .mainWait d => { s with host := .mainDone d (if d.write then none else some (busBoth md)) }
  | .idle | .mainDone _ _ | .diverted _ _ | .released _ _ => s

/-- MAIN_ACCESS_READY (R35). -/
def execMainAccessReady (md : Half) (s : State) : Host.Outcome State Fault Refusal :=
  live (mainReady md) s

/-- The host negates HCS# after the release: HD15..HD0 is no longer driven, HERR# and the main port
strobes are negated, and the controller is idle (R34, R35). -/
def accessEnd (s : State) : State :=
  match s.host with
  | .mainDone _ _ | .released _ _ => { s with host := .idle }
  | .idle | .mainWait _ | .diverted _ _ => s

/-- ACCESS_END (R34). -/
def execAccessEnd (s : State) : Host.Outcome State Fault Refusal := live accessEnd s

/-- HOST_WITHDRAWAL (R54): the access is abandoned with the effects of R53. -/
def execHostWithdrawal (passed : Bool) (s : State) : Host.Outcome State Fault Refusal :=
  live (timed passed abandonAccess) s

/-- The stall timer of the access expires, if it runs (R38). -/
def stallExpiry (s : State) : State :=
  match s.host with
  | .diverted a w =>
      if a.stall.isNone then s
      else
        match w with
        | .fate num =>
            releaseError a .throughTimeout (some num) (clearThrough a.copy.bay s)
        | .onLink =>
            grantLink a.copy.bay
              (releaseError a .stalled none (abandonRead a.copy.bay s))
        | .replay | .space | .queueMatch | .grant => releaseError a .stalled none s
  | .idle | .mainWait _ | .mainDone _ _ | .released _ _ => s

/-- STALL_TIMER_EXPIRY (R38). -/
def execStallTimerExpiry (passed : Bool) (s : State) : Host.Outcome State Fault Refusal :=
  live (timed passed stallExpiry) s

/-- A write waiting for space in a READY bay whose queue has space is accepted (R41), and the drain
engine's request meets the arbiter (R61, R71). -/
def acceptWaiting (s : State) : State :=
  match s.host with
  | .diverted a .space =>
      let x := s.bay a.copy.bay
      if x.state = .ready ∧ x.queue.length < queueCapacity then
        grantLink a.copy.bay (acceptQueue a s)
      else s
  | _ => s

/-- WAITING_WRITE_ACCEPTED (R41). -/
def execWaitingWriteAccepted (s : State) : Host.Outcome State Fault Refusal := live acceptWaiting s

/-- An access stalled in REPLAY whose bay has left REPLAY, or a write waiting for space whose bay has
left READY, is handled again under the bay's state (R39). -/
def rehandle (s : State) : State :=
  match s.host with
  | .diverted a .replay =>
      if (s.bay a.copy.bay).state = .replay then s
      else grantLink a.copy.bay (handleAccess a s)
  | .diverted a .space =>
      if (s.bay a.copy.bay).state = .ready then s
      else grantLink a.copy.bay (handleAccess a s)
  | _ => s

/-- STALLED_ACCESS_REHANDLED (R39). -/
def execStalledAccessRehandled (s : State) : Host.Outcome State Fault Refusal := live rehandle s

end Sys2Proof.Machine
end

