-- ==== Sys2Proof/Machine/Items.lean ====
section
/-! DEFINITION. The configuration items of R158: their codes, their present values as 32 bits, and
the check and the setting of a written value. -/

namespace Sys2Proof.Machine

/-- The items of R158. -/
inductive Item where
  | revision | deviceNumber | epoch | debounceMs | responseUs | retryLimit | stallUs | drainMs
  | faultThreshold | holdThreshold | supplyMaskA | supplyMaskB | eventEnable | stageBasePage
  | stageLimitPage | stageBay | stageRegion | stageStartPage | stageMode | stageAbsentReads
  | stageAbsentWrites
deriving DecidableEq, Repr

/-- The item codes of R158. -/
def Item.code : Item → Byte
  | .revision => 0x00#8
  | .deviceNumber => 0x01#8
  | .epoch => 0x02#8
  | .debounceMs => 0x03#8
  | .responseUs => 0x04#8
  | .retryLimit => 0x05#8
  | .stallUs => 0x06#8
  | .drainMs => 0x07#8
  | .faultThreshold => 0x08#8
  | .holdThreshold => 0x09#8
  | .supplyMaskA => 0x0A#8
  | .supplyMaskB => 0x0B#8
  | .eventEnable => eventEnableCode
  | .stageBasePage => 0x10#8
  | .stageLimitPage => 0x11#8
  | .stageBay => 0x12#8
  | .stageRegion => 0x13#8
  | .stageStartPage => 0x14#8
  | .stageMode => 0x15#8
  | .stageAbsentReads => 0x16#8
  | .stageAbsentWrites => 0x17#8

/-- Every item of R158. -/
def Item.all : List Item :=
  [.revision, .deviceNumber, .epoch, .debounceMs, .responseUs, .retryLimit, .stallUs, .drainMs,
   .faultThreshold, .holdThreshold, .supplyMaskA, .supplyMaskB, .eventEnable, .stageBasePage,
   .stageLimitPage, .stageBay, .stageRegion, .stageStartPage, .stageMode, .stageAbsentReads,
   .stageAbsentWrites]

/-- The item that a code names; codes 0DH to 0FH and 18H to FFH name none (R158). -/
def itemOfCode (c : Byte) : Option Item := Item.all.find? fun i => i.code == c

/-- REVISION holds 1 (R162). -/
def revision : Word := 1

/-! ### The codes of fields with named values (R19, R158) -/

/-- STAGE_BAY: 0 = A, 1 = B. -/
def bayCode : BayId → Nat
  | .A => 0
  | .B => 1

/-- STAGE_REGION: 0 = DATA, 1 = DESCRIPTOR. -/
def Region.code : Region → Nat
  | .data => 0
  | .descriptor => 1

/-- STAGE_MODE: 0 = POSTED, 1 = THROUGH, 2 = READ_ONLY. -/
def Mode.code : Mode → Nat
  | .posted => 0
  | .through => 1
  | .readOnly => 2

/-- STAGE_ABSENT_READS: 0 = REFUSE, 1 = FILL. -/
def AbsentReads.code : AbsentReads → Nat
  | .refuse => 0
  | .fill => 1

/-- STAGE_ABSENT_WRITES: 0 = REFUSE, 1 = HOLD. -/
def AbsentWrites.code : AbsentWrites → Nat
  | .refuse => 0
  | .hold => 1

/-- SUPPLY_MASK: 0 = NONE, 1 = 1V8, 2 = 3V3, 3 = BOTH. -/
def SupplyMask.code : SupplyMask → Nat
  | .none => 0
  | .v18 => 1
  | .v33 => 2
  | .both => 3

/-- The value among `l` whose code is `n`; none when the code is out of range. -/
def ofCode {α : Type} (code : α → Nat) (l : List α) (n : Nat) : Option α :=
  l.find? fun x => code x == n

/-! ### Reading and writing -/

/-- The item's present value, carried as 32 bits (R158, R159). -/
def readItemValue (i : Item) (s : State) : Word :=
  match i with
  | .revision => revision
  | .deviceNumber => s.deviceNumber
  | .epoch => s.items.epoch
  | .debounceMs => s.items.debounceMs.setWidth 32
  | .responseUs => s.items.responseUs.setWidth 32
  | .retryLimit => s.items.retryLimit.setWidth 32
  | .stallUs => s.items.stallUs.setWidth 32
  | .drainMs => s.items.drainMs.setWidth 32
  | .faultThreshold => s.items.faultThreshold.setWidth 32
  | .holdThreshold => s.items.holdThreshold.setWidth 32
  | .supplyMaskA => BitVec.ofNat 32 s.items.supplyMaskA.code
  | .supplyMaskB => BitVec.ofNat 32 s.items.supplyMaskB.code
  | .eventEnable => wordOfLatches s.enables
  | .stageBasePage => s.staging.base.setWidth 32
  | .stageLimitPage => s.staging.limit.setWidth 32
  | .stageBay => BitVec.ofNat 32 (bayCode s.staging.bay)
  | .stageRegion => BitVec.ofNat 32 s.staging.region.code
  | .stageStartPage => s.staging.start.setWidth 32
  | .stageMode => BitVec.ofNat 32 s.staging.mode.code
  | .stageAbsentReads => BitVec.ofNat 32 s.staging.absentReads.code
  | .stageAbsentWrites => BitVec.ofNat 32 s.staging.absentWrites.code

/-- The value when it lies from `lo` to `hi`; its bits above the item's range count (R158). -/
def inItemRange (lo hi : Nat) (v : Word) : Option Nat :=
  if lo ≤ v.toNat ∧ v.toNat ≤ hi then some v.toNat else none

/-- The four supply masks. -/
def SupplyMask.all : List SupplyMask := [.none, .v18, .v33, .both]

/-- The part with the item set to the value; none when the item is read-only or the value is outside
its accepted values (R158, R160). -/
def writeItemValue (i : Item) (v : Word) (s : State) : Option State :=
  let items (f : Items → Items) : State := { s with items := f s.items }
  let stage (f : WindowRec → WindowRec) : State := { s with staging := f s.staging }
  match i with
  | .revision => none
  | .deviceNumber => none
  | .epoch => some (items fun t => { t with epoch := v })
  | .debounceMs => (inItemRange 1 255 v).map fun n => items fun t => { t with debounceMs := .ofNat _ n }
  | .responseUs => (inItemRange 1 255 v).map fun n => items fun t => { t with responseUs := .ofNat _ n }
  | .retryLimit => (inItemRange 0 7 v).map fun n => items fun t => { t with retryLimit := .ofNat _ n }
  | .stallUs => (inItemRange 1 1023 v).map fun n => items fun t => { t with stallUs := .ofNat _ n }
  | .drainMs => (inItemRange 1 255 v).map fun n => items fun t => { t with drainMs := .ofNat _ n }
  | .faultThreshold =>
      (inItemRange 1 15 v).map fun n => items fun t => { t with faultThreshold := .ofNat _ n }
  | .holdThreshold =>
      (inItemRange 1 48 v).map fun n => items fun t => { t with holdThreshold := .ofNat _ n }
  | .supplyMaskA =>
      (ofCode SupplyMask.code SupplyMask.all v.toNat).map fun m =>
        items fun t => { t with supplyMaskA := m }
  | .supplyMaskB =>
      (ofCode SupplyMask.code SupplyMask.all v.toNat).map fun m =>
        items fun t => { t with supplyMaskB := m }
  | .eventEnable => if eventSetValid v then some { s with enables := latchesOfWord v } else none
  | .stageBasePage => (inItemRange 0 4095 v).map fun n => stage fun t => { t with base := .ofNat _ n }
  | .stageLimitPage => (inItemRange 0 4095 v).map fun n => stage fun t => { t with limit := .ofNat _ n }
  | .stageBay => (ofCode bayCode [.A, .B] v.toNat).map fun b => stage fun t => { t with bay := b }
  | .stageRegion =>
      (ofCode Region.code [.data, .descriptor] v.toNat).map fun r =>
        stage fun t => { t with region := r }
  | .stageStartPage => (inItemRange 0 16383 v).map fun n => stage fun t => { t with start := .ofNat _ n }
  | .stageMode =>
      (ofCode Mode.code [.posted, .through, .readOnly] v.toNat).map fun m =>
        stage fun t => { t with mode := m }
  | .stageAbsentReads =>
      (ofCode AbsentReads.code [.refuse, .fill] v.toNat).map fun r =>
        stage fun t => { t with absentReads := r }
  | .stageAbsentWrites =>
      (ofCode AbsentWrites.code [.refuse, .hold] v.toNat).map fun r =>
        stage fun t => { t with absentWrites := r }

end Sys2Proof.Machine
end

