-- ==== Sys2Proof/Machine/Formats.lean ====
section
/-! DEFINITION. The status and result codes and the result layouts of the management port
(R171 to R175, section 10.4). -/

namespace Sys2Proof.Machine

/-! ### Codes -/

/-- The status values (R171). -/
def Status.code : Status → Byte
  | .ok => 0x01#8
  | .badCommand => 0x02#8
  | .badArg => 0x03#8
  | .badState => 0x04#8
  | .overlap => 0x05#8
  | .badWindow => 0x06#8
  | .empty => 0x07#8

/-- The bay state codes (section 10.4). -/
def BayState.code : BayState → Byte
  | .empty => 0
  | .debounce => 1
  | .unsupported => 2
  | .powering => 3
  | .identifying => 4
  | .rejected => 5
  | .replay => 6
  | .ready => 7
  | .draining => 8
  | .released => 9
  | .faulted => 10

/-- The mount cause codes (section 10.4). -/
def MountCause.code : MountCause → Byte
  | .none => 0
  | .noKey => 1
  | .supplyNotAllowed => 2
  | .powerTimeout => 3
  | .idTimeout => 4
  | .unrecognized => 5
  | .conflict => 6
  | .bindFault => 7
  | .powerLost => 8
  | .writeFaults => 9

/-- The supply codes (section 10.4). -/
def Supply.code : Supply → Byte
  | .none => 0
  | .v18 => 1
  | .v33 => 2

/-- The verdict codes (section 10.4). -/
def Verdict.code : Verdict → Byte
  | .none => 0
  | .clean => 1
  | .resume => 2
  | .stale => 3
  | .locked => 4

/-- The lane codes (section 10.4). -/
def Lanes.code : Lanes → Byte
  | .low => 1
  | .high => 2
  | .both => 3

/-- The loss cause codes (section 10.4). -/
def LossCause.code : LossCause → Byte
  | .writeFault => 1
  | .holdFull => 2
  | .discarded => 3

/-- The host error cause codes (section 10.4). -/
def HostCause.code : HostCause → Byte
  | .readOnly => 1
  | .locked => 2
  | .range => 3
  | .absent => 4
  | .ejecting => 5
  | .stalled => 6
  | .readFault => 7
  | .throughTimeout => 8
  | .held => 9
  | .lost => 10
  | .holdFull => 11

/-! ### Bytes, most significant first (R171) -/

/-- A yes or no as a byte: 1 or 0. -/
def flagByte (f : Bool) : Byte := if f then 1#8 else 0#8

/-- A flag byte: the first flag is bit 0, and unused bits are 0 (R171). -/
def flagsByte : List Bool → Byte
  | [] => 0#8
  | f :: fs => flagByte f ||| (flagsByte fs <<< 1)

/-- A 16-bit field in two bytes. -/
def halfBytes (h : Half) : List Byte := [h.extractLsb' 8 8, h.extractLsb' 0 8]

/-- A mount stamp in twelve bytes: device number, epoch, sequence. -/
def stampBytes (t : Stamp) : List Byte :=
  wordBytes t.device ++ wordBytes t.epoch ++ wordBytes t.sequence

/-- `n` bytes of zero, for a field that is absent (R173, R174). -/
def zeroBytes (n : Nat) : List Byte := List.replicate n 0#8

/-- A stamp, or zero bytes when there is none (R174). -/
def stampBytesOpt : Option Stamp → List Byte
  | some t => stampBytes t
  | none => zeroBytes 12

/-- A natural number below 2^32 in four bytes. -/
def natBytes (n : Nat) : List Byte := wordBytes (BitVec.ofNat 32 n)

/-- A count or a position in one byte. -/
def natByte (n : Nat) : Byte := BitVec.ofNat 8 n

/-! ### Result layouts -/

/-- READ_COUNTS, 15 bytes (R14, R173). -/
def countsResult (s : State) : List Byte :=
  wordBytes s.accepted ++ wordBytes s.committed ++ wordBytes s.lost
    ++ [natByte s.bayA.queue.length, natByte s.bayB.queue.length, natByte s.hold.length]

/-- READ_STATUS, 4 bytes (R163, R173). -/
def statusResult (s : State) : List Byte :=
  [flagsByte [s.frameError, attention s, s.hostError.isSome,
      !s.lossLog.isEmpty || s.summary.isSome],
   s.bayA.state.code, s.bayB.state.code, natByte s.hold.length]

/-- READ_WINDOW, 12 bytes (R25, R173). -/
def windowResult (w : Window) : List Byte :=
  [flagByte w.enabled]
    ++ halfBytes (w.record.base.setWidth 16) ++ halfBytes (w.record.limit.setWidth 16)
    ++ [natByte (bayCode w.record.bay), natByte w.record.region.code]
    ++ halfBytes (w.record.start.setWidth 16)
    ++ [natByte w.record.mode.code, natByte w.record.absentReads.code,
        natByte w.record.absentWrites.code]

/-- The host byte address in three bytes; its bit 0 is 0 (R173). -/
def hostAddrBytes (addr : BitVec 23) : List Byte :=
  [(addr ++ 0#1).extractLsb' 16 8, (addr ++ 0#1).extractLsb' 8 8, (addr ++ 0#1).extractLsb' 0 8]

/-- READ_ERROR, 14 bytes; all zero when the record is absent (R52, R173). -/
def errorResult : Option HostError → List Byte
  | none => zeroBytes 14
  | some e =>
      [1#8] ++ hostAddrBytes e.addr
        ++ [e.lanes.code, flagByte e.write, natByte e.window.val, e.cause.code,
            flagByte e.accepted.isSome]
        ++ wordBytes (e.accepted.getD 0) ++ [flagByte e.overrun]

/-- The stamp of a last-carrier record, if it has one (R98). -/
def RecordStamp.stamp? : RecordStamp → Option Stamp
  | .bound t => some t
  | .locked t => t

/-- The locked flag of a last-carrier record (R98). -/
def RecordStamp.isLocked : RecordStamp → Bool
  | .bound _ => false
  | .locked _ => true

/-- The last-carrier record's serial, capacity and stamp in READ_BAY, 22 bytes (R174). -/
def lastBytes : Option LastCarrier → List Byte
  | none => zeroBytes 22
  | some r => serialBytes r.serial ++ halfBytes r.capacity ++ stampBytesOpt r.stamp.stamp?

/-- READ_BAY, 51 bytes (R164, R174). -/
def bayResult (x : Bay) : List Byte :=
  [x.state.code, x.mount.cause.code, x.mount.supply.code, x.mount.verdict.code,
   flagsByte [x.mount.serial.isSome && x.mount.capacity.isSome, x.mount.stamp.isSome,
     x.mount.locked, x.ejectPending, x.last.isSome,
     match x.last with
     | some r => r.stamp.stamp?.isSome
     | none => false,
     match x.last with
     | some r => r.stamp.isLocked
     | none => false],
   natByte x.lossCount, natByte x.queue.length]
    ++ serialBytes (x.mount.serial.getD 0) ++ halfBytes (x.mount.capacity.getD 0)
    ++ stampBytesOpt x.mount.stamp ++ lastBytes x.last

/-- The fields that READ_HOLD and a loss record share, from the acceptance number to the origin
window (R175). -/
def writeBytes (w : Write) : List Byte :=
  wordBytes w.num ++ serialBytes w.serial ++ stampBytes w.stamp ++ natBytes w.addr
    ++ [w.lanes.code] ++ halfBytes w.data ++ [natByte w.window.val]

/-- READ_HOLD, 33 bytes (R141, R175). -/
def holdResult (e : HoldEntry) : List Byte :=
  writeBytes e.write ++ [flagsByte [e.write.uncertain, e.write.forced, e.stale]]

/-- POP_LOSS of a loss record, 35 bytes (R175). -/
def lossResult (r : LossRecord) : List Byte :=
  [1#8, r.cause.code] ++ writeBytes r.write
    ++ [flagsByte [r.write.uncertain, r.write.forced, r.stale]]

/-- POP_LOSS of the summary record, 35 bytes (R175). -/
def summaryResult (m : Summary) : List Byte :=
  [2#8] ++ wordBytes m.count ++ wordBytes m.first ++ wordBytes m.last ++ zeroBytes 22

end Sys2Proof.Machine
end

