-- ==== Sys2Proof/Machine/Management.lean ====
section
/-! DEFINITION. The meanings of the management port's frames and commands (chapter 9, and the chapter
of each command). -/

namespace Sys2Proof.Machine

/-! ### Frames -/

/-- SCS# falls: a new frame starts with its counts at zero (R152). -/
def frameStart (s : State) : State :=
  match s.frame with
  | .idle => { s with frame := .receiving .zero }
  | .waitRise | .receiving _ | .ran _ _ _ _ => s

/-- FRAME_START (R152). -/
def execFrameStart (s : State) : Host.Outcome State Fault Refusal := live frameStart s

/-- SCS# rises after the command has run: the frame ends with its counts, its bytes that were not
shifted out are lost, and no flag is set (R152, R154, R155). A port that waits for the rise finds it
(R165). -/
def frameEnd (s : State) : State :=
  match s.frame with
  | .ran _ _ _ _ | .waitRise => { s with frame := .idle }
  | .idle | .receiving _ => s

/-- FRAME_END (R152). -/
def execFrameEnd (s : State) : Host.Outcome State Fault Refusal := live frameEnd s

/-- SCS# rises before the command has run: the frame is discarded with its counts and the bits sampled
so far, and the frame-error flag is set (R152, R155). Bits whose whole bytes have run a command make no
discarded frame (R155; DESIGN CHOICE, log 4). A port that waits for the rise after a reset finds it, and
no frame was discarded (R165; DEDUCED, log 17). -/
def frameDiscard (bits : List Bool) (s : State) : State :=
  match s.frame with
  | .receiving _ =>
      if frameRuns (bytesOfBits bits) then s else { s with frame := .idle, frameError := true }
  | .waitRise => { s with frame := .idle }
  | .idle | .ran _ _ _ _ => s

/-- FRAME_DISCARD (R155). -/
def execFrameDiscard (s : State) (bits : List Bool := []) : Host.Outcome State Fault Refusal :=
  live (frameDiscard bits) s

/-- BAD_COMMAND: a code that names no command runs at byte 0 and changes nothing (R156). -/
def execBadCommand (code : Byte) (s : State) : Host.Outcome State Fault Refusal :=
  match cmdOfCode code with
  | none => manage 0 (fun s => replyBad s .badCommand) s
  | some _ => .next s

/-! ### Status and items -/

/-- READ_STATUS clears the frame-error flag that it returns (R163). -/
def readStatus (s : State) : Reply := replyOk { s with frameError := false } (statusResult s)

/-- READ_STATUS (R163). -/
def execReadStatus (s : State) : Host.Outcome State Fault Refusal := manage 0 readStatus s

/-- READ_ITEM returns the item's present value (R159). -/
def readItem (code : Byte) (s : State) : Reply :=
  match itemOfCode code with
  | some i => replyOk s (wordBytes (readItemValue i s))
  | none => replyBad s .badArg

/-- READ_ITEM (R159). -/
def execReadItem (code : Byte) (s : State) : Host.Outcome State Fault Refusal :=
  manage 1 (readItem code) s

/-- WRITE_ITEM: the code names an item, the item is not read-only, the value is within its accepted
values; then the item is set (R160). -/
def writeItem (code : Byte) (v : Word) (s : State) : Reply :=
  match itemOfCode code with
  | none => replyBad s .badArg
  | some i =>
      match writeItemValue i v s with
      | some s' => replyOk s' []
      | none => replyBad s .badArg

/-- WRITE_ITEM (R160). -/
def execWriteItem (code : Byte) (v : Word) (s : State) : Host.Outcome State Fault Refusal :=
  manage 5 (writeItem code v) s

/-- WRITE_EVENT_ENABLE: WRITE_ITEM of EVENT_ENABLE replaces all 23 enables at once (R144; DEDUCED,
log 21). -/
def execWriteEventEnable (v : Word) (s : State) : Host.Outcome State Fault Refusal :=
  manage 5 (writeItem eventEnableCode v) s

/-! ### Windows -/

/-- COMMIT_WINDOW: the checks for the argument, the shape and the overlap in this order, then window
n is replaced by the staging record and enabled (R20 to R23). -/
def commitWindow (n : Byte) (s : State) : Reply :=
  match windowArg n with
  | none => replyBad s .badArg
  | some i =>
      if !validShape s.staging then replyBad s .badWindow
      else if overlaps s.windows i s.staging then replyBad s .overlap
      else replyOk { s with windows := s.windows.set i ⟨true, s.staging⟩ } []

/-- COMMIT_WINDOW (R23). -/
def execCommitWindow (n : Byte) (s : State) : Host.Outcome State Fault Refusal :=
  manage 1 (commitWindow n) s

/-- DISABLE_WINDOW clears the enabled flag and keeps the other fields (R24). -/
def disableWindow (n : Byte) (s : State) : Reply :=
  match windowArg n with
  | none => replyBad s .badArg
  | some i =>
      replyOk { s with windows := s.windows.set i { s.windows[i] with enabled := false } } []

/-- DISABLE_WINDOW (R24). -/
def execDisableWindow (n : Byte) (s : State) : Host.Outcome State Fault Refusal :=
  manage 1 (disableWindow n) s

/-- READ_WINDOW returns window n's record (R25). -/
def readWindow (n : Byte) (s : State) : Reply :=
  match windowArg n with
  | none => replyBad s .badArg
  | some i => replyOk s (windowResult s.windows[i])

/-- READ_WINDOW (R25). -/
def execReadWindow (n : Byte) (s : State) : Host.Outcome State Fault Refusal :=
  manage 1 (readWindow n) s

/-! ### Bays -/

/-- A command on the bay that its argument names; BAD_ARG for an argument greater than 1. -/
def onBay (n : Byte) (f : BayId → State → Reply) (s : State) : Reply :=
  match bayArg n with
  | some b => f b s
  | none => replyBad s .badArg

/-- READ_BAY returns the bay's readout (R164). -/
def readBay (b : BayId) (s : State) : Reply := replyOk s (bayResult (s.bay b))

/-- READ_BAY (R164). -/
def execReadBay (n : Byte) (s : State) : Host.Outcome State Fault Refusal :=
  manage 1 (onBay n readBay) s

/-- EJECT: READY goes to DRAINING, and through it to RELEASED when the queue is empty; in REPLAY the
eject is held pending (R110, R111). -/
def eject (b : BayId) (s : State) : Reply :=
  match (s.bay b).state with
  | .ready => replyOk (settle b (enterDraining b s)) []
  | .replay => replyOk (modBay b (fun x => { x with ejectPending := true }) s) []
  | .empty | .debounce | .unsupported | .powering | .identifying | .rejected | .draining
  | .released | .faulted => replyBad s .badState

/-- EJECT (R110). -/
def execEject (n : Byte) (s : State) : Host.Outcome State Fault Refusal := manage 1 (onBay n eject) s

/-- CANCEL_EJECT: DRAINING returns to READY with the drain timer stopped; a pending eject in REPLAY
is cleared (R117). -/
def cancelEject (b : BayId) (s : State) : Reply :=
  match (s.bay b).state with
  | .draining =>
      replyOk (modBay b (fun x => { (x.enter .ready .none) with drainTimer := none }) s) []
  | .replay =>
      if (s.bay b).ejectPending then
        replyOk (modBay b (fun x => { x with ejectPending := false }) s) []
      else replyBad s .badState
  | .empty | .debounce | .unsupported | .powering | .identifying | .rejected | .ready | .released
  | .faulted => replyBad s .badState

/-- CANCEL_EJECT (R117). -/
def execCancelEject (n : Byte) (s : State) : Host.Outcome State Fault Refusal :=
  manage 1 (onBay n cancelEject) s

/-- RETRY_BAY: in UNSUPPORTED, REJECTED or FAULTED a new key read is made (R100). -/
def retryBay (k : KeySample) (b : BayId) (s : State) : Reply :=
  match (s.bay b).state with
  | .unsupported | .rejected | .faulted => replyOk (keyRead b (sampleKeys b k s)) []
  | .empty | .debounce | .powering | .identifying | .replay | .ready | .draining | .released =>
      replyBad s .badState

/-- RETRY_BAY (R100). -/
def execRetryBay (n : Byte) (k : KeySample) (s : State) : Host.Outcome State Fault Refusal :=
  manage 1 (onBay n (retryBay k)) s

/-- FORGET makes the bay's last-carrier record absent in any bay state (R119). -/
def forget (b : BayId) (s : State) : Reply :=
  replyOk (modBay b (fun x => { x with last := none }) s) []

/-- FORGET (R119). -/
def execForget (n : Byte) (s : State) : Host.Outcome State Fault Refusal :=
  manage 1 (onBay n forget) s

/-! ### The hold store -/

/-- A stale entry of the carrier that the mount record names (R137, R138). -/
def forceable (m : MountRecord) (e : HoldEntry) : Bool :=
  e.stale && m.serial == some e.write.serial

/-- The entry as FORCE_REPLAY brings it back: stale cleared, re-stamped with the mount record's
stamp, forced set (R138). -/
def forceEntry (m : MountRecord) (e : HoldEntry) : HoldEntry :=
  if forceable m e then
    ⟨e.ord, { e.write with stamp := m.stamp.getD e.write.stamp, forced := true }, false⟩
  else e

/-- FORCE_REPLAY: the checks of R137 in their order, then the step of R138: the entries are
re-stamped, the bay enters REPLAY, the waiting host meets it there, and replay makes its moves. -/
def forceReplay (b : BayId) (s : State) : Reply :=
  let m := (s.bay b).mount
  if (s.bay b).state ≠ .ready then replyBad s .badState
  else if m.locked then replyBad s .badState
  else if !s.hold.any (forceable m) then replyBad s .empty
  else
    replyOk
      (settle b
        (meetHost
          (modBay b (Bay.enter .replay .none) { s with hold := s.hold.map (forceEntry m) }))) []

/-- FORCE_REPLAY (R137, R138). -/
def execForceReplay (n : Byte) (passed : Bool) (s : State) : Host.Outcome State Fault Refusal :=
  live (timed passed (runCommand 1 (onBay n forceReplay))) s

/-- The entries that DISCARD_HELD selects (R139). -/
def discards (serial : Serial) (staleOnly : Bool) (e : HoldEntry) : Bool :=
  (decide (serial = 0#64) || decide (e.write.serial = serial)) && (!staleOnly || e.stale)

/-- The selected entries are lost with cause DISCARDED, one at a time in acceptance order (R139). -/
def discardEntries (p : HoldEntry → Bool) (s : State) : State :=
  (s.hold.filter p).foldl (fun s e => lose ⟨.discarded, e.write, e.stale⟩ s)
    { s with hold := s.hold.filter fun e => !p e }

/-- DISCARD_HELD: the selected entries are lost, and a replay whose last eligible entries go ends in
the step (R139, R140). -/
def discardHeld (serial : Serial) (scope : Byte) (s : State) : Reply :=
  match scopeArg scope with
  | none => replyBad s .badArg
  | some staleOnly =>
      let n := (s.hold.filter (discards serial staleOnly)).length
      if n = 0 then replyOk s [natByte 0]
      else
        replyOk (settle .B (settle .A (discardEntries (discards serial staleOnly) s)))
          [natByte n]

/-- DISCARD_HELD (R139). -/
def execDiscardHeld (serial : Serial) (scope : Byte) (s : State) :
    Host.Outcome State Fault Refusal :=
  manage 9 (discardHeld serial scope) s

/-- READ_HOLD returns the entry at position i, or EMPTY (R141). -/
def readHold (i : Byte) (s : State) : Reply :=
  match s.hold[i.toNat]? with
  | some e => replyOk s (holdResult e)
  | none => replyBad s .empty

/-- READ_HOLD (R141). -/
def execReadHold (i : Byte) (s : State) : Host.Outcome State Fault Refusal :=
  manage 1 (readHold i) s

/-! ### The account -/

/-- POP_LOSS takes the oldest loss record, or the summary record, out of the log (R12). -/
def popLoss (s : State) : Reply :=
  match s.lossLog with
  | r :: rs => replyOk { s with lossLog := rs } (lossResult r)
  | [] =>
      match s.summary with
      | some m => replyOk { s with summary := none } (summaryResult m)
      | none => replyBad s .empty

/-- POP_LOSS (R12). -/
def execPopLoss (s : State) : Host.Outcome State Fault Refusal := manage 0 popLoss s

/-- READ_COUNTS returns the six values at one moment (R14). -/
def readCounts (s : State) : Reply := replyOk s (countsResult s)

/-- READ_COUNTS (R14). -/
def execReadCounts (s : State) : Host.Outcome State Fault Refusal := manage 0 readCounts s

/-- ZERO_COUNTS sets COMMITTED and LOST to 0 and ACCEPTED to the total occupancy (R15). -/
def zeroCounts (s : State) : Reply :=
  replyOk { s with accepted := BitVec.ofNat 32 (occupancy s), committed := 0, lost := 0 } []

/-- ZERO_COUNTS (R15). -/
def execZeroCounts (s : State) : Host.Outcome State Fault Refusal := manage 0 zeroCounts s

/-- READ_ERROR returns the host error record and makes it absent (R52). -/
def readError (s : State) : Reply := replyOk { s with hostError := none } (errorResult s.hostError)

/-- READ_ERROR (R52). -/
def execReadError (s : State) : Host.Outcome State Fault Refusal := manage 0 readError s

/-! ### Events -/

/-- READ_EVENTS returns the latches that are set (R146). -/
def readEvents (s : State) : Reply := replyOk s (wordBytes (wordOfLatches s.latches))

/-- READ_EVENTS (R146). -/
def execReadEvents (s : State) : Host.Outcome State Fault Refusal := manage 0 readEvents s

/-- CLEAR_EVENTS clears the latches named, or none when the set names a number from 23 to 31
(R147). -/
def clearEvents (v : Word) (s : State) : Reply :=
  if eventSetValid v then replyOk (clearLatches v s) [] else replyBad s .badArg

/-- CLEAR_EVENTS (R147). -/
def execClearEvents (v : Word) (s : State) : Host.Outcome State Fault Refusal :=
  manage 4 (clearEvents v) s

end Sys2Proof.Machine
end

