-- ==== Sys2Proof/Machine/Mounting.lean ====
section
/-! DEFINITION. The meanings of the mounting commands (chapter 5). -/

namespace Sys2Proof.Machine

/-- Both detect contacts are made in EMPTY (R80). -/
def detectMake (b : BayId) (s : State) : State :=
  if (s.bay b).state = .empty then detectSample b (sampleDetect b true s) else s

/-- DETECT_MAKE (R80). -/
def execDetectMake (b : BayId) (s : State) : Host.Outcome State Fault Refusal :=
  live (detectMake b) s

/-- A detect contact breaks in DEBOUNCE: the bay returns to EMPTY and the timer stops (R81). -/
def debounceBreak (b : BayId) (c : DetContact) (s : State) : State :=
  if (s.bay b).state = .debounce then
    modBay b (fun x => { (x.enter .empty .none) with debounceTimer := none }) (breakDetect b c s)
  else s

/-- DEBOUNCE_BREAK (R81). -/
def execDebounceBreak (b : BayId) (c : DetContact) (s : State) : Host.Outcome State Fault Refusal :=
  live (debounceBreak b c) s

/-- The debounce timer expires: INSERTED is set and the key read is made (R81, R82). -/
def debounceExpiry (b : BayId) (k : KeySample) (s : State) : State :=
  if (s.bay b).state = .debounce ∧ (s.bay b).debounceTimer.isSome then
    keyRead b (setLatch (.bay b .inserted) (sampleKeys b k s))
  else s

/-- DEBOUNCE_EXPIRY (R81). -/
def execDebounceExpiry (b : BayId) (k : KeySample) (s : State) : Host.Outcome State Fault Refusal :=
  live (debounceExpiry b k) s

/-- Power-good is found asserted in POWERING (R84). -/
def powerGoodRise (b : BayId) (s : State) : State :=
  if (s.bay b).state = .powering then enterIdentifying b (samplePower b true s) else s

/-- POWER_GOOD_RISE (R84). -/
def execPowerGoodRise (b : BayId) (s : State) : Host.Outcome State Fault Refusal :=
  live (powerGoodRise b) s

/-- The power timer expires in POWERING (R84). -/
def powerTimerExpiry (b : BayId) (s : State) : State :=
  if (s.bay b).state = .powering ∧ (s.bay b).powerTimer.isSome then reject b .powerTimeout s else s

/-- POWER_TIMER_EXPIRY (R84). -/
def execPowerTimerExpiry (b : BayId) (s : State) : Host.Outcome State Fault Refusal :=
  live (powerTimerExpiry b) s

/-- The identification timer expires: "The expiry then finds the bay out of IDENTIFYING and does
nothing", or the sequence ends in REJECTED (R96). -/
def identTimerExpiry (b : BayId) (s : State) : State :=
  if (s.bay b).state = .identifying ∧ (s.bay b).identTimer.isSome then reject b .idTimeout s else s

/-- IDENTIFICATION_TIMER_EXPIRY (R96). -/
def execIdentificationTimerExpiry (b : BayId) (s : State) : Host.Outcome State Fault Refusal :=
  live (identTimerExpiry b) s

end Sys2Proof.Machine
end

