-- ==== Sys2Proof/Machine/Removal.lean ====
section
/-! DEFINITION. The meanings of removal, power loss, the drain timeout and the replay move
(chapters 6 and 7). -/

namespace Sys2Proof.Machine

/-- Power-good falls: in IDENTIFYING or a serving state the bay enters FAULTED with cause POWER_LOST
(R107); in any other state the fall has no effect (R78; DESIGN CHOICE, log 34). -/
def powerLoss (b : BayId) (s : State) : State :=
  let x := s.bay b
  let s' := samplePower b false s
  if x.state.serving then
    settle b (setLatch (.bay b .faulted) (leaveServing b .faulted .powerLost s'))
  else if x.state = .identifying then
    setLatch (.bay b .faulted)
      (modBay b (fun x => (x.endMount.supplyOff).enter .faulted .powerLost) s')
  else s

/-- POWER_LOSS (R107). -/
def execPowerLoss (b : BayId) (s : State) (passed : Bool := false) : Host.Outcome State Fault Refusal :=
  live (timed passed (powerLoss b)) s

/-- A detect contact breaks in a serving state: the bay leaves for EMPTY and REMOVED is set (R103). -/
def removeServing (b : BayId) (c : DetContact) (s : State) : State :=
  if (s.bay b).state.serving then
    settle b
      (setLatch (.bay b .removed) (leaveServing b .empty .none (breakDetect b c s)))
  else s

/-- REMOVAL (R103). -/
def execRemoval (b : BayId) (c : DetContact) (s : State) (passed : Bool := false) :
    Host.Outcome State Fault Refusal :=
  live (timed passed (removeServing b c)) s

/-- A detect contact breaks in POWERING or IDENTIFYING (R104). -/
def removeMounting (b : BayId) (c : DetContact) (s : State) : State :=
  if (s.bay b).state = .powering ∨ (s.bay b).state = .identifying then
    setLatch (.bay b .removed)
      (modBay b (fun x => (x.endMount.supplyOff).enter .empty .none) (breakDetect b c s))
  else s

/-- REMOVAL_DURING_MOUNT (R104). -/
def execRemovalDuringMount (b : BayId) (c : DetContact) (s : State) :
    Host.Outcome State Fault Refusal :=
  live (removeMounting b c) s

/-- The states in which a carrier is seated with its supply off (R105). -/
def BayState.stoppedCarrier : BayState → Bool
  | .unsupported | .rejected | .faulted | .released => true
  | .empty | .debounce | .powering | .identifying | .replay | .ready | .draining => false

/-- A detect contact breaks in UNSUPPORTED, REJECTED, FAULTED or RELEASED (R105). -/
def removeStopped (b : BayId) (c : DetContact) (s : State) : State :=
  if (s.bay b).state.stoppedCarrier then
    setLatch (.bay b .removed)
      (modBay b (fun x => { (x.enter .empty .none) with lamp := false }) (breakDetect b c s))
  else s

/-- REMOVAL_OF_STOPPED_CARRIER (R105). -/
def execRemovalOfStoppedCarrier (b : BayId) (c : DetContact) (s : State) :
    Host.Outcome State Fault Refusal :=
  live (removeStopped b c) s

/-- The drain timer expires in DRAINING: the queue is evacuated, and the bay enters RELEASED with
DRAIN_TIMEOUT and EJECT_DONE set (R115). -/
def drainTimeout (b : BayId) (s : State) : State :=
  if (s.bay b).state = .draining ∧ (s.bay b).drainTimer.isSome then
    settle b
      (setLatch (.bay b .drainTimeout)
        (setLatch (.bay b .ejectDone) (leaveServing b .released .none s)))
  else s

/-- DRAIN_TIMEOUT (R115). -/
def execDrainTimeout (b : BayId) (s : State) (passed : Bool := false) : Host.Outcome State Fault Refusal :=
  live (timed passed (drainTimeout b)) s

/-- In REPLAY, eligible hold entries move to the queue, and replay ends when none remains (R131,
R132). -/
def replayMove (b : BayId) (s : State) : State :=
  if (s.bay b).state = .replay then settle b s else s

/-- REPLAY_MOVE (R131). -/
def execReplayMove (b : BayId) (s : State) : Host.Outcome State Fault Refusal :=
  live (replayMove b) s

end Sys2Proof.Machine
end

