-- ==== Sys2Proof/Machine/Resets.lean ====
section
/-! DEFINITION. The meanings of POR, HRST and RESET_END. -/

namespace Sys2Proof.Machine

/-- The part while RST# is asserted: every piece of state at its value after POR. The fused device
number stays (R162), the inputs keep their levels, HRST# among them, and the model's own queue and
free-value index stand (DESIGN CHOICE, logs 14 and 15). -/
def porState (s : State) : State :=
  { State.reset with
    rst := true
    hrst := s.hrst
    deviceNumber := s.deviceNumber
    bayA := .reset s.bayA.contacts
    bayB := .reset s.bayB.contacts
    free := s.free
    pending := s.pending }

/-- POR: "The reset taken when RST# is asserted", at any moment (R165; R2, R6, R10, R18, R19, R34,
R51, R55, R67, R70, R77, R79, R92, R98, R101, R120, R142, R144, R158). -/
def execPor (s : State) : Host.Outcome State Fault Refusal := .next (porState s)

/-- HRST# is asserted: the access in progress is abandoned with the effects of R53, and everything else
is kept. An access that has been released before is over for the part (DEDUCED, log 23). -/
def hostReset (s : State) : State :=
  match s.host with
  | .mainDone _ _ | .released _ _ => { s with host := .idle }
  | .idle | .mainWait _ | .diverted _ _ => abandonAccess s

/-- The level that HRST# takes: asserted, the host port controller takes no access; negated, the next
access to begin is classified normally (R53). -/
def hrstEffect (asserted : Bool) (s : State) : State :=
  if asserted then { hostReset s with hrst := true } else { s with hrst := false }

/-- HRST (R53; the two edges of one line: DESIGN CHOICE, log 13). -/
def execHrst (asserted : Bool) (s : State) (passed : Bool := false) :
    Host.Outcome State Fault Refusal :=
  live (timed passed (hrstEffect asserted)) s

/-- RESET_END: detect sampling starts, so that a carrier seated through the reset enters DEBOUNCE
(R80), a port that finds SCS# low waits for its rise (R165), and the level of HRST# is found (R53). -/
def resetEnd (seatedA seatedB scsLow hrstLow : Bool) (s : State) : State :=
  detectSample .B (sampleDetect .B seatedB (detectSample .A (sampleDetect .A seatedA
    { s with rst := false, hrst := hrstLow, frame := if scsLow then .waitRise else .idle })))

/-- RESET_END (R165): RST# is negated, if it is asserted. -/
def execResetEnd (seatedA seatedB scsLow : Bool) (s : State) (hrstLow : Bool := false) :
    Host.Outcome State Fault Refusal :=
  .next (if s.rst then resetEnd seatedA seatedB scsLow hrstLow s else s)

end Sys2Proof.Machine
end

