-- ==== Sys2Proof/Machine/Dispatch.lean ====
section
/-! DEFINITION. One arm for each command of the table. -/

namespace Sys2Proof.Machine

/-- A command's effect on everything but the queue. -/
def exec (i : Instr) (s : State) : Host.Outcome State Fault Refusal :=
  match i with
  | .por => Sys2Proof.Machine.execPor s
  | .hrst asserted passed => Sys2Proof.Machine.execHrst asserted s passed
  | .classification cycle => Sys2Proof.Machine.execClassification cycle s
  | .mainAccessReady md => Sys2Proof.Machine.execMainAccessReady md s
  | .accessEnd => Sys2Proof.Machine.execAccessEnd s
  | .hostWithdrawal passed => Sys2Proof.Machine.execHostWithdrawal passed s
  | .stallTimerExpiry passed => Sys2Proof.Machine.execStallTimerExpiry passed s
  | .waitingWriteAccepted => Sys2Proof.Machine.execWaitingWriteAccepted s
  | .stalledAccessRehandled => Sys2Proof.Machine.execStalledAccessRehandled s
  | .linkGrant bay => Sys2Proof.Machine.execLinkGrant bay s
  | .commit bay passed => Sys2Proof.Machine.execCommit bay s passed
  | .failedAttempt bay passed => Sys2Proof.Machine.execFailedAttempt bay s passed
  | .responseTimeout bay passed => Sys2Proof.Machine.execResponseTimeout bay s passed
  | .readTransferAnswer bay data passed => Sys2Proof.Machine.execReadTransferAnswer bay data s passed
  | .descriptorReadAnswer bay data lock passed => Sys2Proof.Machine.execDescriptorReadAnswer bay data lock s passed
  | .bindingWriteAnswer bay passed => Sys2Proof.Machine.execBindingWriteAnswer bay s passed
  | .abandonedTransferEnd bay => Sys2Proof.Machine.execAbandonedTransferEnd bay s
  | .detectMake bay => Sys2Proof.Machine.execDetectMake bay s
  | .debounceBreak bay contact => Sys2Proof.Machine.execDebounceBreak bay contact s
  | .debounceExpiry bay keys => Sys2Proof.Machine.execDebounceExpiry bay keys s
  | .powerGoodRise bay => Sys2Proof.Machine.execPowerGoodRise bay s
  | .powerTimerExpiry bay => Sys2Proof.Machine.execPowerTimerExpiry bay s
  | .identificationTimerExpiry bay => Sys2Proof.Machine.execIdentificationTimerExpiry bay s
  | .powerLoss bay passed => Sys2Proof.Machine.execPowerLoss bay s passed
  | .removal bay contact passed => Sys2Proof.Machine.execRemoval bay contact s passed
  | .removalDuringMount bay contact => Sys2Proof.Machine.execRemovalDuringMount bay contact s
  | .removalOfStoppedCarrier bay contact => Sys2Proof.Machine.execRemovalOfStoppedCarrier bay contact s
  | .drainTimeout bay passed => Sys2Proof.Machine.execDrainTimeout bay s passed
  | .replayMove bay => Sys2Proof.Machine.execReplayMove bay s
  | .frameStart => Sys2Proof.Machine.execFrameStart s
  | .frameEnd => Sys2Proof.Machine.execFrameEnd s
  | .frameDiscard bits => Sys2Proof.Machine.execFrameDiscard s bits
  | .badCommand code => Sys2Proof.Machine.execBadCommand code s
  | .readStatus => Sys2Proof.Machine.execReadStatus s
  | .readItem code => Sys2Proof.Machine.execReadItem code s
  | .writeItem code value => Sys2Proof.Machine.execWriteItem code value s
  | .writeEventEnable value => Sys2Proof.Machine.execWriteEventEnable value s
  | .commitWindow n => Sys2Proof.Machine.execCommitWindow n s
  | .disableWindow n => Sys2Proof.Machine.execDisableWindow n s
  | .readWindow n => Sys2Proof.Machine.execReadWindow n s
  | .readBay n => Sys2Proof.Machine.execReadBay n s
  | .eject n => Sys2Proof.Machine.execEject n s
  | .cancelEject n => Sys2Proof.Machine.execCancelEject n s
  | .retryBay n keys => Sys2Proof.Machine.execRetryBay n keys s
  | .forget n => Sys2Proof.Machine.execForget n s
  | .forceReplay n passed => Sys2Proof.Machine.execForceReplay n passed s
  | .discardHeld serial scope => Sys2Proof.Machine.execDiscardHeld serial scope s
  | .readHold index => Sys2Proof.Machine.execReadHold index s
  | .popLoss => Sys2Proof.Machine.execPopLoss s
  | .readCounts => Sys2Proof.Machine.execReadCounts s
  | .zeroCounts => Sys2Proof.Machine.execZeroCounts s
  | .readError => Sys2Proof.Machine.execReadError s
  | .readEvents => Sys2Proof.Machine.execReadEvents s
  | .clearEvents v => Sys2Proof.Machine.execClearEvents v s
  | .resetEnd seatedA seatedB scsLow hrstLow => Sys2Proof.Machine.execResetEnd seatedA seatedB scsLow s hrstLow

end Sys2Proof.Machine
end

