-- ==== Sys2Proof/Machine/Pins.lean ====
section
/-! DEFINITION. The part's output pins, read off the state (sections 10.1 and 10.5). -/

namespace Sys2Proof.Machine

/-! ### Host port and main port -/

/-- HWAIT: asserted for an access that waits (R34, R35, R37). -/
def hwait (s : State) : Bool :=
  match s.host with
  | .mainWait _ | .diverted _ _ => true
  | .idle | .mainDone _ _ | .released _ _ => false

/-- HERR#, `true` when asserted: from an error release until HCS# is negated (R34). -/
def herr (s : State) : Bool :=
  match s.host with
  | .released e _ => e
  | .idle | .mainWait _ | .mainDone _ _ | .diverted _ _ => false

/-- What the part drives on HD15..HD0, if it drives them (R34). -/
def hostData (s : State) : Option BusHalf :=
  match s.host with
  | .mainDone _ d | .released _ d => d
  | .idle | .mainWait _ | .diverted _ _ => none

/-- The main access on the main port: its address, lanes, direction and write data, with MCS# and
MRD# or MWR# asserted; none when the strobes are negated (R35). -/
def mainPort (s : State) : Option MainDrive :=
  match s.host with
  | .mainWait d | .mainDone d _ => some d
  | .idle | .diverted _ _ | .released _ _ => none

/-! ### Bays -/

/-- xEN18: high while the bay's supply is 1.8 V (R78, section 10.5). -/
def en18 (s : State) (b : BayId) : Bool := (s.bay b).mount.supply == .v18

/-- xEN33: high while the bay's supply is 3.3 V (R78, section 10.5). -/
def en33 (s : State) (b : BayId) : Bool := (s.bay b).mount.supply == .v33

/-- xLAMP (R118). -/
def lampOn (s : State) (b : BayId) : Bool := (s.bay b).lamp

/-- xREQ: asserted for the attempt on the link, held or abandoned, once the request-high time before it
has passed (R166, R167). -/
def linkRequest (s : State) (b : BayId) : Bool := (s.bay b).link.request

/-- The levels of the lines that the part alone drives beside a request: `true` is high (R166). -/
structure LinkLines where
  la : Nat
  rgn : Bool
  lbN : Bool
  ubN : Bool
  wr : Bool
deriving DecidableEq, Repr

/-- The transfer whose lines the part drives: its presentation begins with the grant (R64, R166). -/
def Link.presented : Link → Option Transfer
  | .held _ t | .abandoned t => some t
  | .free => none

/-- xLA25..xLA1, xRGN, xLB#, xUB# and xWR: as the transfer in flight has them; all low while the
supply is off; none where the spec gives them no level, with the supply on and no transfer in flight
(R166, R167; DESIGN CHOICE, log 29). -/
def linkLines (s : State) (b : BayId) : Option LinkLines :=
  match (s.bay b).link.presented with
  | some t =>
      some ⟨t.addr, t.region == .descriptor, t.lanes == .high, t.lanes == .low, t.write⟩
  | none => if (s.bay b).mount.supply = .none then some ⟨0, false, false, false, false⟩ else none

/-- What the part drives on xLD15..xLD0, `none` where it does not drive them: the data of a write in
flight; nothing for a read, and nothing once an attempt has ended and no transfer is in flight; low
while the supply is off (R166, R167). -/
def linkData (s : State) (b : BayId) : Option Half :=
  match (s.bay b).link.presented with
  | some t => if t.write then some t.data else none
  | none => if (s.bay b).mount.supply = .none then some 0 else none

/-! ### Management port -/

/-- SDO is driven: SCS# is low in a frame (R152). -/
def sdoDriven (s : State) : Bool :=
  match s.frame with
  | .receiving _ | .ran _ _ _ _ => true
  | .idle | .waitRise => false

/-- The byte that the part drives as byte `k` of the frame: 00H before the status byte, the status,
the result bytes when the status is OK, and 00H after them (R152, R154). -/
def sdoByte (s : State) (k : Nat) : Byte :=
  match s.frame with
  | .ran _ args status result =>
      if k < args + 2 then 0#8
      else if k = args + 2 then status.code
      else if status = .ok then result.getD (k - (args + 3)) 0#8
      else 0#8
  | .idle | .waitRise | .receiving _ => 0#8

/-- The counts of the frame in progress (R152). -/
def Frame.count : Frame → Option Count
  | .receiving c | .ran c _ _ _ => some c
  | .idle | .waitRise => none

/-- SDO after `n` more cycles of SCK in the frame, if it is driven: the bit of the byte that the counts
have come to, most significant bit first (R152). -/
def sdo (s : State) (n : Nat) : Option Bool :=
  s.frame.count.map fun c => (sdoByte s (c.clocks n).bytes).getMsbD (c.clocks n).bits

end Sys2Proof.Machine
end

