-- ==== Sys2Proof/Safety.lean ====
section
/-! DEFINITION. What the spec says of every state of the part: the laws that its rules keep, each as a
predicate on the state. -/

namespace Sys2Proof.Machine

/-! ### The account -/

/-- The conservation law (R7). -/
def Accounted (s : State) : Prop :=
  s.accepted - s.committed - s.lost = BitVec.ofNat 32 (occupancy s)

/-- The collections within their capacities (R10, R55, R120). -/
structure WithinCapacity (s : State) : Prop where
  queue : ∀ b, (s.bay b).queue.length ≤ queueCapacity
  hold : s.hold.length ≤ holdCapacity
  log : s.lossLog.length ≤ logCapacity

/-- The places of the outstanding writes in the one order of acceptance (R122). -/
def outstanding (s : State) : List Nat :=
  s.bayA.queue.map QEntry.ord ++ s.bayB.queue.map QEntry.ord ++ s.hold.map HoldEntry.ord

/-- Every outstanding write has its own place in the order of acceptance, before that of the next
write, and the hold store stands in this order (R122). -/
structure InOrder (s : State) : Prop where
  rising : (s.hold.map HoldEntry.ord).Pairwise (· < ·)
  distinct : (outstanding s).Nodup
  before : ∀ o ∈ outstanding s, o < s.nextOrd

/-! ### The window table -/

/-- An enabled window has the shape of R21, and no two enabled windows contain a common host page
(R18, R22). -/
structure WindowsLawful (windows : Vector Window 8) : Prop where
  shape : ∀ i : Fin 8, windows[i].enabled → validShape windows[i].record
  disjoint : ∀ i j : Fin 8, i ≠ j → windows[i].enabled → windows[j].enabled →
    rangesMeet windows[i].record windows[j].record = false

/-! ### Items -/

/-- The items that have a range hold a value within it (R158). -/
structure ItemsLawful (t : Items) : Prop where
  debounceMs : t.debounceMs ≠ 0
  responseUs : t.responseUs ≠ 0
  stallUs : t.stallUs ≠ 0
  drainMs : t.drainMs ≠ 0
  faultThreshold : t.faultThreshold ≠ 0
  holdThreshold : 1 ≤ t.holdThreshold.toNat ∧ t.holdThreshold.toNat ≤ holdCapacity

/-! ### Bays -/

/-- The causes that a mount record can hold in a bay state (R79, R83, R97, R109). -/
def BayState.allows : BayState → MountCause → Bool
  | .unsupported, c => c == .noKey || c == .supplyNotAllowed
  | .rejected, c =>
      c == .powerTimeout || c == .idTimeout || c == .unrecognized || c == .conflict || c == .bindFault
  | .faulted, c => c == .powerLost || c == .writeFaults
  | .empty, c | .debounce, c | .powering, c | .identifying, c | .replay, c | .ready, c | .draining, c
  | .released, c => c == .none

/-- The bay states in which a link can be as it is: an identification transfer in IDENTIFYING; a host
read, the drain engine or an abandoned transfer in the serving states (R70, R73). -/
def Link.allowed (st : BayState) : Link → Bool
  | .free => true
  | .held .ident _ => st == .identifying
  | .held .read _ => st.serving
  | .held .drain _ => st.serving
  | .abandoned _ => st.serving

/-- While a transfer has the link, either its xREQ is asserted or the request-high time runs; it is
abandoned with its xREQ asserted (R166; DEDUCED, log 35). -/
def Link.timely (reqHigh : Bool) : Link → Bool
  | .free => true
  | .held _ t => reqHigh == !t.phase.asserted
  | .abandoned t => t.phase.asserted && !reqHigh

/-- What holds of one bay in every state (R58, R77 to R79, R84, R85, R101, R118, R166). -/
structure Bay.Lawful (x : Bay) : Prop where
  /-- the supply is on exactly in the five powered states (R78) -/
  supply : x.mount.supply ≠ .none ↔ x.state.powered
  /-- the cause is one that the bay state can have (R79) -/
  cause : x.state.allows x.mount.cause
  /-- the lamp is on only in RELEASED (R118) -/
  lamp : x.lamp = (x.state == .released)
  debounceTimer : x.debounceTimer.isSome = (x.state == .debounce)
  powerTimer : x.powerTimer.isSome = (x.state == .powering)
  identTimer : x.identTimer.isSome = (x.state == .identifying)
  /-- the drain timer runs exactly while the bay is DRAINING (R101) -/
  drainTimer : x.drainTimer.isSome = (x.state == .draining)
  /-- the eject-pending flag is kept in REPLAY alone (R101) -/
  ejectPending : x.ejectPending → x.state = .replay
  ident : x.ident.isSome = (x.state == .identifying)
  /-- the posting queue is empty outside the serving states (R58) -/
  queue : x.state.serving = false → x.queue = []
  link : x.link.allowed x.state
  /-- the drain engine holds the link for a head entry (R64) -/
  drain : x.link.heldByDrain → x.queue ≠ []
  /-- the mount record names the carrier that serves (R79) -/
  mounted : x.state.serving → x.mount.serial.isSome ∧ x.mount.capacity.isSome ∧
    (x.mount.locked ∨ x.mount.stamp.isSome) ∧ x.mount.verdict ≠ .none
  /-- and the carrier that is being bound (R87) -/
  binding : ∀ i, x.ident = some i → i.binding.isSome →
    x.mount.serial = some (descSerial i.halves) ∧ x.mount.capacity = some (descCapacity i.halves)
  request : x.link.timely x.reqHigh

/-- What holds of each bay. -/
def BaysLawful (s : State) : Prop := ∀ b, (s.bay b).Lawful

/-- The two bays never both hold an identified carrier with the same serial (R87). -/
def CarriersDistinct (s : State) : Prop :=
  s.bayA.identified → s.bayB.identified → s.bayA.mount.serial ≠ s.bayB.mount.serial

/-- The queues and the hold store agree with the carriers that serve (R58, R61, R67, R98, R133,
R134). -/
structure MountsAgree (s : State) : Prop where
  /-- every queue entry carries the serial and stamp of the mounted carrier (R58) -/
  queue : ∀ b, ∀ e ∈ (s.bay b).queue, (s.bay b).mount.serial = some e.write.serial ∧
    (s.bay b).mount.stamp = some e.write.stamp
  /-- a bay mounted LOCKED keeps out of REPLAY, and its queue stays empty (R61, R133, R137) -/
  locked : ∀ b, (s.bay b).state.serving → (s.bay b).mount.locked →
    (s.bay b).state ≠ .replay ∧ (s.bay b).queue = []
  /-- the other bay's last-carrier record does not name a bound carrier that serves (R133) -/
  record : ∀ b, (s.bay b).state.serving → (s.bay b).mount.locked = false →
    ∀ r, (s.bay (otherBay b)).last = some r → (s.bay b).mount.serial ≠ some r.serial
  /-- no hold entry is eligible in a bay that has left REPLAY or never needed it (R133) -/
  ready : ∀ b, (s.bay b).state.servesReads → (s.bay b).mount.locked = false →
    s.hold.any (eligible (s.bay b).mount) = false
  /-- the queue stands in acceptance order, but for the entries brought back by FORCE_REPLAY (R134) -/
  order : ∀ b, (s.bay b).queue.Pairwise fun e f =>
    e.write.forced = false → f.write.forced = false → e.ord < f.ord
  /-- and so do the entries that replay moves to its tail (R134) -/
  replay : ∀ b, (s.bay b).state = .replay → ∀ e ∈ (s.bay b).queue, ∀ h ∈ s.hold,
    eligible (s.bay b).mount h → e.write.forced = false → h.write.forced = false →
    e.ord < h.ord
  /-- the consecutive-loss count stays within 0 to 15 (R67) -/
  count : ∀ b, (s.bay b).lossCount ≤ 15
  /-- and below every threshold that it can still rise to (R67) -/
  rises : ∀ b, (s.bay b).state.serving → (s.bay b).mount.locked = false → (s.bay b).lossCount < 15

/-! ### What the statements say of one step -/

/-- The part is out of reset, and a frame on the management port awaits its command (R152, R165). -/
structure Listening (s : State) : Prop where
  live : s.rst = false
  frame : ∃ count, s.frame = .receiving count

/-- The management port has run a command of `args` argument bytes at the reception of the last of them,
and answers it; nothing else changes (R152 to R154). -/
def State.reply (s : State) (args : Nat) (status : Status) (result : List Byte) : State :=
  { s with frame := .ran ⟨args + 1, 0⟩ args status result }

/-- A latch is set, and nothing else changes (R142). -/
def State.raise (s : State) (l : Latch) : State :=
  { s with latches := s.latches ||| 1#23 <<< l.number }

/-- A cycle of the idle host begins an access with lane set `l` that window `n`, and no other window,
claims (R26, R34). -/
structure Diverts (c : HostCycle) (l : Lanes) (n : Fin 8) (s : State) : Prop where
  live : s.rst = false
  port : s.hrst = false
  idle : s.host = .idle
  lanes : accessLanes c = some l
  claims : s.windows[n].claims (hostPage c.addr)
  only : ∀ i : Fin 8, i ≠ n → s.windows[i].claims (hostPage c.addr) = false

/-- No grant of the bay's link is due: it is not free, or nobody asks for it (R71). -/
def NoGrantDue (b : BayId) (s : State) : Prop :=
  (s.bay b).link = .free → requester b s = none

/-! ### Nothing is left due -/

/-- A host read holds the link. -/
def Link.heldByRead : Link → Bool
  | .held .read _ => true
  | .held .ident _ | .held .drain _ | .free | .abandoned _ => false

/-- Where a waiting access stands agrees with its bay as it is: no rule would end its wait or move it on
(R37, R39, R41, R46, R48). -/
def Wait.agrees (a : Access) (x : Bay) : Wait → Bool
  | .replay => x.state == .replay
  | .space => a.write && x.state == .ready && decide (queueCapacity ≤ x.queue.length)
  | .fate _ => true
  | .queueMatch => !a.write && x.state.servesReads && readMatches a x
  | .grant => !a.write && x.state.servesReads && !readMatches a x
  | .onLink => !a.write && x.state.servesReads && x.link.heldByRead

/-- No work that a rule takes "in the same step" is left over: the waiting access has its stall timer
running and agrees with its bay, no grant is due, a bay in REPLAY has a full queue and an eligible entry
left, a bay in DRAINING has an entry left, a read transfer on a link is the waiting access's own, and no
access is in progress while RST# or HRST# is asserted (R34, R37, R39, R41, R53, R71, R114, R131, R132;
DEDUCED, logs 6 to 10). -/
structure Settled (s : State) : Prop where
  reset : s.rst ∨ s.hrst → s.host = .idle
  host : ∀ a w, s.host = .diverted a w → a.stall.isSome ∧ w.agrees a (s.bay a.copy.bay)
  link : ∀ b, (s.bay b).link.heldByRead → ∃ a, s.host = .diverted a .onLink ∧ a.copy.bay = b
  grant : ∀ b, NoGrantDue b s
  replay : ∀ b, (s.bay b).state = .replay →
    queueCapacity ≤ (s.bay b).queue.length ∧ s.hold.any (eligible (s.bay b).mount)
  drain : ∀ b, (s.bay b).state = .draining → (s.bay b).queue ≠ []

/-- No host access waits at the bay, but for the fate of an accepted THROUGH write, and one that
waits at the other bay agrees with that bay as it is (R37). -/
def NothingStalled (b : BayId) (s : State) : Prop :=
  ∀ a w, s.host = .diverted a w →
    if a.copy.bay = b then ∃ num, w = .fate num else w.agrees a (s.bay a.copy.bay)

/-- The access with its stall timer started, unless it runs already (R37). -/
def Access.stalled (a : Access) (s : State) : Access :=
  { a with stall := some (a.stall.getD s.items.stallUs) }

/-- An error release of the access: HERR# is asserted, FFFFH is driven for a read, the host error
record is written, HOST_ERROR is set, and nothing else changes (R34, R51). -/
def State.errorRelease (s : State) (a : Access) (cause : HostCause) (num : Option Word) : State :=
  { s.raise .hostError with
    host := .released true (if a.write then none else some ⟨0xFF#8, 0xFF#8⟩)
    hostError := some
      { addr := a.addr, lanes := a.lanes, write := a.write, window := a.window, cause := cause,
        accepted := num, overrun := s.hostError.isSome } }

/-- Where the first attempt of a grant stands: its request waits for the request-high time to pass,
or is asserted with its response timer started (R63, R166). -/
def State.firstAttempt (s : State) (reqHigh : Bool) : Phase :=
  if reqHigh then .presenting else .requested s.items.responseUs

/-- The transfer of a queue entry, as a grant begins it (R62, R63). -/
def State.entryAttempt (s : State) (e : QEntry) (reqHigh : Bool) : Transfer :=
  { region := .data, addr := e.write.addr, lanes := e.write.lanes, write := true, data := e.write.data,
    left := s.items.retryLimit.toNat, phase := s.firstAttempt reqHigh }

/-- The transfer of a host read, as a grant begins it (R47). -/
def State.readAttempt (s : State) (a : Access) (reqHigh : Bool) : Transfer :=
  { region := a.copy.region, addr := a.carrier, lanes := a.lanes, write := false, data := 0,
    left := s.items.retryLimit.toNat, phase := s.firstAttempt reqHigh }

/-- What becomes of a link that the drain engine of a queue `q` asks for (R71). -/
def linkAsked (q : List QEntry) (reqHigh : Bool) (s : State) : Link → Link
  | .free =>
      match q with
      | e :: _ => .held .drain (s.entryAttempt e reqHigh)
      | [] => .free
  | .held h t => .held h t
  | .abandoned t => .abandoned t

/-- The link that an ACK leaves to the drain engine of a queue `q`: it is granted for the next entry
in the step of the ACK, and the entry's xREQ waits for the request-high time (R71, R75, R166; log
35). -/
def linkAfterAck (q : List QEntry) (s : State) : Link :=
  match q with
  | e :: _ => .held .drain { s.entryAttempt e true with phase := .afterAck }
  | [] => .free

/-- The drain engine of the bay asks for its link (R71). -/
def State.asks (s : State) (b : BayId) : State :=
  modBay b (fun x => { x with link := linkAsked x.queue x.reqHigh s x.link }) s

/-- The drain engine of the bay asks for the link that an ACK has given back (R71, R75). -/
def State.asksAfterAck (s : State) (b : BayId) : State :=
  modBay b (fun x => { x with link := linkAfterAck x.queue s }) s

/-- The write that an access becomes at its acceptance, under the next acceptance number and this serial
and stamp (R40, R50). -/
def State.write (s : State) (a : Access) (serial : Serial) (stamp : Stamp) : Write :=
  { num := s.accSource + 1, serial := serial, stamp := stamp, addr := a.carrier, lanes := a.lanes,
    data := a.data, window := a.window, uncertain := false, forced := false }

/-- What an acceptance does to the account: the next acceptance number is issued, and ACCEPTED rises
by 1 (R1, R2). -/
def State.accepts (s : State) : State :=
  { s with accSource := s.accSource + 1, accepted := s.accepted + 1, nextOrd := s.nextOrd + 1 }

/-- The queue entry that an access becomes at its acceptance (R40). -/
def State.entry (s : State) (a : Access) (serial : Serial) (stamp : Stamp) : QEntry :=
  { ord := s.nextOrd, write := s.write a serial stamp, through := decide (a.copy.mode = .through) }

/-- What the host port shows after an acceptance into a queue: the release of a POSTED write, or the
wait of a THROUGH write for its fate (R42, R43). -/
def State.acceptedHost (s : State) (a : Access) : HostPort :=
  if a.copy.mode = .through then .diverted (a.stalled s) (.fate (s.accSource + 1))
  else .released false none

/-- What the host port shows after the commit of an entry whose THROUGH-waiting flag is
`through` (R43, R65). -/
def State.committedHost (s : State) (through : Bool) : HostPort :=
  match s.host with
  | .diverted _ (.fate _) => if through then .released false none else s.host
  | _ => s.host

/-- A read that ends by its window's absent-reads policy (R48, R49). -/
def State.absentRead (s : State) (a : Access) : State :=
  match a.copy.absentReads with
  | .fill => { s with host := .released false (some ⟨0xFF#8, 0xFF#8⟩) }
  | .refuse => s.errorRelease a .absent none

/-- A write that ends by its window's absent-writes policy: the checks of R50 in their order, then
absent acceptance into the hold store under the record's serial and stamp (R50, R124, R127). -/
def State.absentWrite (s : State) (a : Access) : State :=
  match a.copy.absentWrites, (s.bay a.copy.bay).last with
  | .refuse, _ => s.errorRelease a .absent none
  | .hold, none => s.errorRelease a .absent none
  | .hold, some ⟨_, _, .locked _⟩ => s.errorRelease a .locked none
  | .hold, some ⟨serial, capacity, .bound stamp⟩ =>
      if a.copy.mode = .readOnly then s.errorRelease a .readOnly none
      else if inRange a.copy.region a.carrier capacity.toNat = false then
        s.errorRelease a .range none
      else if 48 ≤ s.hold.length then s.errorRelease a .holdFull none
      else
        { (if s.items.holdThreshold.toNat ≤ s.hold.length + 1 then s.raise .holdHigh else s).accepts with
          host := .released false none
          hold := s.hold ++ [{ ord := s.nextOrd, write := s.write a serial stamp, stale := false }] }

/-- The WRITE_FAULT loss of a head entry: it is counted and recorded, and a THROUGH host that waits
on the entry is released with LOST (R5, R43, R66). -/
def State.losesHead (s : State) (e : QEntry) : State :=
  let lost := lose ⟨.writeFault, e.write, false⟩ s
  match s.host with
  | .diverted a (.fate num) => if e.through then lost.errorRelease a .lost (some num) else lost
  | _ => lost

/-- A list without the first `n` of its elements that satisfy `p`: the others keep their order
(R131). -/
def withoutFirst {α : Type} (p : α → Bool) : Nat → List α → List α
  | _, [] => []
  | 0, x :: xs => x :: xs
  | n + 1, x :: xs => if p x then withoutFirst p n xs else x :: withoutFirst p (n + 1) xs

/-- The work of replay in a step that finds the bay in REPLAY, but for its link and the waiting
host: the oldest eligible entries move behind the queue, one for each free place. While more are
left the bay stays in REPLAY; otherwise RESUMED is set, and it enters READY, or with an eject
pending DRAINING, and through it RELEASED when the queue is empty (R111, R114, R130 to R132; log
26). -/
def State.replayed (s : State) (b : BayId) : State :=
  let x := s.bay b
  let fit := s.hold.filter (eligible x.mount)
  let room := 16 - x.queue.length
  let queue := x.queue ++ (fit.take room).map fun e => ⟨e.ord, e.write, false⟩
  let moved : State := { s with hold := withoutFirst (eligible x.mount) room s.hold }
  if room < fit.length then modBay b (fun x => { x with queue := queue }) moved
  else if x.ejectPending = false then
    modBay b
      (fun x => { x with state := .ready, queue := queue, mount := { x.mount with cause := .none } })
      (moved.raise (.bay b .resumed))
  else if queue ≠ [] then
    modBay b
      (fun x => { x with
        state := .draining, ejectPending := false, drainTimer := some s.items.drainMs, queue := queue
        mount := { x.mount with cause := .none } })
      (moved.raise (.bay b .resumed))
  else
    modBay b
      (fun x => { x with
        state := .released, ejectPending := false, drainTimer := none, lamp := true, queue := []
        link := .free, reqHigh := x.link.request || x.reqHigh
        mount := { x.mount with supply := .none, cause := .none } })
      ((moved.raise (.bay b .resumed)).raise (.bay b .ejectDone))

/-- An access that waits in REPLAY meets its bay as a step has left it, and then the drain engine
asks for the link by `asks`: it waits on in REPLAY, passes the checks of R40 in READY, is refused
with EJECTING or served in DRAINING, and ends by its absent policies in RELEASED (R39 to R41, R45,
R46, R71). -/
def State.meets (s : State) (a : Access) (asks : State → State) : State :=
  let x := s.bay a.copy.bay
  let fits := inRange a.copy.region a.carrier (x.mount.capacity.getD 0).toNat
  match x.state, a.write with
  | .replay, _ => asks s
  | .ready, true =>
      if fits = false then asks (s.errorRelease a .range none)
      else if a.copy.mode = .readOnly then asks (s.errorRelease a .readOnly none)
      else if x.mount.locked = true then asks (s.errorRelease a .locked none)
      else if 16 ≤ x.queue.length then asks { s with host := .diverted (a.stalled s) .space }
      else
        let e := s.entry a (x.mount.serial.getD 0) (x.mount.stamp.getD ⟨0, 0, 0⟩)
        asks (modBay a.copy.bay (fun x => { x with queue := x.queue ++ [e] })
          { s.accepts with host := s.acceptedHost a })
  | .draining, true => asks (s.errorRelease a .ejecting none)
  | .ready, false | .draining, false =>
      if fits = false then asks (s.errorRelease a .range none)
      else if a.copy.region = .data ∧ ∃ e ∈ x.queue, e.write.addr = a.carrier then
        asks { s with host := .diverted (a.stalled s) .queueMatch }
      else if x.link = .free then
        modBay a.copy.bay (fun x => { x with link := .held .read (s.readAttempt a x.reqHigh) })
          { s with host := .diverted (a.stalled s) .onLink }
      else asks { s with host := .diverted (a.stalled s) .grant }
  | _, true => s.absentWrite a
  | _, false => s.absentRead a

/-- The THROUGH-waiting flags of a queue cleared (R60). -/
def noThrough (q : List QEntry) : List QEntry := q.map fun e => { e with through := false }

/-- The values that a written item accepts; the read-only items accept none (R158, R160). -/
def Item.accepts : Item → Nat → Bool
  | .revision, _ | .deviceNumber, _ => false
  | .epoch, _ => true
  | .debounceMs, n | .responseUs, n | .drainMs, n => decide (1 ≤ n ∧ n ≤ 255)
  | .retryLimit, n => decide (n ≤ 7)
  | .stallUs, n => decide (1 ≤ n ∧ n ≤ 1023)
  | .faultThreshold, n => decide (1 ≤ n ∧ n ≤ 15)
  | .holdThreshold, n => decide (1 ≤ n ∧ n ≤ 48)
  | .supplyMaskA, n | .supplyMaskB, n => decide (n ≤ 3)
  | .eventEnable, n => decide (n < 2 ^ 23)
  | .stageBasePage, n | .stageLimitPage, n => decide (n ≤ 4095)
  | .stageStartPage, n => decide (n ≤ 16383)
  | .stageMode, n => decide (n ≤ 2)
  | .stageBay, n | .stageRegion, n | .stageAbsentReads, n | .stageAbsentWrites, n => decide (n ≤ 1)

/-- The item codes of R158, each with the value that its field holds: REVISION is 1, and a field
with named values shows the number of its name (R19, R158, R162). -/
def itemFields : List (Byte × (State → Word)) :=
  let mask (m : SupplyMask) : Word := match m with | .none => 0 | .v18 => 1 | .v33 => 2 | .both => 3
  [(0x00#8, fun _ => 1), (0x01#8, fun s => s.deviceNumber), (0x02#8, fun s => s.items.epoch),
   (0x03#8, fun s => s.items.debounceMs.setWidth 32), (0x04#8, fun s => s.items.responseUs.setWidth 32),
   (0x05#8, fun s => s.items.retryLimit.setWidth 32), (0x06#8, fun s => s.items.stallUs.setWidth 32),
   (0x07#8, fun s => s.items.drainMs.setWidth 32), (0x08#8, fun s => s.items.faultThreshold.setWidth 32),
   (0x09#8, fun s => s.items.holdThreshold.setWidth 32), (0x0A#8, fun s => mask s.items.supplyMaskA),
   (0x0B#8, fun s => mask s.items.supplyMaskB), (0x0C#8, fun s => s.enables.setWidth 32)] ++
  [(0x10#8, fun s => s.staging.base.setWidth 32), (0x11#8, fun s => s.staging.limit.setWidth 32),
   (0x12#8, fun s => match s.staging.bay with | .A => 0 | .B => 1),
   (0x13#8, fun s => match s.staging.region with | .data => 0 | .descriptor => 1),
   (0x14#8, fun s => s.staging.start.setWidth 32),
   (0x15#8, fun s => match s.staging.mode with | .posted => 0 | .through => 1 | .readOnly => 2),
   (0x16#8, fun s => match s.staging.absentReads with | .refuse => 0 | .fill => 1),
   (0x17#8, fun s => match s.staging.absentWrites with | .refuse => 0 | .hold => 1)]

/-- The bay has entered REJECTED with this cause: REJECTED is set, the supply is off, the link is free
and the timers are stopped (R97). -/
def State.rejected (s : State) (b : BayId) (cause : MountCause) : State :=
  modBay b
    (fun x => { x with
      state := .rejected, mount := { x.mount with supply := .none, cause := cause }
      link := .free, reqHigh := x.link.request || x.reqHigh
      powerTimer := none, identTimer := none, ident := none })
    (s.raise (.bay b .rejected))

end Sys2Proof.Machine
end

