-- ==== Sys2Proof/WellFormed.lean ====
section
/-! DEFINITION. Which terms of `Instr` spell a row of the table. Every other operand is exact by
its type; the two checks below are those the types leave over. -/

namespace Sys2Proof

/-- A term of `Instr` that spells its row: BAD_COMMAND carries a byte 0 that names no command
(R156), and WRITE_ITEM carries no EVENT_ENABLE code, whose row is WRITE_EVENT_ENABLE (R144). -/
def Instr.wellFormed : Instr → Bool
  | .badCommand c => (cmdOfCode c).isNone
  | .writeItem c _ => c != eventEnableCode
  | _ => true

end Sys2Proof
end

