-- ==== Sys2Proof/Certificates/Slice0/Obligations.lean ====
section
/-! DEFINITION. The statements for the provers. A management command runs in an open frame whose
command has not run yet (`Listening`), with its last byte received: the model holds a frame as one
whole command (log 16). Where an event can come at once or after the minimum request-high time of
the links, the statements take it at once: the first statement says what the time before it does
(log 11). Pins and contacts that the part samples come with the command that samples them (logs 15
and 28). -/

open Sys2Proof Sys2Proof.Machine

/-! ### The block and its queue of commands -/

/-- A step takes the command at the front of the queue and runs it with the queue's rest, which the
command leaves as it is. On an empty queue the block idles while the minimum request-high time of
its links passes, and an event with `passed` comes after that time: an attempt that waits for it is
presented, with RESPONSE_US as it then stands (R63, R166; the model's queue and the model's time,
logs 3 and 11). -/
def Obligations.StepRunsTheFrontCommand : Prop :=
  (∀ (c : Instr) (rest : List Instr) (s : State), s.pending = c :: rest →
    step s = exec c { s with pending := rest }) ∧
  (∀ s : State, s.pending = [] → step s = .next (if s.rst then s else elapse s)) ∧
  (∀ (c : Instr) (s t : State), exec c s = .next t → t.pending = s.pending) ∧
  (∀ (c : Instr) (s : State), s.rst = false → c.passed = true →
    exec c s = exec c.atOnce (elapse s)) ∧
  ∀ s : State, elapse s = { s with bayA := (elapse s).bayA, bayB := (elapse s).bayB } ∧
    ∀ b, (elapse s).bay b =
      { s.bay b with
        reqHigh := false
        link :=
          match (s.bay b).link with
          | .held h tr =>
              .held h { tr with
                phase :=
                  match tr.phase with
                  | .requested n => .requested n
                  | _ => .requested s.items.responseUs }
          | l => l }

/-- Every command answers a next state in every state; while RST# is asserted no command but POR and
RESET_END changes anything (R34, R80, R165; logs 4 and 22). -/
def Obligations.EveryCommandAnswers : Prop :=
  ∀ (c : Instr) (s : State), ∃ t, exec c s = .next t ∧
    (s.rst = true → c ≠ .por → (∀ a b d e, c ≠ .resetEnd a b d e) → t = s)

/-- POR puts every piece of state at its value after POR, and RESET_END starts detect sampling and
the management port, with the level of HRST# found (R2, R6, R10, R18, R19, R55, R77, R80, R92, R120,
R142, R144, R158, R165). The contact inputs and HRST# keep their sampled levels and the free value
its index (the model's, logs 14 and 15). -/
def Obligations.ResetClearsThePart : Prop :=
  (∀ s : State, exec .por s =
    .next { rst := true, hrst := s.hrst, deviceNumber := s.deviceNumber, host := .idle, hostError := none,
            windows := Vector.replicate 8 ⟨false, ⟨0, 0, .A, .data, 0, .posted, .refuse, .refuse⟩⟩,
            staging := ⟨0, 0, .A, .data, 0, .posted, .refuse, .refuse⟩,
            items := ⟨0, 20, 64, 3, 200, 50, 4, 40, .both, .both⟩,
            accSource := 0, accepted := 0, committed := 0, lost := 0, lossLog := [],
            summary := none, nextOrd := 0, hold := [], mountSeq := 1,
            bayA := .reset s.bayA.contacts, bayB := .reset s.bayB.contacts,
            latches := 0, enables := 0, frame := .idle, frameError := false, free := s.free,
            pending := s.pending }) ∧
  ∀ (seatedA seatedB scsLow hrstLow : Bool) (s : State), s.rst = true →
    s.bayA.state = .empty → s.bayB.state = .empty →
    ∃ t, exec (.resetEnd seatedA seatedB scsLow hrstLow) s = .next t ∧
      t = { s with
        rst := false, hrst := hrstLow, frame := if scsLow then .waitRise else .idle
        bayA := t.bayA, bayB := t.bayB } ∧
      ∀ b, ∃ seated, seated = (match b with | .A => seatedA | .B => seatedB) ∧
        t.bay b =
          { s.bay b with
            state := if seated then .debounce else .empty
            debounceTimer := if seated then some s.items.debounceMs else (s.bay b).debounceTimer
            mount := if seated then { (s.bay b).mount with cause := .none } else (s.bay b).mount
            contacts := { (s.bay b).contacts with det1 := seated, det2 := seated } }

/-- The state that the model starts from keeps every law that the statements below carry through the
steps. That state is the model's choice: RST# and HRST# negated, no carrier seated, SCS# high (log
1). -/
def Obligations.ResetStateIsLawful : Prop :=
  Accounted .reset ∧ WithinCapacity .reset ∧ InOrder .reset ∧ WindowsLawful State.reset.windows ∧
    ItemsLawful State.reset.items ∧ BaysLawful .reset ∧ CarriersDistinct .reset ∧ Settled .reset ∧
    MountsAgree .reset

/-! ### The laws that every step keeps -/

/-- The conservation law of R7 holds after every step that starts where it holds. -/
def Obligations.AccountKept : Prop :=
  ∀ s t : State, Accounted s → step s = .next t → Accounted t

/-- No collection ever holds more than its capacity (R10, R55, R120). -/
def Obligations.CapacityKept : Prop :=
  ∀ s t : State, WithinCapacity s → step s = .next t → WithinCapacity t

/-- The outstanding writes keep one order of acceptance, and the hold store stands in it (R122). -/
def Obligations.OrderKept : Prop :=
  ∀ s t : State, InOrder s → step s = .next t → InOrder t

/-- The laws of the two bays (R77 to R79, R84, R85, R101, R118, R166), and, where these and the laws
of the next statements hold, what keeps the queues, the hold store and the last-carrier records in
agreement with the carriers that serve: R58, R133, R134, and the bound of R67. The phases of a link
are the model's reading (log 35). -/
def Obligations.BaysKept : Prop :=
  (∀ s t : State, BaysLawful s → step s = .next t → BaysLawful t) ∧
  ∀ s t : State, InOrder s → BaysLawful s → CarriersDistinct s → Settled s → MountsAgree s →
    step s = .next t → MountsAgree t

/-- Enabled windows keep their shape and never share a host page, and the items stay within their
ranges (R18, R21, R22, R158). -/
def Obligations.WindowsAndItemsKept : Prop :=
  ∀ s t : State, WindowsLawful s.windows → ItemsLawful s.items → step s = .next t →
    WindowsLawful t.windows ∧ ItemsLawful t.items

/-- The two bays never both hold an identified carrier with the same serial (R87). -/
def Obligations.CarriersStayDistinct : Prop :=
  ∀ s t : State, CarriersDistinct s → step s = .next t → CarriersDistinct t

/-- No work is left due between two steps: whatever a rule does "in the same step" (a grant, an accepted
wait, a re-handled access, a replay move, the end of a drain, the abandonment of an access under HRST#:
R37, R39, R41, R53, R71, R114, R131, R132) has
been done when the step answers. That these are done in the step that makes them due is the model's
reading (logs 6 to 10). -/
def Obligations.NothingIsLeftDue : Prop :=
  ∀ s t : State, BaysLawful s → CarriersDistinct s → Settled s → step s = .next t → Settled t


/-! ### The account of writes and the loss log -/

/-- One loss: LOST rises by 1, LOSS is set, and the loss reaches the log: a record of its own while the
summary is absent and the FIFO holds fewer than 15, otherwise the summary (R5, R10). -/
def Obligations.OneLossIsLogged : Prop :=
  ∀ (r : LossRecord) (s : State),
    lose r s =
      { s.raise .loss with
        lost := s.lost + 1
        lossLog := if s.summary = none ∧ s.lossLog.length < 15 then s.lossLog ++ [r] else s.lossLog
        summary :=
          match s.summary with
          | some m => some { count := m.count + 1, first := m.first, last := r.write.num }
          | none =>
              if s.lossLog.length < 15 then none
              else some { count := 1, first := r.write.num, last := r.write.num } }

/-- POP_LOSS: the oldest loss record first, in the 35 bytes of its layout, then the summary record, then
EMPTY; nothing else changes (R12, R175). -/
def Obligations.PopLossTakesTheOldest : Prop :=
  ∀ s : State, Listening s →
    (∀ r rs, s.lossLog = r :: rs →
      exec .popLoss s =
        .next ({ s with lossLog := rs }.reply 0 .ok
          ([1#8, (match r.cause with | .writeFault => 1 | .holdFull => 2 | .discarded => 3 : Byte)] ++
            wordBytes r.write.num ++ serialBytes r.write.serial ++ wordBytes r.write.stamp.device ++
            wordBytes r.write.stamp.epoch ++ wordBytes r.write.stamp.sequence ++
            wordBytes (BitVec.ofNat 32 r.write.addr) ++
            [(match r.write.lanes with | .low => 1 | .high => 2 | .both => 3 : Byte)] ++
            [r.write.data.extractLsb' 8 8, r.write.data.extractLsb' 0 8] ++
            [BitVec.ofNat 8 r.write.window.val] ++
            [BitVec.ofNat 8 (r.write.uncertain.toNat + 2 * r.write.forced.toNat + 4 * r.stale.toNat)]))) ∧
    (∀ m, s.lossLog = [] → s.summary = some m →
      exec .popLoss s =
        .next ({ s with summary := none }.reply 0 .ok
          ([2#8] ++ wordBytes m.count ++ wordBytes m.first ++ wordBytes m.last ++
            List.replicate 22 0#8))) ∧
    (s.lossLog = [] → s.summary = none → exec .popLoss s = .next (s.reply 0 .empty []))

/-- READ_COUNTS returns the six values of the moment in the order of the result layout, and changes no
state; the values keep the law of R7 and the ranges of R14 in the states that the laws of R7 and of the
capacities describe (R14). -/
def Obligations.ReadCountsReturnsSix : Prop :=
  ∀ s : State, Listening s →
    exec .readCounts s =
      .next (s.reply 0 .ok
        (wordBytes s.accepted ++ wordBytes s.committed ++ wordBytes s.lost ++
          [BitVec.ofNat 8 s.bayA.queue.length, BitVec.ofNat 8 s.bayB.queue.length,
           BitVec.ofNat 8 s.hold.length])) ∧
    (Accounted s → s.accepted - s.committed - s.lost =
      BitVec.ofNat 32 (s.bayA.queue.length + s.bayB.queue.length + s.hold.length)) ∧
    (WithinCapacity s →
      s.bayA.queue.length ≤ 16 ∧ s.bayB.queue.length ≤ 16 ∧ s.hold.length ≤ 48)

/-- ZERO_COUNTS: COMMITTED and LOST become 0 and ACCEPTED the total occupancy; the law of R7 holds after
it, and with the law before it the difference is unchanged (R15). -/
def Obligations.ZeroCountsKeepsTheDifference : Prop :=
  ∀ s : State, Listening s → ∃ t, exec .zeroCounts s = .next t ∧
    t = { s with
      accepted := BitVec.ofNat 32 (s.bayA.queue.length + s.bayB.queue.length + s.hold.length)
      committed := 0, lost := 0, frame := .ran ⟨1, 0⟩ 0 .ok [] } ∧
    Accounted t ∧
    (Accounted s → t.accepted - t.committed - t.lost = s.accepted - s.committed - s.lost)

/-! ### Windows -/

/-- COMMIT_WINDOW: the checks for the shape and the overlap in this order, then the staging record in
window n, enabled; the other windows stay (R20 to R23). -/
def Obligations.CommitWindowReplacesOne : Prop :=
  ∀ (n : Byte) (i : Fin 8) (s : State), Listening s → n.toNat = i.val →
    (validShape s.staging = false → exec (.commitWindow n) s = .next (s.reply 1 .badWindow [])) ∧
    (validShape s.staging = true →
      (∃ j : Fin 8, j ≠ i ∧ s.windows[j].enabled ∧ rangesMeet s.staging s.windows[j].record) →
      exec (.commitWindow n) s = .next (s.reply 1 .overlap [])) ∧
    (validShape s.staging = true →
      (∀ j : Fin 8, j ≠ i → s.windows[j].enabled →
        rangesMeet s.staging s.windows[j].record = false) →
      ∃ t, exec (.commitWindow n) s = .next t ∧
        t = { s with windows := t.windows, frame := .ran ⟨2, 0⟩ 1 .ok [] } ∧
        t.windows[i] = { enabled := true, record := s.staging } ∧
        ∀ j : Fin 8, j ≠ i → t.windows[j] = s.windows[j])

/-- DISABLE_WINDOW clears window n's enabled flag and keeps every other field; READ_WINDOW returns
window n's record in the twelve bytes of its layout and changes nothing (R24, R25, R173). -/
def Obligations.DisableAndReadWindow : Prop :=
  ∀ (n : Byte) (i : Fin 8) (s : State), Listening s → n.toNat = i.val →
    let w := s.windows[i].record
    let two (x : Half) : List Byte := [x.extractLsb' 8 8, x.extractLsb' 0 8]
    (∃ t, exec (.disableWindow n) s = .next t ∧
      t = { s with windows := t.windows, frame := .ran ⟨2, 0⟩ 1 .ok [] } ∧
      t.windows[i] = { enabled := false, record := w } ∧
      ∀ j : Fin 8, j ≠ i → t.windows[j] = s.windows[j]) ∧
    exec (.readWindow n) s =
      .next (s.reply 1 .ok
        ([BitVec.ofNat 8 s.windows[i].enabled.toNat] ++ two (w.base.setWidth 16) ++
          two (w.limit.setWidth 16) ++
          [(match w.bay with | .A => 0 | .B => 1 : Byte),
           (match w.region with | .data => 0 | .descriptor => 1 : Byte)] ++
          two (w.start.setWidth 16) ++
          [(match w.mode with | .posted => 0 | .through => 1 | .readOnly => 2 : Byte),
           (match w.absentReads with | .refuse => 0 | .fill => 1 : Byte),
           (match w.absentWrites with | .refuse => 0 | .hold => 1 : Byte)]))

/-- The translation of a claimed address: the carrier page is carrier start page + host page − base
page, and the offset within the page is kept (R27). -/
def Obligations.TranslationKeepsTheOffset : Prop :=
  ∀ (w : Window) (addr : BitVec 23), w.claims (hostPage addr) = true →
    carrierPage (carrierAddr w.record addr) =
      w.record.start.toNat + hostPage addr - w.record.base.toNat ∧
    carrierAddr w.record addr =
      carrierPage (carrierAddr w.record addr) * 2048 + (byteAddr addr - hostPage addr * 4096) / 2 ∧
    2 * carrierAddr w.record addr =
      w.record.start.toNat * 4096 + (byteAddr addr - w.record.base.toNat * 4096) ∧
    carrierPage (carrierAddr w.record addr) ≤ w.record.start.toNat + 4095 ∧
    byteAddr addr - hostPage addr * 4096 ≤ 4094 ∧ (byteAddr addr - hostPage addr * 4096) % 2 = 0

/-! ### Host accesses -/

/-- A main access is mirrored to the main port, waits for MRDY, passes local memory's data to the
host, and ends with the host's negation of HCS#; nothing else changes. A cycle with both strobes,
with none, or with no lane enable begins no access (R34, R35). That the mirrored access keeps its
drive until HCS# is negated, and that MRDY found asserted at its beginning passes the data at once,
are the model's readings (logs 18 and 27). -/
def Obligations.MainAccessIsMirrored : Prop :=
  (∀ (c : HostCycle) (s : State), (c.rd = c.wr ∨ c.lb = false ∧ c.ub = false) →
    exec (.classification c) s = .next s) ∧
  (∀ (c : HostCycle) (l : Lanes) (s : State), s.rst = false → s.hrst = false → s.host = .idle →
    accessLanes c = some l → (∀ i : Fin 8, s.windows[i].claims (hostPage c.addr) = false) →
    ∃ t, exec (.classification c) s = .next t ∧ t = { s with host := t.host } ∧
      mainPort t = some ⟨c.addr, l, c.wr, c.data⟩ ∧ hwait t = !c.mrdy ∧ herr t = false ∧
      hostData t =
        (if c.mrdy && !c.wr then some ⟨c.md.extractLsb' 8 8, c.md.extractLsb' 0 8⟩ else none)) ∧
  (∀ (md : Half) (d : MainDrive) (s : State), s.rst = false → s.host = .mainWait d →
    ∃ t, exec (.mainAccessReady md) s = .next t ∧ t = { s with host := t.host } ∧
      mainPort t = some d ∧ hwait t = false ∧ herr t = false ∧
      hostData t = (if d.write then none else some ⟨md.extractLsb' 8 8, md.extractLsb' 0 8⟩)) ∧
  ∀ s : State, s.rst = false →
    ((∃ d hd, s.host = .mainDone d hd) ∨ ∃ e hd, s.host = .released e hd) →
    exec .accessEnd s = .next { s with host := .idle }

/-- A write through a POSTED or THROUGH window to a READY bay that passes the checks of R40 is accepted
at once: it takes the next acceptance number, joins the tail of the queue, and releases or holds the
host. Only the bytes of its lanes carry meaning: that the others are kept as the bus carried them is the
model's choice (R1, R2, R40, R42, R43, R71; log 32). -/
def Obligations.WriteAcceptedInReady : Prop :=
  ∀ (c : HostCycle) (l : Lanes) (n : Fin 8) (capacity : BitVec 16) (serial : Serial) (stamp : Stamp)
    (s : State),
    let w := s.windows[n].record
    let x := s.bay w.bay
    let a := divertedAccess c l n s
    let e : QEntry :=
      { ord := s.nextOrd
        write :=
          { num := s.accSource + 1, serial := serial, stamp := stamp, addr := carrierAddr w c.addr,
            lanes := l, data := c.data, window := n, uncertain := false, forced := false }
        through := decide (w.mode = .through) }
    Diverts c l n s → c.wr = true → x.state = .ready →
    x.mount.serial = some serial → x.mount.stamp = some stamp → x.mount.capacity = some capacity →
    x.mount.locked = false → inRange w.region (carrierAddr w c.addr) capacity.toNat = true →
    w.mode ≠ .readOnly → x.queue.length < 16 →
    exec (.classification c) s =
      .next (modBay w.bay
        (fun x => { x with
          queue := x.queue ++ [e], link := linkAsked (x.queue ++ [e]) x.reqHigh s x.link })
        { s with
          accSource := s.accSource + 1, accepted := s.accepted + 1, nextOrd := s.nextOrd + 1
          host :=
            if w.mode = .through then .diverted (a.stalled s) (.fate (s.accSource + 1))
            else .released false none })

/-- A write that waits for queue space is accepted when a READY bay has space, with the effects of an
acceptance at once; its stall timer is not started anew (R37, R41). The data keep the bytes outside the
lanes as the bus carried them (log 32). The model takes such an acceptance in the step that makes the
space, so the command meets only states that `Settled` excludes (log 7). -/
def Obligations.WaitingWriteIsAccepted : Prop :=
  ∀ (a : Access) (serial : Serial) (stamp : Stamp) (s : State),
    let x := s.bay a.copy.bay
    let e : QEntry :=
      { ord := s.nextOrd
        write :=
          { num := s.accSource + 1, serial := serial, stamp := stamp, addr := a.carrier,
            lanes := a.lanes, data := a.data, window := a.window, uncertain := false,
            forced := false }
        through := decide (a.copy.mode = .through) }
    s.rst = false → s.host = .diverted a .space → x.state = .ready →
    x.mount.serial = some serial → x.mount.stamp = some stamp → x.queue.length < 16 →
    exec .waitingWriteAccepted s =
      .next (modBay a.copy.bay
        (fun x => { x with
          queue := x.queue ++ [e], link := linkAsked (x.queue ++ [e]) x.reqHigh s x.link })
        { s with
          accSource := s.accSource + 1, accepted := s.accepted + 1, nextOrd := s.nextOrd + 1
          host :=
            if a.copy.mode = .through then .diverted (a.stalled s) (.fate (s.accSource + 1))
            else .released false none })

/-- A write to a bay in READY is refused with the cause of the first check of R40 that fails, or waits
for space; a write to a bay in DRAINING is refused with EJECTING; any access to a bay in REPLAY stalls
(R36, R37, R40, R41, R45). -/
def Obligations.WriteRefusedOrStalled : Prop :=
  ∀ (c : HostCycle) (l : Lanes) (n : Fin 8) (capacity : BitVec 16) (s : State),
    let w := s.windows[n].record
    let x := s.bay w.bay
    let a := divertedAccess c l n s
    let fits := inRange w.region (carrierAddr w c.addr) capacity.toNat
    Diverts c l n s → NoGrantDue w.bay s → x.mount.capacity = some capacity →
    (c.wr = true → x.state = .ready →
      (fits = false → exec (.classification c) s = .next (s.errorRelease a .range none)) ∧
      (fits = true → w.mode = .readOnly →
        exec (.classification c) s = .next (s.errorRelease a .readOnly none)) ∧
      (fits = true → w.mode ≠ .readOnly → x.mount.locked = true →
        exec (.classification c) s = .next (s.errorRelease a .locked none)) ∧
      (fits = true → w.mode ≠ .readOnly → x.mount.locked = false → 16 ≤ x.queue.length →
        exec (.classification c) s = .next { s with host := .diverted (a.stalled s) .space })) ∧
    (c.wr = true → x.state = .draining →
      exec (.classification c) s = .next (s.errorRelease a .ejecting none)) ∧
    (x.state = .replay →
      exec (.classification c) s = .next { s with host := .diverted (a.stalled s) .replay })

/-- A write to a bay out of service: the policy and the checks of R50 in their order, then absent
acceptance into the hold store under the record's serial and stamp (R50, R124, R127). The held data keep
the bytes outside the lanes as the bus carried them: the model's choice (log 32). -/
def Obligations.AbsentWriteIsHeldOrRefused : Prop :=
  ∀ (c : HostCycle) (l : Lanes) (n : Fin 8) (s : State),
    let w := s.windows[n].record
    let x := s.bay w.bay
    let a := divertedAccess c l n s
    Diverts c l n s → NoGrantDue w.bay s → c.wr = true → x.state.serving = false →
    (w.absentWrites = .refuse →
      exec (.classification c) s = .next (s.errorRelease a .absent none)) ∧
    (w.absentWrites = .hold → x.last = none →
      exec (.classification c) s = .next (s.errorRelease a .absent none)) ∧
    (∀ serial capacity slot, w.absentWrites = .hold → x.last = some ⟨serial, capacity, .locked slot⟩ →
      exec (.classification c) s = .next (s.errorRelease a .locked none)) ∧
    ∀ serial capacity stamp, w.absentWrites = .hold →
      x.last = some ⟨serial, capacity, .bound stamp⟩ →
      (w.mode = .readOnly →
        exec (.classification c) s = .next (s.errorRelease a .readOnly none)) ∧
      (w.mode ≠ .readOnly → inRange w.region (carrierAddr w c.addr) capacity.toNat = false →
        exec (.classification c) s = .next (s.errorRelease a .range none)) ∧
      (w.mode ≠ .readOnly → inRange w.region (carrierAddr w c.addr) capacity.toNat = true →
        48 ≤ s.hold.length →
        exec (.classification c) s = .next (s.errorRelease a .holdFull none)) ∧
      (w.mode ≠ .readOnly → inRange w.region (carrierAddr w c.addr) capacity.toNat = true →
        s.hold.length < 48 →
        exec (.classification c) s =
          .next { (if s.items.holdThreshold.toNat ≤ s.hold.length + 1 then s.raise .holdHigh else s) with
            accSource := s.accSource + 1, accepted := s.accepted + 1, nextOrd := s.nextOrd + 1
            host := .released false none
            hold := s.hold ++
              [{ ord := s.nextOrd
                 write :=
                   { num := s.accSource + 1, serial := serial, stamp := stamp,
                     addr := carrierAddr w c.addr, lanes := l, data := c.data, window := n,
                     uncertain := false, forced := false }
                 stale := false }] })

/-- A read from a bay out of service ends at once by its absent-reads policy: FFFFH under FILL,
whatever the address, and ABSENT under REFUSE (R49). -/
def Obligations.AbsentReadFillsOrRefuses : Prop :=
  ∀ (c : HostCycle) (l : Lanes) (n : Fin 8) (s : State),
    let w := s.windows[n].record
    Diverts c l n s → NoGrantDue w.bay s → c.wr = false → (s.bay w.bay).state.serving = false →
    (w.absentReads = .fill →
      exec (.classification c) s = .next { s with host := .released false (some ⟨0xFF#8, 0xFF#8⟩) }) ∧
    (w.absentReads = .refuse →
      exec (.classification c) s = .next (s.errorRelease (divertedAccess c l n s) .absent none))

/-- A read from a bay in READY or DRAINING: RANGE, or the wait for a queued write to its address, or
the request to the arbiter, granted at once on a free link (R46, R47, R70, R71). On a link whose
request-high time still runs the attempt begins at once and its xREQ waits (R166; log 35). -/
def Obligations.ReadServedFromTheCarrier : Prop :=
  ∀ (c : HostCycle) (l : Lanes) (n : Fin 8) (capacity : BitVec 16) (s : State),
    let w := s.windows[n].record
    let x := s.bay w.bay
    let a := divertedAccess c l n s
    let matched := w.region = .data ∧ ∃ e ∈ x.queue, e.write.addr = carrierAddr w c.addr
    Diverts c l n s → NoGrantDue w.bay s → c.wr = false → x.state = .ready ∨ x.state = .draining →
    x.mount.capacity = some capacity →
    (inRange w.region (carrierAddr w c.addr) capacity.toNat = false →
      exec (.classification c) s = .next (s.errorRelease a .range none)) ∧
    (inRange w.region (carrierAddr w c.addr) capacity.toNat = true → matched →
      exec (.classification c) s = .next { s with host := .diverted (a.stalled s) .queueMatch }) ∧
    (inRange w.region (carrierAddr w c.addr) capacity.toNat = true → ¬matched → x.link ≠ .free →
      exec (.classification c) s = .next { s with host := .diverted (a.stalled s) .grant }) ∧
    (inRange w.region (carrierAddr w c.addr) capacity.toNat = true → ¬matched → x.link = .free →
      exec (.classification c) s =
        .next (modBay w.bay
          (fun x => { x with
            link := .held .read
              ⟨w.region, carrierAddr w c.addr, l, false, 0, s.items.retryLimit.toNat,
                s.firstAttempt x.reqHigh⟩ })
          { s with host := .diverted (a.stalled s) .onLink }))

/-! ### Host accesses that end by themselves -/

/-- HRST# and a withdrawal by the host abandon the access in progress: no error is recorded, an
accepted THROUGH write stays in its queue with its flag cleared, and a read's transfer goes on
without its holder, or ends at once when its xREQ is not asserted. While HRST# is asserted no access
begins; with none in progress its assertion changes nothing else, an access that the part has
released is over, and its negation lets the next access begin (R53, R54, R60, R73, R166; the two
edges of the line and a released access: logs 13 and 23). -/
def Obligations.AccessIsAbandoned : Prop :=
  (∀ s : State, s.rst = false →
    (s.host = .idle → exec (.hrst true false) s = .next { s with hrst := true }) ∧
    ((∃ d hd, s.host = .mainDone d hd) ∨ (∃ e hd, s.host = .released e hd) →
      exec (.hrst true false) s = .next { s with host := .idle, hrst := true }) ∧
    exec (.hrst false false) s = .next { s with hrst := false } ∧
    ∀ c, s.hrst = true → exec (.classification c) s = .next s) ∧
  ∀ (c : Instr) (level : Bool) (s : State),
    c = .hrst true false ∧ level = true ∨ c = .hostWithdrawal false ∧ level = s.hrst →
    s.rst = false →
    (∀ d, s.host = .mainWait d → exec c s = .next { s with host := .idle, hrst := level }) ∧
    (∀ a w, s.host = .diverted a w → w = .replay ∨ w = .space ∨ w = .queueMatch ∨ w = .grant →
      exec c s = .next { s with host := .idle, hrst := level }) ∧
    (∀ a num, s.host = .diverted a (.fate num) →
      exec c s =
        .next (modBay a.copy.bay (fun x => { x with queue := noThrough x.queue })
          { s with host := .idle, hrst := level })) ∧
    ∀ a tr, s.host = .diverted a .onLink → (s.bay a.copy.bay).link = .held .read tr →
      (s.bay a.copy.bay).state.serving = true →
      exec c s =
        .next (modBay a.copy.bay
          (fun x => { x with
            link :=
              match tr.phase with
              | .requested _ => .abandoned tr
              | .afterAck | .presenting => linkAsked x.queue x.reqHigh s .free })
          { s with host := .idle, hrst := level })

/-- The stall limit: STALLED before acceptance or before read data, THROUGH_TIMEOUT for an accepted
THROUGH write, whose entry stays, and an abandoned transfer for a read on the link, which leaves the
link free at once when its xREQ is not asserted (R38, R43, R73, R166). -/
def Obligations.StallLimitEndsTheAccess : Prop :=
  ∀ (a : Access) (w : Wait) (s : State), s.rst = false → s.host = .diverted a w →
    a.stall.isSome = true →
    (w = .replay ∨ w = .space ∨ w = .queueMatch ∨ w = .grant →
      exec (.stallTimerExpiry false) s = .next (s.errorRelease a .stalled none)) ∧
    (∀ num, w = .fate num →
      exec (.stallTimerExpiry false) s =
        .next (modBay a.copy.bay (fun x => { x with queue := noThrough x.queue })
          (s.errorRelease a .throughTimeout (some num)))) ∧
    ∀ tr, w = .onLink → (s.bay a.copy.bay).link = .held .read tr →
      (s.bay a.copy.bay).state.serving = true →
      exec (.stallTimerExpiry false) s =
        .next (modBay a.copy.bay
          (fun x => { x with
            link :=
              match tr.phase with
              | .requested _ => .abandoned tr
              | .afterAck | .presenting => linkAsked x.queue x.reqHigh s .free })
          (s.errorRelease a .stalled none))

/-- A stalled access is handled again under its bay's new state, with its stall timer running on: a
write that meets DRAINING is refused with EJECTING, one for space that meets REPLAY stalls there,
one that meets READY passes the checks of R40, and one that meets a bay out of service ends by its
absent-writes policy; a read that meets READY or DRAINING is served by R46, and one that meets a bay
out of service ends by its absent-reads policy (R39 to R43, R45, R46, R49, R50; the bytes outside
the lanes: log 32). The model takes this in the step of the bay's change, so the command meets only
states that `Settled` excludes (log 8). -/
def Obligations.StalledAccessIsHandledAgain : Prop :=
  ∀ (a : Access) (s : State), s.rst = false → NoGrantDue a.copy.bay s →
    let x := s.bay a.copy.bay
    (a.write = true → s.host = .diverted a .replay ∨ s.host = .diverted a .space →
      (x.state = .draining →
        exec .stalledAccessRehandled s = .next (s.errorRelease a .ejecting none)) ∧
      (x.state.serving = false → exec .stalledAccessRehandled s = .next (s.absentWrite a))) ∧
    (s.host = .diverted a .space → x.state = .replay →
      exec .stalledAccessRehandled s = .next { s with host := .diverted (a.stalled s) .replay }) ∧
    (a.write = false → s.host = .diverted a .replay → x.state.serving = false →
      exec .stalledAccessRehandled s = .next (s.absentRead a)) ∧
    ∀ (capacity : BitVec 16) (serial : Serial) (stamp : Stamp),
      x.mount.capacity = some capacity → x.mount.serial = some serial →
      s.host = .diverted a .replay →
      let fits := inRange a.copy.region a.carrier capacity.toNat
      let matched := a.copy.region = .data ∧ ∃ e ∈ x.queue, e.write.addr = a.carrier
      let e := s.entry a serial stamp
      (a.write = true → x.state = .ready →
        (fits = false →
          exec .stalledAccessRehandled s = .next (s.errorRelease a .range none)) ∧
        (fits = true → a.copy.mode = .readOnly →
          exec .stalledAccessRehandled s = .next (s.errorRelease a .readOnly none)) ∧
        (fits = true → a.copy.mode ≠ .readOnly → x.mount.locked = true →
          exec .stalledAccessRehandled s = .next (s.errorRelease a .locked none)) ∧
        (fits = true → a.copy.mode ≠ .readOnly → x.mount.locked = false → 16 ≤ x.queue.length →
          exec .stalledAccessRehandled s =
            .next { s with host := .diverted (a.stalled s) .space }) ∧
        (fits = true → a.copy.mode ≠ .readOnly → x.mount.locked = false → x.queue.length < 16 →
          x.mount.stamp = some stamp →
          exec .stalledAccessRehandled s =
            .next (modBay a.copy.bay
              (fun x => { x with
                queue := x.queue ++ [e], link := linkAsked (x.queue ++ [e]) x.reqHigh s x.link })
              { s.accepts with host := s.acceptedHost a }))) ∧
      (a.write = false → x.state = .ready ∨ x.state = .draining →
        (fits = false →
          exec .stalledAccessRehandled s = .next (s.errorRelease a .range none)) ∧
        (fits = true → matched →
          exec .stalledAccessRehandled s =
            .next { s with host := .diverted (a.stalled s) .queueMatch }) ∧
        (fits = true → ¬matched → x.link ≠ .free →
          exec .stalledAccessRehandled s = .next { s with host := .diverted (a.stalled s) .grant }) ∧
        (fits = true → ¬matched → x.link = .free →
          exec .stalledAccessRehandled s =
            .next (modBay a.copy.bay
              (fun x => { x with link := .held .read (s.readAttempt a x.reqHigh) })
              { s with host := .diverted (a.stalled s) .onLink })))

/-- READ_ERROR returns the host error record, in the fourteen bytes of its layout, and makes it
absent; an absent record is returned as fourteen bytes of zero (R52, R173). -/
def Obligations.ReadErrorTakesTheRecord : Prop :=
  ∀ s : State, Listening s →
    (s.hostError = none → exec .readError s = .next (s.reply 0 .ok (List.replicate 14 0#8))) ∧
    ∀ e, s.hostError = some e →
      let addr : BitVec 24 := e.addr ++ 0#1
      exec .readError s =
        .next ({ s with hostError := none }.reply 0 .ok
          ([1#8, addr.extractLsb' 16 8, addr.extractLsb' 8 8, addr.extractLsb' 0 8,
            (match e.lanes with | .low => 1 | .high => 2 | .both => 3 : Byte),
            BitVec.ofNat 8 e.write.toNat, BitVec.ofNat 8 e.window.val, e.cause.code,
            BitVec.ofNat 8 e.accepted.isSome.toNat] ++
            wordBytes (e.accepted.getD 0) ++ [BitVec.ofNat 8 e.overrun.toNat]))

/-! ### The bay link and the drain engine -/

/-- A free link is granted to the host read that waits at it, otherwise to the drain engine for its
head entry, otherwise to the identification sequence for its next read or binding write, and to
nobody when nobody asks; a read that waits at the other bay is none of its requesters. The attempt
budget is fixed at the grant, with which the first attempt begins; xREQ is asserted and the response
timer starts then, unless the request-high time still runs (R62, R63, R64, R71, R85, R86, R93, R166;
log 35). The link's lines show a transfer as long as the link has one, and xREQ while it is
asserted; the part drives xLD15..xLD0 for a write alone, and stops when the link comes free; with
the supply off all are low, and the supply switches show the voltage chosen (R78, R166, R167). That
LINK_GRANT with no requester, an event that cannot occur, leaves the state is the model's choice
(log 4); the model grants in the step that makes a grant due, so the command meets only states that
`Settled` excludes (log 6). -/
def Obligations.LinkIsGranted : Prop :=
  (∀ (b : BayId) (s : State), s.rst = false → (s.bay b).link = .free →
    let p := s.firstAttempt (s.bay b).reqHigh
    (∀ a, s.host = .diverted a .grant → a.copy.bay = b →
      (s.bay b).state = .ready ∨ (s.bay b).state = .draining →
      exec (.linkGrant b) s =
        .next (modBay b
          (fun x => { x with
            link := .held .read
              ⟨a.copy.region, a.carrier, a.lanes, false, 0, s.items.retryLimit.toNat, p⟩ })
          { s with host := .diverted a .onLink })) ∧
    (∀ e es, (∀ a, s.host = .diverted a .grant → a.copy.bay ≠ b ∨ (s.bay b).state = .replay) →
      (s.bay b).state.serving = true → (s.bay b).queue = e :: es →
      exec (.linkGrant b) s =
        .next (modBay b
          (fun x => { x with
            link := .held .drain
              ⟨.data, e.write.addr, e.write.lanes, true, e.write.data, s.items.retryLimit.toNat, p⟩ })
          s)) ∧
    (∀ halves, (s.bay b).state = .identifying → (s.bay b).ident = some ⟨halves, none⟩ →
      exec (.linkGrant b) s =
        .next (modBay b
          (fun x => { x with
            link := .held .ident
              ⟨.descriptor, halves.length, .both, false, 0, s.items.retryLimit.toNat, p⟩ })
          s)) ∧
    (∀ halves w, (s.bay b).state = .identifying → (s.bay b).ident = some ⟨halves, some w⟩ →
      let t := w.stamp
      let check : Word := ~~~(t.device + t.epoch + t.sequence)
      let data : Half := ([t.device.extractLsb' 0 16, t.device.extractLsb' 16 16,
        t.epoch.extractLsb' 0 16, t.epoch.extractLsb' 16 16, t.sequence.extractLsb' 0 16,
        t.sequence.extractLsb' 16 16, check.extractLsb' 0 16,
        check.extractLsb' 16 16] : List Half).getD w.answered 0
      exec (.linkGrant b) s =
        .next (modBay b
          (fun x => { x with
            link := .held .ident
              ⟨.descriptor, 8 + w.answered, .both, true, data, s.items.retryLimit.toNat, p⟩ })
          s)) ∧
    (requester b s = none → exec (.linkGrant b) s = .next s)) ∧
  ∀ (b : BayId) (s : State),
    (linkRequest s b = true ↔ ∃ tr n, tr.phase = .requested n ∧
      ((∃ h, (s.bay b).link = .held h tr) ∨ (s.bay b).link = .abandoned tr)) ∧
    (∀ tr, (∃ h, (s.bay b).link = .held h tr) ∨ (s.bay b).link = .abandoned tr →
      linkLines s b = some
        { la := tr.addr, rgn := decide (tr.region = .descriptor), lbN := decide (tr.lanes = .high),
          ubN := decide (tr.lanes = .low), wr := tr.write } ∧
      linkData s b = if tr.write then some tr.data else none) ∧
    ((s.bay b).link = .free →
      linkRequest s b = false ∧
      ((s.bay b).mount.supply ≠ .none → linkData s b = none) ∧
      ((s.bay b).mount.supply = .none →
        linkLines s b = some ⟨0, false, false, false, false⟩ ∧ linkData s b = some 0)) ∧
    (en18 s b = true ↔ (s.bay b).mount.supply = .v18) ∧
    (en33 s b = true ↔ (s.bay b).mount.supply = .v33)

/-- A failed attempt with budget left changes nothing else, whoever holds the link: xREQ is negated, and
the presentation of the next attempt begins in the same step, with the same lines, so that the transfer
stays in flight through the request-high time. While xREQ is negated no answer is taken, and no response
timer runs (R63, R64, R85, R166, R167). -/
def Obligations.FailedAttemptIsRepeated : Prop :=
  (∀ (c : Instr) (b : BayId) (h : Holder) (tr : Transfer) (n : BitVec 8) (k : Nat) (s : State),
    c = .failedAttempt b false ∨ c = .responseTimeout b false → s.rst = false →
    (s.bay b).link = .held h tr → tr.phase = .requested n → tr.left = k + 1 →
    ∃ t, exec c s = .next t ∧
      t = modBay b
        (fun x => { x with
          link := .held h { tr with left := k, phase := .presenting }, reqHigh := true }) s ∧
      linkRequest s b = true ∧ linkRequest t b = false ∧ linkLines t b = linkLines s b ∧
      linkData t b = linkData s b) ∧
  ∀ (b : BayId) (s : State), s.rst = false → linkRequest s b = false →
    ∀ data lock, ∀ c ∈ [Instr.commit b false, .failedAttempt b false, .responseTimeout b false,
        .readTransferAnswer b data false, .descriptorReadAnswer b data lock false,
        .bindingWriteAnswer b false],
      exec c s = .next s

/-- The last attempt of a read transfer ends in READ_FAULT, and that of an identification transfer
in REJECTED with UNRECOGNIZED for a descriptor read and BIND_FAULT for a binding write (R47, R85,
R93, R97). The xREQ of the link's next holder waits for the request-high time (R166; log 35). -/
def Obligations.LastAttemptOfARead : Prop :=
  ∀ (c : Instr) (b : BayId) (h : Holder) (tr : Transfer) (n : BitVec 8) (s : State),
    c = .failedAttempt b false ∨ c = .responseTimeout b false → s.rst = false →
    (s.bay b).link = .held h tr → tr.phase = .requested n → tr.left = 0 →
    (∀ a, h = .read → s.host = .diverted a .onLink → a.copy.bay = b →
      (s.bay b).state.serving = true →
      exec c s =
        .next (modBay b
          (fun x => { x with reqHigh := true, link := linkAsked x.queue true s .free })
          (s.errorRelease a .readFault none))) ∧
    ∀ i, h = .ident → (s.bay b).ident = some i →
      exec c s =
        .next (s.rejected b (if i.binding.isSome then .bindFault else .unrecognized))

/-- A commit: the head entry leaves, COMMITTED rises by 1, the consecutive-loss count is 0, a waiting
THROUGH host is released normally, and the drain engine asks for the next entry. In READY, or in
DRAINING with entries left, the place that frees takes a write waiting for it; a read whose last match
leaves asks for the link, and a waiting read is granted it before the next entry (R4, R41, R46, R65,
R67, R71). In REPLAY the place that frees takes the oldest eligible entry, and the bay stays in
REPLAY, or replay ends; an access that waited in REPLAY meets the bay's new state, so that a write
that finds the queue full waits for space (R39, R131, R132). The xREQ of the next transfer waits for
the request-high time (R75, R166; log 35). That replay and the waiting access are met in the step of
the commit is the model's reading (logs 7 to 10 and 26), and the data of an accepted write keep the
bytes outside the lanes (log 32). -/
def Obligations.CommitTakesTheHead : Prop :=
  ∀ (b : BayId) (tr : Transfer) (n : BitVec 8) (e : QEntry) (es : List QEntry) (s : State),
    s.rst = false → (s.bay b).link = .held .drain tr → tr.phase = .requested n →
    (s.bay b).queue = e :: es →
    let took (queue : List QEntry) (link : Link) (u : State) : State :=
      modBay b
        (fun x => { x with queue := queue, lossCount := 0, link := link, reqHigh := true })
        { u with committed := s.committed + 1 }
    ((s.bay b).state = .ready ∨ (s.bay b).state = .draining ∧ es ≠ [] →
      (NothingStalled b s →
        exec (.commit b false) s =
          .next (took es (linkAfterAck es s) { s with host := s.committedHost e.through })) ∧
      ∀ a, a.copy.bay = b →
        (∀ serial stamp, s.host = .diverted a .space → (s.bay b).state = .ready → es.length < 16 →
          (s.bay b).mount.serial = some serial → (s.bay b).mount.stamp = some stamp →
          let q := es ++ [s.entry a serial stamp]
          exec (.commit b false) s =
            .next (took q (linkAfterAck q s) { s.accepts with host := s.acceptedHost a })) ∧
        (s.host = .diverted a .queueMatch → a.copy.region = .data →
          ((∃ f ∈ es, f.write.addr = a.carrier) →
            exec (.commit b false) s = .next (took es (linkAfterAck es s) s)) ∧
          ((∀ f ∈ es, f.write.addr ≠ a.carrier) →
            exec (.commit b false) s =
              .next (took es (.held .read (s.readAttempt a true))
                { s with host := .diverted a .onLink }))) ∧
        (s.host = .diverted a .grant →
          exec (.commit b false) s =
            .next (took es (.held .read (s.readAttempt a true))
              { s with host := .diverted a .onLink }))) ∧
    ((s.bay b).state = .replay →
      (NothingStalled b s →
        exec (.commit b false) s =
          .next (((took es .free { s with host := s.committedHost e.through }).replayed b).asksAfterAck
            b)) ∧
      ∀ a, s.host = .diverted a .replay → a.copy.bay = b →
        exec (.commit b false) s =
            .next (((took es .free s).replayed b).meets a fun t => t.asksAfterAck b) ∧
        ∀ f capacity, (s.bay b).mount.capacity = some capacity → (s.bay b).mount.locked = false →
          s.hold.filter (eligible (s.bay b).mount) = [f] → es.length = 15 →
          (s.bay b).ejectPending = false → a.write = true → a.copy.mode ≠ .readOnly →
          inRange a.copy.region a.carrier capacity.toNat = true →
          let q := es ++ [⟨f.ord, f.write, false⟩]
          exec (.commit b false) s =
            .next (modBay b
              (fun x => { x with state := .ready, mount := { x.mount with cause := .none } })
              (took q (linkAfterAck q s)
                { s.raise (.bay b .resumed) with
                  hold := s.hold.filter fun h => !eligible (s.bay b).mount h
                  host := .diverted (a.stalled s) .space })))

/-- In any serving state a commit counts once: COMMITTED rises by 1, LOST and the loss log stay, and the
consecutive-loss count becomes 0, whatever else the step brings (R4, R65, R67). -/
def Obligations.CommitCountsOnce : Prop :=
  ∀ (b : BayId) (tr : Transfer) (n : BitVec 8) (e : QEntry) (es : List QEntry) (s : State),
    s.rst = false → (s.bay b).state.serving = true → (s.bay b).link = .held .drain tr →
    tr.phase = .requested n → (s.bay b).queue = e :: es →
    ∃ t, exec (.commit b false) s = .next t ∧ t.committed = s.committed + 1 ∧ t.lost = s.lost ∧
      t.lossLog = s.lossLog ∧ t.summary = s.summary ∧ (t.bay b).lossCount = 0

/-- The departure of the last entry of a DRAINING bay, by its commit or by its loss below
FAULT_THRESHOLD, ends the drain cleanly: RELEASED, the supply off, the lamp on, EJECT_DONE, and nothing
evacuated; a THROUGH host that waits on the entry is released normally, or with LOST; a read that waits
at the bay is finished under its window's absent-reads policy (R48, R66, R101, R112, R114, R118). -/
def Obligations.CleanEndOfADrain : Prop :=
  ∀ (b : BayId) (tr : Transfer) (n : BitVec 8) (e : QEntry) (s : State), s.rst = false →
    (s.bay b).state = .draining → (s.bay b).link = .held .drain tr → tr.phase = .requested n →
    (s.bay b).queue = [e] →
    let left (count : Nat) (u : State) : State :=
      modBay b
        (fun x => { x with
          state := .released, lamp := true, queue := [], lossCount := count, link := .free
          reqHigh := true, drainTimer := none, ejectPending := false
          mount := { x.mount with supply := .none, cause := .none } })
        (u.raise (.bay b .ejectDone))
    let committed : State := left 0 { s with committed := s.committed + 1 }
    (NothingStalled b s →
      exec (.commit b false) s = .next { committed with host := s.committedHost e.through }) ∧
    (∀ a w, s.host = .diverted a w → a.copy.bay = b → a.write = false →
      w = .queueMatch ∨ w = .grant → exec (.commit b false) s = .next (committed.absentRead a)) ∧
    ∀ c : Instr, c = .failedAttempt b false ∨ c = .responseTimeout b false → tr.left = 0 →
      let count := (s.bay b).lossCount + 1
      count < s.items.faultThreshold.toNat →
      (NothingStalled b s → exec c s = .next (left count (s.losesHead e))) ∧
      ∀ a w, s.host = .diverted a w → a.copy.bay = b → a.write = false →
        w = .queueMatch ∨ w = .grant →
        exec c s = .next ((left count (lose ⟨.writeFault, e.write, false⟩ s)).absentRead a)

/-- The last failed attempt of the head entry loses it with cause WRITE_FAULT: it leaves the queue,
the loss is taken, the consecutive-loss count rises by 1, and a waiting THROUGH host is released
with LOST. Below FAULT_THRESHOLD the drain engine goes on. In READY, or in DRAINING with entries left,
the place that frees takes a write waiting for it, or the link a waiting read; in REPLAY the place takes
the oldest eligible entry, and the bay stays in REPLAY, or replay ends, and a waiting access meets its
new state. At the threshold the bay enters FAULTED from REPLAY, READY and DRAINING alike, with a last
entry lost too: EJECT_DONE and RESUMED are not set, its queue is evacuated, its supply is off, and a
waiting access is finished under its window's absent policy (R41, R46, R48, R66 to R68, R71, R102, R108,
R131, R132; logs 7 to 10, 26, 32 and 35). -/
def Obligations.WriteFaultLosesTheHead : Prop :=
  ∀ (c : Instr) (b : BayId) (tr : Transfer) (n : BitVec 8) (e : QEntry) (es : List QEntry) (s : State),
    c = .failedAttempt b false ∨ c = .responseTimeout b false → s.rst = false →
    (s.bay b).link = .held .drain tr → tr.phase = .requested n → tr.left = 0 →
    (s.bay b).queue = e :: es →
    let lost := lose ⟨.writeFault, e.write, false⟩ s
    let took (queue : List QEntry) (link : Link) (u : State) : State :=
      modBay b
        (fun x => { x with
          queue := queue, lossCount := x.lossCount + 1, link := link, reqHigh := true }) u
    let fallen : State :=
      (modBay b
        (fun x => { x with
          state := .faulted, mount := { x.mount with supply := .none, cause := .writeFaults }
          drainTimer := none, ejectPending := false, lamp := false })
        (evacuate b (took es .free (s.losesHead e)))).raise (.bay b .faulted)
    ((s.bay b).lossCount + 1 < s.items.faultThreshold.toNat →
      ((s.bay b).state = .ready ∨ (s.bay b).state = .draining ∧ es ≠ [] →
        (NothingStalled b s →
          exec c s = .next (took es (linkAsked es true s .free) (s.losesHead e))) ∧
        ∀ a, a.copy.bay = b →
          (∀ serial stamp, s.host = .diverted a .space → (s.bay b).state = .ready → es.length < 16 →
            (s.bay b).mount.serial = some serial → (s.bay b).mount.stamp = some stamp →
            let q := es ++ [s.entry a serial stamp]
            exec c s =
              .next (took q (linkAsked q true s .free)
                { lost.accepts with host := s.acceptedHost a })) ∧
          (s.host = .diverted a .queueMatch → a.copy.region = .data →
            (∃ f ∈ es, f.write.addr = a.carrier) →
            exec c s = .next (took es (linkAsked es true s .free) lost)) ∧
          (s.host = .diverted a .grant ∨
              s.host = .diverted a .queueMatch ∧ (∀ f ∈ es, f.write.addr ≠ a.carrier) →
            exec c s =
              .next (took es (.held .read (s.readAttempt a true))
                { lost with host := .diverted a .onLink }))) ∧
      ((s.bay b).state = .replay →
        (NothingStalled b s →
          exec c s = .next (((took es .free (s.losesHead e)).replayed b).asks b)) ∧
        ∀ a, s.host = .diverted a .replay → a.copy.bay = b →
          exec c s = .next (((took es .free lost).replayed b).meets a fun t => t.asks b))) ∧
    (s.items.faultThreshold.toNat ≤ (s.bay b).lossCount + 1 → (s.bay b).state.serving = true →
      (∀ a w, s.host = .diverted a w → a.copy.bay = b →
        (a.write = false → w = .replay ∨ w = .queueMatch ∨ w = .grant →
          exec c s = .next (fallen.absentRead a)) ∧
        (a.write = true → w = .replay ∨ w = .space → exec c s = .next (fallen.absentWrite a))) ∧
      (NothingStalled b s →
        exec c s = .next fallen ∧
        (s.hold.length + es.length ≤ 48 →
          fallen.bay b =
            { s.bay b with
              state := .faulted, queue := [], lossCount := (s.bay b).lossCount + 1, link := .free
              reqHigh := true
              mount := { (s.bay b).mount with supply := .none, cause := .writeFaults }
              drainTimer := none, ejectPending := false, lamp := false } ∧
          fallen.bay (otherBay b) = s.bay (otherBay b) ∧
          fallen.lost = s.lost + 1 ∧ fallen.lossLog = lost.lossLog ∧
          fallen.summary = lost.summary ∧ fallen.accepted = s.accepted ∧
          fallen.committed = s.committed ∧
          fallen.latch (.bay b .faulted) = true ∧ fallen.latch .loss = true ∧
          fallen.latch (.bay b .ejectDone) = s.latch (.bay b .ejectDone) ∧
          fallen.latch (.bay b .resumed) = s.latch (.bay b .resumed) ∧
          fallen.hold.Perm (s.hold ++ es.map fun q => ⟨q.ord, q.write, false⟩))))

/-- ACK to a host read: the host is released normally with the named lanes of the returned halfword,
and the link comes free for the next entry, whose xREQ waits for the request-high time; the byte of a
lane that the read does not name is a free value of the model (R30, R47, R71, R166; logs 14 and 35).
-/
def Obligations.ReadAnswerReleasesTheHost : Prop :=
  ∀ (b : BayId) (data : Half) (a : Access) (tr : Transfer) (n : BitVec 8) (s : State),
    s.rst = false → s.host = .diverted a .onLink → a.copy.bay = b →
    (s.bay b).link = .held .read tr → tr.phase = .requested n → (s.bay b).state.serving = true →
    ∃ h : BusHalf,
      exec (.readTransferAnswer b data false) s =
        .next (modBay b
          (fun x => { x with reqHigh := true, link := linkAsked x.queue true s .free })
          { s with host := .released false (some h), free := s.free + 1 }) ∧
      (a.lanes ≠ .high → h.lo = data.extractLsb' 0 8) ∧
      (a.lanes ≠ .low → h.hi = data.extractLsb' 8 8)

/-- The end of an abandoned transfer frees the link: its answer is ignored, and the link goes to the
read that waits at it, or to the drain engine (R71, R73). The xREQ of the next transfer waits for
the request-high time (R166; log 35). -/
def Obligations.AbandonedTransferFreesTheLink : Prop :=
  ∀ (b : BayId) (tr : Transfer) (n : BitVec 8) (s : State), s.rst = false →
    (s.bay b).link = .abandoned tr → tr.phase = .requested n → (s.bay b).state.serving = true →
    (∀ a, s.host = .diverted a .grant → a.copy.bay = b →
      (s.bay b).state = .ready ∨ (s.bay b).state = .draining →
      exec (.abandonedTransferEnd b) s =
        .next (modBay b
          (fun x => { x with reqHigh := true, link := .held .read (s.readAttempt a true) })
          { s with host := .diverted a .onLink })) ∧
    ((∀ a, s.host = .diverted a .grant → a.copy.bay ≠ b ∨ (s.bay b).state = .replay) →
      exec (.abandonedTransferEnd b) s =
        .next (modBay b
          (fun x => { x with reqHigh := true, link := linkAsked x.queue true s .free }) s))

/-! ### Mounting -/

/-- Both detect contacts made take an EMPTY bay to DEBOUNCE with a new timer; a break takes it back with
no event (R80, R81; the contact levels as last sampled: log 15). -/
def Obligations.DetectAndDebounce : Prop :=
  ∀ (b : BayId) (s : State), s.rst = false →
    ((s.bay b).state = .empty →
      exec (.detectMake b) s =
        .next (modBay b
          (fun x => { x with
            state := .debounce, debounceTimer := some s.items.debounceMs
            mount := { x.mount with cause := .none }
            contacts := { x.contacts with det1 := true, det2 := true } })
          s)) ∧
    ∀ k, (s.bay b).state = .debounce →
      exec (.debounceBreak b k) s =
        .next (modBay b
          (fun x => { x with
            state := .empty, debounceTimer := none, mount := { x.mount with cause := .none }
            contacts :=
              match k with
              | .det1 => { x.contacts with det1 := false }
              | .det2 => { x.contacts with det2 := false } })
          s)

/-- The key read at the end of a debounce, which sets INSERTED, and at RETRY_BAY: the mount record's
fields are cleared, and the keys and the bay's supply mask find the carrier UNSUPPORTED or choose
the lower voltage they both permit. POWERING waits for power-good, and is left at once when it is
found asserted; the xREQ of the first descriptor read waits for a request-high time that still runs
(R81 to R84, R100, R166; the key levels and power-good as sampled: logs 15 and 28). -/
def Obligations.KeyReadChoosesTheSupply : Prop :=
  ∀ (c : Instr) (b : BayId) (k : KeySample) (s u : State),
    (c = .debounceExpiry b k ∧ s.rst = false ∧ (s.bay b).state = .debounce ∧
        (s.bay b).debounceTimer.isSome = true ∧ u = s.raise (.bay b .inserted)) ∨
      (∃ n, c = .retryBay n k ∧ bayArg n = some b ∧ Listening s ∧ u = s.reply 1 .ok [] ∧
        ((s.bay b).state = .unsupported ∨ (s.bay b).state = .rejected ∨
          (s.bay b).state = .faulted)) →
    (s.bay b).link = .free →
    let mask := match b with | .A => s.items.supplyMaskA | .B => s.items.supplyMaskB
    let low := k.k2 = true ∧ (mask = .v18 ∨ mask = .both)
    let high := k.k1 = true ∧ (mask = .v33 ∨ mask = .both)
    let read (x : Bay) (supply : Supply) (cause : MountCause) : Bay :=
      { x with
        debounceTimer := none
        contacts := { x.contacts with k1 := k.k1, k2 := k.k2, pgood := k.pgood }
        mount :=
          { cause := cause, supply := supply, serial := none, capacity := none, stamp := none,
            locked := false, verdict := .none } }
    (∀ cause, ¬low → ¬high →
      cause = (if k.k1 = false ∧ k.k2 = false then .noKey else .supplyNotAllowed) →
      exec c s =
        .next (modBay b
          (fun x => { read x x.mount.supply cause with state := .unsupported })
          (u.raise (.bay b .unsupported)))) ∧
    ∀ v, low ∧ v = .v18 ∨ ¬low ∧ high ∧ v = .v33 →
      (k.pgood = false →
        exec c s =
          .next (modBay b (fun x => { read x v .none with state := .powering, powerTimer := some 50 })
            u)) ∧
      (k.pgood = true →
        exec c s =
          .next (modBay b
            (fun x => { read x v .none with
              state := .identifying, powerTimer := none, identTimer := some 100
              ident := some ⟨[], none⟩
              link := .held .ident
                ⟨.descriptor, 0, .both, false, 0, s.items.retryLimit.toNat,
                  s.firstAttempt x.reqHigh⟩ })
            u))

/-- Power-good in POWERING starts the identification sequence with its first descriptor read; the two
mount timers end a mount in REJECTED, and an identification timer that finds the bay out of
IDENTIFYING does nothing (R84, R85, R96; logs 4 and 15). -/
def Obligations.PowerGoodAndMountTimers : Prop :=
  ∀ (b : BayId) (s : State), s.rst = false →
    ((s.bay b).state = .powering → (s.bay b).link = .free →
      exec (.powerGoodRise b) s =
        .next (modBay b
          (fun x => { x with
            state := .identifying, powerTimer := none, identTimer := some 100
            ident := some ⟨[], none⟩, mount := { x.mount with cause := .none }
            contacts := { x.contacts with pgood := true }
            link := .held .ident
              ⟨.descriptor, 0, .both, false, 0, s.items.retryLimit.toNat, s.firstAttempt x.reqHigh⟩ })
          s)) ∧
    ((s.bay b).state = .powering → (s.bay b).powerTimer.isSome = true →
      exec (.powerTimerExpiry b) s = .next (s.rejected b .powerTimeout)) ∧
    ((s.bay b).state = .identifying → (s.bay b).identTimer.isSome = true →
      exec (.identificationTimerExpiry b) s = .next (s.rejected b .idTimeout)) ∧
    ((s.bay b).state ≠ .identifying → exec (.identificationTimerExpiry b) s = .next s)

/-- The descriptor is read as sixteen halfwords in ascending order; the answer to the sixteenth
finds an unrecognized carrier, or one whose serial the other bay holds identified (R86, R87, R97;
the lock level as sampled: logs 15 and 28). The xREQ of each next read waits for the request-high
time (R166; log 35). -/
def Obligations.DescriptorIsReadAndChecked : Prop :=
  ∀ (b : BayId) (data : Half) (lock : Bool) (tr : Transfer) (n : BitVec 8) (halves : List Half)
    (s : State), s.rst = false → (s.bay b).state = .identifying →
    (s.bay b).link = .held .ident tr → tr.phase = .requested n →
    (s.bay b).ident = some ⟨halves, none⟩ →
    let d := halves ++ [data]
    let valid := descSignature d = 0x5A3C#16 ∧ descVersion d = 1#8 ∧ descSerial d ≠ 0#64 ∧
      1 ≤ (descCapacity d).toNat ∧ (descCapacity d).toNat ≤ 16384
    (halves.length < 15 →
      exec (.descriptorReadAnswer b data lock false) s =
        .next (modBay b
          (fun x => { x with
            ident := some ⟨d, none⟩, reqHigh := true
            link := .held .ident
              ⟨.descriptor, halves.length + 1, .both, false, 0, s.items.retryLimit.toNat, .presenting⟩ })
          s)) ∧
    (halves.length = 15 → ¬valid →
      exec (.descriptorReadAnswer b data lock false) s =
        .next (State.rejected
          (modBay b (fun x => { x with contacts := { x.contacts with lock := lock } }) s)
          b .unrecognized)) ∧
    (halves.length = 15 → valid → (s.bay (otherBay b)).identified = true →
      (s.bay (otherBay b)).mount.serial = some (descSerial d) →
      exec (.descriptorReadAnswer b data lock false) s =
        .next (State.rejected
          (modBay b
            (fun x => { x with
              contacts := { x.contacts with lock := lock }
              mount := { x.mount with
                serial := some (descSerial d), capacity := some (descCapacity d) } })
            s)
          b .conflict))

/-- The LOCKED verdict: the hold store is not touched, no binding is made and no sequence value taken;
the mount record and the bay's last-carrier record take the slot stamp, or none, and the bay is READY
with IDENTIFIED set (R88, R89, R95, R98). -/
def Obligations.LockedCarrierIsMountedReadable : Prop :=
  ∀ (b : BayId) (data : Half) (tr : Transfer) (n : BitVec 8) (halves : List Half) (s : State),
    s.rst = false → (s.bay b).state = .identifying → (s.bay b).link = .held .ident tr →
    tr.phase = .requested n →
    (s.bay b).ident = some ⟨halves, none⟩ → halves.length = 15 → (s.bay b).queue = [] →
    NothingStalled b s →
    let d := halves ++ [data]
    let slot := if descWord d 14 = ~~~(descWord d 8 + descWord d 10 + descWord d 12)
      then some (⟨descWord d 8, descWord d 10, descWord d 12⟩ : Stamp) else none
    descriptorValid d = true →
    ((s.bay (otherBay b)).identified = true →
      (s.bay (otherBay b)).mount.serial ≠ some (descSerial d)) →
    exec (.descriptorReadAnswer b data true false) s =
      .next (modBay b
        (fun x => { x with
          state := .ready, link := .free, reqHigh := true, powerTimer := none
          identTimer := none, ident := none
          contacts := { x.contacts with lock := true }
          last := some ⟨descSerial d, descCapacity d, .locked slot⟩
          mount :=
            { cause := .none, supply := x.mount.supply, serial := some (descSerial d),
              capacity := some (descCapacity d), stamp := slot, locked := true,
              verdict := .locked } })
        (s.raise (.bay b .identified)))

/-- A binding begins: hold entries of the serial whose stamp is not the slot's become stale, STALE_FOUND
reports them, a sequence value is taken, and the first of eight writes is presented; each ACK presents
the next, in the order device number, epoch, sequence, check word, low halfword first (R90 to R93,
R128; logs 15 and 30). The xREQ of each waits for the request-high time (R166; log 35). -/
def Obligations.BindingIsWritten : Prop :=
  (∀ (b : BayId) (data : Half) (tr : Transfer) (n : BitVec 8) (halves : List Half) (s : State),
    s.rst = false → (s.bay b).state = .identifying → (s.bay b).link = .held .ident tr →
    tr.phase = .requested n →
    (s.bay b).ident = some ⟨halves, none⟩ → halves.length = 15 →
    let d := halves ++ [data]
    let unvouched (e : HoldEntry) : Bool :=
      e.write.serial == descSerial d && slotStamp d != some e.write.stamp
    let stamp : Stamp := ⟨s.deviceNumber, s.items.epoch, s.mountSeq⟩
    descriptorValid d = true →
    ((s.bay (otherBay b)).identified = true →
      (s.bay (otherBay b)).mount.serial ≠ some (descSerial d)) →
    ∃ v : Verdict,
      exec (.descriptorReadAnswer b data false false) s =
        .next (modBay b
          (fun x => { x with
            contacts := { x.contacts with lock := false }
            mount := { x.mount with
              serial := some (descSerial d), capacity := some (descCapacity d) }
            ident := some ⟨d, some ⟨stamp, 0, v⟩⟩, reqHigh := true
            link := .held .ident
              ⟨.descriptor, 8, .both, true, s.deviceNumber.extractLsb' 0 16,
                s.items.retryLimit.toNat, .presenting⟩ })
          { (if s.hold.any fun e => !e.stale && unvouched e then s.raise (.bay b .staleFound) else s) with
            mountSeq := s.mountSeq + 1
            hold := s.hold.map fun e => { e with stale := e.stale || unvouched e } })) ∧
  ∀ (b : BayId) (tr : Transfer) (n : BitVec 8) (halves : List Half) (w : Binding) (s : State),
    s.rst = false → (s.bay b).state = .identifying → (s.bay b).link = .held .ident tr →
    tr.phase = .requested n →
    (s.bay b).ident = some ⟨halves, some w⟩ → w.answered < 7 →
    let t := w.stamp
    let check : Word := ~~~(t.device + t.epoch + t.sequence)
    let data : Half := ([t.device.extractLsb' 16 16, t.epoch.extractLsb' 0 16,
      t.epoch.extractLsb' 16 16, t.sequence.extractLsb' 0 16, t.sequence.extractLsb' 16 16,
      check.extractLsb' 0 16, check.extractLsb' 16 16] : List Half).getD w.answered 0
    exec (.bindingWriteAnswer b false) s =
      .next (modBay b
        (fun x => { x with
          ident := some ⟨halves, some { w with answered := w.answered + 1 }⟩, reqHigh := true
          link := .held .ident
            ⟨.descriptor, 9 + w.answered, .both, true, data, s.items.retryLimit.toNat, .presenting⟩ })
        s)

/-- The eighth ACK completes the binding. Entries of the serial whose stamp the slot does not hold
become stale, and STALE_FOUND reports those newly marked; those that are not stale after the test
take the new stamp; the verdict is RESUME if there is one, STALE if only stale ones remain, CLEAN if
none; the mount record, the consecutive-loss count and the last-carrier records are set; and the
entries re-stamped replay into the queue in their order. When all find room the bay is READY in this
step; with more of them than places the sixteen oldest move, and the bay stays in REPLAY (R94, R95,
R98, R131, R132; log 9). The xREQ of the first of them waits for the request-high time (R166; log
35). -/
def Obligations.BindingCompletes : Prop :=
  ∀ (b : BayId) (tr : Transfer) (k : BitVec 8) (halves : List Half) (w : Binding) (s : State),
    s.rst = false → (s.bay b).state = .identifying → (s.bay b).link = .held .ident tr →
    tr.phase = .requested k →
    (s.bay b).ident = some ⟨halves, some w⟩ → w.answered = 7 → (s.bay b).queue = [] →
    (s.bay b).ejectPending = false → (s.bay b).mount.serial = some (descSerial halves) →
    NothingStalled b s →
    let n := descSerial halves
    let vouched (e : HoldEntry) : Bool :=
      e.write.serial == n && !e.stale && slotStamp halves == some e.write.stamp
    let unvouched (e : HoldEntry) : Bool :=
      e.write.serial == n && !e.stale && slotStamp halves != some e.write.stamp
    let bound (e : HoldEntry) : HoldEntry := { e with write := { e.write with stamp := w.stamp } }
    let judged (e : HoldEntry) : HoldEntry := { e with stale := e.stale || e.write.serial == n }
    let moved : List QEntry :=
      ((s.hold.filter vouched).take 16).map fun e => ⟨e.ord, (bound e).write, false⟩
    ∃ t, exec (.bindingWriteAnswer b false) s = .next t ∧
      t.bay b =
        { s.bay b with
          state := (t.bay b).state, lossCount := 0, ident := none, powerTimer := none
          identTimer := none, reqHigh := true, queue := moved
          link := linkAsked moved true s .free
          last := some ⟨n, descCapacity halves, .bound w.stamp⟩
          mount :=
            { (s.bay b).mount with
              cause := .none, stamp := some w.stamp, locked := false
              verdict :=
                if s.hold.any vouched then .resume
                else if s.hold.any fun e => e.write.serial == n then .stale
                else .clean } } ∧
      t.bay (otherBay b) =
        { s.bay (otherBay b) with
          last := (s.bay (otherBay b)).last.filter fun r => decide (r.serial ≠ n) } ∧
      t.latch (.bay b .identified) = true ∧
      t.latch (.bay b .staleFound) = (s.latch (.bay b .staleFound) || s.hold.any unvouched) ∧
      ((s.hold.filter vouched).length ≤ 16 →
        (t.bay b).state = .ready ∧
        t.hold = (s.hold.filter fun e => !vouched e).map judged ∧
        (s.hold.any vouched = true → t.latch (.bay b .resumed) = true)) ∧
      (16 < (s.hold.filter vouched).length →
        (t.bay b).state = .replay ∧
        t.hold =
          (withoutFirst vouched 16 s.hold).map (fun e => if vouched e then bound e else judged e) ∧
        t.latch (.bay b .resumed) = s.latch (.bay b .resumed)) ∧
      t.accepted = s.accepted ∧ t.committed = s.committed ∧ t.lost = s.lost ∧
      t.mountSeq = s.mountSeq ∧ t.host = s.host ∧ t.hostError = s.hostError

/-! ### Leaving service -/

/-- The three events that end a bay's service with its queue evacuated: the supply goes off, the
timer and the flag are cleared, and the bay enters its new state with its latches; a DRAINING bay
that leaves so by removal or power loss sets no eject latch. A THROUGH host that waits on an entry
is released by the evacuation; a read of the bay that waits is finished under its window's
absent-reads policy, and a write that waits under its absent-writes policy, against a hold store
that already holds the evacuated entries (R39, R48, R50, R102, R103, R107, R115, R118; logs 8, 15
and 32). -/
def Obligations.ServiceEnds : Prop :=
  ∀ (c : Instr) (b : BayId) (st : BayState) (cause : MountCause) (l : List Latch)
    (k : Contacts → Contacts) (s : State), s.rst = false →
    (s.bay b).state.serving = true ∧
        ((∃ d, c = .removal b d false ∧ st = .empty ∧ cause = .none ∧ l = [.bay b .removed] ∧
            k = fun x =>
              match d with
              | .det1 => { x with det1 := false }
              | .det2 => { x with det2 := false }) ∨
          (c = .powerLoss b false ∧ st = .faulted ∧ cause = .powerLost ∧ l = [.bay b .faulted] ∧
            k = fun x => { x with pgood := false })) ∨
      (s.bay b).state = .draining ∧ (s.bay b).drainTimer.isSome = true ∧
        c = .drainTimeout b false ∧ st = .released ∧ cause = .none ∧
        l = [.bay b .ejectDone, .bay b .drainTimeout] ∧ k = (fun x => x) →
    let left : State :=
      l.foldl State.raise
        (modBay b
          (fun x => { x with
            state := st, link := .free, reqHigh := x.link.request || x.reqHigh
            drainTimer := none, ejectPending := false
            lamp := decide (st = .released), contacts := k x.contacts
            mount := { x.mount with supply := .none, cause := cause } })
          (evacuate b s))
    (NothingStalled b s → exec c s = .next left) ∧
    ∀ a w, s.host = .diverted a w → a.copy.bay = b →
      (a.write = false → w = .replay ∨ w = .queueMatch ∨ w = .grant ∨ w = .onLink →
        exec c s = .next (left.absentRead a)) ∧
      (a.write = true → w = .replay ∨ w = .space → exec c s = .next (left.absentWrite a))

/-- An evacuation: the head is flagged uncertain when its write transfer is in flight, which it is
from the grant on, but for an evacuation in the request-high time after an ACK, which flags no
remaining entry; the entries are offered in acceptance order, the oldest join the hold store while
it has room, with stale clear, and the others are lost with cause HOLD_FULL, one at a time; the host
that waits on an entry is released with HELD or LOST; no other counter changes (R43, R64, R74, R75,
R102, R125, R127, R166; log 35). -/
def Obligations.EvacuationKeepsTheOldest : Prop :=
  ∀ (b : BayId) (s : State),
    let t := evacuate b s
    let room := 48 - s.hold.length
    ∃ q : List QEntry,
      q.Perm
        (match (s.bay b).queue with
          | [] => []
          | e :: es =>
              { e with write :=
                { e.write with uncertain := e.write.uncertain ||
                  (match (s.bay b).link with
                    | .held .drain tr => decide (tr.phase ≠ .afterAck)
                    | _ => false) } } :: es) ∧
      (InOrder s → (q.map QEntry.ord).Pairwise (· < ·) ∧ (t.hold.map HoldEntry.ord).Pairwise (· < ·)) ∧
      t.bay b = { s.bay b with queue := [] } ∧ t.bay (otherBay b) = s.bay (otherBay b) ∧
      t.hold.Perm (s.hold ++ (q.take room).map fun e => ⟨e.ord, e.write, false⟩) ∧
      (let lost := (q.drop room).foldl (fun s e => lose ⟨.holdFull, e.write, false⟩ s) s
       t.lost = lost.lost ∧ t.lossLog = lost.lossLog ∧ t.summary = lost.summary) ∧
      t.accepted = s.accepted ∧ t.committed = s.committed ∧
      ((∀ e ∈ q, e.through = false) → t.host = s.host ∧ t.hostError = s.hostError) ∧
      (∀ a num i e, s.host = .diverted a (.fate num) → q[i]? = some e → e.through = true →
        (∀ j < i, ∀ x, q[j]? = some x → x.through = false) →
        t.host = (s.errorRelease a (if i < room then .held else .lost) (some num)).host ∧
        t.hostError = (s.errorRelease a (if i < room then .held else .lost) (some num)).hostError) ∧
      (0 < room → q ≠ [] → s.items.holdThreshold.toNat ≤ t.hold.length →
        t.latch .holdHigh = true) ∧
      (room < q.length → t.latch .loss = true)

/-- Removal and power loss outside service: the mount is given up with its timers and its sequence; a
stopped carrier only leaves its bay; a fall of power-good in any other state changes nothing (R104,
R105, R107; logs 4, 15 and 34). -/
def Obligations.MountEndsAndCarriersLeave : Prop :=
  ∀ (b : BayId) (d : DetContact) (s : State), s.rst = false →
    let broken (x : Contacts) : Contacts :=
      match d with
      | .det1 => { x with det1 := false }
      | .det2 => { x with det2 := false }
    let ended (st : BayState) (cause : MountCause) (x : Bay) : Bay :=
      { x with
        state := st, link := .free, reqHigh := x.link.request || x.reqHigh
        powerTimer := none, identTimer := none, ident := none
        mount := { x.mount with supply := .none, cause := cause } }
    ((s.bay b).state = .powering ∨ (s.bay b).state = .identifying →
      exec (.removalDuringMount b d) s =
        .next (modBay b (fun x => { ended .empty .none x with contacts := broken x.contacts })
          (s.raise (.bay b .removed)))) ∧
    ((s.bay b).state = .identifying →
      exec (.powerLoss b false) s =
        .next (modBay b
          (fun x => { ended .faulted .powerLost x with contacts := { x.contacts with pgood := false } })
          (s.raise (.bay b .faulted)))) ∧
    ((s.bay b).state ≠ .identifying → (s.bay b).state.serving = false →
      exec (.powerLoss b false) s = .next s) ∧
    ((s.bay b).state = .unsupported ∨ (s.bay b).state = .rejected ∨ (s.bay b).state = .faulted ∨
        (s.bay b).state = .released →
      exec (.removalOfStoppedCarrier b d) s =
        .next (modBay b
          (fun x => { x with
            state := .empty, lamp := false, contacts := broken x.contacts
            mount := { x.mount with cause := .none } })
          (s.raise (.bay b .removed))))

/-! ### Eject and the last-carrier record -/

/-- EJECT and CANCEL_EJECT by the bay's state. EJECT takes READY to DRAINING with its timer, and on
to RELEASED when the queue is empty; a write that waits for queue space is refused with EJECTING, a
read that waits goes on waiting in DRAINING and is finished under its absent-reads policy in
RELEASED; in REPLAY the eject is held pending. CANCEL_EJECT takes either back (R39, R48, R110, R111,
R114, R117; log 8). -/
def Obligations.EjectAndCancel : Prop :=
  ∀ (n : Byte) (b : BayId) (s : State), Listening s → bayArg n = some b →
    let drained : State :=
      modBay b
        (fun x => { x with
          state := .draining, drainTimer := some s.items.drainMs
          link := linkAsked x.queue x.reqHigh s x.link
          mount := { x.mount with cause := .none } })
        s
    let released : State :=
      modBay b
        (fun x => { x with
          state := .released, lamp := true, link := .free, reqHigh := x.link.request || x.reqHigh
          drainTimer := none, ejectPending := false
          mount := { x.mount with supply := .none, cause := .none } })
        (s.raise (.bay b .ejectDone))
    let back : State :=
      modBay b
        (fun x => { x with
          state := .ready, drainTimer := none, mount := { x.mount with cause := .none } })
        s
    ((s.bay b).state = .ready → (s.bay b).queue ≠ [] →
      NothingStalled b s ∨
        Settled s ∧ (∃ a w, s.host = .diverted a w ∧ a.copy.bay = b ∧ a.write = false) →
      exec (.eject n) s = .next (drained.reply 1 .ok [])) ∧
    (∀ a, (s.bay b).state = .ready → (s.bay b).queue ≠ [] → s.host = .diverted a .space →
      a.copy.bay = b → a.write = true →
      exec (.eject n) s = .next ((drained.errorRelease a .ejecting none).reply 1 .ok [])) ∧
    ((s.bay b).state = .ready → (s.bay b).queue = [] →
      (NothingStalled b s → exec (.eject n) s = .next (released.reply 1 .ok [])) ∧
      ∀ a w, s.host = .diverted a w → a.copy.bay = b → a.write = false →
        w = .queueMatch ∨ w = .grant ∨ w = .onLink →
        exec (.eject n) s = .next ((released.absentRead a).reply 1 .ok [])) ∧
    ((s.bay b).state = .replay →
      exec (.eject n) s =
        .next ((modBay b (fun x => { x with ejectPending := true }) s).reply 1 .ok [])) ∧
    ((s.bay b).state ≠ .ready → (s.bay b).state ≠ .replay →
      exec (.eject n) s = .next (s.reply 1 .badState [])) ∧
    ((s.bay b).state = .draining → exec (.cancelEject n) s = .next (back.reply 1 .ok [])) ∧
    ((s.bay b).state = .replay → (s.bay b).ejectPending = true →
      exec (.cancelEject n) s =
        .next ((modBay b (fun x => { x with ejectPending := false }) s).reply 1 .ok [])) ∧
    ((s.bay b).state ≠ .draining → ¬((s.bay b).state = .replay ∧ (s.bay b).ejectPending = true) →
      exec (.cancelEject n) s = .next (s.reply 1 .badState []))

/-- FORGET makes the last-carrier record absent in any bay state and touches nothing else; READ_BAY
returns the bay as it stands in the 51 bytes of its layout and changes nothing: a record or stamp
that is absent is zero bytes (R119, R164, R174). -/
def Obligations.ForgetAndReadBay : Prop :=
  ∀ (n : Byte) (b : BayId) (s : State), Listening s → bayArg n = some b →
    let x := s.bay b
    let two (h : Half) : List Byte := [h.extractLsb' 8 8, h.extractLsb' 0 8]
    let stamp (t : Option Stamp) : List Byte :=
      match t with
      | some t => wordBytes t.device ++ wordBytes t.epoch ++ wordBytes t.sequence
      | none => List.replicate 12 0#8
    let slot (r : LastCarrier) : Option Stamp :=
      match r.stamp with
      | .bound t => some t
      | .locked t => t
    exec (.forget n) s = .next ((modBay b (fun x => { x with last := none }) s).reply 1 .ok []) ∧
    ∃ (flags : Byte) (last : List Byte),
      exec (.readBay n) s =
        .next (s.reply 1 .ok
          ([x.state.code, x.mount.cause.code, x.mount.supply.code, x.mount.verdict.code, flags,
            BitVec.ofNat 8 x.lossCount, BitVec.ofNat 8 x.queue.length] ++
            serialBytes (x.mount.serial.getD 0) ++ two (x.mount.capacity.getD 0) ++
            stamp x.mount.stamp ++ last)) ∧
      last.length = 22 ∧
      flags.getLsbD 0 = (x.mount.serial.isSome && x.mount.capacity.isSome) ∧
      flags.getLsbD 1 = x.mount.stamp.isSome ∧ flags.getLsbD 2 = x.mount.locked ∧
      flags.getLsbD 3 = x.ejectPending ∧ flags.getLsbD 4 = x.last.isSome ∧
      flags.getLsbD 7 = false ∧
      (x.last = none → last = List.replicate 22 0#8 ∧ flags.getLsbD 5 = false ∧
        flags.getLsbD 6 = false) ∧
      ∀ r, x.last = some r →
        last = serialBytes r.serial ++ two r.capacity ++ stamp (slot r) ∧
        flags.getLsbD 5 = (slot r).isSome ∧
        (flags.getLsbD 6 = true ↔ ∃ t, r.stamp = .locked t)

/-! ### Replay and the hold store -/

/-- FORCE_REPLAY: the checks in their order; then the stale entries of the mounted serial are
re-stamped with stale clear and forced set, the bay enters REPLAY, and they move with the other
eligible entries behind the queue, oldest first. When all find room replay ends in the step; with
more of them than places the bay stays in REPLAY. A read in progress at the bay is finished under
its absent-reads policy, and its transfer, if its xREQ is asserted, is abandoned and goes on
occupying the link; a write that waits for space stalls in REPLAY, where a full queue leaves it
(R39, R48, R73, R131, R132, R137, R138, R166; logs 8 and 9). -/
def Obligations.ForcedEntriesReplay : Prop :=
  ∀ (n : Byte) (b : BayId) (s : State), Listening s → bayArg n = some b →
    let m := (s.bay b).mount
    ((s.bay b).state ≠ .ready → exec (.forceReplay n false) s = .next (s.reply 1 .badState [])) ∧
    (m.locked = true → exec (.forceReplay n false) s = .next (s.reply 1 .badState [])) ∧
    ((s.bay b).state = .ready → m.locked = false →
      (∀ e ∈ s.hold, e.stale = true → m.serial ≠ some e.write.serial) →
      exec (.forceReplay n false) s = .next (s.reply 1 .empty [])) ∧
    ∀ serial t, (s.bay b).state = .ready → m.locked = false → m.serial = some serial →
      m.stamp = some t → (s.bay b).ejectPending = false →
      (∃ e ∈ s.hold, e.stale = true ∧ e.write.serial = serial) →
      let force (e : HoldEntry) : HoldEntry :=
        if e.stale && e.write.serial == serial then
          { e with stale := false, write := { e.write with stamp := t, forced := true } }
        else e
      let goes (e : HoldEntry) : Bool := e.write.serial == serial && (e.stale || e.write.stamp == t)
      let moved : List QEntry := (s.hold.filter goes).map fun e =>
        ⟨e.ord, { e.write with stamp := t, forced := e.write.forced || e.stale }, false⟩
      let room := 16 - (s.bay b).queue.length
      let entered (u : State) : State :=
        modBay b (fun x => { x with state := .replay, mount := { x.mount with cause := .none } })
          { u with hold := s.hold.map force }
      (NothingStalled b s →
        ((s.bay b).queue.length + moved.length ≤ 16 →
          exec (.forceReplay n false) s =
            .next ((modBay b
              (fun x => { x with
                queue := x.queue ++ moved, link := linkAsked (x.queue ++ moved) x.reqHigh s x.link
                mount := { x.mount with cause := .none } })
              { s.raise (.bay b .resumed) with
                hold := s.hold.filter fun e => !goes e }).reply 1 .ok [])) ∧
        (room < moved.length →
          let queue := (s.bay b).queue ++ moved.take room
          exec (.forceReplay n false) s =
            .next ((modBay b
              (fun x => { x with
                state := .replay, queue := queue, link := linkAsked queue x.reqHigh s x.link
                mount := { x.mount with cause := .none } })
              { s with hold := (withoutFirst goes room s.hold).map force }).reply 1 .ok []))) ∧
      ∀ a, a.copy.bay = b →
        (s.host = .diverted a .space → 16 ≤ (s.bay b).queue.length →
          exec (.forceReplay n false) s =
            .next (((entered { s with host := .diverted (a.stalled s) .replay }).asks b).reply 1 .ok
              [])) ∧
        (s.host = .diverted a .queueMatch ∨ s.host = .diverted a .grant →
          exec (.forceReplay n false) s =
            .next (((entered (s.absentRead a)).replayed b).asks b |>.reply 1 .ok [])) ∧
        ∀ tr, s.host = .diverted a .onLink → (s.bay b).link = .held .read tr →
          let left : Link := match tr.phase with
            | .requested _ => .abandoned tr
            | .afterAck | .presenting => .free
          exec (.forceReplay n false) s =
            .next ((((modBay b (fun x => { x with link := left })
              (entered (s.absentRead a))).replayed b).asks b).reply 1 .ok [])

/-- The moves of replay: eligible entries, oldest first, one for each free place of the queue.
Replay ends when none remains: RESUMED is set and the bay is READY, or DRAINING when an eject is
pending, and through it RELEASED with EJECT_DONE when the queue is empty. An access that waits in
REPLAY meets the bay as this leaves it (R39, R111, R114, R118, R130 to R132; logs 8, 9 and 26). -/
def Obligations.ReplayMovesTheOldest : Prop :=
  ∀ (b : BayId) (s : State), s.rst = false → (s.bay b).state = .replay →
    let m := (s.bay b).mount
    let fit (e : HoldEntry) : Bool :=
      !e.stale && m.serial == some e.write.serial && m.stamp == some e.write.stamp
    let room := 16 - (s.bay b).queue.length
    let moved : List QEntry :=
      ((s.hold.filter fit).take room).map fun e => ⟨e.ord, e.write, false⟩
    let queue := (s.bay b).queue ++ moved
    (NothingStalled b s →
      ((s.hold.filter fit).length ≤ room → (s.bay b).ejectPending = false →
        exec (.replayMove b) s =
          .next (modBay b
            (fun x => { x with
              state := .ready, queue := queue, link := linkAsked queue x.reqHigh s x.link
              mount := { x.mount with cause := .none } })
            { s.raise (.bay b .resumed) with hold := s.hold.filter fun e => !fit e })) ∧
      ((s.hold.filter fit).length ≤ room → (s.bay b).ejectPending = true → queue ≠ [] →
        exec (.replayMove b) s =
          .next (modBay b
            (fun x => { x with
              state := .draining, ejectPending := false, drainTimer := some s.items.drainMs
              queue := queue, link := linkAsked queue x.reqHigh s x.link
              mount := { x.mount with cause := .none } })
            { s.raise (.bay b .resumed) with hold := s.hold.filter fun e => !fit e })) ∧
      ((∀ e ∈ s.hold, fit e = false) → (s.bay b).ejectPending = true → (s.bay b).queue = [] →
        exec (.replayMove b) s =
          .next (modBay b
            (fun x => { x with
              state := .released, ejectPending := false, drainTimer := none, lamp := true
              link := .free, reqHigh := x.link.request || x.reqHigh
              mount := { x.mount with supply := .none, cause := .none } })
            ((s.raise (.bay b .resumed)).raise (.bay b .ejectDone)))) ∧
      (room < (s.hold.filter fit).length →
        ∃ rest : List HoldEntry,
          exec (.replayMove b) s =
            .next (modBay b
              (fun x => { x with queue := queue, link := linkAsked queue x.reqHigh s x.link })
              { s with hold := rest }) ∧
          rest.Sublist s.hold ∧ rest.filter fit = (s.hold.filter fit).drop room ∧
          rest.filter (fun e => !fit e) = s.hold.filter fun e => !fit e)) ∧
    ∀ a, s.host = .diverted a .replay → a.copy.bay = b →
      exec (.replayMove b) s = .next ((s.replayed b).meets a fun t => t.asks b)

/-- DISCARD_HELD: the entries of the serial, or of every serial for 0, and of scope STALE the stale
ones alone, are lost with cause DISCARDED, one at a time in acceptance order, and counted; a count
of 0 leaves everything. A bay in REPLAY goes on while an eligible entry remains. When its last eligible
entry goes, replay ends in the step: RESUMED is set, and the bay is READY, or DRAINING when an eject is
pending, and an access that waits in REPLAY meets its new state; both bays may end their replay so (R39,
R111, R132, R139, R140). No work is left due when the command comes (`Settled`, logs 6 to 10). -/
def Obligations.DiscardHeldLosesTheSelected : Prop :=
  ∀ (serial : Serial) (scope : Byte) (s : State), Listening s →
    let chosen (e : HoldEntry) : Bool :=
      (serial == 0 || e.write.serial == serial) && (scope == 1 || e.stale)
    let lost : State :=
      { (s.hold.filter chosen).foldl (fun s e => lose ⟨.discarded, e.write, e.stale⟩ s) s with
        hold := s.hold.filter fun e => !chosen e }
    let count : Byte := BitVec.ofNat 8 (s.hold.filter chosen).length
    let goesOn (b : BayId) : Prop :=
      (s.bay b).state = .replay → ∃ e ∈ lost.hold, eligible (s.bay b).mount e = true
    let ends (b : BayId) : Prop :=
      (s.bay b).state = .replay ∧ ∀ e ∈ lost.hold, eligible (s.bay b).mount e = false
    let ended (b : BayId) (u : State) : State :=
      modBay b
        (fun x => { x with
          state := if x.ejectPending then .draining else .ready, ejectPending := false
          drainTimer := if x.ejectPending then some s.items.drainMs else x.drainTimer
          link := linkAsked x.queue x.reqHigh s x.link
          mount := { x.mount with cause := .none } })
        (u.raise (.bay b .resumed))
    (1 < scope.toNat → exec (.discardHeld serial scope) s = .next (s.reply 9 .badArg [])) ∧
    (scope.toNat ≤ 1 → (∀ e ∈ s.hold, chosen e = false) →
      exec (.discardHeld serial scope) s = .next (s.reply 9 .ok [0])) ∧
    (scope.toNat ≤ 1 → (∃ e ∈ s.hold, chosen e = true) → Settled s →
      ((∀ b, goesOn b) → exec (.discardHeld serial scope) s = .next (lost.reply 9 .ok [count])) ∧
      (∀ b, ends b → goesOn (otherBay b) →
        (NothingStalled b s →
          exec (.discardHeld serial scope) s = .next ((ended b lost).reply 9 .ok [count])) ∧
        ∀ a, s.host = .diverted a .replay → a.copy.bay = b →
          exec (.discardHeld serial scope) s =
            .next (((lost.replayed b).meets a fun t => t.asks b).reply 9 .ok [count])) ∧
      (ends .A → ends .B → NothingStalled .A s → NothingStalled .B s →
        exec (.discardHeld serial scope) s = .next ((ended .B (ended .A lost)).reply 9 .ok [count])) ∧
      ∀ a, ends .A → ends .B → s.host = .diverted a .replay →
        exec (.discardHeld serial scope) s =
          .next ((match a.copy.bay with
            | .A => ended .B ((lost.replayed .A).meets a fun t => t.asks .A)
            | .B => ((ended .A lost).replayed .B).meets a fun t => t.asks .B).reply 9 .ok [count]))

/-- READ_HOLD: the entry at position i, the oldest first, in the 33 bytes of its layout, or EMPTY past
the occupancy; the command changes no state (R141, R175). -/
def Obligations.ReadHoldReturnsTheEntry : Prop :=
  ∀ (i : Byte) (s : State), Listening s →
    (∀ e, s.hold[i.toNat]? = some e →
      exec (.readHold i) s =
        .next (s.reply 1 .ok
          (wordBytes e.write.num ++ serialBytes e.write.serial ++ wordBytes e.write.stamp.device ++
            wordBytes e.write.stamp.epoch ++ wordBytes e.write.stamp.sequence ++
            wordBytes (BitVec.ofNat 32 e.write.addr) ++
            [(match e.write.lanes with | .low => 1 | .high => 2 | .both => 3 : Byte)] ++
            [e.write.data.extractLsb' 8 8, e.write.data.extractLsb' 0 8] ++
            [BitVec.ofNat 8 e.write.window.val] ++
            [BitVec.ofNat 8 (e.write.uncertain.toNat + 2 * e.write.forced.toNat + 4 * e.stale.toNat)]))) ∧
    (s.hold.length ≤ i.toNat → exec (.readHold i) s = .next (s.reply 1 .empty []))

/-! ### Events, items and frames -/

/-- READ_EVENTS returns the latches as an event set and changes nothing; CLEAR_EVENTS clears the latches
named and WRITE_EVENT_ENABLE replaces all 23 enables, unless the set names a number above 22; and ATTN#
is asserted exactly while a set latch has its enable set, RST# being negated (R144 to R147). -/
def Obligations.EventSetsAndAttention : Prop :=
  (∀ (v : Word) (s : State), Listening s →
    exec .readEvents s = .next (s.reply 0 .ok (wordBytes (s.latches.setWidth 32))) ∧
    (v.toNat < 2 ^ 23 →
      exec (.clearEvents v) s =
        .next ({ s with latches := s.latches &&& ~~~(v.setWidth 23) }.reply 4 .ok []) ∧
      exec (.writeEventEnable v) s = .next ({ s with enables := v.setWidth 23 }.reply 5 .ok [])) ∧
    (2 ^ 23 ≤ v.toNat →
      exec (.clearEvents v) s = .next (s.reply 4 .badArg []) ∧
      exec (.writeEventEnable v) s = .next (s.reply 5 .badArg []))) ∧
  ∀ s : State, attention s = true ↔
    s.rst = false ∧ ∃ l : Latch, s.latch l = true ∧ s.enable l = true

/-- A latch that is set stays set through every command but CLEAR_EVENTS and POR, and CLEAR_EVENTS
clears those alone that its set names (R142, R147). -/
def Obligations.LatchesStayUntilCleared : Prop :=
  ∀ (c : Instr) (s t : State) (l : Latch), exec c s = .next t → s.latch l = true →
    (c ≠ .por → (∀ v, c ≠ .clearEvents v) → t.latch l = true) ∧
    ∀ v : Word, c = .clearEvents v → v.getLsbD l.number = false → t.latch l = true

/-- READ_ITEM returns the value of the field that its code names, and changes no state; WRITE_ITEM sets
that field to a value that it accepts, and leaves every other item; a value or a code that it does not
accept gives BAD_ARG and changes nothing (R19, R158 to R160, R162). -/
def Obligations.ItemsReadBackAsWritten : Prop :=
  (∀ (code : Byte) (s : State), Listening s →
    ((0x0D ≤ code.toNat ∧ code.toNat ≤ 0x0F ∨ 0x18 ≤ code.toNat) ↔ itemOfCode code = none) ∧
    (itemOfCode code = none ↔ ∀ p ∈ itemFields, p.1 ≠ code) ∧
    (itemOfCode code = none → exec (.readItem code) s = .next (s.reply 1 .badArg [])) ∧
    (∀ field, (code, field) ∈ itemFields →
      exec (.readItem code) s = .next (s.reply 1 .ok (wordBytes (field s)))) ∧
    ∀ i, itemOfCode code = some i →
      exec (.readItem code) s = .next (s.reply 1 .ok (wordBytes (readItemValue i s)))) ∧
  ∀ (code : Byte) (v : Word) (s : State), Listening s →
    (∀ i, itemOfCode code = some i → i.accepts v.toNat = true → ∃ u : State,
      exec (.writeItem code v) s = .next (u.reply 5 .ok []) ∧
      u = { s with items := u.items, staging := u.staging, enables := u.enables } ∧
      (∀ p ∈ itemFields, p.2 u = if p.1 = code then v else p.2 s) ∧
      readItemValue i u = v ∧ ∀ j, j ≠ i → readItemValue j u = readItemValue j s) ∧
    ((∀ i, itemOfCode code = some i → i.accepts v.toNat = false) →
      exec (.writeItem code v) s = .next (s.reply 5 .badArg []))

/-- A frame: SCS# opens it with its counts at zero, closes it after its command has run, or discards
it before, which sets the frame-error flag; a port that found SCS# low at the end of reset waits for
its rise. READ_STATUS returns the flag and clears it; a code that names no command answers
BAD_COMMAND. Eight rising edges of SCK make a byte. SDO is driven in a frame alone, most significant
bit first: 00H to the turnaround byte, then the status, then the result bytes of a command that
answers OK, and 00H after them (R152, R154 to R156, R163, R165; a frame's bits held with the command
they complete, and its end from a low SCS#: logs 16 and 17). -/
def Obligations.FramesOpenAndClose : Prop :=
  (∀ s : State, s.rst = false →
    (s.frame = .idle → exec .frameStart s = .next { s with frame := .receiving ⟨0, 0⟩ }) ∧
    (∀ k n st r, s.frame = .ran k n st r ∨ s.frame = .waitRise →
      exec .frameEnd s = .next { s with frame := .idle }) ∧
    (∀ k bits, s.frame = .receiving k →
      (bits.length < 8 ∨ ∃ code c, (bytesOfBits bits).head? = some code ∧ cmdOfCode code = some c ∧
        bits.length < 8 * (c.argBytes + 1)) →
      exec (.frameDiscard bits) s = .next { s with frame := .idle, frameError := true }) ∧
    (∀ bits, s.frame = .waitRise → exec (.frameDiscard bits) s = .next { s with frame := .idle }) ∧
    ∀ k, s.frame = .receiving k →
      (∀ code, cmdOfCode code = none →
        exec (.badCommand code) s = .next (s.reply 0 .badCommand [])) ∧
      ∃ f : Byte,
        exec .readStatus s =
          .next ({ s with frameError := false }.reply 0 .ok
            [f, s.bayA.state.code, s.bayB.state.code, BitVec.ofNat 8 s.hold.length]) ∧
        f.getLsbD 0 = s.frameError ∧ f.getLsbD 1 = attention s ∧ f.getLsbD 2 = s.hostError.isSome ∧
        f.getLsbD 3 = (decide (s.lossLog ≠ []) || s.summary.isSome) ∧ f.toNat < 16) ∧
  (∀ (k : Count) (n : Nat),
    8 * (k.clocks n).bytes + (k.clocks n).bits.val = 8 * k.bytes + k.bits.val + n) ∧
  ∀ (s : State) (m : Nat),
    (s.frame = .idle ∨ s.frame = .waitRise → sdoDriven s = false ∧ sdo s m = none) ∧
    (∀ k, s.frame = .receiving k → sdoDriven s = true ∧ sdo s m = some false) ∧
    ∀ k n st r, s.frame = .ran k n st r →
      sdoDriven s = true ∧
      sdo s m =
        some ((sdoByte s ((8 * k.bytes + k.bits.val + m) / 8)).getMsbD ((k.bits.val + m) % 8)) ∧
      (m < n + 2 → sdoByte s m = 0) ∧ sdoByte s (n + 2) = st.code ∧
      (st = .ok → sdoByte s (n + 3 + m) = r.getD m 0) ∧
      (st ≠ .ok → sdoByte s (n + 3 + m) = 0)

/-- A command that answers a status other than OK returns no result bytes and leaves the part as it
was; an argument outside the values that a command accepts gives BAD_ARG (R20, R110, R154, R157,
R164, R171). -/
def Obligations.FailedCommandsChangeNothing : Prop :=
  (∀ (c : Instr) (s t : State) (k : Count) (args : Nat) (st : Status) (result : List Byte),
    Listening s → c.passed = false → exec c s = .next t → t.frame = .ran k args st result → st ≠ .ok →
    t = s.reply args st []) ∧
  ∀ (n : Byte) (k : KeySample) (s : State), Listening s →
    (1 < n.toNat →
      ∀ c ∈ [Instr.readBay n, .eject n, .cancelEject n, .retryBay n k, .forget n,
          .forceReplay n false],
        exec c s = .next (s.reply 1 .badArg [])) ∧
    (7 < n.toNat → ∀ c ∈ [Instr.commitWindow n, .disableWindow n, .readWindow n],
      exec c s = .next (s.reply 1 .badArg []))

/-- The bits of a management command's frame, each byte most significant bit first, spell that
command with every argument, whatever bits follow them; and no fewer bits have run a command (R152,
R153, R155, R171, R172). -/
def Obligations.FramesSpellTheirCommand : Prop :=
  ∀ (i : Instr) (more : List Bool), i.wellFormed = true → encodeFrame i ≠ [] →
    let bits := (encodeFrame i).flatMap bitsOfByte
    bits.length = 8 * (encodeFrame i).length ∧
    decodeFrame i.keys i.passed (bytesOfBits (bits ++ more)) = some i ∧
    frameRuns (bytesOfBits (bits ++ more)) = true ∧
    ∀ n, n < bits.length →
      frameRuns (bytesOfBits (bits.take n)) = false ∧
      decodeFrame i.keys i.passed (bytesOfBits (bits.take n)) = none
end

