-- ==== Sys2Proof/Laws/Frames.lean ====
section
/-! SUPPORT. The frame of every shared operation: the fields of the state that it leaves as they
were. -/

namespace Sys2Proof.Machine

@[simp] theorem setLatch_frame (l : Latch) (s : State) :
    (setLatch l s).rst = s.rst ∧
    (setLatch l s).hrst = s.hrst ∧
    (setLatch l s).deviceNumber = s.deviceNumber ∧
    (setLatch l s).host = s.host ∧
    (setLatch l s).hostError = s.hostError ∧
    (setLatch l s).windows = s.windows ∧
    (setLatch l s).staging = s.staging ∧
    (setLatch l s).items = s.items ∧
    (setLatch l s).accSource = s.accSource ∧
    (setLatch l s).accepted = s.accepted ∧
    (setLatch l s).committed = s.committed ∧
    (setLatch l s).lost = s.lost ∧
    (setLatch l s).lossLog = s.lossLog ∧
    (setLatch l s).summary = s.summary ∧
    (setLatch l s).nextOrd = s.nextOrd ∧
    (setLatch l s).hold = s.hold ∧
    (setLatch l s).mountSeq = s.mountSeq ∧
    (setLatch l s).bayA = s.bayA ∧
    (setLatch l s).bayB = s.bayB ∧
    (setLatch l s).enables = s.enables ∧
    (setLatch l s).frame = s.frame ∧
    (setLatch l s).frameError = s.frameError ∧
    (setLatch l s).free = s.free ∧
    (setLatch l s).pending = s.pending := by
  simp [setLatch]

@[simp] theorem modBay_frame (b : BayId) (f : Bay → Bay) (s : State) :
    (modBay b f s).rst = s.rst ∧
    (modBay b f s).hrst = s.hrst ∧
    (modBay b f s).deviceNumber = s.deviceNumber ∧
    (modBay b f s).host = s.host ∧
    (modBay b f s).hostError = s.hostError ∧
    (modBay b f s).windows = s.windows ∧
    (modBay b f s).staging = s.staging ∧
    (modBay b f s).items = s.items ∧
    (modBay b f s).accSource = s.accSource ∧
    (modBay b f s).accepted = s.accepted ∧
    (modBay b f s).committed = s.committed ∧
    (modBay b f s).lost = s.lost ∧
    (modBay b f s).lossLog = s.lossLog ∧
    (modBay b f s).summary = s.summary ∧
    (modBay b f s).nextOrd = s.nextOrd ∧
    (modBay b f s).hold = s.hold ∧
    (modBay b f s).mountSeq = s.mountSeq ∧
    (modBay b f s).latches = s.latches ∧
    (modBay b f s).enables = s.enables ∧
    (modBay b f s).frame = s.frame ∧
    (modBay b f s).frameError = s.frameError ∧
    (modBay b f s).free = s.free ∧
    (modBay b f s).pending = s.pending := by
  cases b <;> simp [modBay]

@[simp] theorem takeNumber_frame  (s : State) :
    (takeNumber s).rst = s.rst ∧
    (takeNumber s).hrst = s.hrst ∧
    (takeNumber s).deviceNumber = s.deviceNumber ∧
    (takeNumber s).host = s.host ∧
    (takeNumber s).hostError = s.hostError ∧
    (takeNumber s).windows = s.windows ∧
    (takeNumber s).staging = s.staging ∧
    (takeNumber s).items = s.items ∧
    (takeNumber s).committed = s.committed ∧
    (takeNumber s).lost = s.lost ∧
    (takeNumber s).lossLog = s.lossLog ∧
    (takeNumber s).summary = s.summary ∧
    (takeNumber s).hold = s.hold ∧
    (takeNumber s).mountSeq = s.mountSeq ∧
    (takeNumber s).bayA = s.bayA ∧
    (takeNumber s).bayB = s.bayB ∧
    (takeNumber s).latches = s.latches ∧
    (takeNumber s).enables = s.enables ∧
    (takeNumber s).frame = s.frame ∧
    (takeNumber s).frameError = s.frameError ∧
    (takeNumber s).free = s.free ∧
    (takeNumber s).pending = s.pending := by
  simp [takeNumber]

@[simp] theorem logLoss_frame (r : LossRecord) (s : State) :
    (logLoss r s).rst = s.rst ∧
    (logLoss r s).hrst = s.hrst ∧
    (logLoss r s).deviceNumber = s.deviceNumber ∧
    (logLoss r s).host = s.host ∧
    (logLoss r s).hostError = s.hostError ∧
    (logLoss r s).windows = s.windows ∧
    (logLoss r s).staging = s.staging ∧
    (logLoss r s).items = s.items ∧
    (logLoss r s).accSource = s.accSource ∧
    (logLoss r s).accepted = s.accepted ∧
    (logLoss r s).committed = s.committed ∧
    (logLoss r s).lost = s.lost ∧
    (logLoss r s).nextOrd = s.nextOrd ∧
    (logLoss r s).hold = s.hold ∧
    (logLoss r s).mountSeq = s.mountSeq ∧
    (logLoss r s).bayA = s.bayA ∧
    (logLoss r s).bayB = s.bayB ∧
    (logLoss r s).latches = s.latches ∧
    (logLoss r s).enables = s.enables ∧
    (logLoss r s).frame = s.frame ∧
    (logLoss r s).frameError = s.frameError ∧
    (logLoss r s).free = s.free ∧
    (logLoss r s).pending = s.pending := by
  unfold logLoss
  repeat' split
  all_goals simp

@[simp] theorem lose_frame (r : LossRecord) (s : State) :
    (lose r s).rst = s.rst ∧
    (lose r s).hrst = s.hrst ∧
    (lose r s).deviceNumber = s.deviceNumber ∧
    (lose r s).host = s.host ∧
    (lose r s).hostError = s.hostError ∧
    (lose r s).windows = s.windows ∧
    (lose r s).staging = s.staging ∧
    (lose r s).items = s.items ∧
    (lose r s).accSource = s.accSource ∧
    (lose r s).accepted = s.accepted ∧
    (lose r s).committed = s.committed ∧
    (lose r s).nextOrd = s.nextOrd ∧
    (lose r s).hold = s.hold ∧
    (lose r s).mountSeq = s.mountSeq ∧
    (lose r s).bayA = s.bayA ∧
    (lose r s).bayB = s.bayB ∧
    (lose r s).enables = s.enables ∧
    (lose r s).frame = s.frame ∧
    (lose r s).frameError = s.frameError ∧
    (lose r s).free = s.free ∧
    (lose r s).pending = s.pending := by
  simp [lose]

@[simp] theorem holdHigh_frame  (s : State) :
    (holdHigh s).rst = s.rst ∧
    (holdHigh s).hrst = s.hrst ∧
    (holdHigh s).deviceNumber = s.deviceNumber ∧
    (holdHigh s).host = s.host ∧
    (holdHigh s).hostError = s.hostError ∧
    (holdHigh s).windows = s.windows ∧
    (holdHigh s).staging = s.staging ∧
    (holdHigh s).items = s.items ∧
    (holdHigh s).accSource = s.accSource ∧
    (holdHigh s).accepted = s.accepted ∧
    (holdHigh s).committed = s.committed ∧
    (holdHigh s).lost = s.lost ∧
    (holdHigh s).lossLog = s.lossLog ∧
    (holdHigh s).summary = s.summary ∧
    (holdHigh s).nextOrd = s.nextOrd ∧
    (holdHigh s).hold = s.hold ∧
    (holdHigh s).mountSeq = s.mountSeq ∧
    (holdHigh s).bayA = s.bayA ∧
    (holdHigh s).bayB = s.bayB ∧
    (holdHigh s).enables = s.enables ∧
    (holdHigh s).frame = s.frame ∧
    (holdHigh s).frameError = s.frameError ∧
    (holdHigh s).free = s.free ∧
    (holdHigh s).pending = s.pending := by
  unfold holdHigh
  split <;> simp

@[simp] theorem joinEvacuated_frame (e : HoldEntry) (s : State) :
    (joinEvacuated e s).rst = s.rst ∧
    (joinEvacuated e s).hrst = s.hrst ∧
    (joinEvacuated e s).deviceNumber = s.deviceNumber ∧
    (joinEvacuated e s).host = s.host ∧
    (joinEvacuated e s).hostError = s.hostError ∧
    (joinEvacuated e s).windows = s.windows ∧
    (joinEvacuated e s).staging = s.staging ∧
    (joinEvacuated e s).items = s.items ∧
    (joinEvacuated e s).accSource = s.accSource ∧
    (joinEvacuated e s).accepted = s.accepted ∧
    (joinEvacuated e s).committed = s.committed ∧
    (joinEvacuated e s).lost = s.lost ∧
    (joinEvacuated e s).lossLog = s.lossLog ∧
    (joinEvacuated e s).summary = s.summary ∧
    (joinEvacuated e s).nextOrd = s.nextOrd ∧
    (joinEvacuated e s).mountSeq = s.mountSeq ∧
    (joinEvacuated e s).bayA = s.bayA ∧
    (joinEvacuated e s).bayB = s.bayB ∧
    (joinEvacuated e s).enables = s.enables ∧
    (joinEvacuated e s).frame = s.frame ∧
    (joinEvacuated e s).frameError = s.frameError ∧
    (joinEvacuated e s).free = s.free ∧
    (joinEvacuated e s).pending = s.pending := by
  simp [joinEvacuated]

@[simp] theorem joinNewest_frame (e : HoldEntry) (s : State) :
    (joinNewest e s).rst = s.rst ∧
    (joinNewest e s).hrst = s.hrst ∧
    (joinNewest e s).deviceNumber = s.deviceNumber ∧
    (joinNewest e s).host = s.host ∧
    (joinNewest e s).hostError = s.hostError ∧
    (joinNewest e s).windows = s.windows ∧
    (joinNewest e s).staging = s.staging ∧
    (joinNewest e s).items = s.items ∧
    (joinNewest e s).accSource = s.accSource ∧
    (joinNewest e s).accepted = s.accepted ∧
    (joinNewest e s).committed = s.committed ∧
    (joinNewest e s).lost = s.lost ∧
    (joinNewest e s).lossLog = s.lossLog ∧
    (joinNewest e s).summary = s.summary ∧
    (joinNewest e s).nextOrd = s.nextOrd ∧
    (joinNewest e s).mountSeq = s.mountSeq ∧
    (joinNewest e s).bayA = s.bayA ∧
    (joinNewest e s).bayB = s.bayB ∧
    (joinNewest e s).enables = s.enables ∧
    (joinNewest e s).frame = s.frame ∧
    (joinNewest e s).frameError = s.frameError ∧
    (joinNewest e s).free = s.free ∧
    (joinNewest e s).pending = s.pending := by
  simp [joinNewest]

@[simp] theorem releaseOk_frame (hd : Option BusHalf) (s : State) :
    (releaseOk hd s).rst = s.rst ∧
    (releaseOk hd s).hrst = s.hrst ∧
    (releaseOk hd s).deviceNumber = s.deviceNumber ∧
    (releaseOk hd s).hostError = s.hostError ∧
    (releaseOk hd s).windows = s.windows ∧
    (releaseOk hd s).staging = s.staging ∧
    (releaseOk hd s).items = s.items ∧
    (releaseOk hd s).accSource = s.accSource ∧
    (releaseOk hd s).accepted = s.accepted ∧
    (releaseOk hd s).committed = s.committed ∧
    (releaseOk hd s).lost = s.lost ∧
    (releaseOk hd s).lossLog = s.lossLog ∧
    (releaseOk hd s).summary = s.summary ∧
    (releaseOk hd s).nextOrd = s.nextOrd ∧
    (releaseOk hd s).hold = s.hold ∧
    (releaseOk hd s).mountSeq = s.mountSeq ∧
    (releaseOk hd s).bayA = s.bayA ∧
    (releaseOk hd s).bayB = s.bayB ∧
    (releaseOk hd s).latches = s.latches ∧
    (releaseOk hd s).enables = s.enables ∧
    (releaseOk hd s).frame = s.frame ∧
    (releaseOk hd s).frameError = s.frameError ∧
    (releaseOk hd s).free = s.free ∧
    (releaseOk hd s).pending = s.pending := by
  simp [releaseOk]

@[simp] theorem releaseError_frame (a : Access) (cause : HostCause) (n : Option Word) (s : State) :
    (releaseError a cause n s).rst = s.rst ∧
    (releaseError a cause n s).hrst = s.hrst ∧
    (releaseError a cause n s).deviceNumber = s.deviceNumber ∧
    (releaseError a cause n s).windows = s.windows ∧
    (releaseError a cause n s).staging = s.staging ∧
    (releaseError a cause n s).items = s.items ∧
    (releaseError a cause n s).accSource = s.accSource ∧
    (releaseError a cause n s).accepted = s.accepted ∧
    (releaseError a cause n s).committed = s.committed ∧
    (releaseError a cause n s).lost = s.lost ∧
    (releaseError a cause n s).lossLog = s.lossLog ∧
    (releaseError a cause n s).summary = s.summary ∧
    (releaseError a cause n s).nextOrd = s.nextOrd ∧
    (releaseError a cause n s).hold = s.hold ∧
    (releaseError a cause n s).mountSeq = s.mountSeq ∧
    (releaseError a cause n s).bayA = s.bayA ∧
    (releaseError a cause n s).bayB = s.bayB ∧
    (releaseError a cause n s).enables = s.enables ∧
    (releaseError a cause n s).frame = s.frame ∧
    (releaseError a cause n s).frameError = s.frameError ∧
    (releaseError a cause n s).free = s.free ∧
    (releaseError a cause n s).pending = s.pending := by
  simp [releaseError]

@[simp] theorem waitIn_frame (a : Access) (w : Wait) (s : State) :
    (waitIn a w s).rst = s.rst ∧
    (waitIn a w s).hrst = s.hrst ∧
    (waitIn a w s).deviceNumber = s.deviceNumber ∧
    (waitIn a w s).hostError = s.hostError ∧
    (waitIn a w s).windows = s.windows ∧
    (waitIn a w s).staging = s.staging ∧
    (waitIn a w s).items = s.items ∧
    (waitIn a w s).accSource = s.accSource ∧
    (waitIn a w s).accepted = s.accepted ∧
    (waitIn a w s).committed = s.committed ∧
    (waitIn a w s).lost = s.lost ∧
    (waitIn a w s).lossLog = s.lossLog ∧
    (waitIn a w s).summary = s.summary ∧
    (waitIn a w s).nextOrd = s.nextOrd ∧
    (waitIn a w s).hold = s.hold ∧
    (waitIn a w s).mountSeq = s.mountSeq ∧
    (waitIn a w s).bayA = s.bayA ∧
    (waitIn a w s).bayB = s.bayB ∧
    (waitIn a w s).latches = s.latches ∧
    (waitIn a w s).enables = s.enables ∧
    (waitIn a w s).frame = s.frame ∧
    (waitIn a w s).frameError = s.frameError ∧
    (waitIn a w s).free = s.free ∧
    (waitIn a w s).pending = s.pending := by
  simp [waitIn]

@[simp] theorem releaseThrough_frame (cause : Option HostCause) (s : State) :
    (releaseThrough cause s).rst = s.rst ∧
    (releaseThrough cause s).hrst = s.hrst ∧
    (releaseThrough cause s).deviceNumber = s.deviceNumber ∧
    (releaseThrough cause s).windows = s.windows ∧
    (releaseThrough cause s).staging = s.staging ∧
    (releaseThrough cause s).items = s.items ∧
    (releaseThrough cause s).accSource = s.accSource ∧
    (releaseThrough cause s).accepted = s.accepted ∧
    (releaseThrough cause s).committed = s.committed ∧
    (releaseThrough cause s).lost = s.lost ∧
    (releaseThrough cause s).lossLog = s.lossLog ∧
    (releaseThrough cause s).summary = s.summary ∧
    (releaseThrough cause s).nextOrd = s.nextOrd ∧
    (releaseThrough cause s).hold = s.hold ∧
    (releaseThrough cause s).mountSeq = s.mountSeq ∧
    (releaseThrough cause s).bayA = s.bayA ∧
    (releaseThrough cause s).bayB = s.bayB ∧
    (releaseThrough cause s).enables = s.enables ∧
    (releaseThrough cause s).frame = s.frame ∧
    (releaseThrough cause s).frameError = s.frameError ∧
    (releaseThrough cause s).free = s.free ∧
    (releaseThrough cause s).pending = s.pending := by
  unfold releaseThrough
  repeat' split
  all_goals simp

@[simp] theorem evacuateOne_frame (e : QEntry) (s : State) :
    (evacuateOne s e).rst = s.rst ∧
    (evacuateOne s e).hrst = s.hrst ∧
    (evacuateOne s e).deviceNumber = s.deviceNumber ∧
    (evacuateOne s e).windows = s.windows ∧
    (evacuateOne s e).staging = s.staging ∧
    (evacuateOne s e).items = s.items ∧
    (evacuateOne s e).accSource = s.accSource ∧
    (evacuateOne s e).accepted = s.accepted ∧
    (evacuateOne s e).committed = s.committed ∧
    (evacuateOne s e).nextOrd = s.nextOrd ∧
    (evacuateOne s e).mountSeq = s.mountSeq ∧
    (evacuateOne s e).bayA = s.bayA ∧
    (evacuateOne s e).bayB = s.bayB ∧
    (evacuateOne s e).enables = s.enables ∧
    (evacuateOne s e).frame = s.frame ∧
    (evacuateOne s e).frameError = s.frameError ∧
    (evacuateOne s e).free = s.free ∧
    (evacuateOne s e).pending = s.pending := by
  unfold evacuateOne
  repeat' split
  all_goals simp

@[simp] theorem foldl_evacuateOne_frame (l : List QEntry) (s : State) :
    (l.foldl evacuateOne s).rst = s.rst ∧
    (l.foldl evacuateOne s).hrst = s.hrst ∧
    (l.foldl evacuateOne s).deviceNumber = s.deviceNumber ∧
    (l.foldl evacuateOne s).windows = s.windows ∧
    (l.foldl evacuateOne s).staging = s.staging ∧
    (l.foldl evacuateOne s).items = s.items ∧
    (l.foldl evacuateOne s).accSource = s.accSource ∧
    (l.foldl evacuateOne s).accepted = s.accepted ∧
    (l.foldl evacuateOne s).committed = s.committed ∧
    (l.foldl evacuateOne s).nextOrd = s.nextOrd ∧
    (l.foldl evacuateOne s).mountSeq = s.mountSeq ∧
    (l.foldl evacuateOne s).bayA = s.bayA ∧
    (l.foldl evacuateOne s).bayB = s.bayB ∧
    (l.foldl evacuateOne s).enables = s.enables ∧
    (l.foldl evacuateOne s).frame = s.frame ∧
    (l.foldl evacuateOne s).frameError = s.frameError ∧
    (l.foldl evacuateOne s).free = s.free ∧
    (l.foldl evacuateOne s).pending = s.pending := by
  induction l generalizing s with
  | nil => simp
  | cons e l ih => simp only [List.foldl_cons, ih, evacuateOne_frame, and_self]

@[simp] theorem evacuate_frame (b : BayId) (s : State) :
    (evacuate b s).rst = s.rst ∧
    (evacuate b s).hrst = s.hrst ∧
    (evacuate b s).deviceNumber = s.deviceNumber ∧
    (evacuate b s).windows = s.windows ∧
    (evacuate b s).staging = s.staging ∧
    (evacuate b s).items = s.items ∧
    (evacuate b s).accSource = s.accSource ∧
    (evacuate b s).accepted = s.accepted ∧
    (evacuate b s).committed = s.committed ∧
    (evacuate b s).nextOrd = s.nextOrd ∧
    (evacuate b s).mountSeq = s.mountSeq ∧
    (evacuate b s).enables = s.enables ∧
    (evacuate b s).frame = s.frame ∧
    (evacuate b s).frameError = s.frameError ∧
    (evacuate b s).free = s.free ∧
    (evacuate b s).pending = s.pending := by
  simp [evacuate]

@[simp] theorem leaveServing_frame (b : BayId) (st : BayState) (cause : MountCause) (s : State) :
    (leaveServing b st cause s).rst = s.rst ∧
    (leaveServing b st cause s).hrst = s.hrst ∧
    (leaveServing b st cause s).deviceNumber = s.deviceNumber ∧
    (leaveServing b st cause s).windows = s.windows ∧
    (leaveServing b st cause s).staging = s.staging ∧
    (leaveServing b st cause s).items = s.items ∧
    (leaveServing b st cause s).accSource = s.accSource ∧
    (leaveServing b st cause s).accepted = s.accepted ∧
    (leaveServing b st cause s).committed = s.committed ∧
    (leaveServing b st cause s).nextOrd = s.nextOrd ∧
    (leaveServing b st cause s).mountSeq = s.mountSeq ∧
    (leaveServing b st cause s).enables = s.enables ∧
    (leaveServing b st cause s).frame = s.frame ∧
    (leaveServing b st cause s).frameError = s.frameError ∧
    (leaveServing b st cause s).free = s.free ∧
    (leaveServing b st cause s).pending = s.pending := by
  simp [leaveServing]

@[simp] theorem enterDraining_frame (b : BayId) (s : State) :
    (enterDraining b s).rst = s.rst ∧
    (enterDraining b s).hrst = s.hrst ∧
    (enterDraining b s).deviceNumber = s.deviceNumber ∧
    (enterDraining b s).host = s.host ∧
    (enterDraining b s).hostError = s.hostError ∧
    (enterDraining b s).windows = s.windows ∧
    (enterDraining b s).staging = s.staging ∧
    (enterDraining b s).items = s.items ∧
    (enterDraining b s).accSource = s.accSource ∧
    (enterDraining b s).accepted = s.accepted ∧
    (enterDraining b s).committed = s.committed ∧
    (enterDraining b s).lost = s.lost ∧
    (enterDraining b s).lossLog = s.lossLog ∧
    (enterDraining b s).summary = s.summary ∧
    (enterDraining b s).nextOrd = s.nextOrd ∧
    (enterDraining b s).hold = s.hold ∧
    (enterDraining b s).mountSeq = s.mountSeq ∧
    (enterDraining b s).latches = s.latches ∧
    (enterDraining b s).enables = s.enables ∧
    (enterDraining b s).frame = s.frame ∧
    (enterDraining b s).frameError = s.frameError ∧
    (enterDraining b s).free = s.free ∧
    (enterDraining b s).pending = s.pending := by
  simp [enterDraining]

@[simp] theorem reject_frame (b : BayId) (cause : MountCause) (s : State) :
    (reject b cause s).rst = s.rst ∧
    (reject b cause s).hrst = s.hrst ∧
    (reject b cause s).deviceNumber = s.deviceNumber ∧
    (reject b cause s).host = s.host ∧
    (reject b cause s).hostError = s.hostError ∧
    (reject b cause s).windows = s.windows ∧
    (reject b cause s).staging = s.staging ∧
    (reject b cause s).items = s.items ∧
    (reject b cause s).accSource = s.accSource ∧
    (reject b cause s).accepted = s.accepted ∧
    (reject b cause s).committed = s.committed ∧
    (reject b cause s).lost = s.lost ∧
    (reject b cause s).lossLog = s.lossLog ∧
    (reject b cause s).summary = s.summary ∧
    (reject b cause s).nextOrd = s.nextOrd ∧
    (reject b cause s).hold = s.hold ∧
    (reject b cause s).mountSeq = s.mountSeq ∧
    (reject b cause s).enables = s.enables ∧
    (reject b cause s).frame = s.frame ∧
    (reject b cause s).frameError = s.frameError ∧
    (reject b cause s).free = s.free ∧
    (reject b cause s).pending = s.pending := by
  simp [reject]

@[simp] theorem grantLink_frame (b : BayId) (s : State) :
    (grantLink b s).rst = s.rst ∧
    (grantLink b s).hrst = s.hrst ∧
    (grantLink b s).deviceNumber = s.deviceNumber ∧
    (grantLink b s).hostError = s.hostError ∧
    (grantLink b s).windows = s.windows ∧
    (grantLink b s).staging = s.staging ∧
    (grantLink b s).items = s.items ∧
    (grantLink b s).accSource = s.accSource ∧
    (grantLink b s).accepted = s.accepted ∧
    (grantLink b s).committed = s.committed ∧
    (grantLink b s).lost = s.lost ∧
    (grantLink b s).lossLog = s.lossLog ∧
    (grantLink b s).summary = s.summary ∧
    (grantLink b s).nextOrd = s.nextOrd ∧
    (grantLink b s).hold = s.hold ∧
    (grantLink b s).mountSeq = s.mountSeq ∧
    (grantLink b s).latches = s.latches ∧
    (grantLink b s).enables = s.enables ∧
    (grantLink b s).frame = s.frame ∧
    (grantLink b s).frameError = s.frameError ∧
    (grantLink b s).free = s.free ∧
    (grantLink b s).pending = s.pending := by
  unfold grantLink
  dsimp only
  repeat' split
  all_goals simp

@[simp] theorem markAck_frame (b : BayId) (s : State) :
    (markAck b s).rst = s.rst ∧
    (markAck b s).hrst = s.hrst ∧
    (markAck b s).deviceNumber = s.deviceNumber ∧
    (markAck b s).host = s.host ∧
    (markAck b s).hostError = s.hostError ∧
    (markAck b s).windows = s.windows ∧
    (markAck b s).staging = s.staging ∧
    (markAck b s).items = s.items ∧
    (markAck b s).accSource = s.accSource ∧
    (markAck b s).accepted = s.accepted ∧
    (markAck b s).committed = s.committed ∧
    (markAck b s).lost = s.lost ∧
    (markAck b s).lossLog = s.lossLog ∧
    (markAck b s).summary = s.summary ∧
    (markAck b s).nextOrd = s.nextOrd ∧
    (markAck b s).hold = s.hold ∧
    (markAck b s).mountSeq = s.mountSeq ∧
    (markAck b s).latches = s.latches ∧
    (markAck b s).enables = s.enables ∧
    (markAck b s).frame = s.frame ∧
    (markAck b s).frameError = s.frameError ∧
    (markAck b s).free = s.free ∧
    (markAck b s).pending = s.pending := by
  simp [markAck]

@[simp] theorem freeLink_frame (b : BayId) (s : State) :
    (freeLink b s).rst = s.rst ∧
    (freeLink b s).hrst = s.hrst ∧
    (freeLink b s).deviceNumber = s.deviceNumber ∧
    (freeLink b s).host = s.host ∧
    (freeLink b s).hostError = s.hostError ∧
    (freeLink b s).windows = s.windows ∧
    (freeLink b s).staging = s.staging ∧
    (freeLink b s).items = s.items ∧
    (freeLink b s).accSource = s.accSource ∧
    (freeLink b s).accepted = s.accepted ∧
    (freeLink b s).committed = s.committed ∧
    (freeLink b s).lost = s.lost ∧
    (freeLink b s).lossLog = s.lossLog ∧
    (freeLink b s).summary = s.summary ∧
    (freeLink b s).nextOrd = s.nextOrd ∧
    (freeLink b s).hold = s.hold ∧
    (freeLink b s).mountSeq = s.mountSeq ∧
    (freeLink b s).latches = s.latches ∧
    (freeLink b s).enables = s.enables ∧
    (freeLink b s).frame = s.frame ∧
    (freeLink b s).frameError = s.frameError ∧
    (freeLink b s).free = s.free ∧
    (freeLink b s).pending = s.pending := by
  simp [freeLink]

@[simp] theorem abandonRead_frame (b : BayId) (s : State) :
    (abandonRead b s).rst = s.rst ∧
    (abandonRead b s).hrst = s.hrst ∧
    (abandonRead b s).deviceNumber = s.deviceNumber ∧
    (abandonRead b s).host = s.host ∧
    (abandonRead b s).hostError = s.hostError ∧
    (abandonRead b s).windows = s.windows ∧
    (abandonRead b s).staging = s.staging ∧
    (abandonRead b s).items = s.items ∧
    (abandonRead b s).accSource = s.accSource ∧
    (abandonRead b s).accepted = s.accepted ∧
    (abandonRead b s).committed = s.committed ∧
    (abandonRead b s).lost = s.lost ∧
    (abandonRead b s).lossLog = s.lossLog ∧
    (abandonRead b s).summary = s.summary ∧
    (abandonRead b s).nextOrd = s.nextOrd ∧
    (abandonRead b s).hold = s.hold ∧
    (abandonRead b s).mountSeq = s.mountSeq ∧
    (abandonRead b s).latches = s.latches ∧
    (abandonRead b s).enables = s.enables ∧
    (abandonRead b s).frame = s.frame ∧
    (abandonRead b s).frameError = s.frameError ∧
    (abandonRead b s).free = s.free ∧
    (abandonRead b s).pending = s.pending := by
  unfold abandonRead
  split <;> simp

@[simp] theorem elapse_frame  (s : State) :
    (elapse s).rst = s.rst ∧
    (elapse s).hrst = s.hrst ∧
    (elapse s).deviceNumber = s.deviceNumber ∧
    (elapse s).host = s.host ∧
    (elapse s).hostError = s.hostError ∧
    (elapse s).windows = s.windows ∧
    (elapse s).staging = s.staging ∧
    (elapse s).items = s.items ∧
    (elapse s).accSource = s.accSource ∧
    (elapse s).accepted = s.accepted ∧
    (elapse s).committed = s.committed ∧
    (elapse s).lost = s.lost ∧
    (elapse s).lossLog = s.lossLog ∧
    (elapse s).summary = s.summary ∧
    (elapse s).nextOrd = s.nextOrd ∧
    (elapse s).hold = s.hold ∧
    (elapse s).mountSeq = s.mountSeq ∧
    (elapse s).latches = s.latches ∧
    (elapse s).enables = s.enables ∧
    (elapse s).frame = s.frame ∧
    (elapse s).frameError = s.frameError ∧
    (elapse s).free = s.free ∧
    (elapse s).pending = s.pending := by
  simp [elapse]

@[simp] theorem acceptQueue_frame (a : Access) (s : State) :
    (acceptQueue a s).rst = s.rst ∧
    (acceptQueue a s).hrst = s.hrst ∧
    (acceptQueue a s).deviceNumber = s.deviceNumber ∧
    (acceptQueue a s).hostError = s.hostError ∧
    (acceptQueue a s).windows = s.windows ∧
    (acceptQueue a s).staging = s.staging ∧
    (acceptQueue a s).items = s.items ∧
    (acceptQueue a s).committed = s.committed ∧
    (acceptQueue a s).lost = s.lost ∧
    (acceptQueue a s).lossLog = s.lossLog ∧
    (acceptQueue a s).summary = s.summary ∧
    (acceptQueue a s).hold = s.hold ∧
    (acceptQueue a s).mountSeq = s.mountSeq ∧
    (acceptQueue a s).latches = s.latches ∧
    (acceptQueue a s).enables = s.enables ∧
    (acceptQueue a s).frame = s.frame ∧
    (acceptQueue a s).frameError = s.frameError ∧
    (acceptQueue a s).free = s.free ∧
    (acceptQueue a s).pending = s.pending := by
  unfold acceptQueue
  dsimp only
  repeat' split
  all_goals simp

@[simp] theorem writeReady_frame (a : Access) (s : State) :
    (writeReady a s).rst = s.rst ∧
    (writeReady a s).hrst = s.hrst ∧
    (writeReady a s).deviceNumber = s.deviceNumber ∧
    (writeReady a s).windows = s.windows ∧
    (writeReady a s).staging = s.staging ∧
    (writeReady a s).items = s.items ∧
    (writeReady a s).committed = s.committed ∧
    (writeReady a s).lost = s.lost ∧
    (writeReady a s).lossLog = s.lossLog ∧
    (writeReady a s).summary = s.summary ∧
    (writeReady a s).hold = s.hold ∧
    (writeReady a s).mountSeq = s.mountSeq ∧
    (writeReady a s).enables = s.enables ∧
    (writeReady a s).frame = s.frame ∧
    (writeReady a s).frameError = s.frameError ∧
    (writeReady a s).free = s.free ∧
    (writeReady a s).pending = s.pending := by
  unfold writeReady
  dsimp only
  repeat' split
  all_goals simp

@[simp] theorem readServing_frame (a : Access) (s : State) :
    (readServing a s).rst = s.rst ∧
    (readServing a s).hrst = s.hrst ∧
    (readServing a s).deviceNumber = s.deviceNumber ∧
    (readServing a s).windows = s.windows ∧
    (readServing a s).staging = s.staging ∧
    (readServing a s).items = s.items ∧
    (readServing a s).accSource = s.accSource ∧
    (readServing a s).accepted = s.accepted ∧
    (readServing a s).committed = s.committed ∧
    (readServing a s).lost = s.lost ∧
    (readServing a s).lossLog = s.lossLog ∧
    (readServing a s).summary = s.summary ∧
    (readServing a s).nextOrd = s.nextOrd ∧
    (readServing a s).hold = s.hold ∧
    (readServing a s).mountSeq = s.mountSeq ∧
    (readServing a s).bayA = s.bayA ∧
    (readServing a s).bayB = s.bayB ∧
    (readServing a s).enables = s.enables ∧
    (readServing a s).frame = s.frame ∧
    (readServing a s).frameError = s.frameError ∧
    (readServing a s).free = s.free ∧
    (readServing a s).pending = s.pending := by
  unfold readServing
  dsimp only
  repeat' split
  all_goals simp

@[simp] theorem absentRead_frame (a : Access) (s : State) :
    (absentRead a s).rst = s.rst ∧
    (absentRead a s).hrst = s.hrst ∧
    (absentRead a s).deviceNumber = s.deviceNumber ∧
    (absentRead a s).windows = s.windows ∧
    (absentRead a s).staging = s.staging ∧
    (absentRead a s).items = s.items ∧
    (absentRead a s).accSource = s.accSource ∧
    (absentRead a s).accepted = s.accepted ∧
    (absentRead a s).committed = s.committed ∧
    (absentRead a s).lost = s.lost ∧
    (absentRead a s).lossLog = s.lossLog ∧
    (absentRead a s).summary = s.summary ∧
    (absentRead a s).nextOrd = s.nextOrd ∧
    (absentRead a s).hold = s.hold ∧
    (absentRead a s).mountSeq = s.mountSeq ∧
    (absentRead a s).bayA = s.bayA ∧
    (absentRead a s).bayB = s.bayB ∧
    (absentRead a s).enables = s.enables ∧
    (absentRead a s).frame = s.frame ∧
    (absentRead a s).frameError = s.frameError ∧
    (absentRead a s).free = s.free ∧
    (absentRead a s).pending = s.pending := by
  unfold absentRead
  split <;> simp

@[simp] theorem acceptAbsent_frame (a : Access) (serial : Serial) (t : Stamp) (s : State) :
    (acceptAbsent a serial t s).rst = s.rst ∧
    (acceptAbsent a serial t s).hrst = s.hrst ∧
    (acceptAbsent a serial t s).deviceNumber = s.deviceNumber ∧
    (acceptAbsent a serial t s).hostError = s.hostError ∧
    (acceptAbsent a serial t s).windows = s.windows ∧
    (acceptAbsent a serial t s).staging = s.staging ∧
    (acceptAbsent a serial t s).items = s.items ∧
    (acceptAbsent a serial t s).committed = s.committed ∧
    (acceptAbsent a serial t s).lost = s.lost ∧
    (acceptAbsent a serial t s).lossLog = s.lossLog ∧
    (acceptAbsent a serial t s).summary = s.summary ∧
    (acceptAbsent a serial t s).mountSeq = s.mountSeq ∧
    (acceptAbsent a serial t s).bayA = s.bayA ∧
    (acceptAbsent a serial t s).bayB = s.bayB ∧
    (acceptAbsent a serial t s).enables = s.enables ∧
    (acceptAbsent a serial t s).frame = s.frame ∧
    (acceptAbsent a serial t s).frameError = s.frameError ∧
    (acceptAbsent a serial t s).free = s.free ∧
    (acceptAbsent a serial t s).pending = s.pending := by
  simp [acceptAbsent]

@[simp] theorem absentWrite_frame (a : Access) (s : State) :
    (absentWrite a s).rst = s.rst ∧
    (absentWrite a s).hrst = s.hrst ∧
    (absentWrite a s).deviceNumber = s.deviceNumber ∧
    (absentWrite a s).windows = s.windows ∧
    (absentWrite a s).staging = s.staging ∧
    (absentWrite a s).items = s.items ∧
    (absentWrite a s).committed = s.committed ∧
    (absentWrite a s).lost = s.lost ∧
    (absentWrite a s).lossLog = s.lossLog ∧
    (absentWrite a s).summary = s.summary ∧
    (absentWrite a s).mountSeq = s.mountSeq ∧
    (absentWrite a s).bayA = s.bayA ∧
    (absentWrite a s).bayB = s.bayB ∧
    (absentWrite a s).enables = s.enables ∧
    (absentWrite a s).frame = s.frame ∧
    (absentWrite a s).frameError = s.frameError ∧
    (absentWrite a s).free = s.free ∧
    (absentWrite a s).pending = s.pending := by
  unfold absentWrite
  repeat' split
  all_goals simp

@[simp] theorem handleAccess_frame (a : Access) (s : State) :
    (handleAccess a s).rst = s.rst ∧
    (handleAccess a s).hrst = s.hrst ∧
    (handleAccess a s).deviceNumber = s.deviceNumber ∧
    (handleAccess a s).windows = s.windows ∧
    (handleAccess a s).staging = s.staging ∧
    (handleAccess a s).items = s.items ∧
    (handleAccess a s).committed = s.committed ∧
    (handleAccess a s).lost = s.lost ∧
    (handleAccess a s).lossLog = s.lossLog ∧
    (handleAccess a s).summary = s.summary ∧
    (handleAccess a s).mountSeq = s.mountSeq ∧
    (handleAccess a s).enables = s.enables ∧
    (handleAccess a s).frame = s.frame ∧
    (handleAccess a s).frameError = s.frameError ∧
    (handleAccess a s).free = s.free ∧
    (handleAccess a s).pending = s.pending := by
  unfold handleAccess
  repeat' split
  all_goals simp

@[simp] theorem meetHost_frame  (s : State) :
    (meetHost s).rst = s.rst ∧
    (meetHost s).hrst = s.hrst ∧
    (meetHost s).deviceNumber = s.deviceNumber ∧
    (meetHost s).windows = s.windows ∧
    (meetHost s).staging = s.staging ∧
    (meetHost s).items = s.items ∧
    (meetHost s).committed = s.committed ∧
    (meetHost s).lost = s.lost ∧
    (meetHost s).lossLog = s.lossLog ∧
    (meetHost s).summary = s.summary ∧
    (meetHost s).mountSeq = s.mountSeq ∧
    (meetHost s).enables = s.enables ∧
    (meetHost s).frame = s.frame ∧
    (meetHost s).frameError = s.frameError ∧
    (meetHost s).free = s.free ∧
    (meetHost s).pending = s.pending := by
  unfold meetHost
  dsimp only
  repeat' split
  all_goals simp

@[simp] theorem clearThrough_frame (b : BayId) (s : State) :
    (clearThrough b s).rst = s.rst ∧
    (clearThrough b s).hrst = s.hrst ∧
    (clearThrough b s).deviceNumber = s.deviceNumber ∧
    (clearThrough b s).host = s.host ∧
    (clearThrough b s).hostError = s.hostError ∧
    (clearThrough b s).windows = s.windows ∧
    (clearThrough b s).staging = s.staging ∧
    (clearThrough b s).items = s.items ∧
    (clearThrough b s).accSource = s.accSource ∧
    (clearThrough b s).accepted = s.accepted ∧
    (clearThrough b s).committed = s.committed ∧
    (clearThrough b s).lost = s.lost ∧
    (clearThrough b s).lossLog = s.lossLog ∧
    (clearThrough b s).summary = s.summary ∧
    (clearThrough b s).nextOrd = s.nextOrd ∧
    (clearThrough b s).hold = s.hold ∧
    (clearThrough b s).mountSeq = s.mountSeq ∧
    (clearThrough b s).latches = s.latches ∧
    (clearThrough b s).enables = s.enables ∧
    (clearThrough b s).frame = s.frame ∧
    (clearThrough b s).frameError = s.frameError ∧
    (clearThrough b s).free = s.free ∧
    (clearThrough b s).pending = s.pending := by
  simp [clearThrough]

@[simp] theorem abandonAccess_frame  (s : State) :
    (abandonAccess s).rst = s.rst ∧
    (abandonAccess s).hrst = s.hrst ∧
    (abandonAccess s).deviceNumber = s.deviceNumber ∧
    (abandonAccess s).hostError = s.hostError ∧
    (abandonAccess s).windows = s.windows ∧
    (abandonAccess s).staging = s.staging ∧
    (abandonAccess s).items = s.items ∧
    (abandonAccess s).accSource = s.accSource ∧
    (abandonAccess s).accepted = s.accepted ∧
    (abandonAccess s).committed = s.committed ∧
    (abandonAccess s).lost = s.lost ∧
    (abandonAccess s).lossLog = s.lossLog ∧
    (abandonAccess s).summary = s.summary ∧
    (abandonAccess s).nextOrd = s.nextOrd ∧
    (abandonAccess s).hold = s.hold ∧
    (abandonAccess s).mountSeq = s.mountSeq ∧
    (abandonAccess s).latches = s.latches ∧
    (abandonAccess s).enables = s.enables ∧
    (abandonAccess s).frame = s.frame ∧
    (abandonAccess s).frameError = s.frameError ∧
    (abandonAccess s).free = s.free ∧
    (abandonAccess s).pending = s.pending := by
  unfold abandonAccess
  repeat' split
  all_goals simp

@[simp] theorem replayMoves_frame (b : BayId) (s : State) :
    (replayMoves b s).rst = s.rst ∧
    (replayMoves b s).hrst = s.hrst ∧
    (replayMoves b s).deviceNumber = s.deviceNumber ∧
    (replayMoves b s).host = s.host ∧
    (replayMoves b s).hostError = s.hostError ∧
    (replayMoves b s).windows = s.windows ∧
    (replayMoves b s).staging = s.staging ∧
    (replayMoves b s).items = s.items ∧
    (replayMoves b s).accSource = s.accSource ∧
    (replayMoves b s).accepted = s.accepted ∧
    (replayMoves b s).committed = s.committed ∧
    (replayMoves b s).lost = s.lost ∧
    (replayMoves b s).lossLog = s.lossLog ∧
    (replayMoves b s).summary = s.summary ∧
    (replayMoves b s).nextOrd = s.nextOrd ∧
    (replayMoves b s).mountSeq = s.mountSeq ∧
    (replayMoves b s).latches = s.latches ∧
    (replayMoves b s).enables = s.enables ∧
    (replayMoves b s).frame = s.frame ∧
    (replayMoves b s).frameError = s.frameError ∧
    (replayMoves b s).free = s.free ∧
    (replayMoves b s).pending = s.pending := by
  simp [replayMoves]

@[simp] theorem replayEnd_frame (b : BayId) (s : State) :
    (replayEnd b s).rst = s.rst ∧
    (replayEnd b s).hrst = s.hrst ∧
    (replayEnd b s).deviceNumber = s.deviceNumber ∧
    (replayEnd b s).host = s.host ∧
    (replayEnd b s).hostError = s.hostError ∧
    (replayEnd b s).windows = s.windows ∧
    (replayEnd b s).staging = s.staging ∧
    (replayEnd b s).items = s.items ∧
    (replayEnd b s).accSource = s.accSource ∧
    (replayEnd b s).accepted = s.accepted ∧
    (replayEnd b s).committed = s.committed ∧
    (replayEnd b s).lost = s.lost ∧
    (replayEnd b s).lossLog = s.lossLog ∧
    (replayEnd b s).summary = s.summary ∧
    (replayEnd b s).nextOrd = s.nextOrd ∧
    (replayEnd b s).hold = s.hold ∧
    (replayEnd b s).mountSeq = s.mountSeq ∧
    (replayEnd b s).enables = s.enables ∧
    (replayEnd b s).frame = s.frame ∧
    (replayEnd b s).frameError = s.frameError ∧
    (replayEnd b s).free = s.free ∧
    (replayEnd b s).pending = s.pending := by
  unfold replayEnd
  dsimp only
  repeat' split
  all_goals simp

@[simp] theorem replayWork_frame (b : BayId) (s : State) :
    (replayWork b s).rst = s.rst ∧
    (replayWork b s).hrst = s.hrst ∧
    (replayWork b s).deviceNumber = s.deviceNumber ∧
    (replayWork b s).host = s.host ∧
    (replayWork b s).hostError = s.hostError ∧
    (replayWork b s).windows = s.windows ∧
    (replayWork b s).staging = s.staging ∧
    (replayWork b s).items = s.items ∧
    (replayWork b s).accSource = s.accSource ∧
    (replayWork b s).accepted = s.accepted ∧
    (replayWork b s).committed = s.committed ∧
    (replayWork b s).lost = s.lost ∧
    (replayWork b s).lossLog = s.lossLog ∧
    (replayWork b s).summary = s.summary ∧
    (replayWork b s).nextOrd = s.nextOrd ∧
    (replayWork b s).mountSeq = s.mountSeq ∧
    (replayWork b s).enables = s.enables ∧
    (replayWork b s).frame = s.frame ∧
    (replayWork b s).frameError = s.frameError ∧
    (replayWork b s).free = s.free ∧
    (replayWork b s).pending = s.pending := by
  unfold replayWork
  split <;> simp

@[simp] theorem drainEnd_frame (b : BayId) (s : State) :
    (drainEnd b s).rst = s.rst ∧
    (drainEnd b s).hrst = s.hrst ∧
    (drainEnd b s).deviceNumber = s.deviceNumber ∧
    (drainEnd b s).windows = s.windows ∧
    (drainEnd b s).staging = s.staging ∧
    (drainEnd b s).items = s.items ∧
    (drainEnd b s).accSource = s.accSource ∧
    (drainEnd b s).accepted = s.accepted ∧
    (drainEnd b s).committed = s.committed ∧
    (drainEnd b s).nextOrd = s.nextOrd ∧
    (drainEnd b s).mountSeq = s.mountSeq ∧
    (drainEnd b s).enables = s.enables ∧
    (drainEnd b s).frame = s.frame ∧
    (drainEnd b s).frameError = s.frameError ∧
    (drainEnd b s).free = s.free ∧
    (drainEnd b s).pending = s.pending := by
  unfold drainEnd
  dsimp only
  repeat' split
  all_goals simp

@[simp] theorem settle_frame (b : BayId) (s : State) :
    (settle b s).rst = s.rst ∧
    (settle b s).hrst = s.hrst ∧
    (settle b s).deviceNumber = s.deviceNumber ∧
    (settle b s).windows = s.windows ∧
    (settle b s).staging = s.staging ∧
    (settle b s).items = s.items ∧
    (settle b s).committed = s.committed ∧
    (settle b s).mountSeq = s.mountSeq ∧
    (settle b s).enables = s.enables ∧
    (settle b s).frame = s.frame ∧
    (settle b s).frameError = s.frameError ∧
    (settle b s).free = s.free ∧
    (settle b s).pending = s.pending := by
  simp [settle]

@[simp] theorem dropHead_frame (b : BayId) (s : State) :
    (dropHead b s).rst = s.rst ∧
    (dropHead b s).hrst = s.hrst ∧
    (dropHead b s).deviceNumber = s.deviceNumber ∧
    (dropHead b s).host = s.host ∧
    (dropHead b s).hostError = s.hostError ∧
    (dropHead b s).windows = s.windows ∧
    (dropHead b s).staging = s.staging ∧
    (dropHead b s).items = s.items ∧
    (dropHead b s).accSource = s.accSource ∧
    (dropHead b s).accepted = s.accepted ∧
    (dropHead b s).committed = s.committed ∧
    (dropHead b s).lost = s.lost ∧
    (dropHead b s).lossLog = s.lossLog ∧
    (dropHead b s).summary = s.summary ∧
    (dropHead b s).nextOrd = s.nextOrd ∧
    (dropHead b s).hold = s.hold ∧
    (dropHead b s).mountSeq = s.mountSeq ∧
    (dropHead b s).latches = s.latches ∧
    (dropHead b s).enables = s.enables ∧
    (dropHead b s).frame = s.frame ∧
    (dropHead b s).frameError = s.frameError ∧
    (dropHead b s).free = s.free ∧
    (dropHead b s).pending = s.pending := by
  simp [dropHead]

@[simp] theorem countLoss_frame (b : BayId) (e : QEntry) (s : State) :
    (countLoss b e s).rst = s.rst ∧
    (countLoss b e s).hrst = s.hrst ∧
    (countLoss b e s).deviceNumber = s.deviceNumber ∧
    (countLoss b e s).windows = s.windows ∧
    (countLoss b e s).staging = s.staging ∧
    (countLoss b e s).items = s.items ∧
    (countLoss b e s).accSource = s.accSource ∧
    (countLoss b e s).accepted = s.accepted ∧
    (countLoss b e s).committed = s.committed ∧
    (countLoss b e s).nextOrd = s.nextOrd ∧
    (countLoss b e s).hold = s.hold ∧
    (countLoss b e s).mountSeq = s.mountSeq ∧
    (countLoss b e s).enables = s.enables ∧
    (countLoss b e s).frame = s.frame ∧
    (countLoss b e s).frameError = s.frameError ∧
    (countLoss b e s).free = s.free ∧
    (countLoss b e s).pending = s.pending := by
  unfold countLoss
  dsimp only
  repeat' split
  all_goals simp

@[simp] theorem checkThreshold_frame (b : BayId) (s : State) :
    (checkThreshold b s).rst = s.rst ∧
    (checkThreshold b s).hrst = s.hrst ∧
    (checkThreshold b s).deviceNumber = s.deviceNumber ∧
    (checkThreshold b s).windows = s.windows ∧
    (checkThreshold b s).staging = s.staging ∧
    (checkThreshold b s).items = s.items ∧
    (checkThreshold b s).accSource = s.accSource ∧
    (checkThreshold b s).accepted = s.accepted ∧
    (checkThreshold b s).committed = s.committed ∧
    (checkThreshold b s).nextOrd = s.nextOrd ∧
    (checkThreshold b s).mountSeq = s.mountSeq ∧
    (checkThreshold b s).enables = s.enables ∧
    (checkThreshold b s).frame = s.frame ∧
    (checkThreshold b s).frameError = s.frameError ∧
    (checkThreshold b s).free = s.free ∧
    (checkThreshold b s).pending = s.pending := by
  unfold checkThreshold
  split <;> simp

@[simp] theorem loseHead_frame (b : BayId) (e : QEntry) (s : State) :
    (loseHead b e s).rst = s.rst ∧
    (loseHead b e s).hrst = s.hrst ∧
    (loseHead b e s).deviceNumber = s.deviceNumber ∧
    (loseHead b e s).windows = s.windows ∧
    (loseHead b e s).staging = s.staging ∧
    (loseHead b e s).items = s.items ∧
    (loseHead b e s).accSource = s.accSource ∧
    (loseHead b e s).accepted = s.accepted ∧
    (loseHead b e s).committed = s.committed ∧
    (loseHead b e s).nextOrd = s.nextOrd ∧
    (loseHead b e s).mountSeq = s.mountSeq ∧
    (loseHead b e s).enables = s.enables ∧
    (loseHead b e s).frame = s.frame ∧
    (loseHead b e s).frameError = s.frameError ∧
    (loseHead b e s).free = s.free ∧
    (loseHead b e s).pending = s.pending := by
  simp [loseHead]

@[simp] theorem failTransfer_frame (b : BayId) (h : Holder) (s : State) :
    (failTransfer b h s).rst = s.rst ∧
    (failTransfer b h s).hrst = s.hrst ∧
    (failTransfer b h s).deviceNumber = s.deviceNumber ∧
    (failTransfer b h s).windows = s.windows ∧
    (failTransfer b h s).staging = s.staging ∧
    (failTransfer b h s).items = s.items ∧
    (failTransfer b h s).committed = s.committed ∧
    (failTransfer b h s).mountSeq = s.mountSeq ∧
    (failTransfer b h s).enables = s.enables ∧
    (failTransfer b h s).frame = s.frame ∧
    (failTransfer b h s).frameError = s.frameError ∧
    (failTransfer b h s).free = s.free ∧
    (failTransfer b h s).pending = s.pending := by
  unfold failTransfer
  repeat' split
  all_goals simp

@[simp] theorem failAttempt_frame (b : BayId) (s : State) :
    (failAttempt b s).rst = s.rst ∧
    (failAttempt b s).hrst = s.hrst ∧
    (failAttempt b s).deviceNumber = s.deviceNumber ∧
    (failAttempt b s).windows = s.windows ∧
    (failAttempt b s).staging = s.staging ∧
    (failAttempt b s).items = s.items ∧
    (failAttempt b s).committed = s.committed ∧
    (failAttempt b s).mountSeq = s.mountSeq ∧
    (failAttempt b s).enables = s.enables ∧
    (failAttempt b s).frame = s.frame ∧
    (failAttempt b s).frameError = s.frameError ∧
    (failAttempt b s).free = s.free ∧
    (failAttempt b s).pending = s.pending := by
  unfold failAttempt
  repeat' split
  all_goals simp

@[simp] theorem detectSample_frame (b : BayId) (s : State) :
    (detectSample b s).rst = s.rst ∧
    (detectSample b s).hrst = s.hrst ∧
    (detectSample b s).deviceNumber = s.deviceNumber ∧
    (detectSample b s).host = s.host ∧
    (detectSample b s).hostError = s.hostError ∧
    (detectSample b s).windows = s.windows ∧
    (detectSample b s).staging = s.staging ∧
    (detectSample b s).items = s.items ∧
    (detectSample b s).accSource = s.accSource ∧
    (detectSample b s).accepted = s.accepted ∧
    (detectSample b s).committed = s.committed ∧
    (detectSample b s).lost = s.lost ∧
    (detectSample b s).lossLog = s.lossLog ∧
    (detectSample b s).summary = s.summary ∧
    (detectSample b s).nextOrd = s.nextOrd ∧
    (detectSample b s).hold = s.hold ∧
    (detectSample b s).mountSeq = s.mountSeq ∧
    (detectSample b s).latches = s.latches ∧
    (detectSample b s).enables = s.enables ∧
    (detectSample b s).frame = s.frame ∧
    (detectSample b s).frameError = s.frameError ∧
    (detectSample b s).free = s.free ∧
    (detectSample b s).pending = s.pending := by
  unfold detectSample
  dsimp only
  repeat' split
  all_goals simp

@[simp] theorem sampleDetect_frame (b : BayId) (m : Bool) (s : State) :
    (sampleDetect b m s).rst = s.rst ∧
    (sampleDetect b m s).hrst = s.hrst ∧
    (sampleDetect b m s).deviceNumber = s.deviceNumber ∧
    (sampleDetect b m s).host = s.host ∧
    (sampleDetect b m s).hostError = s.hostError ∧
    (sampleDetect b m s).windows = s.windows ∧
    (sampleDetect b m s).staging = s.staging ∧
    (sampleDetect b m s).items = s.items ∧
    (sampleDetect b m s).accSource = s.accSource ∧
    (sampleDetect b m s).accepted = s.accepted ∧
    (sampleDetect b m s).committed = s.committed ∧
    (sampleDetect b m s).lost = s.lost ∧
    (sampleDetect b m s).lossLog = s.lossLog ∧
    (sampleDetect b m s).summary = s.summary ∧
    (sampleDetect b m s).nextOrd = s.nextOrd ∧
    (sampleDetect b m s).hold = s.hold ∧
    (sampleDetect b m s).mountSeq = s.mountSeq ∧
    (sampleDetect b m s).latches = s.latches ∧
    (sampleDetect b m s).enables = s.enables ∧
    (sampleDetect b m s).frame = s.frame ∧
    (sampleDetect b m s).frameError = s.frameError ∧
    (sampleDetect b m s).free = s.free ∧
    (sampleDetect b m s).pending = s.pending := by
  simp [sampleDetect]

@[simp] theorem breakDetect_frame (b : BayId) (c : DetContact) (s : State) :
    (breakDetect b c s).rst = s.rst ∧
    (breakDetect b c s).hrst = s.hrst ∧
    (breakDetect b c s).deviceNumber = s.deviceNumber ∧
    (breakDetect b c s).host = s.host ∧
    (breakDetect b c s).hostError = s.hostError ∧
    (breakDetect b c s).windows = s.windows ∧
    (breakDetect b c s).staging = s.staging ∧
    (breakDetect b c s).items = s.items ∧
    (breakDetect b c s).accSource = s.accSource ∧
    (breakDetect b c s).accepted = s.accepted ∧
    (breakDetect b c s).committed = s.committed ∧
    (breakDetect b c s).lost = s.lost ∧
    (breakDetect b c s).lossLog = s.lossLog ∧
    (breakDetect b c s).summary = s.summary ∧
    (breakDetect b c s).nextOrd = s.nextOrd ∧
    (breakDetect b c s).hold = s.hold ∧
    (breakDetect b c s).mountSeq = s.mountSeq ∧
    (breakDetect b c s).latches = s.latches ∧
    (breakDetect b c s).enables = s.enables ∧
    (breakDetect b c s).frame = s.frame ∧
    (breakDetect b c s).frameError = s.frameError ∧
    (breakDetect b c s).free = s.free ∧
    (breakDetect b c s).pending = s.pending := by
  simp [breakDetect]

@[simp] theorem sampleKeys_frame (b : BayId) (k : KeySample) (s : State) :
    (sampleKeys b k s).rst = s.rst ∧
    (sampleKeys b k s).hrst = s.hrst ∧
    (sampleKeys b k s).deviceNumber = s.deviceNumber ∧
    (sampleKeys b k s).host = s.host ∧
    (sampleKeys b k s).hostError = s.hostError ∧
    (sampleKeys b k s).windows = s.windows ∧
    (sampleKeys b k s).staging = s.staging ∧
    (sampleKeys b k s).items = s.items ∧
    (sampleKeys b k s).accSource = s.accSource ∧
    (sampleKeys b k s).accepted = s.accepted ∧
    (sampleKeys b k s).committed = s.committed ∧
    (sampleKeys b k s).lost = s.lost ∧
    (sampleKeys b k s).lossLog = s.lossLog ∧
    (sampleKeys b k s).summary = s.summary ∧
    (sampleKeys b k s).nextOrd = s.nextOrd ∧
    (sampleKeys b k s).hold = s.hold ∧
    (sampleKeys b k s).mountSeq = s.mountSeq ∧
    (sampleKeys b k s).latches = s.latches ∧
    (sampleKeys b k s).enables = s.enables ∧
    (sampleKeys b k s).frame = s.frame ∧
    (sampleKeys b k s).frameError = s.frameError ∧
    (sampleKeys b k s).free = s.free ∧
    (sampleKeys b k s).pending = s.pending := by
  simp [sampleKeys]

@[simp] theorem samplePower_frame (b : BayId) (l : Bool) (s : State) :
    (samplePower b l s).rst = s.rst ∧
    (samplePower b l s).hrst = s.hrst ∧
    (samplePower b l s).deviceNumber = s.deviceNumber ∧
    (samplePower b l s).host = s.host ∧
    (samplePower b l s).hostError = s.hostError ∧
    (samplePower b l s).windows = s.windows ∧
    (samplePower b l s).staging = s.staging ∧
    (samplePower b l s).items = s.items ∧
    (samplePower b l s).accSource = s.accSource ∧
    (samplePower b l s).accepted = s.accepted ∧
    (samplePower b l s).committed = s.committed ∧
    (samplePower b l s).lost = s.lost ∧
    (samplePower b l s).lossLog = s.lossLog ∧
    (samplePower b l s).summary = s.summary ∧
    (samplePower b l s).nextOrd = s.nextOrd ∧
    (samplePower b l s).hold = s.hold ∧
    (samplePower b l s).mountSeq = s.mountSeq ∧
    (samplePower b l s).latches = s.latches ∧
    (samplePower b l s).enables = s.enables ∧
    (samplePower b l s).frame = s.frame ∧
    (samplePower b l s).frameError = s.frameError ∧
    (samplePower b l s).free = s.free ∧
    (samplePower b l s).pending = s.pending := by
  simp [samplePower]

@[simp] theorem sampleLock_frame (b : BayId) (m : Bool) (s : State) :
    (sampleLock b m s).rst = s.rst ∧
    (sampleLock b m s).hrst = s.hrst ∧
    (sampleLock b m s).deviceNumber = s.deviceNumber ∧
    (sampleLock b m s).host = s.host ∧
    (sampleLock b m s).hostError = s.hostError ∧
    (sampleLock b m s).windows = s.windows ∧
    (sampleLock b m s).staging = s.staging ∧
    (sampleLock b m s).items = s.items ∧
    (sampleLock b m s).accSource = s.accSource ∧
    (sampleLock b m s).accepted = s.accepted ∧
    (sampleLock b m s).committed = s.committed ∧
    (sampleLock b m s).lost = s.lost ∧
    (sampleLock b m s).lossLog = s.lossLog ∧
    (sampleLock b m s).summary = s.summary ∧
    (sampleLock b m s).nextOrd = s.nextOrd ∧
    (sampleLock b m s).hold = s.hold ∧
    (sampleLock b m s).mountSeq = s.mountSeq ∧
    (sampleLock b m s).latches = s.latches ∧
    (sampleLock b m s).enables = s.enables ∧
    (sampleLock b m s).frame = s.frame ∧
    (sampleLock b m s).frameError = s.frameError ∧
    (sampleLock b m s).free = s.free ∧
    (sampleLock b m s).pending = s.pending := by
  simp [sampleLock]

@[simp] theorem enterIdentifying_frame (b : BayId) (s : State) :
    (enterIdentifying b s).rst = s.rst ∧
    (enterIdentifying b s).hrst = s.hrst ∧
    (enterIdentifying b s).deviceNumber = s.deviceNumber ∧
    (enterIdentifying b s).hostError = s.hostError ∧
    (enterIdentifying b s).windows = s.windows ∧
    (enterIdentifying b s).staging = s.staging ∧
    (enterIdentifying b s).items = s.items ∧
    (enterIdentifying b s).accSource = s.accSource ∧
    (enterIdentifying b s).accepted = s.accepted ∧
    (enterIdentifying b s).committed = s.committed ∧
    (enterIdentifying b s).lost = s.lost ∧
    (enterIdentifying b s).lossLog = s.lossLog ∧
    (enterIdentifying b s).summary = s.summary ∧
    (enterIdentifying b s).nextOrd = s.nextOrd ∧
    (enterIdentifying b s).hold = s.hold ∧
    (enterIdentifying b s).mountSeq = s.mountSeq ∧
    (enterIdentifying b s).latches = s.latches ∧
    (enterIdentifying b s).enables = s.enables ∧
    (enterIdentifying b s).frame = s.frame ∧
    (enterIdentifying b s).frameError = s.frameError ∧
    (enterIdentifying b s).free = s.free ∧
    (enterIdentifying b s).pending = s.pending := by
  simp [enterIdentifying]

@[simp] theorem enterPowering_frame (b : BayId) (v : Supply) (s : State) :
    (enterPowering b v s).rst = s.rst ∧
    (enterPowering b v s).hrst = s.hrst ∧
    (enterPowering b v s).deviceNumber = s.deviceNumber ∧
    (enterPowering b v s).hostError = s.hostError ∧
    (enterPowering b v s).windows = s.windows ∧
    (enterPowering b v s).staging = s.staging ∧
    (enterPowering b v s).items = s.items ∧
    (enterPowering b v s).accSource = s.accSource ∧
    (enterPowering b v s).accepted = s.accepted ∧
    (enterPowering b v s).committed = s.committed ∧
    (enterPowering b v s).lost = s.lost ∧
    (enterPowering b v s).lossLog = s.lossLog ∧
    (enterPowering b v s).summary = s.summary ∧
    (enterPowering b v s).nextOrd = s.nextOrd ∧
    (enterPowering b v s).hold = s.hold ∧
    (enterPowering b v s).mountSeq = s.mountSeq ∧
    (enterPowering b v s).latches = s.latches ∧
    (enterPowering b v s).enables = s.enables ∧
    (enterPowering b v s).frame = s.frame ∧
    (enterPowering b v s).frameError = s.frameError ∧
    (enterPowering b v s).free = s.free ∧
    (enterPowering b v s).pending = s.pending := by
  unfold enterPowering
  dsimp only
  repeat' split
  all_goals simp

@[simp] theorem keyRead_frame (b : BayId) (s : State) :
    (keyRead b s).rst = s.rst ∧
    (keyRead b s).hrst = s.hrst ∧
    (keyRead b s).deviceNumber = s.deviceNumber ∧
    (keyRead b s).hostError = s.hostError ∧
    (keyRead b s).windows = s.windows ∧
    (keyRead b s).staging = s.staging ∧
    (keyRead b s).items = s.items ∧
    (keyRead b s).accSource = s.accSource ∧
    (keyRead b s).accepted = s.accepted ∧
    (keyRead b s).committed = s.committed ∧
    (keyRead b s).lost = s.lost ∧
    (keyRead b s).lossLog = s.lossLog ∧
    (keyRead b s).summary = s.summary ∧
    (keyRead b s).nextOrd = s.nextOrd ∧
    (keyRead b s).hold = s.hold ∧
    (keyRead b s).mountSeq = s.mountSeq ∧
    (keyRead b s).enables = s.enables ∧
    (keyRead b s).frame = s.frame ∧
    (keyRead b s).frameError = s.frameError ∧
    (keyRead b s).free = s.free ∧
    (keyRead b s).pending = s.pending := by
  unfold keyRead
  dsimp only
  repeat' split
  all_goals simp

@[simp] theorem judgeHold_frame (b : BayId) (serial : Serial) (slot : Option Stamp) (s : State) :
    (judgeHold b serial slot s).rst = s.rst ∧
    (judgeHold b serial slot s).hrst = s.hrst ∧
    (judgeHold b serial slot s).deviceNumber = s.deviceNumber ∧
    (judgeHold b serial slot s).host = s.host ∧
    (judgeHold b serial slot s).hostError = s.hostError ∧
    (judgeHold b serial slot s).windows = s.windows ∧
    (judgeHold b serial slot s).staging = s.staging ∧
    (judgeHold b serial slot s).items = s.items ∧
    (judgeHold b serial slot s).accSource = s.accSource ∧
    (judgeHold b serial slot s).accepted = s.accepted ∧
    (judgeHold b serial slot s).committed = s.committed ∧
    (judgeHold b serial slot s).lost = s.lost ∧
    (judgeHold b serial slot s).lossLog = s.lossLog ∧
    (judgeHold b serial slot s).summary = s.summary ∧
    (judgeHold b serial slot s).nextOrd = s.nextOrd ∧
    (judgeHold b serial slot s).mountSeq = s.mountSeq ∧
    (judgeHold b serial slot s).bayA = s.bayA ∧
    (judgeHold b serial slot s).bayB = s.bayB ∧
    (judgeHold b serial slot s).enables = s.enables ∧
    (judgeHold b serial slot s).frame = s.frame ∧
    (judgeHold b serial slot s).frameError = s.frameError ∧
    (judgeHold b serial slot s).free = s.free ∧
    (judgeHold b serial slot s).pending = s.pending := by
  unfold judgeHold
  split <;> simp

@[simp] theorem completeMount_frame (b : BayId) (v : Verdict) (s : State) :
    (completeMount b v s).rst = s.rst ∧
    (completeMount b v s).hrst = s.hrst ∧
    (completeMount b v s).deviceNumber = s.deviceNumber ∧
    (completeMount b v s).windows = s.windows ∧
    (completeMount b v s).staging = s.staging ∧
    (completeMount b v s).items = s.items ∧
    (completeMount b v s).committed = s.committed ∧
    (completeMount b v s).mountSeq = s.mountSeq ∧
    (completeMount b v s).enables = s.enables ∧
    (completeMount b v s).frame = s.frame ∧
    (completeMount b v s).frameError = s.frameError ∧
    (completeMount b v s).free = s.free ∧
    (completeMount b v s).pending = s.pending := by
  simp [completeMount]

@[simp] theorem mountLocked_frame (b : BayId) (serial : Serial) (c : BitVec 16) (slot : Option Stamp) (s : State) :
    (mountLocked b serial c slot s).rst = s.rst ∧
    (mountLocked b serial c slot s).hrst = s.hrst ∧
    (mountLocked b serial c slot s).deviceNumber = s.deviceNumber ∧
    (mountLocked b serial c slot s).windows = s.windows ∧
    (mountLocked b serial c slot s).staging = s.staging ∧
    (mountLocked b serial c slot s).items = s.items ∧
    (mountLocked b serial c slot s).committed = s.committed ∧
    (mountLocked b serial c slot s).mountSeq = s.mountSeq ∧
    (mountLocked b serial c slot s).enables = s.enables ∧
    (mountLocked b serial c slot s).frame = s.frame ∧
    (mountLocked b serial c slot s).frameError = s.frameError ∧
    (mountLocked b serial c slot s).free = s.free ∧
    (mountLocked b serial c slot s).pending = s.pending := by
  simp [mountLocked]

@[simp] theorem beginBinding_frame (b : BayId) (i : Ident) (serial : Serial) (s : State) :
    (beginBinding b i serial s).rst = s.rst ∧
    (beginBinding b i serial s).hrst = s.hrst ∧
    (beginBinding b i serial s).deviceNumber = s.deviceNumber ∧
    (beginBinding b i serial s).hostError = s.hostError ∧
    (beginBinding b i serial s).windows = s.windows ∧
    (beginBinding b i serial s).staging = s.staging ∧
    (beginBinding b i serial s).items = s.items ∧
    (beginBinding b i serial s).accSource = s.accSource ∧
    (beginBinding b i serial s).accepted = s.accepted ∧
    (beginBinding b i serial s).committed = s.committed ∧
    (beginBinding b i serial s).lost = s.lost ∧
    (beginBinding b i serial s).lossLog = s.lossLog ∧
    (beginBinding b i serial s).summary = s.summary ∧
    (beginBinding b i serial s).nextOrd = s.nextOrd ∧
    (beginBinding b i serial s).hold = s.hold ∧
    (beginBinding b i serial s).latches = s.latches ∧
    (beginBinding b i serial s).enables = s.enables ∧
    (beginBinding b i serial s).frame = s.frame ∧
    (beginBinding b i serial s).frameError = s.frameError ∧
    (beginBinding b i serial s).free = s.free ∧
    (beginBinding b i serial s).pending = s.pending := by
  simp [beginBinding]

@[simp] theorem checkDescriptor_frame (b : BayId) (i : Ident) (s : State) :
    (checkDescriptor b i s).rst = s.rst ∧
    (checkDescriptor b i s).hrst = s.hrst ∧
    (checkDescriptor b i s).deviceNumber = s.deviceNumber ∧
    (checkDescriptor b i s).windows = s.windows ∧
    (checkDescriptor b i s).staging = s.staging ∧
    (checkDescriptor b i s).items = s.items ∧
    (checkDescriptor b i s).committed = s.committed ∧
    (checkDescriptor b i s).enables = s.enables ∧
    (checkDescriptor b i s).frame = s.frame ∧
    (checkDescriptor b i s).frameError = s.frameError ∧
    (checkDescriptor b i s).free = s.free ∧
    (checkDescriptor b i s).pending = s.pending := by
  unfold checkDescriptor
  dsimp only
  repeat' split
  all_goals simp

@[simp] theorem completeBinding_frame (b : BayId) (i : Ident) (w : Binding) (s : State) :
    (completeBinding b i w s).rst = s.rst ∧
    (completeBinding b i w s).hrst = s.hrst ∧
    (completeBinding b i w s).deviceNumber = s.deviceNumber ∧
    (completeBinding b i w s).windows = s.windows ∧
    (completeBinding b i w s).staging = s.staging ∧
    (completeBinding b i w s).items = s.items ∧
    (completeBinding b i w s).committed = s.committed ∧
    (completeBinding b i w s).mountSeq = s.mountSeq ∧
    (completeBinding b i w s).enables = s.enables ∧
    (completeBinding b i w s).frame = s.frame ∧
    (completeBinding b i w s).frameError = s.frameError ∧
    (completeBinding b i w s).free = s.free ∧
    (completeBinding b i w s).pending = s.pending := by
  simp [completeBinding]

@[simp] theorem foldl_lose_frame (f : HoldEntry → LossRecord) (l : List HoldEntry) (s : State) :
    (l.foldl (fun s e => lose (f e) s) s).rst = s.rst ∧
    (l.foldl (fun s e => lose (f e) s) s).hrst = s.hrst ∧
    (l.foldl (fun s e => lose (f e) s) s).deviceNumber = s.deviceNumber ∧
    (l.foldl (fun s e => lose (f e) s) s).host = s.host ∧
    (l.foldl (fun s e => lose (f e) s) s).hostError = s.hostError ∧
    (l.foldl (fun s e => lose (f e) s) s).windows = s.windows ∧
    (l.foldl (fun s e => lose (f e) s) s).staging = s.staging ∧
    (l.foldl (fun s e => lose (f e) s) s).items = s.items ∧
    (l.foldl (fun s e => lose (f e) s) s).accSource = s.accSource ∧
    (l.foldl (fun s e => lose (f e) s) s).accepted = s.accepted ∧
    (l.foldl (fun s e => lose (f e) s) s).committed = s.committed ∧
    (l.foldl (fun s e => lose (f e) s) s).nextOrd = s.nextOrd ∧
    (l.foldl (fun s e => lose (f e) s) s).mountSeq = s.mountSeq ∧
    (l.foldl (fun s e => lose (f e) s) s).bayA = s.bayA ∧
    (l.foldl (fun s e => lose (f e) s) s).bayB = s.bayB ∧
    (l.foldl (fun s e => lose (f e) s) s).enables = s.enables ∧
    (l.foldl (fun s e => lose (f e) s) s).frame = s.frame ∧
    (l.foldl (fun s e => lose (f e) s) s).frameError = s.frameError ∧
    (l.foldl (fun s e => lose (f e) s) s).free = s.free ∧
    (l.foldl (fun s e => lose (f e) s) s).pending = s.pending ∧
    (l.foldl (fun s e => lose (f e) s) s).hold = s.hold := by
  induction l generalizing s with
  | nil => simp
  | cons e l ih => simp only [List.foldl_cons, ih, lose_frame, and_self]

@[simp] theorem discardEntries_frame (p : HoldEntry → Bool) (s : State) :
    (discardEntries p s).rst = s.rst ∧
    (discardEntries p s).hrst = s.hrst ∧
    (discardEntries p s).deviceNumber = s.deviceNumber ∧
    (discardEntries p s).host = s.host ∧
    (discardEntries p s).hostError = s.hostError ∧
    (discardEntries p s).windows = s.windows ∧
    (discardEntries p s).staging = s.staging ∧
    (discardEntries p s).items = s.items ∧
    (discardEntries p s).accSource = s.accSource ∧
    (discardEntries p s).accepted = s.accepted ∧
    (discardEntries p s).committed = s.committed ∧
    (discardEntries p s).nextOrd = s.nextOrd ∧
    (discardEntries p s).mountSeq = s.mountSeq ∧
    (discardEntries p s).bayA = s.bayA ∧
    (discardEntries p s).bayB = s.bayB ∧
    (discardEntries p s).enables = s.enables ∧
    (discardEntries p s).frame = s.frame ∧
    (discardEntries p s).frameError = s.frameError ∧
    (discardEntries p s).free = s.free ∧
    (discardEntries p s).pending = s.pending := by
  simp [discardEntries]

end Sys2Proof.Machine
end

