-- ==== Sys2Proof/Laws/State.lean ====
section
/-! SUPPORT. The small lemmas of the state: reading back what an update wrote, bay by bay and field by
field. -/

namespace Sys2Proof.Machine

/-! ### Bays of the state -/

@[simp] theorem otherBay_A : otherBay .A = .B := rfl

@[simp] theorem otherBay_B : otherBay .B = .A := rfl

@[simp] theorem otherBay_ne (b : BayId) : otherBay b ≠ b := by cases b <;> decide

@[simp] theorem ne_otherBay (b : BayId) : b ≠ otherBay b := by cases b <;> decide

theorem eq_or_eq_otherBay (b c : BayId) : c = b ∨ c = otherBay b := by
  cases b <;> cases c <;> decide

@[simp] theorem State.bay_A (s : State) : s.bay .A = s.bayA := rfl

@[simp] theorem State.bay_B (s : State) : s.bay .B = s.bayB := rfl

@[simp] theorem modBay_bay (b : BayId) (f : Bay → Bay) (s : State) :
    (modBay b f s).bay b = f (s.bay b) := by cases b <;> rfl

@[simp] theorem modBay_bay_other (b : BayId) (f : Bay → Bay) (s : State) :
    (modBay b f s).bay (otherBay b) = s.bay (otherBay b) := by cases b <;> rfl

theorem modBay_bay_ne {b c : BayId} (f : Bay → Bay) (s : State) (h : c ≠ b) :
    (modBay b f s).bay c = s.bay c := by
  obtain rfl | rfl := eq_or_eq_otherBay b c
  · exact absurd rfl h
  · exact modBay_bay_other b f s

@[simp] theorem modBay_A_bayA (f : Bay → Bay) (s : State) : (modBay .A f s).bayA = f s.bayA := rfl

@[simp] theorem modBay_A_bayB (f : Bay → Bay) (s : State) : (modBay .A f s).bayB = s.bayB := rfl

@[simp] theorem modBay_B_bayA (f : Bay → Bay) (s : State) : (modBay .B f s).bayA = s.bayA := rfl

@[simp] theorem modBay_B_bayB (f : Bay → Bay) (s : State) : (modBay .B f s).bayB = f s.bayB := rfl

/-- Two states with the same two bays have the same bays. -/
theorem State.bay_congr {s t : State} (hA : s.bayA = t.bayA) (hB : s.bayB = t.bayB) (b : BayId) :
    s.bay b = t.bay b := by cases b <;> assumption

/-! ### Fields written by the plain updates -/

@[simp] theorem takeNumber_accSource (s : State) : (takeNumber s).accSource = s.accSource + 1 := rfl

@[simp] theorem takeNumber_accepted (s : State) : (takeNumber s).accepted = s.accepted + 1 := rfl

@[simp] theorem takeNumber_nextOrd (s : State) : (takeNumber s).nextOrd = s.nextOrd + 1 := rfl

@[simp] theorem lose_lost (r : LossRecord) (s : State) : (lose r s).lost = s.lost + 1 := by
  unfold lose logLoss
  repeat' split
  all_goals rfl

@[simp] theorem releaseOk_host (hd : Option BusHalf) (s : State) :
    (releaseOk hd s).host = .released false hd := rfl

@[simp] theorem releaseError_host (a : Access) (c : HostCause) (n : Option Word) (s : State) :
    (releaseError a c n s).host = .released true (if a.write then none else some busOnes) := rfl

@[simp] theorem releaseError_hostError (a : Access) (c : HostCause) (n : Option Word) (s : State) :
    (releaseError a c n s).hostError =
      some ⟨a.addr, a.lanes, a.write, a.window, c, n, s.hostError.isSome⟩ := rfl

@[simp] theorem waitIn_host (a : Access) (w : Wait) (s : State) :
    (waitIn a w s).host = .diverted { a with stall := some (a.stall.getD s.items.stallUs) } w := rfl

/-! ### Operations that reach no bay -/

@[simp] theorem setLatch_bay (l : Latch) (s : State) (b : BayId) :
    (setLatch l s).bay b = s.bay b := State.bay_congr (by simp) (by simp) b

@[simp] theorem takeNumber_bay (s : State) (b : BayId) :
    (takeNumber s).bay b = s.bay b := State.bay_congr (by simp) (by simp) b

@[simp] theorem logLoss_bay (r : LossRecord) (s : State) (b : BayId) :
    (logLoss r s).bay b = s.bay b := State.bay_congr (by simp) (by simp) b

@[simp] theorem lose_bay (r : LossRecord) (s : State) (b : BayId) :
    (lose r s).bay b = s.bay b := State.bay_congr (by simp) (by simp) b

@[simp] theorem holdHigh_bay (s : State) (b : BayId) :
    (holdHigh s).bay b = s.bay b := State.bay_congr (by simp) (by simp) b

@[simp] theorem joinEvacuated_bay (e : HoldEntry) (s : State) (b : BayId) :
    (joinEvacuated e s).bay b = s.bay b := State.bay_congr (by simp) (by simp) b

@[simp] theorem joinNewest_bay (e : HoldEntry) (s : State) (b : BayId) :
    (joinNewest e s).bay b = s.bay b := State.bay_congr (by simp) (by simp) b

@[simp] theorem releaseOk_bay (hd : Option BusHalf) (s : State) (b : BayId) :
    (releaseOk hd s).bay b = s.bay b := State.bay_congr (by simp) (by simp) b

@[simp] theorem releaseError_bay (a : Access) (cause : HostCause) (n : Option Word) (s : State) (b : BayId) :
    (releaseError a cause n s).bay b = s.bay b := State.bay_congr (by simp) (by simp) b

@[simp] theorem waitIn_bay (a : Access) (w : Wait) (s : State) (b : BayId) :
    (waitIn a w s).bay b = s.bay b := State.bay_congr (by simp) (by simp) b

@[simp] theorem releaseThrough_bay (cause : Option HostCause) (s : State) (b : BayId) :
    (releaseThrough cause s).bay b = s.bay b := State.bay_congr (by simp) (by simp) b

@[simp] theorem readServing_bay (a : Access) (s : State) (b : BayId) :
    (readServing a s).bay b = s.bay b := State.bay_congr (by simp) (by simp) b

@[simp] theorem absentRead_bay (a : Access) (s : State) (b : BayId) :
    (absentRead a s).bay b = s.bay b := State.bay_congr (by simp) (by simp) b

@[simp] theorem acceptAbsent_bay (a : Access) (serial : Serial) (t : Stamp) (s : State) (b : BayId) :
    (acceptAbsent a serial t s).bay b = s.bay b := State.bay_congr (by simp) (by simp) b

@[simp] theorem absentWrite_bay (a : Access) (s : State) (b : BayId) :
    (absentWrite a s).bay b = s.bay b := State.bay_congr (by simp) (by simp) b

@[simp] theorem judgeHold_bay (b : BayId) (serial : Serial) (slot : Option Stamp) (s : State) (c : BayId) :
    (judgeHold b serial slot s).bay c = s.bay c := State.bay_congr (by simp) (by simp) c

@[simp] theorem discardEntries_bay (p : HoldEntry → Bool) (s : State) (b : BayId) :
    (discardEntries p s).bay b = s.bay b := State.bay_congr (by simp) (by simp) b

@[simp] theorem evacuateOne_bay (s : State) (e : QEntry) (b : BayId) :
    (evacuateOne s e).bay b = s.bay b := State.bay_congr (by simp) (by simp) b

@[simp] theorem foldl_evacuateOne_bay (l : List QEntry) (s : State) (b : BayId) :
    (l.foldl evacuateOne s).bay b = s.bay b := State.bay_congr (by simp) (by simp) b

/-! ### Fields of a bay -/

@[simp] theorem Bay.supplyOff_frame (x : Bay) :
    x.supplyOff.state = x.state ∧
    x.supplyOff.last = x.last ∧
    x.supplyOff.lossCount = x.lossCount ∧
    x.supplyOff.ejectPending = x.ejectPending ∧
    x.supplyOff.lamp = x.lamp ∧
    x.supplyOff.debounceTimer = x.debounceTimer ∧
    x.supplyOff.powerTimer = x.powerTimer ∧
    x.supplyOff.identTimer = x.identTimer ∧
    x.supplyOff.drainTimer = x.drainTimer ∧
    x.supplyOff.queue = x.queue ∧
    x.supplyOff.ident = x.ident ∧
    x.supplyOff.contacts = x.contacts := by
  simp [Bay.supplyOff, Bay.dropLink]

@[simp] theorem Bay.dropLink_frame (x : Bay) :
    x.dropLink.state = x.state ∧
    x.dropLink.mount = x.mount ∧
    x.dropLink.last = x.last ∧
    x.dropLink.lossCount = x.lossCount ∧
    x.dropLink.ejectPending = x.ejectPending ∧
    x.dropLink.lamp = x.lamp ∧
    x.dropLink.debounceTimer = x.debounceTimer ∧
    x.dropLink.powerTimer = x.powerTimer ∧
    x.dropLink.identTimer = x.identTimer ∧
    x.dropLink.drainTimer = x.drainTimer ∧
    x.dropLink.queue = x.queue ∧
    x.dropLink.ident = x.ident ∧
    x.dropLink.contacts = x.contacts := by
  simp [Bay.dropLink]

@[simp] theorem Bay.elapse_frame (n : BitVec 8) (x : Bay) :
    (x.elapse n).state = x.state ∧
    (x.elapse n).mount = x.mount ∧
    (x.elapse n).last = x.last ∧
    (x.elapse n).lossCount = x.lossCount ∧
    (x.elapse n).ejectPending = x.ejectPending ∧
    (x.elapse n).lamp = x.lamp ∧
    (x.elapse n).debounceTimer = x.debounceTimer ∧
    (x.elapse n).powerTimer = x.powerTimer ∧
    (x.elapse n).identTimer = x.identTimer ∧
    (x.elapse n).drainTimer = x.drainTimer ∧
    (x.elapse n).queue = x.queue ∧
    (x.elapse n).ident = x.ident ∧
    (x.elapse n).contacts = x.contacts := by
  simp [Bay.elapse]

@[simp] theorem Bay.enter_frame (st : BayState) (c : MountCause) (x : Bay) :
    (x.enter st c).last = x.last ∧
    (x.enter st c).lossCount = x.lossCount ∧
    (x.enter st c).ejectPending = x.ejectPending ∧
    (x.enter st c).lamp = x.lamp ∧
    (x.enter st c).debounceTimer = x.debounceTimer ∧
    (x.enter st c).powerTimer = x.powerTimer ∧
    (x.enter st c).identTimer = x.identTimer ∧
    (x.enter st c).drainTimer = x.drainTimer ∧
    (x.enter st c).queue = x.queue ∧
    (x.enter st c).link = x.link ∧
    (x.enter st c).reqHigh = x.reqHigh ∧
    (x.enter st c).ident = x.ident ∧
    (x.enter st c).contacts = x.contacts := by
  simp [Bay.enter]

@[simp] theorem Bay.endMount_frame (x : Bay) :
    x.endMount.state = x.state ∧
    x.endMount.mount = x.mount ∧
    x.endMount.last = x.last ∧
    x.endMount.lossCount = x.lossCount ∧
    x.endMount.ejectPending = x.ejectPending ∧
    x.endMount.lamp = x.lamp ∧
    x.endMount.debounceTimer = x.debounceTimer ∧
    x.endMount.drainTimer = x.drainTimer ∧
    x.endMount.queue = x.queue ∧
    x.endMount.link = x.link ∧
    x.endMount.reqHigh = x.reqHigh ∧
    x.endMount.contacts = x.contacts := by
  simp [Bay.endMount]

@[simp] theorem Bay.supplyOff_link (x : Bay) : x.supplyOff.link = .free := rfl

@[simp] theorem Bay.supplyOff_reqHigh (x : Bay) :
    x.supplyOff.reqHigh = (x.link.request || x.reqHigh) := rfl

@[simp] theorem Bay.dropLink_link (x : Bay) : x.dropLink.link = .free := rfl

@[simp] theorem Bay.dropLink_reqHigh (x : Bay) :
    x.dropLink.reqHigh = (x.link.request || x.reqHigh) := rfl

@[simp] theorem Bay.elapse_link (n : BitVec 8) (x : Bay) : (x.elapse n).link = x.link.elapse n := rfl

@[simp] theorem Bay.elapse_reqHigh (n : BitVec 8) (x : Bay) : (x.elapse n).reqHigh = false := rfl

@[simp] theorem Bay.supplyOff_mount (x : Bay) :
    x.supplyOff.mount = { x.mount with supply := .none } := rfl

@[simp] theorem Bay.enter_state (st : BayState) (c : MountCause) (x : Bay) :
    (x.enter st c).state = st := rfl

@[simp] theorem Bay.enter_mount (st : BayState) (c : MountCause) (x : Bay) :
    (x.enter st c).mount = { x.mount with cause := c } := rfl

@[simp] theorem Bay.endMount_powerTimer (x : Bay) : x.endMount.powerTimer = none := rfl

@[simp] theorem Bay.endMount_identTimer (x : Bay) : x.endMount.identTimer = none := rfl

@[simp] theorem Bay.endMount_ident (x : Bay) : x.endMount.ident = none := rfl

/-! ### What a meaning answers -/

@[simp] theorem replyOk_state (s : State) (r : List Byte) : (replyOk s r).state = s := rfl

@[simp] theorem replyOk_status (s : State) (r : List Byte) : (replyOk s r).status = .ok := rfl

@[simp] theorem replyOk_result (s : State) (r : List Byte) : (replyOk s r).result = r := rfl

@[simp] theorem replyBad_state (s : State) (c : Status) : (replyBad s c).state = s := rfl

@[simp] theorem replyBad_status (s : State) (c : Status) : (replyBad s c).status = c := rfl

@[simp] theorem replyBad_result (s : State) (c : Status) : (replyBad s c).result = [] := rfl

/-- A command acts while RST# is negated. -/
@[simp] theorem live_next {f : State → State} {s : State} (h : s.rst = false) :
    live f s = .next (f s) := by simp [live, h]

/-- An event at once acts on the state as it stands. -/
@[simp] theorem timed_false (f : State → State) : timed false f = f := rfl

/-- An event after the request-high time acts on the state that the time leaves (R166). -/
@[simp] theorem timed_true (f : State → State) (s : State) : timed true f s = f (elapse s) := rfl

/-- A management command runs in an open frame that awaits it. -/
theorem manage_next {n : Nat} {f : State → Reply} {s : State} {c : Count} (h : s.rst = false)
    (hf : s.frame = .receiving c) :
    manage n f s =
      .next { (f s).state with frame := .ran ⟨n + 1, 0⟩ n (f s).status (f s).result } := by
  simp [manage, runCommand, live, h, hf]

end Sys2Proof.Machine
end

