-- ==== Sys2Proof/Laws/Bays.lean ====
section
/-! SUPPORT. What each shared operation does to the two bays, said once, and that it keeps the laws of a
bay. -/

namespace Sys2Proof.Machine

/-! ### The phases of a link -/

@[simp] theorem Link.timely_free (r : Bool) : Link.timely r .free = true := rfl

@[simp] theorem Link.request_free : Link.request .free = false := rfl

@[simp] theorem firstPhase_asserted (r : Bool) (s : State) : (firstPhase r s).asserted = !r := by
  cases r <;> rfl

@[simp] theorem Phase.markAck_asserted (p : Phase) : p.markAck.asserted = p.asserted := by
  cases p <;> rfl

@[simp] theorem Link.markAck_request (l : Link) : l.markAck.request = l.request := by
  rcases l with _ | ⟨_ | _ | _, t⟩ | t <;> simp [Link.markAck, Link.request]

@[simp] theorem Link.markAck_timely (r : Bool) (l : Link) : l.markAck.timely r = l.timely r := by
  rcases l with _ | ⟨_ | _ | _, t⟩ | t <;> simp [Link.markAck, Link.timely]

@[simp] theorem Link.markAck_allowed (st : BayState) (l : Link) : l.markAck.allowed st = l.allowed st := by
  rcases l with _ | ⟨_ | _ | _, t⟩ | t <;> rfl

@[simp] theorem Link.markAck_heldByDrain (l : Link) : l.markAck.heldByDrain = l.heldByDrain := by
  rcases l with _ | ⟨_ | _ | _, t⟩ | t <;> rfl

@[simp] theorem Link.markAck_heldByRead (l : Link) : l.markAck.heldByRead = l.heldByRead := by
  rcases l with _ | ⟨_ | _ | _, t⟩ | t <;> rfl

@[simp] theorem Link.markAck_eq_free (l : Link) : l.markAck = .free ↔ l = .free := by
  rcases l with _ | ⟨_ | _ | _, t⟩ | t <;> simp [Link.markAck]

@[simp] theorem Phase.elapse_asserted (n : BitVec 8) (p : Phase) : (p.elapse n).asserted = true := by
  cases p <;> rfl

@[simp] theorem entryTransfer_phase (e : QEntry) (p : Phase) (s : State) :
    (entryTransfer e p s).phase = p := rfl

@[simp] theorem readTransfer_phase (a : Access) (p : Phase) (s : State) :
    (readTransfer a p s).phase = p := rfl

@[simp] theorem identTransfer_phase (i : Ident) (p : Phase) (s : State) :
    (identTransfer i p s).phase = p := by
  unfold identTransfer; split <;> rfl

/-! ### What an operation does to its bay, and that it leaves the other bay -/

@[simp] theorem evacuate_bay (b : BayId) (s : State) :
    (evacuate b s).bay b = { s.bay b with queue := [] } := by simp [evacuate]

@[simp] theorem evacuate_bay_other (b : BayId) (s : State) :
    (evacuate b s).bay (otherBay b) = s.bay (otherBay b) := by simp [evacuate]

@[simp] theorem leaveServing_bay (b : BayId) (st : BayState) (c : MountCause) (s : State) :
    (leaveServing b st c s).bay b =
      { s.bay b with
        state := st, mount := { (s.bay b).mount with supply := .none, cause := c }, link := .free,
        reqHigh := (s.bay b).link.request || (s.bay b).reqHigh
        queue := [], drainTimer := none, ejectPending := false, lamp := st == .released } := by
  simp [leaveServing, Bay.enter, Bay.supplyOff, Bay.dropLink]

@[simp] theorem leaveServing_bay_other (b : BayId) (st : BayState) (c : MountCause) (s : State) :
    (leaveServing b st c s).bay (otherBay b) = s.bay (otherBay b) := by simp [leaveServing]

@[simp] theorem enterDraining_bay (b : BayId) (s : State) :
    (enterDraining b s).bay b =
      { s.bay b with
        state := .draining, mount := { (s.bay b).mount with cause := .none },
        drainTimer := some s.items.drainMs } := by
  simp [enterDraining, Bay.enter]

@[simp] theorem enterDraining_bay_other (b : BayId) (s : State) :
    (enterDraining b s).bay (otherBay b) = s.bay (otherBay b) := by simp [enterDraining]

@[simp] theorem reject_bay (b : BayId) (c : MountCause) (s : State) :
    (reject b c s).bay b =
      { s.bay b with
        state := .rejected, mount := { (s.bay b).mount with supply := .none, cause := c },
        link := .free, reqHigh := (s.bay b).link.request || (s.bay b).reqHigh
        powerTimer := none, identTimer := none, ident := none } := by
  simp [reject, Bay.enter, Bay.supplyOff, Bay.endMount, Bay.dropLink]

@[simp] theorem reject_bay_other (b : BayId) (c : MountCause) (s : State) :
    (reject b c s).bay (otherBay b) = s.bay (otherBay b) := by simp [reject]

@[simp] theorem markAck_bay (b : BayId) (s : State) :
    (markAck b s).bay b = { s.bay b with link := (s.bay b).link.markAck } := by simp [markAck]

@[simp] theorem markAck_bay_other (b : BayId) (s : State) :
    (markAck b s).bay (otherBay b) = s.bay (otherBay b) := by simp [markAck]

@[simp] theorem freeLink_bay (b : BayId) (s : State) :
    (freeLink b s).bay b = (s.bay b).dropLink := by simp [freeLink]

@[simp] theorem freeLink_bay_other (b : BayId) (s : State) :
    (freeLink b s).bay (otherBay b) = s.bay (otherBay b) := by simp [freeLink]

@[simp] theorem dropHead_bay (b : BayId) (s : State) :
    (dropHead b s).bay b = { (s.bay b).dropLink with queue := (s.bay b).queue.tail } := by
  simp [dropHead]

@[simp] theorem dropHead_bay_other (b : BayId) (s : State) :
    (dropHead b s).bay (otherBay b) = s.bay (otherBay b) := by simp [dropHead]

@[simp] theorem clearThrough_bay (b : BayId) (s : State) :
    (clearThrough b s).bay b =
      { s.bay b with queue := (s.bay b).queue.map fun e => { e with through := false } } := by
  simp [clearThrough]

@[simp] theorem clearThrough_bay_other (b : BayId) (s : State) :
    (clearThrough b s).bay (otherBay b) = s.bay (otherBay b) := by simp [clearThrough]

theorem abandonRead_bay_other (b : BayId) (s : State) :
    (abandonRead b s).bay (otherBay b) = s.bay (otherBay b) := by
  unfold abandonRead; split <;> simp

/-- What the grant of a link does (R71): nothing, or a free link is held by the requester that is
due. -/
theorem grantLink_cases (b : BayId) (s : State) :
    grantLink b s = s ∨ (s.bay b).link = .free ∧
      ((∃ a, waitingRead b s = some a ∧
          grantLink b s =
            { modBay b (fun x => { x with
                link := .held .read (readTransfer a (firstPhase (s.bay b).reqHigh s) s) }) s with
              host := .diverted a .onLink }) ∨
        (waitingRead b s = none ∧ (s.bay b).state.serving ∧ ∃ e es, (s.bay b).queue = e :: es ∧
          grantLink b s =
            modBay b (fun x => { x with
              link := .held .drain (entryTransfer e (firstPhase (s.bay b).reqHigh s) s) }) s) ∨
        (waitingRead b s = none ∧ (s.bay b).state = .identifying ∧ ∃ i, (s.bay b).ident = some i ∧
          grantLink b s =
            modBay b (fun x => { x with
              link := .held .ident (identTransfer i (firstPhase (s.bay b).reqHigh s) s) }) s)) := by
  unfold grantLink
  dsimp only
  split
  next hl =>
    split
    next a ha => exact .inr ⟨hl, .inl ⟨a, ha, rfl⟩⟩
    next hn =>
      split
      next e es hs hq => exact .inr ⟨hl, .inr (.inl ⟨hn, hs, e, es, hq, rfl⟩)⟩
      next =>
        split
        next i hs hi => exact .inr ⟨hl, .inr (.inr ⟨hn, hs, i, hi, rfl⟩)⟩
        next => exact .inl rfl
  next => exact .inl rfl
  next => exact .inl rfl

/-- A host read that waits at a bay's arbiter waits there in a state that serves reads (R70). -/
theorem waitingRead_some {b : BayId} {s : State} {a : Access} (h : waitingRead b s = some a) :
    s.host = .diverted a .grant ∧ a.copy.bay = b ∧ (s.bay b).state.servesReads := by
  unfold waitingRead at h
  split at h
  · split at h
    · cases h; exact ⟨‹_›, ‹_›⟩
    · cases h
  · cases h

@[simp] theorem grantLink_bay_other (b : BayId) (s : State) :
    (grantLink b s).bay (otherBay b) = s.bay (otherBay b) := by
  obtain h | ⟨-, ⟨a, -, h⟩ | ⟨-, -, e, es, -, h⟩ | ⟨-, -, i, -, h⟩⟩ := grantLink_cases b s <;> rw [h]
  · cases b <;> rfl
  · simp
  · simp

/-! ### Bays that are lawful stay lawful -/

theorem BaysLawful.modBay {b : BayId} {f : Bay → Bay} {s : State} (h : BaysLawful s)
    (hb : (f (s.bay b)).Lawful) : BaysLawful (modBay b f s) := by
  intro c
  obtain rfl | rfl := eq_or_eq_otherBay b c
  · simpa using hb
  · simpa using h (otherBay b)

theorem BaysLawful.congr {s t : State} (h : BaysLawful s) (e : ∀ b, t.bay b = s.bay b) :
    BaysLawful t := fun b => (e b).symm ▸ h b

theorem BaysLawful.of_bay {b : BayId} {s t : State} (h : BaysLawful s) (hb : (t.bay b).Lawful)
    (ho : t.bay (otherBay b) = s.bay (otherBay b)) : BaysLawful t := by
  intro c
  obtain rfl | rfl := eq_or_eq_otherBay b c
  · exact hb
  · rw [ho]; exact h _

/-- A bay that leaves the serving states with its supply off stays lawful (R102). -/
theorem Bay.Lawful.leave {x : Bay} (h : x.Lawful) (hs : x.state.serving) {st : BayState}
    {c : MountCause} {r : Bool} (hst : st.powered = false ∧ st ≠ .debounce) (hc : st.allows c) :
    Bay.Lawful { x with
      state := st, mount := { x.mount with supply := .none, cause := c }, link := .free,
      reqHigh := r, queue := [], drainTimer := none, ejectPending := false, lamp := st == .released } := by
  obtain ⟨h1, h2, h3, h4, h5, h6, h7, h8, h9, h10, h11, h12, h13, h14⟩ := h
  have hst' : st.serving = false ∧ st ≠ .powering ∧ st ≠ .identifying ∧ st ≠ .draining := by
    cases st <;> simp_all [BayState.powered, BayState.serving]
  have hx : x.state ≠ .debounce ∧ x.state ≠ .powering ∧ x.state ≠ .identifying := by
    refine ⟨?_, ?_, ?_⟩ <;> intro e <;> simp [e, BayState.serving] at hs
  constructor <;> simp_all [Link.allowed, Link.heldByDrain]

theorem leaveServing_lawful {b : BayId} {s : State} (h : BaysLawful s)
    (hs : (s.bay b).state.serving) {st : BayState} {c : MountCause}
    (hst : st.powered = false ∧ st ≠ .debounce) (hc : st.allows c) :
    BaysLawful (leaveServing b st c s) :=
  h.of_bay (b := b) (by simpa using (h b).leave hs hst hc) (by simp)

/-- A bay whose link changes to one that its state allows stays lawful. -/
theorem Bay.Lawful.setLink {x : Bay} (h : x.Lawful) {l : Link} {r : Bool} (ha : l.allowed x.state)
    (hd : l.heldByDrain → x.queue ≠ []) (hr : l.timely r) :
    Bay.Lawful { x with link := l, reqHigh := r } := by
  obtain ⟨h1, h2, h3, h4, h5, h6, h7, h8, h9, h10, h11, h12, h13, h14⟩ := h
  constructor <;> simp_all

/-- The same, its request-high flag standing. -/
theorem Bay.Lawful.setLink' {x : Bay} (h : x.Lawful) {l : Link} (ha : l.allowed x.state)
    (hd : l.heldByDrain → x.queue ≠ []) (hr : l.timely x.reqHigh) : Bay.Lawful { x with link := l } :=
  h.setLink ha hd hr

theorem Bay.Lawful.dropLink {x : Bay} (h : x.Lawful) : x.dropLink.Lawful :=
  h.setLink rfl (by simp [Link.heldByDrain]) rfl

theorem BayState.servesReads_serving {st : BayState} (h : st.servesReads) : st.serving := by
  cases st <;> simp_all [BayState.servesReads, BayState.serving]

theorem grantLink_lawful {b : BayId} {s : State} (h : BaysLawful s) : BaysLawful (grantLink b s) := by
  obtain e | ⟨-, ⟨a, hw, e⟩ | ⟨-, hs, x, es, hq, e⟩ | ⟨-, hs, i, hi, e⟩⟩ := grantLink_cases b s <;> rw [e]
  · exact h
  · refine BaysLawful.congr (h.modBay ((h b).setLink' ?_ ?_ ?_)) (fun c => by cases c <;> rfl)
    · exact BayState.servesReads_serving (waitingRead_some hw).2.2
    · simp [Link.heldByDrain]
    · simp [Link.timely]
  · exact h.modBay ((h b).setLink' (by simpa [Link.allowed]) (by simp [hq]) (by simp [Link.timely]))
  · exact h.modBay
      ((h b).setLink' (by simp [Link.allowed, hs]) (by simp [Link.heldByDrain]) (by simp [Link.timely]))

theorem markAck_lawful {b : BayId} {s : State} (h : BaysLawful s) : BaysLawful (markAck b s) :=
  h.modBay ((h b).setLink' (by simpa using (h b).link) (by simpa using (h b).drain)
    (by simpa using (h b).request))

theorem freeLink_lawful {b : BayId} {s : State} (h : BaysLawful s) : BaysLawful (freeLink b s) :=
  h.modBay (h b).dropLink

theorem abandonRead_lawful {b : BayId} {s : State} (h : BaysLawful s) :
    BaysLawful (abandonRead b s) := by
  unfold abandonRead
  split
  next t hl =>
    have ha := (h b).link
    have hr := (h b).request
    rw [hl] at ha hr
    refine h.modBay ((h b).setLink' ?_ ?_ ?_) <;> split <;>
      simp_all [Link.allowed, Link.heldByDrain, Link.timely]
  next => exact h

/-- The request-high time passes, and the link stays lawful (R166). -/
theorem Bay.Lawful.elapse {x : Bay} (h : x.Lawful) (n : BitVec 8) : (x.elapse n).Lawful := by
  have ha := h.link
  have hr := h.request
  have hd := h.drain
  refine h.setLink ?_ ?_ ?_
  · revert ha; cases x.link with
    | held k t => cases k <;> exact id
    | _ => exact id
  · revert hd; cases x.link with
    | held k t => cases k <;> exact id
    | _ => exact id
  · revert hr; cases x.link <;> simp_all [Link.timely, Link.elapse]

theorem elapse_lawful {s : State} (h : BaysLawful s) : BaysLawful (elapse s) :=
  (h.modBay ((h .A).elapse _)).modBay ((h.modBay ((h .A).elapse _) .B).elapse _)

/-- A serving bay whose queue grows stays lawful. -/
theorem Bay.Lawful.setQueue {x : Bay} (h : x.Lawful) (hs : x.state.serving) {q : List QEntry}
    (hq : x.link.heldByDrain → q ≠ []) : Bay.Lawful { x with queue := q } := by
  obtain ⟨h1, h2, h3, h4, h5, h6, h7, h8, h9, h10, h11, h12, h13, h14⟩ := h
  constructor <;> simp_all

@[simp] theorem acceptQueue_bay (a : Access) (s : State) :
    (acceptQueue a s).bay a.copy.bay =
      { s.bay a.copy.bay with queue := (s.bay a.copy.bay).queue ++ [acceptedEntry a s] } := by
  unfold acceptQueue
  dsimp only
  split <;> simp

@[simp] theorem acceptQueue_bay_other (a : Access) (s : State) :
    (acceptQueue a s).bay (otherBay a.copy.bay) = s.bay (otherBay a.copy.bay) := by
  unfold acceptQueue
  dsimp only
  split <;> simp

theorem acceptQueue_lawful {a : Access} {s : State} (h : BaysLawful s)
    (hs : (s.bay a.copy.bay).state = .ready) : BaysLawful (acceptQueue a s) := by
  refine h.of_bay (b := a.copy.bay) ?_ (by simp)
  rw [acceptQueue_bay]
  exact (h a.copy.bay).setQueue (by simp [hs, BayState.serving]) (by simp)

theorem writeReady_lawful {a : Access} {s : State} (h : BaysLawful s)
    (hs : (s.bay a.copy.bay).state = .ready) : BaysLawful (writeReady a s) := by
  unfold writeReady
  dsimp only
  repeat' split
  all_goals first | exact acceptQueue_lawful h hs | exact h.congr (by simp)

theorem handleAccess_lawful {a : Access} {s : State} (h : BaysLawful s) :
    BaysLawful (handleAccess a s) := by
  unfold handleAccess
  split
  next hs =>
    split
    · exact writeReady_lawful h hs
    · exact h.congr (by simp)
  all_goals (try split) <;> exact h.congr (by simp)

theorem meetHost_lawful {s : State} (h : BaysLawful s) : BaysLawful (meetHost s) := by
  unfold meetHost
  dsimp only
  repeat' split
  all_goals first
    | exact h
    | exact handleAccess_lawful h
    | exact acceptQueue_lawful h ‹_›
    | exact (abandonRead_lawful h).congr fun b => absentRead_bay _ _ b
    | exact h.congr (by simp)

theorem clearThrough_lawful {b : BayId} {s : State} (h : BaysLawful s) : BaysLawful (clearThrough b s) := by
  refine h.modBay ?_
  obtain ⟨h1, h2, h3, h4, h5, h6, h7, h8, h9, h10, h11, h12, h13, h14⟩ := h b
  constructor <;> simp_all

theorem abandonAccess_lawful {s : State} (h : BaysLawful s) : BaysLawful (abandonAccess s) := by
  unfold abandonAccess
  repeat' split
  all_goals first
    | exact h
    | exact clearThrough_lawful (h.congr fun b => by cases b <;> rfl)
    | exact grantLink_lawful (abandonRead_lawful (h.congr fun b => by cases b <;> rfl))

theorem replayMoves_lawful {b : BayId} {s : State} (h : BaysLawful s) (hs : (s.bay b).state = .replay) :
    BaysLawful (replayMoves b s) := by
  unfold replayMoves
  dsimp only
  refine BaysLawful.modBay (s := { s with hold := _ }) (h.congr fun b => by cases b <;> rfl) ?_
  have e : ∀ (l : List HoldEntry), ({ s with hold := l } : State).bay b = s.bay b := fun l => by cases b <;> rfl
  rw [e]
  refine (h b).setQueue (by simp [hs, BayState.serving]) fun hd => ?_
  have := (h b).drain hd
  simp [this]


theorem baysLawful_congr {s t : State} (e : ∀ b, t.bay b = s.bay b) : BaysLawful t ↔ BaysLawful s :=
  ⟨fun h => h.congr fun b => (e b).symm, fun h => h.congr e⟩

@[simp] theorem setLatch_lawful {l : Latch} {s : State} : BaysLawful (setLatch l s) ↔ BaysLawful s :=
  baysLawful_congr (by simp)

@[simp] theorem lose_lawful {r : LossRecord} {s : State} : BaysLawful (lose r s) ↔ BaysLawful s :=
  baysLawful_congr (by simp)

@[simp] theorem releaseOk_lawful {d : Option BusHalf} {s : State} :
    BaysLawful (releaseOk d s) ↔ BaysLawful s := baysLawful_congr (by simp)

@[simp] theorem releaseError_lawful {a : Access} {c : HostCause} {n : Option Word} {s : State} :
    BaysLawful (releaseError a c n s) ↔ BaysLawful s := baysLawful_congr (by simp)

@[simp] theorem releaseThrough_lawful {c : Option HostCause} {s : State} :
    BaysLawful (releaseThrough c s) ↔ BaysLawful s := baysLawful_congr (by simp)

theorem Link.allowed_of_replay {l : Link} (h : l.allowed .replay) : l.allowed .ready ∧ l.allowed .draining := by
  cases l with
  | held k t => cases k <;> simp_all [Link.allowed, BayState.serving]
  | _ => simp_all [Link.allowed, BayState.serving]

/-- A lawful bay in REPLAY stays lawful in READY and, with its drain timer running, in DRAINING. -/
theorem Bay.Lawful.endReplay {x : Bay} (h : x.Lawful) (hs : x.state = .replay) (n : BitVec 8) :
    (x.ejectPending = false → Bay.Lawful { x with state := .ready, mount := { x.mount with cause := .none } }) ∧
    Bay.Lawful { x with
      state := .draining, mount := { x.mount with cause := .none }, ejectPending := false,
      drainTimer := some n } := by
  obtain ⟨h1, h2, h3, h4, h5, h6, h7, h8, h9, h10, h11, h12, h13, h14⟩ := h
  rw [hs] at h11
  have hl := Link.allowed_of_replay h11
  constructor
  · intro he
    constructor <;> simp_all [BayState.powered, BayState.serving, BayState.allows]
  · constructor <;> simp_all [BayState.powered, BayState.serving, BayState.allows]

theorem replayEnd_lawful {b : BayId} {s : State} (h : BaysLawful s) (hs : (s.bay b).state = .replay) :
    BaysLawful (replayEnd b s) := by
  unfold replayEnd
  dsimp only
  split
  · exact h
  · split
    · refine h.of_bay (b := b) ?_ (by simp)
      simpa using ((h b).endReplay hs _).2
    · refine h.of_bay (b := b) ?_ (by simp)
      simpa [Bay.enter] using ((h b).endReplay hs 0).1 (by simpa using ‹¬(s.bay b).ejectPending = true›)

@[simp] theorem replayMoves_state (b : BayId) (s : State) :
    ((replayMoves b s).bay b).state = (s.bay b).state := by
  cases b <;> rfl

theorem replayWork_lawful {b : BayId} {s : State} (h : BaysLawful s) : BaysLawful (replayWork b s) := by
  unfold replayWork
  split
  · exact replayEnd_lawful (replayMoves_lawful h ‹_›) (by simpa)
  · exact h

theorem drainEnd_lawful {b : BayId} {s : State} (h : BaysLawful s) : BaysLawful (drainEnd b s) := by
  unfold drainEnd
  dsimp only
  split
  next hd =>
    simp only [Bool.and_eq_true, decide_eq_true_eq] at hd
    exact setLatch_lawful.2 (leaveServing_lawful h (by simp [hd.1, BayState.serving])
      (by simp [BayState.powered]) (by simp [BayState.allows]))
  next => exact h

theorem settle_lawful {b : BayId} {s : State} (h : BaysLawful s) : BaysLawful (settle b s) :=
  grantLink_lawful (meetHost_lawful (drainEnd_lawful (replayWork_lawful h)))

theorem dropHead_lawful {b : BayId} {s : State} (h : BaysLawful s) : BaysLawful (dropHead b s) := by
  refine h.modBay ?_
  obtain ⟨h1, h2, h3, h4, h5, h6, h7, h8, h9, h10, h11, h12, h13, h14⟩ := h b
  constructor <;> simp_all [Link.allowed, Link.heldByDrain]

theorem Bay.Lawful.setLossCount {x : Bay} (h : x.Lawful) {n : Nat} : Bay.Lawful { x with lossCount := n } := by
  obtain ⟨h1, h2, h3, h4, h5, h6, h7, h8, h9, h10, h11, h12, h13, h14⟩ := h
  constructor <;> simp_all

@[simp] theorem countLoss_bay (b : BayId) (e : QEntry) (s : State) :
    (countLoss b e s).bay b =
      { (s.bay b).dropLink with
        queue := (s.bay b).queue.tail, lossCount := (s.bay b).lossCount + 1 } := by
  unfold countLoss
  dsimp only
  split <;> simp

@[simp] theorem countLoss_bay_other (b : BayId) (e : QEntry) (s : State) :
    (countLoss b e s).bay (otherBay b) = s.bay (otherBay b) := by
  unfold countLoss
  dsimp only
  split <;> simp

theorem countLoss_lawful {b : BayId} {e : QEntry} {s : State} (h : BaysLawful s) :
    BaysLawful (countLoss b e s) := by
  refine h.of_bay (b := b) ?_ (by simp)
  rw [countLoss_bay]
  obtain ⟨h1, h2, h3, h4, h5, h6, h7, h8, h9, h10, h11, h12, h13, h14⟩ := h b
  constructor <;> simp_all [Link.allowed, Link.heldByDrain]

theorem checkThreshold_lawful {b : BayId} {s : State} (h : BaysLawful s)
    (hs : (s.bay b).state.serving) : BaysLawful (checkThreshold b s) := by
  unfold checkThreshold
  split
  · exact setLatch_lawful.2 (leaveServing_lawful h hs (by simp [BayState.powered]) rfl)
  · exact h

theorem loseHead_lawful {b : BayId} {e : QEntry} {s : State} (h : BaysLawful s)
    (hs : (s.bay b).state.serving) : BaysLawful (loseHead b e s) :=
  checkThreshold_lawful (countLoss_lawful h) (by simpa using hs)

theorem reject_lawful {b : BayId} {c : MountCause} {s : State} (h : BaysLawful s)
    (hs : (s.bay b).state = .powering ∨ (s.bay b).state = .identifying)
    (hc : BayState.rejected.allows c) : BaysLawful (reject b c s) := by
  refine h.of_bay (b := b) ?_ (by simp)
  rw [reject_bay]
  obtain ⟨h1, h2, h3, h4, h5, h6, h7, h8, h9, h10, h11, h12, h13, h14⟩ := h b
  rcases hs with hs | hs <;>
  constructor <;> simp_all [BayState.powered, BayState.serving, Link.allowed, Link.heldByDrain]

theorem failTransfer_lawful {b : BayId} {k : Holder} {s : State} (h : BaysLawful s)
    (hl : ∃ t, (s.bay b).link = .held k t) : BaysLawful (failTransfer b k s) := by
  obtain ⟨t, hl⟩ := hl
  have ha := (h b).link
  rw [hl] at ha
  unfold failTransfer
  repeat' split
  all_goals first
    | exact h
    | exact settle_lawful (loseHead_lawful h (by simpa [Link.allowed] using ha))
    | exact grantLink_lawful (releaseError_lawful.2 (freeLink_lawful h))
    | exact reject_lawful h (.inr (by simpa [Link.allowed] using ha)) rfl

theorem failAttempt_lawful {b : BayId} {s : State} (h : BaysLawful s) : BaysLawful (failAttempt b s) := by
  unfold failAttempt
  split
  next k t hl =>
    split
    · split
      · refine h.modBay ((h b).setLink ?_ ?_ rfl)
        · have := (h b).link
          rw [hl] at this
          cases k <;> exact this
        · intro hd
          refine (h b).drain ?_
          rw [hl]
          cases k <;> simp_all [Link.heldByDrain]
      · exact failTransfer_lawful h ⟨_, hl⟩
    · exact h
  all_goals exact h

theorem detectSample_lawful {b : BayId} {s : State} (h : BaysLawful s) : BaysLawful (detectSample b s) := by
  unfold detectSample
  dsimp only
  split
  next hd =>
    simp only [Bool.and_eq_true, decide_eq_true_eq] at hd
    refine h.modBay ?_
    obtain ⟨h1, h2, h3, h4, h5, h6, h7, h8, h9, h10, h11, h12, h13, h14⟩ := h b
    have h9 : (s.bay b).link = .free := by
      cases hl : (s.bay b).link with
      | free => rfl
      | held k t => rw [hl] at h11; cases k <;> simp_all [Link.allowed, BayState.serving]
      | abandoned t => rw [hl] at h11; simp_all [Link.allowed, BayState.serving]
    constructor <;> simp_all [Bay.enter, BayState.powered, BayState.serving, BayState.allows, Link.allowed, Link.heldByDrain]
  next => exact h

/-- The contacts of a bay play no part in its laws. -/
theorem Bay.Lawful.setContacts {x : Bay} (h : x.Lawful) {k : Contacts} : Bay.Lawful { x with contacts := k } := by
  obtain ⟨h1, h2, h3, h4, h5, h6, h7, h8, h9, h10, h11, h12, h13, h14⟩ := h
  constructor <;> simp_all

theorem sampleDetect_lawful {b : BayId} {m : Bool} {s : State} (h : BaysLawful s) :
    BaysLawful (sampleDetect b m s) := h.modBay (h b).setContacts

theorem breakDetect_lawful {b : BayId} {c : DetContact} {s : State} (h : BaysLawful s) :
    BaysLawful (breakDetect b c s) := h.modBay (h b).setContacts

theorem sampleKeys_lawful {b : BayId} {k : KeySample} {s : State} (h : BaysLawful s) :
    BaysLawful (sampleKeys b k s) := h.modBay (h b).setContacts

theorem samplePower_lawful {b : BayId} {l : Bool} {s : State} (h : BaysLawful s) :
    BaysLawful (samplePower b l s) := h.modBay (h b).setContacts

theorem sampleLock_lawful {b : BayId} {m : Bool} {s : State} (h : BaysLawful s) :
    BaysLawful (sampleLock b m s) := h.modBay (h b).setContacts

theorem Link.free_of_stopped {l : Link} {st : BayState} (h : l.allowed st) (hs : st.serving = false)
    (hi : st ≠ .identifying) : l = .free := by
  cases l with
  | free => rfl
  | held k t => cases k <;> cases st <;> simp_all [Link.allowed, BayState.serving]
  | abandoned t => cases st <;> simp_all [Link.allowed, BayState.serving]

theorem enterIdentifying_lawful {b : BayId} {s : State} (h : BaysLawful s)
    (hs : (s.bay b).state = .powering) : BaysLawful (enterIdentifying b s) := by
  refine grantLink_lawful (h.modBay ?_)
  have hl := Link.free_of_stopped (h b).link (by simp [hs, BayState.serving]) (by simp [hs])
  obtain ⟨h1, h2, h3, h4, h5, h6, h7, h8, h9, h10, h11, h12, h13, h14⟩ := h b
  constructor <;> simp_all [Bay.enter, BayState.powered, BayState.serving, BayState.allows, Link.allowed, Link.heldByDrain]

theorem chooseSupply_inl {k1 k2 : Bool} {m : SupplyMask} {v : Supply}
    (h : chooseSupply k1 k2 m = .inl v) : v ≠ .none := by
  unfold chooseSupply at h
  repeat' split at h
  all_goals simp at h
  all_goals simp [← h]

theorem chooseSupply_inr {k1 k2 : Bool} {m : SupplyMask} {c : MountCause}
    (h : chooseSupply k1 k2 m = .inr c) : c = .noKey ∨ c = .supplyNotAllowed := by
  unfold chooseSupply at h
  repeat' split at h
  all_goals simp at h
  all_goals simp [← h]

/-- The states in which a key read is made: the end of a debounce, and RETRY_BAY (R82). -/
def BayState.keyReads (st : BayState) : Prop :=
  st = .debounce ∨ st = .unsupported ∨ st = .rejected ∨ st = .faulted

/-- A lawful bay after the supply of its key read is switched on (R82), or after it is found
UNSUPPORTED (R83). -/
theorem Bay.Lawful.keyRead {x : Bay} (h : x.Lawful) (hs : x.state.keyReads) :
    (∀ v, v ≠ .none → Bay.Lawful { x with
      state := .powering, debounceTimer := none, powerTimer := some 50,
      mount := { x.mount.keyCleared with supply := v, cause := .none } }) ∧
    ∀ c, c = .noKey ∨ c = .supplyNotAllowed → Bay.Lawful { x with
      state := .unsupported, debounceTimer := none,
      mount := { x.mount.keyCleared with cause := c } } := by
  have hl : x.link = .free := Link.free_of_stopped h.link
    (by rcases hs with e | e | e | e <;> simp [e, BayState.serving])
    (by rcases hs with e | e | e | e <;> simp [e])
  have hi : x.ident = none := by
    have := h.ident
    rcases hs with e | e | e | e <;> rw [e] at this <;>
      exact Option.not_isSome_iff_eq_none.1 (by rw [this]; decide)
  obtain ⟨h1, h2, h3, h4, h5, h6, h7, h8, h9, h10, h11, h12, h13, h14⟩ := h
  constructor
  · intro v hv
    rcases hs with e | e | e | e <;> constructor <;>
      simp_all [BayState.powered, BayState.serving, BayState.allows, Link.allowed, Link.heldByDrain]
  · intro c hc
    rcases hs with e | e | e | e <;> rcases hc with rfl | rfl <;> constructor <;>
      simp_all [MountRecord.keyCleared, BayState.powered, BayState.serving, BayState.allows,
        Link.allowed, Link.heldByDrain]

theorem keyRead_lawful {b : BayId} {s : State} (h : BaysLawful s) (hs : (s.bay b).state.keyReads) :
    BaysLawful (keyRead b s) := by
  unfold Machine.keyRead
  dsimp only
  split
  next v hv =>
    have hp := h.of_bay (b := b) (t := modBay b (fun x => { (x.enter .powering .none) with
      powerTimer := some 50, mount := { x.mount with supply := v, cause := .none } })
      (modBay b (fun x => { x with debounceTimer := none, mount := x.mount.keyCleared }) s))
      (by simpa [Bay.enter] using ((h b).keyRead hs).1 v (chooseSupply_inl hv)) (by simp)
    unfold enterPowering
    dsimp only
    split
    · exact enterIdentifying_lawful hp (by simp)
    · exact hp
  next c hc =>
    exact setLatch_lawful.2 (h.of_bay (b := b)
      (by simpa [Bay.enter] using ((h b).keyRead hs).2 c (chooseSupply_inr hc)) (by simp))

/-- A bay that is being identified serves with the carrier that its mount record names (R95). -/
theorem Bay.Lawful.complete {x : Bay} (h : x.Lawful) (hs : x.state = .identifying)
    (hm : x.mount.serial.isSome ∧ x.mount.capacity.isSome ∧ (x.mount.locked ∨ x.mount.stamp.isSome) ∧
      x.mount.verdict ≠ .none) {st : BayState} (hst : st = .replay ∨ st = .ready) :
    Bay.Lawful ((x.dropLink.endMount).enter st .none) := by
  obtain ⟨h1, h2, h3, h4, h5, h6, h7, h8, h9, h10, h11, h12, h13, h14⟩ := h
  rcases hst with rfl | rfl <;>
  constructor <;> simp_all [BayState.powered, BayState.serving, BayState.allows, Link.allowed, Link.heldByDrain]

theorem completeMount_lawful {b : BayId} {v : Verdict} {s : State} (h : BaysLawful s)
    (hs : (s.bay b).state = .identifying)
    (hm : (s.bay b).mount.serial.isSome ∧ (s.bay b).mount.capacity.isSome ∧
      ((s.bay b).mount.locked ∨ (s.bay b).mount.stamp.isSome) ∧ (s.bay b).mount.verdict ≠ .none) :
    BaysLawful (completeMount b v s) := by
  refine settle_lawful (setLatch_lawful.2 (h.modBay ((h b).complete hs hm ?_)))
  split <;> simp

theorem judgeHold_lawful {b : BayId} {n : Serial} {t : Option Stamp} {s : State} (h : BaysLawful s) :
    BaysLawful (judgeHold b n t s) := h.congr (by simp)


theorem Bay.Lawful.setMount {x : Bay} (h : x.Lawful) (hs : x.state = .identifying) {m : MountRecord}
    (hm : m.supply = x.mount.supply ∧ m.cause = x.mount.cause)
    (hi : ∀ i, x.ident = some i → i.binding.isSome →
      m.serial = some (descSerial i.halves) ∧ m.capacity = some (descCapacity i.halves))
    {r : Option LastCarrier} {n : Nat} : Bay.Lawful { x with mount := m, last := r, lossCount := n } := by
  obtain ⟨h1, h2, h3, h4, h5, h6, h7, h8, h9, h10, h11, h12, h13, h14⟩ := h
  constructor <;> simp_all [BayState.powered, BayState.serving, BayState.allows]

theorem Bay.Lawful.setLast {x : Bay} (h : x.Lawful) {r : Option LastCarrier} : Bay.Lawful { x with last := r } := by
  obtain ⟨h1, h2, h3, h4, h5, h6, h7, h8, h9, h10, h11, h12, h13, h14⟩ := h
  constructor <;> simp_all

theorem mountLocked_lawful {b : BayId} {n : Serial} {c : BitVec 16} {t : Option Stamp} {s : State}
    (h : BaysLawful s) (hs : (s.bay b).state = .identifying)
    (hi : ∀ i, (s.bay b).ident = some i → i.binding = none)
    (hm : (s.bay b).mount.serial.isSome ∧ (s.bay b).mount.capacity.isSome) :
    BaysLawful (mountLocked b n c t s) := by
  have h1 : BaysLawful (modBay b (fun x => { x with
      mount := { x.mount with stamp := t, locked := true, verdict := .locked }
      last := some ⟨n, c, .locked t⟩ }) s) := by
    refine h.modBay ((h b).setMount hs ?_ ?_)
    · exact ⟨rfl, rfl⟩
    · intro i e; simp [hi i e]
  exact completeMount_lawful h1 (by simpa) (by simpa using hm)

theorem beginBinding_lawful {b : BayId} {i : Ident} {s : State}
    (h : BaysLawful s) (hs : (s.bay b).state = .identifying)
    (hm : (s.bay b).mount.serial = some (descSerial i.halves) ∧
      (s.bay b).mount.capacity = some (descCapacity i.halves)) :
    BaysLawful (beginBinding b i (descSerial i.halves) s) := by
  have hb : ∀ n, ({ s with mountSeq := n } : State).bay b = s.bay b := fun n => by cases b <;> rfl
  refine grantLink_lawful (BaysLawful.modBay (s := { s with mountSeq := _ }) (h.congr fun b => by cases b <;> rfl) ?_)
  simp only [hb]
  obtain ⟨h1, h2, h3, h4, h5, h6, h7, h8, h9, h10, h11, h12, h13, h14⟩ := h b
  constructor <;> simp_all [BayState.powered, BayState.serving, BayState.allows, Link.allowed, Link.heldByDrain]

/-- A bay in IDENTIFYING whose halfwords are being read stays lawful with its serial and capacity
written (R87). -/
theorem checkDescriptor_lawful {b : BayId} {i : Ident} {s : State}
    (h : BaysLawful s) (hs : (s.bay b).state = .identifying) (hi : ∀ j, (s.bay b).ident = some j → j.binding = none) :
    BaysLawful (checkDescriptor b i s) := by
  unfold checkDescriptor
  split
  · exact reject_lawful h (.inr hs) rfl
  · dsimp only
    have h1 : BaysLawful (modBay b (fun x => { x with mount := { x.mount with
        serial := some (descSerial i.halves), capacity := some (descCapacity i.halves) } }) s) := by
      refine h.modBay ?_
      refine (h b).setMount hs ?_ ?_
      · exact ⟨rfl, rfl⟩
      · intro j e; simp [hi j e]
    repeat' split
    · exact reject_lawful h1 (by simp [hs]) rfl
    · exact mountLocked_lawful h1 (by simpa) (by simpa using hi) (by simp)
    · exact beginBinding_lawful (judgeHold_lawful h1) (by simpa) (by simp)

theorem completeBinding_lawful {b : BayId} {i : Ident} {w : Binding} {s : State}
    (h : BaysLawful s) (hs : (s.bay b).state = .identifying) (hi : (s.bay b).ident = some i) (hw : i.binding.isSome) :
    BaysLawful (completeBinding b i w s) := by
  unfold completeBinding
  dsimp only
  have hm := (h b).binding i hi hw
  have h2 : ∀ l, BaysLawful { judgeHold b (descSerial i.halves) (slotStamp i.halves) s with hold := l } := fun l =>
    (judgeHold_lawful (n := descSerial i.halves) (t := slotStamp i.halves) h (b := b)).congr fun c => by cases c <;> rfl
  have e2 : ∀ l, State.bay { judgeHold b (descSerial i.halves) (slotStamp i.halves) s with hold := l } b =
      s.bay b := fun l => by
    have := judgeHold_bay b (descSerial i.halves) (slotStamp i.halves) s b
    cases b <;> exact this
  have h3 : ∀ l v, BaysLawful (modBay b (fun x => { x with
      mount := { x.mount with stamp := some w.stamp, locked := false, verdict := v }
      lossCount := 0
      last := some ⟨descSerial i.halves, descCapacity i.halves, .bound w.stamp⟩ })
      { judgeHold b (descSerial i.halves) (slotStamp i.halves) s with hold := l }) := by
    intro l v
    refine (h2 l).modBay ((h2 l b).setMount ?_ ?_ ?_)
    · rw [e2]; exact hs
    · exact ⟨rfl, rfl⟩
    · rw [e2]; exact (h b).binding
  refine completeMount_lawful ((h3 _ _).modBay (Bay.Lawful.setLast (h3 _ _ _))) ?_ ?_
  · simp only [modBay_bay_ne _ _ (ne_otherBay b), modBay_bay, e2, hs]
  · simp only [modBay_bay_ne _ _ (ne_otherBay b), modBay_bay, e2, hm]
    simp only [Option.isSome_some, Bool.false_eq_true, false_or, true_and]
    unfold verdictOn
    repeat' split
    all_goals simp

end Sys2Proof.Machine
end

