-- ==== Sys2Proof/Laws/Lists.lean ====
section
/-! SUPPORT. The list operations of the collections: insertion in acceptance order, and taking entries
out of the hold store. -/

namespace Sys2Proof.Machine

/-! ### Insertion in acceptance order -/

theorem ordInsert_perm {α : Type} (key : α → Nat) (x : α) (l : List α) :
    (ordInsert key x l).Perm (x :: l) := by
  induction l with
  | nil => exact .refl _
  | cons y ys ih =>
    unfold ordInsert
    split
    · exact (ih.cons y).trans (.swap x y ys)
    · exact .refl _

@[simp] theorem ordInsert_length {α : Type} (key : α → Nat) (x : α) (l : List α) :
    (ordInsert key x l).length = l.length + 1 := (ordInsert_perm key x l).length_eq

theorem ordSort_perm {α : Type} (key : α → Nat) (l : List α) : (ordSort key l).Perm l := by
  induction l with
  | nil => exact .refl _
  | cons x xs ih => exact (ordInsert_perm key x _).trans (ih.cons x)

@[simp] theorem ordSort_length {α : Type} (key : α → Nat) (l : List α) :
    (ordSort key l).length = l.length := (ordSort_perm key l).length_eq

/-- An insertion into a strictly rising list, at a place that no element has, keeps it rising (R122). -/
theorem ordInsert_rising {α : Type} (key : α → Nat) (x : α) (l : List α)
    (h : (l.map key).Pairwise (· < ·)) (hx : key x ∉ l.map key) :
    ((ordInsert key x l).map key).Pairwise (· < ·) := by
  induction l with
  | nil => simp [ordInsert]
  | cons y ys ih =>
    simp only [List.map_cons, List.pairwise_cons, List.mem_cons, not_or] at h hx
    unfold ordInsert
    split
    next hlt =>
      simp only [List.map_cons, List.pairwise_cons]
      refine ⟨fun a ha => ?_, ih h.2 hx.2⟩
      rcases List.mem_cons.1 (((ordInsert_perm key x ys).map key).mem_iff.1 ha) with rfl | ha
      · exact hlt
      · exact h.1 a ha
    next hge =>
      have hxy : key x < key y := by omega
      simp only [List.map_cons, List.pairwise_cons, List.mem_cons]
      refine ⟨?_, h.1, h.2⟩
      rintro a (rfl | ha)
      · exact hxy
      · exact hxy.trans (h.1 a ha)

/-! ### Taking entries out of the hold store -/

theorem takeFirst_perm {α : Type} (p : α → Bool) (n : Nat) (l : List α) :
    ((takeFirst p n l).1 ++ (takeFirst p n l).2).Perm l := by
  induction l generalizing n with
  | nil => cases n <;> exact .refl _
  | cons x xs ih =>
    cases n with
    | zero => exact .refl _
    | succ n =>
      unfold takeFirst
      split
      · exact (ih n).cons x
      · exact List.perm_middle.trans ((ih (n + 1)).cons x)

theorem takeFirst_sublist {α : Type} (p : α → Bool) (n : Nat) (l : List α) :
    (takeFirst p n l).1.Sublist l ∧ (takeFirst p n l).2.Sublist l := by
  induction l generalizing n with
  | nil => cases n <;> exact ⟨.slnil, .slnil⟩
  | cons x xs ih =>
    cases n with
    | zero => exact ⟨List.nil_sublist _, List.Sublist.refl _⟩
    | succ n =>
      unfold takeFirst
      split
      · exact ⟨(ih n).1.cons_cons x, (ih n).2.cons x⟩
      · exact ⟨(ih (n + 1)).1.cons x, (ih (n + 1)).2.cons_cons x⟩

theorem takeFirst_length {α : Type} (p : α → Bool) (n : Nat) (l : List α) :
    (takeFirst p n l).1.length ≤ n ∧
      (takeFirst p n l).1.length + (takeFirst p n l).2.length = l.length := by
  refine ⟨?_, by simpa using (takeFirst_perm p n l).length_eq⟩
  induction l generalizing n with
  | nil => cases n <;> simp [takeFirst]
  | cons x xs ih =>
    cases n with
    | zero => simp [takeFirst]
    | succ n =>
      unfold takeFirst
      split
      · simpa using ih n
      · exact ih (n + 1)

theorem takeFirst_all {α : Type} (p : α → Bool) (n : Nat) (l : List α) :
    ∀ x ∈ (takeFirst p n l).1, p x := by
  induction l generalizing n with
  | nil => cases n <;> simp [takeFirst]
  | cons x xs ih =>
    cases n with
    | zero => simp [takeFirst]
    | succ n =>
      unfold takeFirst
      split
      · simpa [*] using ih n
      · exact ih (n + 1)

/-- The entries taken stand before those that satisfy `p` and are left, where the store rises. -/
theorem takeFirst_before {α : Type} (p : α → Bool) (key : α → Nat) (n : Nat) (l : List α)
    (h : (l.map key).Pairwise (· < ·)) :
    ∀ x ∈ (takeFirst p n l).1, ∀ y ∈ (takeFirst p n l).2, p y → key x < key y := by
  induction l generalizing n with
  | nil => cases n <;> simp [takeFirst]
  | cons z zs ih =>
    rw [List.map_cons, List.pairwise_cons] at h
    cases n with
    | zero => simp [takeFirst]
    | succ n =>
      unfold takeFirst
      split
      · intro x hx y hy hp
        rcases List.mem_cons.1 hx with rfl | hx
        · exact h.1 _ (List.mem_map_of_mem ((takeFirst_sublist p n zs).2.subset hy))
        · exact ih n h.2 x hx y hy hp
      next hz =>
        intro x hx y hy hp
        rcases List.mem_cons.1 hy with rfl | hy
        · exact absurd hp hz
        · exact ih (n + 1) h.2 x hx y hy hp

end Sys2Proof.Machine
end

