-- ==== Sys2Proof/Laws/Queues.lean ====
section
/-! SUPPORT. The shared operations that leave both posting queues as they are. -/

namespace Sys2Proof.Machine

theorem modBay_queue {b : BayId} {f : Bay → Bay} (s : State) (c : BayId)
    (h : ∀ x : Bay, (f x).queue = x.queue) : ((modBay b f s).bay c).queue = (s.bay c).queue := by
  obtain rfl | rfl := eq_or_eq_otherBay b c <;> simp [h]

@[simp] theorem grantLink_queue (b : BayId) (s : State) (c : BayId) :
    ((grantLink b s).bay c).queue = (s.bay c).queue := by
  obtain h | ⟨-, ⟨a, -, h⟩ | ⟨-, -, e, es, -, h⟩ | ⟨-, -, i, -, h⟩⟩ := grantLink_cases b s <;> rw [h]
  · cases b <;> cases c <;> rfl
  · exact modBay_queue s c fun _ => rfl
  · exact modBay_queue s c fun _ => rfl

@[simp] theorem freeLink_queue (b : BayId) (s : State) (c : BayId) :
    ((freeLink b s).bay c).queue = (s.bay c).queue := modBay_queue s c fun _ => rfl

@[simp] theorem abandonRead_queue (b : BayId) (s : State) (c : BayId) :
    ((abandonRead b s).bay c).queue = (s.bay c).queue := by
  unfold abandonRead
  split
  · exact modBay_queue s c fun _ => rfl
  · rfl

@[simp] theorem enterDraining_queue (b : BayId) (s : State) (c : BayId) :
    ((enterDraining b s).bay c).queue = (s.bay c).queue := modBay_queue s c fun _ => rfl

@[simp] theorem reject_queue (b : BayId) (k : MountCause) (s : State) (c : BayId) :
    ((reject b k s).bay c).queue = (s.bay c).queue := by
  rw [reject, setLatch_bay]
  exact modBay_queue s c fun _ => rfl

@[simp] theorem replayEnd_queue (b : BayId) (s : State) (c : BayId) :
    ((replayEnd b s).bay c).queue = (s.bay c).queue := by
  unfold replayEnd
  dsimp only
  split
  · rfl
  · split
    · rw [enterDraining_queue]
      refine (modBay_queue _ c ?_).trans (by rw [setLatch_bay])
      exact fun _ => rfl
    · refine (modBay_queue _ c ?_).trans (by rw [setLatch_bay])
      exact fun _ => rfl

@[simp] theorem detectSample_queue (b : BayId) (s : State) (c : BayId) :
    ((detectSample b s).bay c).queue = (s.bay c).queue := by
  unfold detectSample
  dsimp only
  split
  · exact modBay_queue s c fun _ => rfl
  · rfl

@[simp] theorem sampleDetect_queue (b : BayId) (m : Bool) (s : State) (c : BayId) :
    ((sampleDetect b m s).bay c).queue = (s.bay c).queue := modBay_queue s c fun _ => rfl

@[simp] theorem breakDetect_queue (b : BayId) (k : DetContact) (s : State) (c : BayId) :
    ((breakDetect b k s).bay c).queue = (s.bay c).queue := modBay_queue s c fun _ => rfl

@[simp] theorem sampleKeys_queue (b : BayId) (k : KeySample) (s : State) (c : BayId) :
    ((sampleKeys b k s).bay c).queue = (s.bay c).queue := modBay_queue s c fun _ => rfl

@[simp] theorem samplePower_queue (b : BayId) (l : Bool) (s : State) (c : BayId) :
    ((samplePower b l s).bay c).queue = (s.bay c).queue := modBay_queue s c fun _ => rfl

@[simp] theorem sampleLock_queue (b : BayId) (m : Bool) (s : State) (c : BayId) :
    ((sampleLock b m s).bay c).queue = (s.bay c).queue := modBay_queue s c fun _ => rfl

@[simp] theorem enterIdentifying_queue (b : BayId) (s : State) (c : BayId) :
    ((enterIdentifying b s).bay c).queue = (s.bay c).queue := by
  rw [enterIdentifying, grantLink_queue]
  exact modBay_queue s c fun _ => rfl

@[simp] theorem enterPowering_queue (b : BayId) (v : Supply) (s : State) (c : BayId) :
    ((enterPowering b v s).bay c).queue = (s.bay c).queue := by
  unfold enterPowering
  dsimp only
  split
  · rw [enterIdentifying_queue]
    exact modBay_queue s c fun _ => rfl
  · exact modBay_queue s c fun _ => rfl

@[simp] theorem keyRead_queue (b : BayId) (s : State) (c : BayId) :
    ((keyRead b s).bay c).queue = (s.bay c).queue := by
  unfold keyRead
  dsimp only
  split
  · rw [enterPowering_queue]
    exact modBay_queue s c fun _ => rfl
  · rw [setLatch_bay]
    refine (modBay_queue _ c ?_).trans (modBay_queue s c fun _ => rfl)
    exact fun _ => rfl

end Sys2Proof.Machine
end

