-- ==== Sys2Proof/Laws/Kept.lean ====
section
/-! SUPPORT. The ways in which the commands change the account of writes, said once: a property of the
collections and counters that each of them keeps is kept by every command. -/

namespace Sys2Proof.Machine

/-! ### What the account, the capacities and the order look at -/

/-- Two states with the same collections, the same counters, the same loss FIFO and the same next place
in the order of acceptance. -/
structure SameBooks (s t : State) : Prop where
  queue : ∀ b, (t.bay b).queue = (s.bay b).queue
  hold : t.hold = s.hold
  accepted : t.accepted = s.accepted
  committed : t.committed = s.committed
  lost : t.lost = s.lost
  lossLog : t.lossLog = s.lossLog
  nextOrd : t.nextOrd = s.nextOrd

theorem SameBooks.refl (s : State) : SameBooks s s := ⟨fun _ => rfl, rfl, rfl, rfl, rfl, rfl, rfl⟩

theorem SameBooks.trans {s t u : State} (h : SameBooks s t) (k : SameBooks t u) : SameBooks s u :=
  ⟨fun b => (k.queue b).trans (h.queue b), k.hold.trans h.hold, k.accepted.trans h.accepted,
    k.committed.trans h.committed, k.lost.trans h.lost, k.lossLog.trans h.lossLog,
    k.nextOrd.trans h.nextOrd⟩

/-- Two states that differ in none of the fields that hold the account. -/
theorem SameBooks.of_fields {s t : State} (hA : t.bayA.queue = s.bayA.queue)
    (hB : t.bayB.queue = s.bayB.queue) (h : t.hold = s.hold ∧ t.accepted = s.accepted ∧
      t.committed = s.committed ∧ t.lost = s.lost ∧ t.lossLog = s.lossLog ∧ t.nextOrd = s.nextOrd) :
    SameBooks s t :=
  ⟨fun b => by cases b <;> assumption, h.1, h.2.1, h.2.2.1, h.2.2.2.1, h.2.2.2.2.1, h.2.2.2.2.2⟩

/-- A change of one bay that leaves its queue. -/
theorem SameBooks.modBay {b : BayId} {f : Bay → Bay} {s : State} (h : ∀ x : Bay, (f x).queue = x.queue) :
    SameBooks s (modBay b f s) := by
  constructor <;> first | exact fun c => modBay_queue s c h | simp

/-- A property of the account that every way in which the spec changes it keeps (R1, R3, R7). -/
structure KeptByAccount (P : State → Prop) : Prop where
  congr : ∀ {s t}, SameBooks s t → P s → P t
  evacuate : ∀ {s} b, P s → P (evacuate b s)
  acceptQueue : ∀ {s} a, (s.bay a.copy.bay).queue.length < queueCapacity → P s → P (acceptQueue a s)
  acceptAbsent : ∀ {s} a n t, s.hold.length < holdCapacity → P s → P (acceptAbsent a n t s)
  clearThrough : ∀ {s} b, P s → P (clearThrough b s)
  replayMoves : ∀ {s} b, P s → P (replayMoves b s)
  holdMap : ∀ {s} (f : HoldEntry → HoldEntry), (∀ e, (f e).ord = e.ord) → P s →
    P { s with hold := s.hold.map f }
  discard : ∀ {s} p, P s → P (discardEntries p s)
  commit : ∀ {s} b, (s.bay b).queue ≠ [] → P s →
    P (dropHead b { s with committed := s.committed + 1 })
  countLoss : ∀ {s} b e, (s.bay b).queue ≠ [] → P s → P (countLoss b e s)
  zero : ∀ {s}, P s →
    P { s with accepted := BitVec.ofNat 32 (occupancy s), committed := 0, lost := 0 }
  pop : ∀ {s r rs}, s.lossLog = r :: rs → P s → P { s with lossLog := rs }
  por : ∀ s, P (porState s)

namespace KeptByAccount

variable {P : State → Prop} (k : KeptByAccount P) {s : State}
include k

theorem latch {l : Latch} (h : P s) : P (setLatch l s) :=
  k.congr (by constructor <;> simp) h

theorem modBay {b : BayId} {f : Bay → Bay} (hf : ∀ x : Bay, (f x).queue = x.queue) (h : P s) :
    P (modBay b f s) := k.congr (.modBay hf) h

theorem leaveServing {b : BayId} {st : BayState} {c : MountCause} (h : P s) :
    P (leaveServing b st c s) :=
  k.modBay (by simp) (k.evacuate b h)

theorem enterDraining {b : BayId} (h : P s) : P (enterDraining b s) := k.modBay (by simp) h

theorem reject {b : BayId} {c : MountCause} (h : P s) : P (reject b c s) :=
  k.latch (k.modBay (by simp) h)

theorem grantLink {b : BayId} (h : P s) : P (grantLink b s) :=
  k.congr (by constructor <;> simp) h

theorem markAck {b : BayId} (h : P s) : P (markAck b s) := k.modBay (by simp) h

theorem freeLink {b : BayId} (h : P s) : P (freeLink b s) := k.modBay (by simp) h

theorem abandonRead {b : BayId} (h : P s) : P (abandonRead b s) :=
  k.congr (by constructor <;> simp) h

theorem releaseOk {d : Option BusHalf} (h : P s) : P (releaseOk d s) :=
  k.congr (by constructor <;> simp) h

theorem releaseError {a : Access} {c : HostCause} {n : Option Word} (h : P s) :
    P (releaseError a c n s) := k.congr (by constructor <;> simp) h

theorem releaseThrough {c : Option HostCause} (h : P s) : P (releaseThrough c s) :=
  k.congr (by constructor <;> simp) h

theorem waitIn {a : Access} {w : Wait} (h : P s) : P (waitIn a w s) :=
  k.congr (by constructor <;> simp) h

theorem absentRead {a : Access} (h : P s) : P (absentRead a s) :=
  k.congr (by constructor <;> simp) h

theorem setHost {p : HostPort} (h : P s) : P { s with host := p } := by
  refine k.congr ?_ h
  exact .of_fields rfl rfl ⟨rfl, rfl, rfl, rfl, rfl, rfl⟩

theorem writeReady {a : Access} (h : P s) : P (writeReady a s) := by
  unfold Machine.writeReady
  dsimp only
  repeat' split
  all_goals first
    | exact k.releaseError h
    | exact k.acceptQueue a ‹_› h
    | exact k.waitIn h

theorem readServing {a : Access} (h : P s) : P (readServing a s) :=
  k.congr (by constructor <;> simp) h

theorem absentWrite {a : Access} (h : P s) : P (absentWrite a s) := by
  unfold Machine.absentWrite
  repeat' split
  all_goals first
    | exact k.releaseError h
    | exact k.acceptAbsent a _ _ ‹_› h

theorem handleAccess {a : Access} (h : P s) : P (handleAccess a s) := by
  unfold Machine.handleAccess
  repeat' split
  all_goals first
    | exact k.writeReady h
    | exact k.readServing h
    | exact k.releaseError h
    | exact k.waitIn h
    | exact k.absentWrite h
    | exact k.absentRead h

theorem elapse (h : P s) : P (elapse s) :=
  k.modBay (by simp) (k.modBay (by simp) h)

theorem meetHost (h : P s) : P (meetHost s) := by
  unfold Machine.meetHost
  dsimp only
  repeat' split
  all_goals first
    | exact h
    | exact k.handleAccess h
    | exact k.acceptQueue _ ‹_› h
    | exact k.absentRead h
    | exact k.absentRead (k.abandonRead h)
    | exact k.setHost h

theorem abandonAccess (h : P s) : P (abandonAccess s) := by
  unfold Machine.abandonAccess
  repeat' split
  all_goals first
    | exact h
    | exact k.clearThrough _ (k.setHost h)
    | exact k.grantLink (k.abandonRead (k.setHost h))
    | exact k.setHost h

theorem replayEnd {b : BayId} (h : P s) : P (replayEnd b s) :=
  k.congr (by constructor <;> simp) h

theorem settle {b : BayId} (h : P s) : P (settle b s) := by
  refine k.grantLink (k.meetHost ?_)
  have h1 : P (replayWork b s) := by
    unfold replayWork
    split
    · exact k.replayEnd (k.replayMoves b h)
    · exact h
  unfold drainEnd
  dsimp only
  split
  · exact k.latch (k.leaveServing h1)
  · exact h1

theorem failAttempt {b : BayId} (h : P s) : P (failAttempt b s) := by
  unfold Machine.failAttempt
  split
  · split
    · split
      · refine k.modBay ?_ h
        exact fun _ => rfl
      · unfold failTransfer
        repeat' split
        next e _ hq =>
          refine k.settle ?_
          unfold loseHead checkThreshold
          have h1 := k.countLoss b e (by simp [hq]) h
          split
          · exact k.latch (k.leaveServing h1)
          · exact h1
        all_goals first
          | exact h
          | exact k.grantLink (k.releaseError (k.freeLink h))
          | exact k.reject h
    · exact h
  all_goals exact h

theorem keyRead {b : BayId} (h : P s) : P (keyRead b s) :=
  k.congr (by constructor <;> simp) h

theorem judgeHold {b : BayId} {n : Serial} {t : Option Stamp} (h : P s) : P (judgeHold b n t s) := by
  have h1 := k.holdMap (fun e => if marksStale n t e then { e with stale := true } else e)
    (fun e => by split <;> rfl) h
  unfold Machine.judgeHold
  dsimp only
  split
  · exact k.latch h1
  · exact h1

theorem completeMount {b : BayId} {v : Verdict} (h : P s) : P (completeMount b v s) :=
  k.settle (k.latch (k.modBay (by simp) h))

theorem checkDescriptor {b : BayId} {i : Ident} (h : P s) : P (checkDescriptor b i s) := by
  unfold Machine.checkDescriptor
  split
  · exact k.reject h
  · dsimp only
    have h1 : P (Machine.modBay b (fun x => { x with mount := { x.mount with
        serial := some (descSerial i.halves), capacity := some (descCapacity i.halves) } }) s) :=
      k.modBay (by simp) h
    repeat' split
    · exact k.reject h1
    · exact k.completeMount (k.modBay (by simp) h1)
    · refine k.grantLink (k.modBay (by simp) ?_)
      have h2 := k.judgeHold (b := b) (n := descSerial i.halves) (t := slotStamp i.halves) h1
      refine k.congr ?_ h2
      exact .of_fields rfl rfl ⟨rfl, rfl, rfl, rfl, rfl, rfl⟩

theorem completeBinding {b : BayId} {i : Ident} {w : Binding} (h : P s) :
    P (completeBinding b i w s) := by
  unfold Machine.completeBinding
  dsimp only
  refine k.completeMount (k.modBay (by simp) (k.modBay (by simp) ?_))
  exact k.holdMap _ (fun e => by dsimp only; split <;> rfl) (k.judgeHold h)

theorem writeItem {c : Byte} {v : Word} (h : P s) : P (writeItem c v s).state := by
  unfold Machine.writeItem
  split
  · exact h
  · split
    next t ht =>
      refine k.congr ?_ h
      unfold writeItemValue at ht
      dsimp only at ht
      split at ht
      all_goals first
        | cases ht; done
        | (cases ht; exact .of_fields rfl rfl ⟨rfl, rfl, rfl, rfl, rfl, rfl⟩)
        | (obtain ⟨_, _, rfl⟩ := Option.map_eq_some_iff.1 ht
           exact .of_fields rfl rfl ⟨rfl, rfl, rfl, rfl, rfl, rfl⟩)
        | (split at ht <;> cases ht; exact .of_fields rfl rfl ⟨rfl, rfl, rfl, rfl, rfl, rfl⟩)
    · exact h

omit k in
theorem live_keeps {f : State → State} {t : State} (h : P s) (hf : P (f s)) (e : live f s = .next t) : P t := by
  unfold live at e
  split at e <;> · cases e; assumption

theorem timed_keeps {p : Bool} {f : State → State} {t : State} (h : P s) (hf : ∀ {s}, P s → P (f s))
    (e : live (timed p f) s = .next t) : P t := by
  refine live_keeps h ?_ e
  cases p
  · exact hf h
  · exact hf (k.elapse h)

theorem runCommand {n : Nat} {f : State → Reply} (h : P s) (hf : P (f s).state) :
    P (runCommand n f s) := by
  unfold Machine.runCommand
  split
  · refine k.congr ?_ hf
    exact .of_fields rfl rfl ⟨rfl, rfl, rfl, rfl, rfl, rfl⟩
  all_goals exact h

theorem manage_keeps {n : Nat} {f : State → Reply} {t : State} (h : P s) (hf : P (f s).state)
    (e : manage n f s = .next t) : P t := live_keeps h (k.runCommand h hf) e

omit k in
theorem onBay_keeps {n : Byte} {f : BayId → State → Reply} (h : P s) (hf : ∀ b, P (f b s).state) :
    P (onBay n f s).state := by
  unfold onBay
  split
  · exact hf _
  · exact h

/-- A change of none of the fields that hold the account. -/
theorem fields {t : State} (h : P s) (hA : t.bayA.queue = s.bayA.queue)
    (hB : t.bayB.queue = s.bayB.queue) (e : t.hold = s.hold ∧ t.accepted = s.accepted ∧
      t.committed = s.committed ∧ t.lost = s.lost ∧ t.lossLog = s.lossLog ∧ t.nextOrd = s.nextOrd) :
    P t := k.congr (.of_fields hA hB e) h

theorem host_port (h : P s) :
    (∀ c, P (classify c s)) ∧ (∀ d, P (mainReady d s)) ∧ P (accessEnd s) ∧ P (stallExpiry s) ∧
    P (acceptWaiting s) ∧ P (rehandle s) ∧ (∀ r, P (hrstEffect r s)) := by
  refine ⟨fun c => ?_, fun d => ?_, ?_, ?_, ?_, ?_, fun r => ?_⟩
  · unfold classify beginMain
    dsimp only
    repeat' split
    all_goals first
      | exact k.setHost h
      | exact k.grantLink (k.handleAccess h)
  · unfold mainReady
    split <;> exact k.setHost h
  · unfold accessEnd
    split <;> exact k.setHost h
  · unfold stallExpiry
    repeat' split
    all_goals first
      | exact h
      | exact k.releaseError (k.clearThrough _ h)
      | exact k.grantLink (k.releaseError (k.abandonRead h))
      | exact k.releaseError h
  · unfold acceptWaiting
    dsimp only
    repeat' split
    next hs => exact k.grantLink (k.acceptQueue _ hs.2 h)
    all_goals exact h
  · unfold rehandle
    repeat' split
    all_goals first
      | exact h
      | exact k.grantLink (k.handleAccess h)
  · have h1 : P (hostReset s) := by
      unfold hostReset
      split
      all_goals first
        | exact k.setHost h
        | exact k.abandonAccess h
    unfold hrstEffect
    split
    · exact k.fields h1 rfl rfl ⟨rfl, rfl, rfl, rfl, rfl, rfl⟩
    · exact k.fields h rfl rfl ⟨rfl, rfl, rfl, rfl, rfl, rfl⟩

theorem bay_link (h : P s) :
    (∀ b, P (commitHead b s)) ∧ (∀ b d, P (readAnswer b d s)) ∧ (∀ b d l, P (descriptorAnswer b d l s)) ∧
    (∀ b, P (bindingAnswer b s)) ∧ (∀ b, P (abandonedEnd b s)) := by
  refine ⟨fun b => ?_, fun b d => ?_, fun b d l => ?_, fun b => ?_, fun b => ?_⟩
  · unfold commitHead
    dsimp only
    split
    next e _ _ hq =>
      split
      case isFalse => exact h
      have h1 : P (Machine.modBay b (fun x => { x with lossCount := 0 })
          (dropHead b { s with committed := s.committed + 1 })) :=
        k.modBay (by simp) (k.commit b (by simp [hq]) h)
      refine k.markAck (k.settle ?_)
      split
      · exact k.releaseThrough h1
      · exact h1
    · exact h
  · unfold readAnswer
    repeat' split
    · refine k.grantLink (k.releaseOk (k.freeLink ?_))
      exact k.fields h rfl rfl ⟨rfl, rfl, rfl, rfl, rfl, rfl⟩
    all_goals exact h
  · unfold descriptorAnswer
    dsimp only
    repeat' split
    · refine k.grantLink (k.freeLink (k.modBay ?_ h))
      exact fun _ => rfl
    · refine k.checkDescriptor (k.modBay ?_ (k.modBay ?_ h))
      · exact fun _ => rfl
      · exact fun _ => rfl
    all_goals exact h
  · unfold bindingAnswer
    dsimp only
    repeat' split
    · exact h
    · refine k.grantLink (k.modBay ?_ h)
      exact fun _ => rfl
    · exact k.completeBinding h
    · exact h
  · unfold abandonedEnd
    split
    · exact k.grantLink (k.freeLink h)
    all_goals exact h

theorem detectSample {b : BayId} (h : P s) : P (detectSample b s) :=
  k.congr (by constructor <;> simp) h

theorem enterIdentifying {b : BayId} (h : P s) : P (enterIdentifying b s) :=
  k.congr (by constructor <;> simp) h

theorem bays (h : P s) :
    (∀ b, P (detectMake b s)) ∧ (∀ b c, P (debounceBreak b c s)) ∧ (∀ b q, P (debounceExpiry b q s)) ∧
    (∀ b, P (powerGoodRise b s)) ∧ (∀ b, P (powerTimerExpiry b s)) ∧ (∀ b, P (identTimerExpiry b s)) ∧
    (∀ b, P (powerLoss b s)) ∧ (∀ b c, P (removeServing b c s)) ∧ (∀ b c, P (removeMounting b c s)) ∧
    (∀ b c, P (removeStopped b c s)) ∧ (∀ b, P (drainTimeout b s)) ∧ (∀ b, P (replayMove b s)) := by
  refine ⟨fun b => ?_, fun b c => ?_, fun b q => ?_, fun b => ?_, fun b => ?_, fun b => ?_, fun b => ?_,
    fun b c => ?_, fun b c => ?_, fun b c => ?_, fun b => ?_, fun b => ?_⟩
  · unfold detectMake
    split
    · exact k.detectSample (k.modBay (by simp) h)
    · exact h
  · unfold debounceBreak
    split
    · exact k.modBay (by simp) (k.modBay (by simp) h)
    · exact h
  · unfold debounceExpiry
    split
    · exact k.keyRead (k.latch (k.modBay (by simp) h))
    · exact h
  · unfold powerGoodRise
    split
    · exact k.enterIdentifying (k.modBay (by simp) h)
    · exact h
  · unfold powerTimerExpiry
    split
    · exact k.reject h
    · exact h
  · unfold identTimerExpiry
    split
    · exact k.reject h
    · exact h
  · unfold powerLoss
    dsimp only
    repeat' split
    · exact k.settle (k.latch (k.leaveServing (k.modBay (by simp) h)))
    · exact k.latch (k.modBay (by simp) (k.modBay (by simp) h))
    · exact h
  · unfold removeServing
    split
    · exact k.settle (k.latch (k.leaveServing (k.modBay (by simp) h)))
    · exact h
  · unfold removeMounting
    split
    · exact k.latch (k.modBay (by simp) (k.modBay (by simp) h))
    · exact h
  · unfold removeStopped
    split
    · exact k.latch (k.modBay (by simp) (k.modBay (by simp) h))
    · exact h
  · unfold Machine.drainTimeout
    split
    · exact k.settle (k.latch (k.latch (k.leaveServing h)))
    · exact h
  · unfold Machine.replayMove
    split
    · exact k.settle h
    · exact h

theorem management (h : P s) :
    (∀ b, P (eject b s).state) ∧ (∀ b, P (cancelEject b s).state) ∧ (∀ b q, P (retryBay q b s).state) ∧
    (∀ b, P (forget b s).state) ∧ (∀ b, P (forceReplay b s).state) ∧
    (∀ n c, P (discardHeld n c s).state) ∧ P (popLoss s).state := by
  refine ⟨fun b => ?_, fun b => ?_, fun b q => ?_, fun b => ?_, fun b => ?_, fun n c => ?_, ?_⟩
  · unfold eject
    split
    · exact k.settle (k.enterDraining h)
    · rw [replyOk_state]
      refine k.modBay ?_ h
      exact fun _ => rfl
    all_goals exact h
  · unfold cancelEject
    repeat' split
    all_goals first
      | exact h
      | (rw [replyOk_state]; refine k.modBay ?_ h; exact fun _ => rfl)
  · unfold retryBay
    split
    all_goals first
      | exact h
      | exact k.keyRead (k.modBay (by simp) h)
  · unfold forget
    rw [replyOk_state]
    refine k.modBay ?_ h
    exact fun _ => rfl
  · unfold forceReplay
    dsimp only
    repeat' split
    all_goals first
      | exact h
      | exact k.settle (k.meetHost (k.modBay (by simp)
          (k.holdMap _ (fun e => by unfold forceEntry; split <;> rfl) h)))
  · unfold discardHeld
    dsimp only
    repeat' split
    all_goals first
      | exact h
      | exact k.settle (k.settle (k.discard _ h))
  · unfold popLoss
    repeat' split
    next hl => exact k.pop hl h
    · exact k.fields h rfl rfl ⟨rfl, rfl, rfl, rfl, rfl, rfl⟩
    · exact h

end KeptByAccount

theorem exec_kept {P : State → Prop} (k : KeptByAccount P) (c : Instr) (s t : State) (h : P s)
    (e : exec c s = .next t) : P t := by
  cases c <;> simp only [exec] at e
  case por => cases e; exact k.por s
  case resetEnd =>
    unfold execResetEnd at e
    split at e
    · cases e
      refine k.detectSample (k.modBay (by simp) (k.detectSample (k.modBay (by simp) ?_)))
      exact k.fields h rfl rfl ⟨rfl, rfl, rfl, rfl, rfl, rfl⟩
    · cases e; exact h
  case badCommand =>
    unfold execBadCommand at e
    split at e
    · exact k.manage_keeps h h e
    · cases e; exact h
  case hrst => exact k.timed_keeps h (fun h => (k.host_port h).2.2.2.2.2.2 _) e
  case classification => exact KeptByAccount.live_keeps h ((k.host_port h).1 _) e
  case mainAccessReady => exact KeptByAccount.live_keeps h ((k.host_port h).2.1 _) e
  case accessEnd => exact KeptByAccount.live_keeps h ((k.host_port h).2.2.1) e
  case hostWithdrawal => exact k.timed_keeps h k.abandonAccess e
  case stallTimerExpiry => exact k.timed_keeps h (fun h => (k.host_port h).2.2.2.1) e
  case waitingWriteAccepted => exact KeptByAccount.live_keeps h ((k.host_port h).2.2.2.2.1) e
  case stalledAccessRehandled => exact KeptByAccount.live_keeps h ((k.host_port h).2.2.2.2.2.1) e
  case linkGrant => exact KeptByAccount.live_keeps h (k.grantLink h) e
  case commit => exact k.timed_keeps h (fun h => (k.bay_link h).1 _) e
  case failedAttempt => exact k.timed_keeps h k.failAttempt e
  case responseTimeout => exact k.timed_keeps h k.failAttempt e
  case readTransferAnswer => exact k.timed_keeps h (fun h => (k.bay_link h).2.1 _ _) e
  case descriptorReadAnswer => exact k.timed_keeps h (fun h => (k.bay_link h).2.2.1 _ _ _) e
  case bindingWriteAnswer => exact k.timed_keeps h (fun h => (k.bay_link h).2.2.2.1 _) e
  case abandonedTransferEnd => exact KeptByAccount.live_keeps h ((k.bay_link h).2.2.2.2 _) e
  case detectMake => exact KeptByAccount.live_keeps h ((k.bays h).1 _) e
  case debounceBreak => exact KeptByAccount.live_keeps h ((k.bays h).2.1 _ _) e
  case debounceExpiry => exact KeptByAccount.live_keeps h ((k.bays h).2.2.1 _ _) e
  case powerGoodRise => exact KeptByAccount.live_keeps h ((k.bays h).2.2.2.1 _) e
  case powerTimerExpiry => exact KeptByAccount.live_keeps h ((k.bays h).2.2.2.2.1 _) e
  case identificationTimerExpiry => exact KeptByAccount.live_keeps h ((k.bays h).2.2.2.2.2.1 _) e
  case powerLoss => exact k.timed_keeps h (fun h => (k.bays h).2.2.2.2.2.2.1 _) e
  case removal => exact k.timed_keeps h (fun h => (k.bays h).2.2.2.2.2.2.2.1 _ _) e
  case removalDuringMount => exact KeptByAccount.live_keeps h ((k.bays h).2.2.2.2.2.2.2.2.1 _ _) e
  case removalOfStoppedCarrier => exact KeptByAccount.live_keeps h ((k.bays h).2.2.2.2.2.2.2.2.2.1 _ _) e
  case drainTimeout => exact k.timed_keeps h (fun h => (k.bays h).2.2.2.2.2.2.2.2.2.2.1 _) e
  case replayMove => exact KeptByAccount.live_keeps h ((k.bays h).2.2.2.2.2.2.2.2.2.2.2 _) e
  case frameStart =>
    refine KeptByAccount.live_keeps h ?_ e
    unfold frameStart
    split <;> exact k.fields h rfl rfl ⟨rfl, rfl, rfl, rfl, rfl, rfl⟩
  case frameEnd =>
    refine KeptByAccount.live_keeps h ?_ e
    unfold frameEnd
    split <;> exact k.fields h rfl rfl ⟨rfl, rfl, rfl, rfl, rfl, rfl⟩
  case frameDiscard =>
    refine KeptByAccount.live_keeps h ?_ e
    unfold frameDiscard
    repeat' split
    all_goals exact k.fields h rfl rfl ⟨rfl, rfl, rfl, rfl, rfl, rfl⟩
  case forceReplay =>
    refine k.timed_keeps h (fun h => k.runCommand h ?_) e
    exact KeptByAccount.onBay_keeps h fun b => (k.management h).2.2.2.2.1 b
  all_goals refine k.manage_keeps h ?_ e
  case writeItem => exact k.writeItem h
  case writeEventEnable => exact k.writeItem h
  case readStatus => exact k.fields h rfl rfl ⟨rfl, rfl, rfl, rfl, rfl, rfl⟩
  case readItem => unfold readItem; split <;> exact h
  case commitWindow =>
    unfold commitWindow; repeat' split
    all_goals first | exact h | exact k.fields h rfl rfl ⟨rfl, rfl, rfl, rfl, rfl, rfl⟩
  case disableWindow =>
    unfold disableWindow; split
    all_goals first | exact h | exact k.fields h rfl rfl ⟨rfl, rfl, rfl, rfl, rfl, rfl⟩
  case readWindow => unfold readWindow; split <;> exact h
  case readBay => exact KeptByAccount.onBay_keeps h fun b => h
  case eject => exact KeptByAccount.onBay_keeps h (k.management h).1
  case cancelEject => exact KeptByAccount.onBay_keeps h (k.management h).2.1
  case retryBay => exact KeptByAccount.onBay_keeps h fun b => (k.management h).2.2.1 b _
  case forget => exact KeptByAccount.onBay_keeps h (k.management h).2.2.2.1
  case discardHeld => exact (k.management h).2.2.2.2.2.1 _ _
  case readHold => unfold readHold; split <;> exact h
  case popLoss => exact (k.management h).2.2.2.2.2.2
  case readCounts => exact h
  case zeroCounts => exact k.zero h
  case readError => exact k.fields h rfl rfl ⟨rfl, rfl, rfl, rfl, rfl, rfl⟩
  case readEvents => exact h
  case clearEvents =>
    unfold clearEvents; split
    all_goals first | exact h | exact k.fields h rfl rfl ⟨rfl, rfl, rfl, rfl, rfl, rfl⟩

end Sys2Proof.Machine
end

