-- ==== Sys2Proof/Laws/Mounts.lean ====
section
/-! SUPPORT. What keeps the queues and the hold store in agreement with the carriers that serve,
said once for each way in which the shared operations change them. -/

namespace Sys2Proof.Machine

/-! ### One bay, and a hold store -/

/-- What the agreement looks at in a queue entry. -/
def QEntry.mark (e : QEntry) : Nat × Serial × Stamp × Bool :=
  (e.ord, e.write.serial, e.write.stamp, e.write.forced)

/-- What the agreement looks at in a hold entry, but for its stale flag. -/
def HoldEntry.mark (e : HoldEntry) : Nat × Serial × Stamp × Bool :=
  (e.ord, e.write.serial, e.write.stamp, e.write.forced)

theorem QEntry.mark_eq {d e : QEntry} (h : d.mark = e.mark) :
    d.ord = e.ord ∧ d.write.serial = e.write.serial ∧ d.write.stamp = e.write.stamp ∧
      d.write.forced = e.write.forced := by
  simpa [QEntry.mark] using h

theorem HoldEntry.mark_eq {d e : HoldEntry} (h : d.mark = e.mark) :
    d.ord = e.ord ∧ d.write.serial = e.write.serial ∧ d.write.stamp = e.write.stamp ∧
      d.write.forced = e.write.forced := by
  simpa [HoldEntry.mark] using h

/-- A hold entry comes from one of a store: the same mark, and not stale only if that one was not. -/
def HoldEntry.drawn (e : HoldEntry) (hold : List HoldEntry) : Prop :=
  ∃ d ∈ hold, d.mark = e.mark ∧ (e.stale = false → d.stale = false)

theorem HoldEntry.drawn_of_mem {e : HoldEntry} {hold : List HoldEntry} (h : e ∈ hold) : e.drawn hold :=
  ⟨e, h, rfl, id⟩

/-- The bay's part of the agreement (R58, R61, R67, R133, R134). -/
structure Bay.Agrees (x : Bay) (hold : List HoldEntry) : Prop where
  queue : ∀ e ∈ x.queue, x.mount.serial = some e.write.serial ∧ x.mount.stamp = some e.write.stamp
  locked : x.state.serving → x.mount.locked → x.state ≠ .replay ∧ x.queue = []
  ready : x.state.servesReads → x.mount.locked = false → hold.any (eligible x.mount) = false
  order : x.queue.Pairwise fun e f => e.write.forced = false → f.write.forced = false → e.ord < f.ord
  replay : x.state = .replay → ∀ e ∈ x.queue, ∀ h ∈ hold, eligible x.mount h →
    e.write.forced = false → h.write.forced = false → e.ord < h.ord
  count : x.lossCount ≤ 15
  rises : x.state.serving → x.mount.locked = false → x.lossCount < 15

/-- A bay keeps the other bay's record from naming its bound carrier (R133). -/
def Bay.Apart (x : Bay) (last : Option LastCarrier) : Prop :=
  x.state.serving → x.mount.locked = false → ∀ r, last = some r → x.mount.serial ≠ some r.serial

theorem mountsAgree_iff {s : State} : MountsAgree s ↔
    ∀ b, (s.bay b).Agrees s.hold ∧ (s.bay b).Apart (s.bay (otherBay b)).last :=
  ⟨fun h b => ⟨⟨h.queue b, h.locked b, h.ready b, h.order b, h.replay b, h.count b, h.rises b⟩,
      h.record b⟩,
    fun h => ⟨fun b => (h b).1.queue, fun b => (h b).1.locked, fun b => (h b).2,
      fun b => (h b).1.ready, fun b => (h b).1.order, fun b => (h b).1.replay,
      fun b => (h b).1.count, fun b => (h b).1.rises⟩⟩

/-- The agreement after a step, from what it holds of one bay and of the other. -/
theorem MountsAgree.of_bays {s : State} {b : BayId} (hb : (s.bay b).Agrees s.hold)
    (ho : (s.bay (otherBay b)).Agrees s.hold) (rb : (s.bay b).Apart (s.bay (otherBay b)).last)
    (ro : (s.bay (otherBay b)).Apart (s.bay b).last) : MountsAgree s := by
  rw [mountsAgree_iff]
  intro c
  obtain rfl | rfl := eq_or_eq_otherBay b c
  · exact ⟨hb, rb⟩
  · refine ⟨ho, ?_⟩
    rw [show otherBay (otherBay b) = b by cases b <;> rfl]
    exact ro

/-- A bay whose queue holds nothing that was not in it, with the same carrier serving in the same
way. -/
structure Bay.Within (x y : Bay) : Prop where
  state : y.state = x.state ∨ x.state.servesReads ∧ y.state.servesReads
  serial : y.mount.serial = x.mount.serial
  stamp : y.mount.stamp = x.mount.stamp
  locked : y.mount.locked = x.mount.locked
  count : y.lossCount ≤ x.lossCount
  queue : (y.queue.map QEntry.mark).Sublist (x.queue.map QEntry.mark)

theorem Bay.Within.refl (x : Bay) : x.Within x :=
  ⟨.inl rfl, rfl, rfl, rfl, Nat.le_refl _, List.Sublist.refl _⟩

theorem BayState.servesReads_ne_replay {st : BayState} (h : st.servesReads) : st ≠ .replay := by
  cases st <;> simp_all [BayState.servesReads]

theorem Bay.Within.serving {x y : Bay} (w : x.Within y) : y.state.serving = x.state.serving := by
  obtain h | ⟨h, k⟩ := w.state
  · rw [h]
  · rw [BayState.servesReads_serving h, BayState.servesReads_serving k]

theorem Bay.Within.replay {x y : Bay} (w : x.Within y) (h : y.state = .replay) :
    x.state = .replay := by
  obtain k | ⟨-, k⟩ := w.state
  · rw [← k, h]
  · exact absurd h (BayState.servesReads_ne_replay k)

theorem Bay.Within.servesReads {x y : Bay} (w : x.Within y) (h : y.state.servesReads) :
    x.state.servesReads := by
  obtain k | ⟨k, -⟩ := w.state
  · rw [← k, h]
  · exact k

theorem Bay.Within.mem {x y : Bay} (w : x.Within y) {e : QEntry} (h : e ∈ y.queue) :
    ∃ d ∈ x.queue, d.mark = e.mark := by
  simpa using w.queue.subset (List.mem_map_of_mem h)

theorem eligible_within {m n : MountRecord} (hs : n.serial = m.serial) (ht : n.stamp = m.stamp)
    {d e : HoldEntry} (hm : d.mark = e.mark) (hst : e.stale = false → d.stale = false)
    (h : eligible n e) : eligible m d := by
  obtain ⟨-, h2, h3, -⟩ := HoldEntry.mark_eq hm
  unfold eligible at *
  simp only [Bool.and_eq_true, Bool.not_eq_true', beq_iff_eq] at *
  rw [h2, h3, ← hs, ← ht]
  exact ⟨⟨hst h.1.1, h.1.2⟩, h.2⟩

/-- A bay goes on agreeing when its queue and the hold store gain nothing that is eligible in it. -/
theorem Bay.Agrees.within {x y : Bay} {hold k : List HoldEntry} (h : x.Agrees hold) (w : x.Within y)
    (hk : ∀ e ∈ k, e.drawn hold ∨
      (y.state.serving → y.mount.locked = false → eligible y.mount e = false)) : y.Agrees k := by
  have hel : y.state.serving → y.mount.locked = false → ∀ e ∈ k, eligible y.mount e →
      ∃ d ∈ hold, d.mark = e.mark ∧ eligible x.mount d := fun hs hl e he hy => by
    obtain ⟨d, hd, hm, hst⟩ | hn := hk e he
    · exact ⟨d, hd, hm, eligible_within w.serial w.stamp hm hst hy⟩
    · rw [hn hs hl] at hy; cases hy
  constructor
  · intro e he
    obtain ⟨d, hd, hm⟩ := w.mem he
    obtain ⟨-, h2, h3, -⟩ := QEntry.mark_eq hm
    rw [w.serial, w.stamp, ← h2, ← h3]
    exact h.queue d hd
  · intro hs hl
    obtain ⟨h1, h2⟩ := h.locked (w.serving ▸ hs) (w.locked ▸ hl)
    refine ⟨fun hr => h1 (w.replay hr), ?_⟩
    have := w.queue
    rw [h2] at this
    simpa using this
  · intro hs hl
    rw [List.any_eq_false]
    intro e he hy
    obtain ⟨d, hd, -, hx⟩ := hel (BayState.servesReads_serving hs) hl e he hy
    have := h.ready (w.servesReads hs) (w.locked ▸ hl)
    rw [List.any_eq_false] at this
    exact this d hd hx
  · have key : ∀ l : List QEntry, (l.Pairwise fun e f =>
        e.write.forced = false → f.write.forced = false → e.ord < f.ord) ↔
        (l.map QEntry.mark).Pairwise fun e f => e.2.2.2 = false → f.2.2.2 = false → e.1 < f.1 := by
      intro l; rw [List.pairwise_map]; rfl
    rw [key]
    exact ((key _).1 h.order).sublist w.queue
  · intro hr e he f hf hy h1 h2
    obtain ⟨d, hd, hm⟩ := w.mem he
    have hrx := w.replay hr
    have hly : y.mount.locked = false := by
      rw [w.locked]
      cases hl : x.mount.locked
      · rfl
      · exact absurd hrx (h.locked (by rw [hrx]; rfl) hl).1
    obtain ⟨g, hg, hn, hx⟩ := hel (by rw [hr]; rfl) hly f hf hy
    obtain ⟨m1, -, -, m4⟩ := QEntry.mark_eq hm
    obtain ⟨n1, -, -, n4⟩ := HoldEntry.mark_eq hn
    rw [← m1, ← n1]
    exact h.replay hrx d hd g hg hx (m4.trans h1) (n4.trans h2)
  · exact w.count.trans h.count
  · intro hs hl
    exact w.count.trans_lt (h.rises (w.serving ▸ hs) (w.locked ▸ hl))

/-- A bay out of service agrees with any hold store. -/
theorem Bay.Agrees.out {y : Bay} {k : List HoldEntry} (hs : y.state.serving = false)
    (hq : y.queue = []) (hc : y.lossCount ≤ 15) : y.Agrees k := by
  constructor
  · simp [hq]
  · intro h; rw [hs] at h; cases h
  · intro h; rw [BayState.servesReads_serving h] at hs; cases hs
  · simp [hq]
  · intro h; rw [h] at hs; cases hs
  · exact hc
  · intro h; rw [hs] at h; cases h

theorem Bay.Apart.out {y : Bay} {last : Option LastCarrier} (hs : y.state.serving = false) :
    y.Apart last := fun h => by rw [hs] at h; cases h

theorem Bay.Apart.within {x y : Bay} {l m : Option LastCarrier} (h : x.Apart l) (w : x.Within y)
    (hm : ∀ r, m = some r → l = some r) : y.Apart m := fun hs hl r hr => by
  rw [w.serial]
  exact h (w.serving ▸ hs) (w.locked ▸ hl) r (hm r hr)

/-! ### The whole part -/

namespace MountsAgree
variable {s t : State}

theorem agrees (h : MountsAgree s) (b : BayId) : (s.bay b).Agrees s.hold := (mountsAgree_iff.1 h b).1

theorem apart (h : MountsAgree s) (b : BayId) : (s.bay b).Apart (s.bay (otherBay b)).last := h.record b

theorem apart_other (h : MountsAgree s) (b : BayId) :
    (s.bay (otherBay b)).Apart (s.bay b).last := by
  have := h.record (otherBay b)
  rwa [show otherBay (otherBay b) = b by cases b <;> rfl] at this

/-- No queue, no record and no hold store gains anything. -/
theorem within (h : MountsAgree s) (hb : ∀ b, (s.bay b).Within (t.bay b))
    (hl : ∀ b r, (t.bay b).last = some r → (s.bay b).last = some r)
    (hd : ∀ e ∈ t.hold, e.drawn s.hold) : MountsAgree t := by
  rw [mountsAgree_iff]
  exact fun b => ⟨(h.agrees b).within (hb b) fun e he => .inl (hd e he),
    (h.apart b).within (hb b) (hl _)⟩

theorem congr (h : MountsAgree s) (hb : ∀ b, t.bay b = s.bay b) (hd : t.hold = s.hold) :
    MountsAgree t :=
  h.within (fun b => hb b ▸ .refl _) (fun b _ hr => hb b ▸ hr)
    fun _ he => HoldEntry.drawn_of_mem (hd ▸ he)

/-- One bay changes, and nothing of what the agreement looks at is gained. -/
theorem modBay {b : BayId} {f : Bay → Bay} (h : MountsAgree s)
    (hf : (s.bay b).Within (f (s.bay b))) (hl : (f (s.bay b)).last = (s.bay b).last) :
    MountsAgree (modBay b f s) := by
  refine h.within (fun c => ?_) (fun c r hr => ?_) fun e he => HoldEntry.drawn_of_mem (by simpa using he)
  · obtain rfl | rfl := eq_or_eq_otherBay b c
    · simpa using hf
    · simpa using Bay.Within.refl _
  · obtain rfl | rfl := eq_or_eq_otherBay b c
    · rw [modBay_bay, hl] at hr; exact hr
    · rwa [modBay_bay_other] at hr

/-- A bay is out of service after the step with an empty queue, and the hold store gains nothing that is
eligible in the other bay. -/
theorem out {b : BayId} (h : MountsAgree s) (hs : (t.bay b).state.serving = false)
    (hq : (t.bay b).queue = []) (hc : (t.bay b).lossCount ≤ 15)
    (hl : (t.bay b).last = (s.bay b).last) (ho : t.bay (otherBay b) = s.bay (otherBay b))
    (hd : ∀ e ∈ t.hold, e.drawn s.hold ∨ ((s.bay (otherBay b)).state.serving →
      (s.bay (otherBay b)).mount.locked = false →
        eligible (s.bay (otherBay b)).mount e = false)) : MountsAgree t :=
  .of_bays (.out hs hq hc) (by rw [ho]; exact (h.agrees _).within (.refl _) hd) (.out hs)
    (by rw [ho, hl]; exact h.apart_other b)

end MountsAgree

/-! ### The shared operations that gain nothing -/

namespace MountsAgree
variable {s : State}

theorem latch {l : Latch} (h : MountsAgree s) : MountsAgree (setLatch l s) :=
  h.congr (by simp) (by simp)

theorem lose {r : LossRecord} (h : MountsAgree s) : MountsAgree (lose r s) :=
  h.congr (by simp) (by simp)

theorem setHost {p : HostPort} (h : MountsAgree s) : MountsAgree { s with host := p } :=
  h.congr (fun b => by cases b <;> rfl) rfl

theorem releaseThrough {c : Option HostCause} (h : MountsAgree s) : MountsAgree (releaseThrough c s) :=
  h.congr (by simp) (by simp)

theorem releaseError {a : Access} {c : HostCause} {n : Option Word} (h : MountsAgree s) :
    MountsAgree (releaseError a c n s) := h.congr (by simp) (by simp)

theorem releaseOk {d : Option BusHalf} (h : MountsAgree s) : MountsAgree (releaseOk d s) :=
  h.congr (by simp) (by simp)

theorem waitIn {a : Access} {w : Wait} (h : MountsAgree s) : MountsAgree (waitIn a w s) :=
  h.congr (by simp) (by simp)

theorem absentRead {a : Access} (h : MountsAgree s) : MountsAgree (absentRead a s) :=
  h.congr (by simp) (by simp)

/-- A change of one bay's link and request-high time alone. -/
theorem setLink {b : BayId} {f : Bay → Link} {g : Bay → Bool} (h : MountsAgree s) :
    MountsAgree (Machine.modBay b (fun x => { x with link := f x, reqHigh := g x }) s) :=
  h.modBay ⟨.inl rfl, rfl, rfl, rfl, Nat.le_refl _, List.Sublist.refl _⟩ rfl

theorem grantLink {b : BayId} (h : MountsAgree s) : MountsAgree (grantLink b s) := by
  obtain e | ⟨-, ⟨a, -, e⟩ | ⟨-, -, q, qs, -, e⟩ | ⟨-, -, i, -, e⟩⟩ := grantLink_cases b s <;> rw [e]
  · exact h
  · exact (h.setLink (g := Bay.reqHigh)).setHost
  · exact h.setLink (g := Bay.reqHigh)
  · exact h.setLink (g := Bay.reqHigh)

theorem markAck {b : BayId} (h : MountsAgree s) : MountsAgree (markAck b s) := h.setLink

theorem freeLink {b : BayId} (h : MountsAgree s) : MountsAgree (freeLink b s) := h.setLink

theorem abandonRead {b : BayId} (h : MountsAgree s) : MountsAgree (abandonRead b s) := by
  unfold Machine.abandonRead
  split
  · exact h.setLink (g := Bay.reqHigh)
  · exact h

theorem elapse (h : MountsAgree s) : MountsAgree (elapse s) := (h.setLink).setLink

theorem clearThrough {b : BayId} (h : MountsAgree s) : MountsAgree (clearThrough b s) := by
  refine h.modBay ⟨.inl rfl, rfl, rfl, rfl, Nat.le_refl _, ?_⟩ rfl
  rw [List.map_map]
  exact List.Sublist.refl _

theorem abandonAccess (h : MountsAgree s) : MountsAgree (abandonAccess s) := by
  unfold Machine.abandonAccess
  repeat' split
  all_goals first
    | exact h
    | exact h.setHost.clearThrough
    | exact h.setHost.abandonRead.grantLink
    | exact h.setHost

theorem dropHead {b : BayId} (h : MountsAgree s) : MountsAgree (dropHead b s) := by
  refine h.modBay ⟨.inl rfl, rfl, rfl, rfl, Nat.le_refl _, ?_⟩ rfl
  exact (List.tail_sublist _).map _

/-- The bay changes between READY and DRAINING, or its mount cause, its timers, its flags or its inputs
change. -/
theorem reState {b : BayId} {f : Bay → Bay} (h : MountsAgree s)
    (hs : (f (s.bay b)).state = (s.bay b).state ∨
      (s.bay b).state.servesReads ∧ (f (s.bay b)).state.servesReads)
    (hm : (f (s.bay b)).mount.serial = (s.bay b).mount.serial ∧
      (f (s.bay b)).mount.stamp = (s.bay b).mount.stamp ∧
      (f (s.bay b)).mount.locked = (s.bay b).mount.locked)
    (hr : (f (s.bay b)).lossCount = (s.bay b).lossCount ∧ (f (s.bay b)).queue = (s.bay b).queue ∧
      (f (s.bay b)).last = (s.bay b).last) : MountsAgree (Machine.modBay b f s) :=
  h.modBay ⟨hs, hm.1, hm.2.1, hm.2.2, hr.1.le, hr.2.1 ▸ List.Sublist.refl _⟩ hr.2.2

theorem judgeHold {b : BayId} {n : Serial} {t : Option Stamp} (h : MountsAgree s) :
    MountsAgree (judgeHold b n t s) := by
  refine h.within (fun c => ?_) (fun c r hr => ?_) fun e he => ?_
  · rw [judgeHold_bay]; exact .refl _
  · rwa [judgeHold_bay] at hr
  · unfold Machine.judgeHold at he
    have : e ∈ s.hold.map fun e => if marksStale n t e then { e with stale := true } else e := by
      revert he
      dsimp only
      split <;> simp
    obtain ⟨d, hd, rfl⟩ := List.mem_map.1 this
    refine ⟨d, hd, ?_⟩
    split
    · exact ⟨rfl, by simp⟩
    · exact ⟨rfl, id⟩

theorem discardEntries {p : HoldEntry → Bool} (h : MountsAgree s) :
    MountsAgree (discardEntries p s) := by
  refine h.within (fun c => by simpa using Bay.Within.refl _) (fun c r hr => by simpa using hr)
    fun e he => HoldEntry.drawn_of_mem ?_
  rw [show (Machine.discardEntries p s).hold = s.hold.filter fun e => !p e by
    unfold Machine.discardEntries
    generalize s.hold.filter p = l
    have : ∀ (l : List HoldEntry) (u : State),
        (l.foldl (fun s e => Machine.lose ⟨.discarded, e.write, e.stale⟩ s) u).hold = u.hold := by
      intro l
      induction l with
      | nil => exact fun u => rfl
      | cons x l ih => exact fun u => (ih _).trans (by simp)
    exact this l _] at he
  exact (List.mem_filter.1 he).1

end MountsAgree


/-! ### The shared operations that move writes -/

namespace MountsAgree
variable {s : State}

/-- A write is accepted into the queue of an unlocked bay in READY (R40, R122). -/
theorem acceptQueue {a : Access} (h : MountsAgree s) (hO : InOrder s) (hB : BaysLawful s)
    (hs : (s.bay a.copy.bay).state = .ready) (hl : (s.bay a.copy.bay).mount.locked = false) :
    MountsAgree (acceptQueue a s) := by
  have hsv : (s.bay a.copy.bay).state.serving := by rw [hs]; rfl
  obtain ⟨h1, -, h3, -⟩ := (hB a.copy.bay).mounted hsv
  rw [hl] at h3
  obtain ⟨n, hn⟩ := Option.isSome_iff_exists.1 h1
  obtain ⟨t, ht⟩ := Option.isSome_iff_exists.1 (h3.resolve_left (by simp))
  have hA := h.agrees a.copy.bay
  refine .of_bays (b := a.copy.bay) ?_ ?_ ?_ ?_
  · rw [acceptQueue_bay]
    constructor
    · intro e he
      rcases List.mem_append.1 he with he | he
      · exact hA.queue e he
      · simp only [List.mem_singleton] at he
        subst he
        simp [acceptedEntry, acceptedWrite, hn, ht]
    · intro _ hc; rw [hl] at hc; cases hc
    · intro hc _
      simpa using hA.ready hc hl
    · refine List.pairwise_append.2 ⟨hA.order, by simp, fun e he f hf _ _ => ?_⟩
      simp only [List.mem_singleton] at hf
      subst hf
      refine hO.before _ ?_
      have : e.ord ∈ (s.bay a.copy.bay).queue.map QEntry.ord := List.mem_map_of_mem he
      unfold outstanding
      revert this
      cases a.copy.bay <;> simp +contextual
    · intro hc; simp [hs] at hc
    · exact hA.count
    · exact hA.rises
  · rw [acceptQueue_bay_other]
    simpa using h.agrees (otherBay a.copy.bay)
  · rw [acceptQueue_bay, acceptQueue_bay_other]; exact h.apart _
  · rw [acceptQueue_bay, acceptQueue_bay_other]; exact h.apart_other _

/-- An absent acceptance joins the hold store under the record of a bay out of service (R50, R124,
R133). -/
theorem acceptAbsent {a : Access} {b : BayId} {r : LastCarrier} {t : Stamp} (h : MountsAgree s)
    (hs : (s.bay b).state.serving = false) (hr : (s.bay b).last = some r) :
    MountsAgree (acceptAbsent a r.serial t s) := by
  have hq : ∀ k, (s.bay k).Agrees ((Machine.acceptAbsent a r.serial t s).hold) := fun k => by
    refine (h.agrees k).within (.refl _) fun e he => ?_
    have : e ∈ s.hold ∨ e = absentEntry a r.serial t s := by
      revert he
      unfold Machine.acceptAbsent joinNewest holdHigh
      split <;> simp [Machine.releaseOk, setLatch, takeNumber, absentEntry]
    rcases this with he | rfl
    · exact .inl (HoldEntry.drawn_of_mem he)
    · refine .inr fun hk hl => ?_
      obtain rfl | rfl := eq_or_eq_otherBay b k
      · rw [hs] at hk; cases hk
      · have := h.apart_other b hk hl r hr
        unfold eligible absentEntry acceptedWrite
        simp [this]
  rw [mountsAgree_iff]
  intro k
  simp only [acceptAbsent_bay]
  exact ⟨hq k, h.apart k⟩

theorem writeReady {a : Access} (h : MountsAgree s) (hO : InOrder s) (hB : BaysLawful s)
    (hs : (s.bay a.copy.bay).state = .ready) : MountsAgree (writeReady a s) := by
  unfold Machine.writeReady
  dsimp only
  repeat' split
  all_goals first
    | exact h.releaseError
    | exact h.acceptQueue hO hB hs (by simpa using ‹¬ (s.bay a.copy.bay).mount.locked = true›)
    | exact h.waitIn

theorem absentWrite {a : Access} (h : MountsAgree s)
    (hs : (s.bay a.copy.bay).state.serving = false) : MountsAgree (absentWrite a s) := by
  unfold Machine.absentWrite
  repeat' split
  all_goals first
    | exact h.releaseError
    | exact h.acceptAbsent hs ‹_›

theorem handleAccess {a : Access} (h : MountsAgree s) (hO : InOrder s) (hB : BaysLawful s) :
    MountsAgree (handleAccess a s) := by
  have hr : MountsAgree (readServing a s) := h.congr (by simp) (by simp)
  unfold Machine.handleAccess
  repeat' split
  all_goals first
    | exact h.writeReady hO hB ‹_›
    | exact hr
    | exact h.releaseError
    | exact h.waitIn
    | exact h.absentRead
    | exact h.absentWrite (by simp [*, BayState.serving])

/-- The waiting access meets its bay. A write that waits for space waits at an unlocked bay (R40). -/
theorem meetHost (h : MountsAgree s) (hO : InOrder s) (hB : BaysLawful s)
    (hl : ∀ a, s.host = .diverted a .space → (s.bay a.copy.bay).state.serving →
      (s.bay a.copy.bay).mount.locked = false) : MountsAgree (meetHost s) := by
  unfold Machine.meetHost
  dsimp only
  repeat' split
  all_goals first
    | exact h
    | exact h.handleAccess hO hB
    | exact h.acceptQueue hO hB ‹_› (hl _ ‹_› (by simp [*, BayState.serving]))
    | exact h.absentRead
    | exact h.abandonRead.absentRead
    | exact h.setHost

end MountsAgree


/-! ### Leaving service, replay, and losses -/

/-- What an evacuation leaves in the hold store: what was there, and writes of the queue (R125). -/
theorem mem_evacuateOne {q : QEntry} {s : State} {e : HoldEntry} (h : e ∈ (evacuateOne s q).hold) :
    e ∈ s.hold ∨ e.write = q.write := by
  unfold evacuateOne at h
  dsimp only at h
  have hj : ∀ x, e ∈ (joinEvacuated x s).hold → e ∈ s.hold ∨ e.write = x.write := by
    intro x hx
    have : e ∈ ordInsert HoldEntry.ord x s.hold := by
      revert hx
      unfold joinEvacuated holdHigh
      split <;> exact id
    rcases List.mem_cons.1 ((ordInsert_perm _ _ _).mem_iff.1 this) with rfl | he
    · exact .inr rfl
    · exact .inl he
  revert h
  repeat' split
  all_goals first
    | (simp only [releaseThrough_frame]; exact hj _)
    | exact hj _
    | (simp only [releaseThrough_frame, lose_frame]; exact .inl)

theorem mem_evacuate {b : BayId} {s : State} {e : HoldEntry} (h : e ∈ (evacuate b s).hold) :
    e ∈ s.hold ∨ ∃ q ∈ (s.bay b).queue, e.write.serial = q.write.serial := by
  have key : ∀ (l : List QEntry) (u : State), e ∈ (l.foldl evacuateOne u).hold →
      e ∈ u.hold ∨ ∃ q ∈ l, e.write = q.write := by
    intro l
    induction l with
    | nil => exact fun u h => .inl h
    | cons q l ih =>
      intro u h
      rcases ih _ h with h | ⟨x, hx, h⟩
      · exact (mem_evacuateOne h).imp id fun h => ⟨q, List.mem_cons_self, h⟩
      · exact .inr ⟨x, List.mem_cons_of_mem _ hx, h⟩
  unfold evacuate at h
  dsimp only at h
  rcases key _ _ h with h | ⟨q, hq, h⟩
  · exact .inl (by simpa using h)
  · right
    rw [(ordSort_perm _ _).mem_iff] at hq
    rw [h]
    unfold flagHead at hq
    split at hq
    · cases hq
    next e es he =>
      rw [he]
      split at hq
      · rcases List.mem_cons.1 hq with rfl | hq
        · exact ⟨e, List.mem_cons_self, rfl⟩
        · exact ⟨q, List.mem_cons_of_mem _ hq, rfl⟩
      · exact ⟨q, hq, rfl⟩

namespace MountsAgree
variable {s : State}

/-- A bay leaves service: its writes are eligible in no other bay, because that one holds another
carrier (R74, R87, R125). -/
theorem leaveServing {b : BayId} {st : BayState} {c : MountCause} (h : MountsAgree s)
    (hst : st.serving = false)
    (hd : (s.bay (otherBay b)).state.serving →
      (s.bay b).mount.serial ≠ (s.bay (otherBay b)).mount.serial) :
    MountsAgree (leaveServing b st c s) := by
  refine h.out (b := b) (by simpa using hst) (by simp) (by simpa using (h.agrees b).count) (by simp)
    (by simp) fun e he => ?_
  rcases mem_evacuate (b := b) (s := s) (by simpa [Machine.leaveServing] using he) with he | ⟨q, hq, he⟩
  · exact .inl (HoldEntry.drawn_of_mem he)
  · refine .inr fun hs _ => ?_
    have h1 := ((h.agrees b).queue q hq).1
    have h2 := hd hs
    rw [h1, ← he] at h2
    unfold eligible
    simp [Ne.symm h2]

/-- The entries that replay moves stand behind the queue and before the eligible ones that it leaves
(R131, R134). -/
theorem replayMoves {b : BayId} (h : MountsAgree s) (hO : InOrder s)
    (hs : (s.bay b).state = .replay) : MountsAgree (replayMoves b s) := by
  have hA := h.agrees b
  generalize hr : takeFirst (eligible (s.bay b).mount) (queueCapacity - (s.bay b).queue.length)
    s.hold = r
  have hsub := takeFirst_sublist (eligible (s.bay b).mount)
    (queueCapacity - (s.bay b).queue.length) s.hold
  have hall := takeFirst_all (eligible (s.bay b).mount)
    (queueCapacity - (s.bay b).queue.length) s.hold
  have hord := takeFirst_before (eligible (s.bay b).mount) HoldEntry.ord
    (queueCapacity - (s.bay b).queue.length) s.hold hO.rising
  rw [hr] at hsub hall hord
  have hb : (Machine.replayMoves b s).bay b = { s.bay b with
      queue := (s.bay b).queue ++ r.1.map fun e => ⟨e.ord, e.write, false⟩ } := by
    unfold Machine.replayMoves
    dsimp only
    rw [hr, modBay_bay]
    cases b <;> rfl
  have ho : (Machine.replayMoves b s).bay (otherBay b) = s.bay (otherBay b) := by
    unfold Machine.replayMoves
    dsimp only
    rw [modBay_bay_other]
    cases b <;> rfl
  have hh : (Machine.replayMoves b s).hold = r.2 := by
    unfold Machine.replayMoves
    dsimp only
    rw [hr]
    simp
  have hel : ∀ e : HoldEntry, eligible (s.bay b).mount e →
      (s.bay b).mount.serial = some e.write.serial ∧ (s.bay b).mount.stamp = some e.write.stamp := by
    intro e he
    unfold eligible at he
    simp only [Bool.and_eq_true, beq_iff_eq] at he
    exact ⟨he.1.2, he.2⟩
  refine .of_bays (b := b) ?_ ?_ ?_ ?_
  · rw [hb, hh]
    constructor
    · intro e he
      rcases List.mem_append.1 he with he | he
      · exact hA.queue e he
      · obtain ⟨d, hd, rfl⟩ := List.mem_map.1 he
        exact hel d (hall d hd)
    · intro h1 h2; exact absurd hs (hA.locked h1 h2).1
    · intro hc; exact absurd hs (BayState.servesReads_ne_replay hc)
    · refine List.pairwise_append.2 ⟨hA.order, ?_, fun e he f hf h1 h2 => ?_⟩
      · rw [List.pairwise_map]
        have := (List.pairwise_map.1 hO.rising).sublist hsub.1
        exact this.imp fun h _ _ => h
      · obtain ⟨d, hd, rfl⟩ := List.mem_map.1 hf
        exact hA.replay hs e he d (hsub.1.subset hd) (hall d hd) h1 h2
    · intro _ e he d hd hx h1 h2
      rcases List.mem_append.1 he with he | he
      · exact hA.replay hs e he d (hsub.2.subset hd) hx h1 h2
      · obtain ⟨f, hf, rfl⟩ := List.mem_map.1 he
        exact hord f hf d hd hx
    · exact hA.count
    · exact hA.rises
  · rw [ho, hh]
    exact (h.agrees _).within (.refl _) fun e he =>
      .inl (HoldEntry.drawn_of_mem (hsub.2.subset he))
  · rw [hb, ho]; exact h.apart b
  · rw [hb, ho]; exact h.apart_other b

/-- Replay ends when no hold entry is eligible (R111, R132). -/
theorem replayEnd {b : BayId} (h : MountsAgree s) (hs : (s.bay b).state = .replay) :
    MountsAgree (replayEnd b s) := by
  have hA := h.agrees b
  unfold Machine.replayEnd
  dsimp only
  split
  · exact h
  next hn =>
    have key : ∀ t : State, ∀ st : BayState, st.servesReads →
        (∃ tm p, t.bay b = { s.bay b with
          state := st, mount := { (s.bay b).mount with cause := .none }, drainTimer := tm
          ejectPending := p }) →
        t.bay (otherBay b) = s.bay (otherBay b) → t.hold = s.hold → MountsAgree t := by
      rintro t st hst ⟨tm, p, hb⟩ ho hh
      refine .of_bays (b := b) ?_ ?_ ?_ ?_
      · rw [hb, hh]
        refine ⟨hA.queue, fun _ hl => absurd hs (hA.locked (by rw [hs]; rfl) hl).1, ?_, hA.order, ?_,
          hA.count, fun _ => hA.rises (by rw [hs]; rfl)⟩
        · intro _ _
          simpa [eligible] using hn
        · intro hc
          exact absurd hc (BayState.servesReads_ne_replay hst)
      · rw [ho, hh]; exact h.agrees _
      · rw [hb, ho]
        exact fun _ => h.apart b (by rw [hs]; rfl)
      · rw [hb, ho]; exact h.apart_other b
    split
    · refine key _ .draining rfl ⟨some s.items.drainMs, false, ?_⟩ ?_ ?_ <;>
        simp [Machine.enterDraining, Bay.enter]
    · refine key _ .ready rfl ⟨(s.bay b).drainTimer, (s.bay b).ejectPending, ?_⟩ ?_ ?_ <;>
        simp [Bay.enter]

theorem replayWork {b : BayId} (h : MountsAgree s) (hO : InOrder s) : MountsAgree (replayWork b s) := by
  unfold Machine.replayWork
  split
  next hs => exact (h.replayMoves hO hs).replayEnd (by simpa using hs)
  · exact h

theorem drainEnd {b : BayId} (h : MountsAgree s)
    (hd : (s.bay b).state.serving → (s.bay (otherBay b)).state.serving →
      (s.bay b).mount.serial ≠ (s.bay (otherBay b)).mount.serial) : MountsAgree (drainEnd b s) := by
  unfold Machine.drainEnd
  dsimp only
  split
  next hc =>
    simp only [Bool.and_eq_true, decide_eq_true_eq] at hc
    exact (h.leaveServing rfl (hd (by rw [hc.1]; rfl))).latch
  · exact h

/-- The head entry of an unlocked bay is lost: the consecutive-loss count stays below
FAULT_THRESHOLD, or the bay leaves service (R66 to R68). -/
theorem loseHead {b : BayId} {e : QEntry} (h : MountsAgree s) (hs : (s.bay b).state.serving)
    (hl : (s.bay b).mount.locked = false)
    (hd : (s.bay (otherBay b)).state.serving →
      (s.bay b).mount.serial ≠ (s.bay (otherBay b)).mount.serial) : MountsAgree (loseHead b e s) := by
  have hlt := (h.agrees b).rises hs hl
  have hbay : (countLoss b e s).bay b =
      { ((s.bay b).dropLink) with
        queue := (s.bay b).queue.tail, lossCount := (s.bay b).lossCount + 1 } := by
    rw [countLoss_bay]
  have hoth : (countLoss b e s).bay (otherBay b) = s.bay (otherBay b) := by rw [countLoss_bay_other]
  have hhold : (countLoss b e s).hold = s.hold := by
    unfold countLoss
    dsimp only
    split <;> simp
  have hth : s.items.faultThreshold.toNat < 16 := s.items.faultThreshold.isLt
  have h0 := h.dropHead (b := b)
  have hit : (countLoss b e s).items = s.items := by simp
  unfold Machine.loseHead checkThreshold
  split
  next hc =>
    refine latch ?_
    refine h.out (b := b) (by simp [BayState.serving]) (by simp) ?_ ?_ (by simp [hoth]) fun d hx => ?_
    · rw [leaveServing_bay, hbay]; exact hlt
    · rw [leaveServing_bay, hbay]; rfl
    · rcases mem_evacuate (b := b) (s := countLoss b e s)
        (by simpa [Machine.leaveServing] using hx) with he | ⟨q, hq, he⟩
      · exact .inl (HoldEntry.drawn_of_mem (hhold ▸ he))
      · refine .inr fun hs' _ => ?_
        rw [hbay] at hq
        have h1 := ((h.agrees b).queue q (List.mem_of_mem_tail hq)).1
        have h2 := hd hs'
        rw [h1, ← he] at h2
        unfold eligible
        simp [Ne.symm h2]
  next hc =>
    rw [hbay, hit] at hc
    have h1 := h0.agrees b
    rw [dropHead_bay] at h1
    refine .of_bays (b := b) ?_ (by rw [hoth, hhold]; exact h.agrees _) ?_ ?_
    · rw [hbay, hhold]
      have hh0 : (Machine.dropHead b s).hold = s.hold := by simp
      rw [hh0] at h1
      exact ⟨h1.queue, h1.locked, h1.ready, h1.order, h1.replay, by dsimp only; omega,
        fun _ _ => by dsimp only at hc ⊢; omega⟩
    · rw [hbay, hoth]; exact h.apart b
    · rw [hbay, hoth]; exact h.apart_other b

end MountsAgree


/-! ### Mounting, and the return of stale writes -/

namespace MountsAgree
variable {s t : State}

/-- A carrier that has just been bound: its bay serves with an empty queue and no losses, the other
bay's record and carrier have another serial, and in READY no write is eligible (R94, R95, R133). -/
theorem bound {b : BayId} {n : Serial} (h : MountsAgree s)
    (hst : (t.bay b).state = .replay ∨ (t.bay b).state = .ready ∧
      t.hold.any (eligible (t.bay b).mount) = false)
    (hl : (t.bay b).mount.locked = false) (hq : (t.bay b).queue = []) (hc : (t.bay b).lossCount = 0)
    (hn : (t.bay b).mount.serial = some n)
    (ho : (s.bay (otherBay b)).Within (t.bay (otherBay b)))
    (hro : ∀ r, (t.bay (otherBay b)).last = some r → r.serial ≠ n)
    (hrb : ∀ r, (t.bay b).last = some r → r.serial = n)
    (hd : (s.bay (otherBay b)).state.serving → (s.bay (otherBay b)).mount.serial ≠ some n)
    (hh : ∀ e ∈ t.hold, e.drawn s.hold ∨ e.write.serial = n) : MountsAgree t := by
  refine .of_bays (b := b) ?_ ((h.agrees _).within ho fun e he => (hh e he).imp id fun he hs _ => ?_)
    (fun _ _ r hr => ?_) (fun hs _ r hr => ?_)
  · refine ⟨by simp [hq], fun _ hc => by simp [hl] at hc, fun hr _ => ?_, by simp [hq],
      fun _ => by simp [hq], by simp [hc], fun _ _ => by simp [hc]⟩
    obtain hst | hst := hst
    · exact absurd hst (BayState.servesReads_ne_replay hr)
    · exact hst.2
  · have := hd (ho.serving ▸ hs)
    unfold eligible
    rw [ho.serial, he]
    simp [this]
  · rw [hn]
    exact fun hc => hro r hr (Option.some.inj hc).symm
  · rw [ho.serial, hrb r hr]
    exact hd (ho.serving ▸ hs)

/-- A carrier that has just been mounted LOCKED: its bay is READY with an empty queue, and its record
does not name the other bay's carrier (R89, R133). -/
theorem boundLocked {b : BayId} (h : MountsAgree s) (hst : (t.bay b).state = .ready)
    (hl : (t.bay b).mount.locked) (hq : (t.bay b).queue = [])
    (hc : (t.bay b).lossCount = (s.bay b).lossCount)
    (ho : t.bay (otherBay b) = s.bay (otherBay b))
    (hrb : ∀ r, (t.bay b).last = some r → (s.bay (otherBay b)).state.serving →
      (s.bay (otherBay b)).mount.serial ≠ some r.serial)
    (hh : t.hold = s.hold) : MountsAgree t := by
  refine .of_bays (b := b) ?_ (by rw [ho, hh]; exact h.agrees _)
    (fun _ hc => by rw [hl] at hc; cases hc) (fun hs _ r hr => ?_)
  · refine ⟨by simp [hq], fun _ _ => ⟨by simp [hst], hq⟩, fun _ hc => ?_, by simp [hq], by simp [hq],
      by rw [hc]; exact (h.agrees b).count, fun _ hc => ?_⟩ <;> · rw [hl] at hc; cases hc
  · rw [ho] at hs ⊢
    exact hrb r hr hs

theorem forceEntry_cases (m : MountRecord) (e : HoldEntry) :
    (forceEntry m e = e ∧ forceable m e = false) ∨
      ((forceEntry m e).write.forced = true ∧ m.serial = some (forceEntry m e).write.serial) := by
  unfold forceEntry
  split
  next hc =>
    refine .inr ⟨rfl, ?_⟩
    unfold forceable at hc
    simp only [Bool.and_eq_true, beq_iff_eq] at hc
    exact hc.2
  next hc => exact .inl ⟨rfl, by simpa using hc⟩

/-- FORCE_REPLAY brings a bay from READY to REPLAY, where only the entries that it brings back are
eligible (R133, R134, R138). -/
theorem force {b : BayId} (h : MountsAgree s) (hs : (s.bay b).state = .ready)
    (hl : (s.bay b).mount.locked = false)
    (hd : (s.bay (otherBay b)).state.serving →
      (s.bay b).mount.serial ≠ (s.bay (otherBay b)).mount.serial) :
    MountsAgree (Machine.modBay b (Bay.enter .replay .none)
      { s with hold := s.hold.map (forceEntry (s.bay b).mount) }) := by
  have hA := h.agrees b
  have hrb : ∀ c (l : List HoldEntry), State.bay { s with hold := l } c = s.bay c := fun c l => by
    cases c <;> rfl
  have hh : (Machine.modBay b (Bay.enter .replay .none)
      { s with hold := s.hold.map (forceEntry (s.bay b).mount) }).hold =
        s.hold.map (forceEntry (s.bay b).mount) := by simp
  refine .of_bays (b := b) ?_ ?_ ?_ ?_
  · rw [hh, modBay_bay, hrb]
    refine ⟨hA.queue, fun _ hc => ?_, fun hc => ?_, hA.order, fun _ e he f hf hx _ h2 => ?_,
      hA.count, fun _ _ => hA.rises (by rw [hs]; rfl) hl⟩
    · simp [Bay.enter, hl] at hc
    · simp [Bay.enter, BayState.servesReads] at hc
    · obtain ⟨d, hd', rfl⟩ := List.mem_map.1 hf
      obtain ⟨hc, -⟩ | ⟨hc, -⟩ := forceEntry_cases (s.bay b).mount d
      · rw [hc] at hx
        have := hA.ready (by rw [hs]; rfl) hl
        rw [List.any_eq_false] at this
        exact absurd (by simpa [Bay.enter, eligible] using hx) (this d hd')
      · rw [h2] at hc; cases hc
  · rw [hh, modBay_bay_other, hrb]
    refine (h.agrees _).within (.refl _) fun e he => ?_
    obtain ⟨d, hd', rfl⟩ := List.mem_map.1 he
    obtain ⟨hc, -⟩ | ⟨-, hc⟩ := forceEntry_cases (s.bay b).mount d
    · rw [hc]; exact .inl (HoldEntry.drawn_of_mem hd')
    · refine .inr fun hso _ => ?_
      have := hd hso
      rw [hc] at this
      unfold eligible
      simp [Ne.symm this]
  · rw [modBay_bay, modBay_bay_other, hrb, hrb]
    exact fun _ => h.apart b (by rw [hs]; rfl)
  · rw [modBay_bay, modBay_bay_other, hrb, hrb]
    exact h.apart_other b

end MountsAgree

end Sys2Proof.Machine
end

