-- ==== Sys2Proof/Tests/Slice0.lean ====
section
/-! SUPPORT. Tests: which terms are well-formed, the frames of the spec's own bytes, single steps with
the results that the spec's tables and worked examples state, and for each statement with hypotheses a
state that meets them. -/

namespace Sys2Proof.Tests

open Sys2Proof Sys2Proof.Machine

/-! ### Small states -/

def stamp1 : Stamp := ⟨0x00C3A517, 2, 6⟩

/-- Window 0 of the worked example in section 2.7. -/
def win0 : WindowRec := ⟨256, 511, .A, .data, 0, .posted, .fill, .hold⟩

def windowsOf (w : WindowRec) : Vector Window 8 :=
  (Vector.replicate 8 ⟨false, zeroWindowRec⟩).set 0 ⟨true, w⟩

/-- A serving bay with carrier 7 of 300 pages, as in section 2.7. -/
def served (st : BayState) : Bay :=
  { Bay.reset .none with
    state := st
    mount := ⟨.none, .v18, some 7, some 300, some stamp1, false, .clean⟩
    drainTimer := if st = .draining then some 50 else none }

/-- A descriptor read with this many attempts left. -/
def asks (left : Nat) : Transfer := ⟨.descriptor, 0, .both, false, 0, left, .requested 64⟩

/-- A bay in which the identification sequence runs. -/
def mounting (halves : List Half) (w : Option Binding) : Bay :=
  { Bay.reset .none with
    state := .identifying, identTimer := some 100, ident := some ⟨halves, w⟩
    mount := ⟨.none, .v18, some 7, some 300, none, false, .none⟩
    link := .held .ident (asks 3) }

/-- A bay without a carrier, whose last carrier was carrier 7. -/
def absent (r : Option RecordStamp) : Bay :=
  { Bay.reset .none with last := r.map fun t => ⟨7, 300, t⟩ }

/-- Window 0 enabled with the record `w`, bay A as `x`. -/
def via (w : WindowRec) (x : Bay) : State := { State.reset with windows := windowsOf w, bayA := x }

def sample (x : Bay) : State := via win0 x

def writeNo (k : Nat) : Write :=
  ⟨BitVec.ofNat 32 (k + 1), 7, stamp1, k, .both, 0x1234, 0, false, false⟩

def entryNo (k : Nat) : QEntry := ⟨k, writeNo k, false⟩

def heldNo (stale : Bool) (k : Nat) : HoldEntry := ⟨k, writeNo k, stale⟩

def entries (n : Nat) : List QEntry := (List.range n).map entryNo

def heldEntries (n : Nat) : List HoldEntry := (List.range n).map (heldNo false)

/-- A drain transfer of the head entry with this many attempts left. -/
def drain (left : Nat) : Transfer := ⟨.data, 0, .both, true, 0x1234, left, .requested 64⟩

def drains (left : Nat) : Link := .held .drain (drain left)

def reads (left : Nat) : Transfer := ⟨.data, 0, .both, false, 0, left, .requested 64⟩

/-- A host cycle at a host byte address, on both lanes. -/
def cycleAt (wr : Bool) (addr : Nat) : HostCycle :=
  ⟨!wr, wr, true, true, BitVec.ofNat 23 (addr / 2), 0x1234, false, 0⟩

/-- A waiting access through window 0. -/
def waiting (wr : Bool) : Access :=
  ⟨BitVec.ofNat 23 0x80000, .both, wr, 0x1234, 0, win0, 0, some 200⟩

def listening (s : State) : State := { s with frame := .receiving .zero }

/-- The sixteen descriptor halfwords of carrier 7 with 300 pages and this slot. -/
def descOf (slot : List Half) : List Half := [0x5A3C, 1, 7, 0, 0, 0, 300, 0] ++ slot

/-- The slot of the worked example in section 10.2. -/
def slot1 : List Half := [0xA517, 0x00C3, 0x0002, 0x0000, 0x0006, 0x0000, 0x5AE0, 0xFF3C]

/-- What `f` shows of the state after one command. -/
def after {α : Type} (c : Instr) (s : State) (f : State → α) : Option α :=
  match exec c s with
  | .next t => some (f t)
  | .fault _ => none
  | .refused _ => none

/-! ### Well-formed terms -/

theorem test_bad_command_names_no_command : (Instr.badCommand 0x40).wellFormed = false := by decide
theorem test_unknown_code_is_well_formed : (Instr.badCommand 0xFF).wellFormed = true := by decide
theorem test_event_enable_is_a_row_of_its_own : (Instr.writeItem 0x0C 0).wellFormed = false := by decide

/-! ### Frames, by the bytes of sections 9.7 and 10.3 -/

theorem test_frame_write_item_stall :
    decodeFrame ⟨false, false, false⟩ false [0x03, 0x06, 0x00, 0x00, 0x01, 0xF4] =
      some (.writeItem 0x06 500) := by decide
theorem test_frame_event_enable :
    decodeFrame ⟨false, false, false⟩ false [0x03, 0x0C, 0x00, 0x50, 0x00, 0xC8] =
      some (.writeEventEnable (1 <<< 3 ||| 1 <<< 6 ||| 1 <<< 7 ||| 1 <<< 20 ||| 1 <<< 22)) := by decide
theorem test_frame_cut_short :
    decodeFrame ⟨false, false, false⟩ false [0x02] = none := by decide
theorem test_frame_unknown_code :
    decodeFrame ⟨false, false, false⟩ false [0x00, 0x41, 0x41] = some (.badCommand 0x00) := by decide
theorem test_frame_discard_held :
    decodeFrame ⟨false, false, false⟩ false [0x30, 0x01, 0x02, 0x03, 0x04, 0x05, 0x06, 0x07, 0x08, 0x01] =
      some (.discardHeld 0x0102030405060708 1) := by decide
theorem test_frame_force_replay_b :
    decodeFrame ⟨false, false, false⟩ true [0x25, 0x01] = some (.forceReplay 1 true) := by decide

/-! ### Single steps, by the spec's tables and worked examples -/

/-- The first two rows of step 6 in section 2.7. -/
theorem test_translation :
    carrierAddr win0 (BitVec.ofNat 23 (0x1A2B4C / 2)) = 0x515A6 ∧
      carrierAddr ⟨512, 767, .A, .data, 256, .through, .fill, .hold⟩ (BitVec.ofNat 23 (0x2003FE / 2)) =
        0x801FF := by decide

/-- The check word of section 10.2. -/
theorem test_slot_stamp : slotStamp (descOf slot1) = some stamp1 := by decide

/-- A write of 1A2B4CH in READY: number 1, carrier halfword 515A6H, the host released at once. -/
theorem test_write_accepted :
    after (.classification (cycleAt true 0x1A2B4C)) (sample (served .ready))
      (fun t => (t.accepted, t.bayA.queue.map fun e => (e.write.num, e.write.addr), hwait t, herr t)) =
    some (1, [(1, 0x515A6)], false, false) := by decide

/-- Page 300 of 300 is refused with RANGE (22C000H in section 2.7). -/
theorem test_write_out_of_range :
    after (.classification (cycleAt true 0x22C000))
      { sample (served .ready) with
        windows := windowsOf ⟨512, 767, .A, .data, 256, .through, .fill, .hold⟩ }
      (fun t => (t.hostError.map (·.cause), t.accepted, herr t)) =
    some (some .range, 0, true) := by decide

/-- A read of an empty bay under FILL gives FFFFH. -/
theorem test_absent_read_fills :
    after (.classification (cycleAt false 0x100000)) (sample (.reset .none)) hostData =
      some (some ⟨0xFF, 0xFF⟩) := by decide

/-- Address 050000H is in no window: a main access, which waits for MRDY. -/
theorem test_main_access :
    after (.classification (cycleAt false 0x050000)) (sample (.reset .none))
      (fun t => ((mainPort t).isSome, hwait t)) = some (true, true) := by decide

theorem test_commit :
    after (.commit .A false) 
      (sample { served .ready with queue := entries 2, link := drains 3, lossCount := 2 })
      (fun t => (t.committed, t.lost, t.bayA.queue.map (·.write.num), t.bayA.lossCount)) =
    some (1, 0, [2], 0) := by decide

/-- The head entry's last attempt fails: lost with WRITE_FAULT, and logged with its number. -/
theorem test_write_fault :
    after (.responseTimeout .A false) (sample { served .ready with queue := entries 1, link := drains 0 })
      (fun t => (t.lost, t.lossLog.map (·.write.num), t.bayA.queue.length, t.bayA.lossCount)) =
    some (1, [1], 0, 1) := by decide

/-- At FAULT_THRESHOLD, 4 after POR, the bay is FAULTED and its queue is held. -/
theorem test_fault_threshold :
    after (.failedAttempt .A false)
      (sample { served .ready with queue := entries 3, link := drains 0, lossCount := 3 })
      (fun t => (t.bayA.state, t.bayA.mount.cause, t.hold.map (·.write.num), t.bayA.mount.supply)) =
    some (.faulted, .writeFaults, [2, 3], .none) := by decide

/-- A pull mid-drain: the head entry in flight is held as uncertain. -/
theorem test_removal_evacuates :
    after (.removal .A .det1 false) (sample { served .ready with queue := entries 2, link := drains 3 })
      (fun t => (t.bayA.state, t.hold.map fun e => (e.write.num, e.write.uncertain),
        t.latches)) =
    some (BayState.empty, [(1#32, true), (2#32, false)], 1#23 <<< 7) := by decide

/-- A hold store with one place takes the oldest; the other is lost with HOLD_FULL. -/
theorem test_hold_full :
    after (.powerLoss .A false)
      { sample { served .ready with queue := entries 2 } with
        hold := (List.range 47).map fun k => heldNo false (k + 100) }
      (fun t => (t.hold.length, t.lossLog.map fun r => (r.cause, r.write.num))) =
    some (48, [(.holdFull, 2)]) := by decide

/-- Both keys made, supply mask BOTH: 1.8 V (section 5.10, step 1). -/
theorem test_key_read :
    after (.debounceExpiry .A ⟨true, true, false⟩)
      (sample { Bay.reset .none with state := .debounce, debounceTimer := some 20 })
      (fun t => (t.bayA.state, t.bayA.mount.supply, t.latches)) =
    some (.powering, .v18, 1#23) := by decide

/-- The binding begins with the low halfword of the device number, and takes a sequence value. -/
theorem test_binding_begins :
    after (.descriptorReadAnswer .A 0xFF3C false false)
      { sample (mounting ((descOf slot1).take 15) none) with deviceNumber := 0x00C3A517, mountSeq := 7 }
      (fun t => (t.mountSeq,
        match t.bayA.link with | .held .ident x => some (x.addr, x.write, x.data) | _ => none)) =
    some (8, some (8, true, 0xA517)) := by decide

/-- A signature read with its bytes exchanged fails the check (section 10.2, note 1). -/
theorem test_signature_exchanged :
    after (.descriptorReadAnswer .A 0xFF3C false false)
      (sample (mounting ([0x3C5A, 1, 7, 0, 0, 0, 300, 0] ++ slot1.take 7) none))
      (fun t => (t.bayA.state, t.bayA.mount.cause)) =
    some (.rejected, .unrecognized) := by decide

/-- The binding completes: the entry under the slot stamp takes the new stamp and replays (section
5.10, step 5). -/
theorem test_binding_completes :
    after (.bindingWriteAnswer .A false)
      { sample (mounting (descOf slot1) (some ⟨⟨0x00C3A517, 2, 7⟩, 7, .resume⟩)) with
        hold := [heldNo false 0] }
      (fun t => (t.bayA.state, t.bayA.mount.verdict,
        t.bayA.queue.map fun e => (e.write.num, e.write.stamp.sequence), t.hold.length)) =
    some (.ready, .resume, [(1, 7)], 0) := by decide

theorem test_eject_empty_queue :
    after (.eject 0) (listening (sample (served .ready)))
      (fun t => (t.bayA.state, t.bayA.lamp, t.latches, t.frame)) =
    some (.released, true, 1#23 <<< 8, .ran ⟨2, 0⟩ 1 .ok []) := by decide

theorem test_force_replay :
    after (.forceReplay 0 false) { listening (sample (served .ready)) with hold := [heldNo true 0] }
      (fun t => (t.bayA.state, t.bayA.queue.map (·.write.forced), t.hold.length)) =
    some (.ready, [true], 0) := by decide

theorem test_discard_stale_only :
    after (.discardHeld 0 0)
      { listening (sample (.reset .none)) with hold := [heldNo true 0, heldNo false 1] }
      (fun t => (t.hold.map (·.write.num), t.lost, t.frame)) =
    some ([2], 1, .ran ⟨10, 0⟩ 9 .ok [1]) := by decide

/-- Step 4 of section 2.7: pages 496 to 527 overlap window 0. -/
theorem test_overlap :
    after (.commitWindow 2)
      { listening (sample (.reset .none)) with staging := { win0 with base := 496, limit := 527 } }
      (fun t => t.frame) = some (.ran ⟨2, 0⟩ 1 .overlap []) := by decide

/-- Step 2 of section 2.7: STAGE_START_PAGE refuses 20000. -/
theorem test_stray_staging_write :
    after (.writeItem 0x14 20000) (listening (sample (.reset .none)))
      (fun t => (t.frame, t.staging.start)) = some (.ran ⟨6, 0⟩ 5 .badArg [], 0) := by decide

/-- Frame 2 of section 9.7: a frame cut short sets the frame-error flag. -/
theorem test_frame_discarded :
    after (.frameDiscard (bitsOfByte 0x02)) (listening (sample (.reset .none)))
      (fun t => (t.frame, t.frameError)) =
      some (.idle, true) := by decide

/-- While HRST# is asserted an access is not taken; after its negation it is (R53). -/
theorem test_hrst_level :
    after (.classification (cycleAt true 0x1A2B4C)) { sample (served .ready) with hrst := true }
        (·.host) = some .idle ∧
      (match exec (.hrst false false) { sample (served .ready) with hrst := true } with
        | .next t => after (.classification (cycleAt true 0x1A2B4C)) t (·.accepted)
        | _ => none) = some 1 := by decide

/-- The head entry's transfer is in flight from its grant on, so that a removal flags it (R64, R74):
an entry after a lost one, and a failed attempt, in the request-high time; but no remaining entry is
flagged by an evacuation that meets the ACK of a commit (R75), and one that comes after that time
flags it. -/
theorem test_removal_flags_the_head :
    let flags (passed : Bool) (c : Instr) (left : Nat) : Option (List Bool) :=
      match exec c (sample { served .ready with queue := entries 2, link := drains left }) with
      | .next t => after (.removal .A .det1 passed) t (fun u => u.hold.map (·.write.uncertain))
      | _ => none
    flags false (.failedAttempt .A false) 0 = some [true] ∧
      flags false (.failedAttempt .A false) 1 = some [true, false] ∧
      flags false (.commit .A false) 3 = some [false] ∧
      flags true (.commit .A false) 3 = some [true] := by decide

/-- A commit in REPLAY with one eligible entry left: it moves into the place that frees, and replay ends
(section 7.8, step 7). -/
theorem test_commit_ends_replay :
    after (.commit .A false)
      { sample { served .replay with queue := entries 16, link := drains 3 } with
        hold := [heldNo false 20] }
      (fun t => (t.bayA.state, t.bayA.queue.length, t.hold.length, t.latches)) =
    some (.ready, 16, 0, 1#23 <<< 2) := by decide

/-- xLD15..xLD0: driven for a write in flight, not for a read, not after the ACK to a last entry,
and low with the supply off (R166, R167). -/
theorem test_link_data :
    let writing := sample { served .ready with queue := entries 1, link := drains 3 }
    linkData writing .A = some 0x1234 ∧
      linkData (sample { served .ready with link := .held .read (reads 3) }) .A = none ∧
      after (.commit .A false) writing (fun t => (t.bayA.link == .free, linkData t .A)) =
        some (true, none) ∧
      after (.powerLoss .A false) writing (linkData · .A) = some (some 0) := by decide

/-- FLT with attempts left: xREQ is negated, the lines stay, and xREQ is asserted again after the
request-high time, with one attempt fewer (R64, R166). -/
theorem test_request_high_time :
    after (.failedAttempt .A false) (sample { served .ready with queue := entries 1, link := drains 3 })
        (fun t => (linkRequest t .A, (linkLines t .A).map (·.la), linkRequest (elapse t) .A,
          (elapse t).bayA.link == drains 2)) =
      some (false, some 0, true, true) := by decide

/-- The bits of byte 25H, most significant first, and the bits on SDO of the status byte 07H
(EMPTY), the second byte after a command without arguments (R152, R153, section 10.4). -/
theorem test_bits_of_bytes :
    bitsOfByte 0x25 = [false, false, true, false, false, true, false, true] ∧
      bytesOfBits (bitsOfByte 0x25 ++ [true, true]) = [0x25] ∧
      after .popLoss (listening (sample (.reset .none))) (fun t => (List.range 16).map (sdo t)) =
        some ((List.replicate 8 false ++ [false, false, false, false, false, true, true, true]).map
          some) := by decide

/-- ATTN# with REMOVED (A) enabled and set (section 8.7, step 3). -/
theorem test_attention :
    attention { State.reset with latches := 1#23 <<< 7, enables := BitVec.ofNat 23 0x5000C8 } = true ∧
      attention { State.reset with latches := 1#23, enables := BitVec.ofNat 23 0x5000C8 } = false := by
  decide

/-! ### States that meet the hypotheses of the statements -/

/-- Bay A serves and drains one entry; the commit is the next command. -/
def busy : State :=
  { sample { served .ready with queue := entries 1, link := drains 3 } with
    accSource := 1, accepted := 1, nextOrd := 1, pending := [.commit .A false] }

theorem noGrant (b : BayId) (s : State) (h : (s.bay b).link ≠ .free ∨ requester b s = none) :
    NoGrantDue b s := fun e => h.elim (fun n => absurd e n) id

theorem settled_of {s : State} (hr : s.rst = false ∧ s.hrst = false)
    (hh : ∀ a w, s.host = .diverted a w → a.stall.isSome ∧ w.agrees a (s.bay a.copy.bay))
    (hb : ∀ b, (s.bay b).link.heldByRead = false ∧ ((s.bay b).link ≠ .free ∨ requester b s = none) ∧
      ((s.bay b).state = .replay →
        queueCapacity ≤ (s.bay b).queue.length ∧ s.hold.any (eligible (s.bay b).mount)) ∧
      ((s.bay b).state = .draining → (s.bay b).queue ≠ [])) : Settled s :=
  ⟨fun h => by simp [hr] at h, hh, fun b h => by simp [(hb b).1] at h, fun b => noGrant b s (hb b).2.1,
    fun b => (hb b).2.2.1, fun b => (hb b).2.2.2⟩

theorem nothingStalled_of_idle {b : BayId} {s : State} (h : s.host = .idle) : NothingStalled b s := by
  intro a w e; rw [h] at e; cases e

theorem listening_of (s : State) (h : s.rst = false) : Listening (listening s) := ⟨h, _, rfl⟩

/-- An access at 100000H through window 0, whatever its other fields and its bay. -/
theorem diverts_of {wr : Bool} {w : WindowRec} {x : Bay} (hb : w.base = 256) (hl : w.limit = 511) :
    Diverts (cycleAt wr 0x100000) .both 0 (via w x) := by
  refine ⟨rfl, rfl, rfl, by cases wr <;> rfl, ?_, ?_⟩
  · have hp : hostPage (cycleAt wr 0x100000).addr = 256 := by cases wr <;> decide
    rw [hp]
    show Window.claims ⟨true, w⟩ 256 = true
    simp [Window.claims, hb, hl]
  · intro i hi
    have : (via w x).windows[i] = ⟨false, zeroWindowRec⟩ := by
      show (windowsOf w)[i] = _
      have : (0 : Nat) ≠ i.val := fun e => hi (Fin.ext e.symm)
      simp [windowsOf, this]
    rw [this]; rfl

theorem witness_StepRunsTheFrontCommand :
    busy.pending = .commit .A false :: [] ∧ State.reset.pending = [] ∧ busy.rst = false ∧
      (Instr.commit .A true).passed = true ∧ ∃ t, exec (.commit .A false) busy = .next t :=
  ⟨rfl, rfl, rfl, rfl, _, rfl⟩

theorem witness_EveryCommandAnswers :
    (∃ t, exec .readCounts { busy with rst := true } = .next t) ∧ Instr.readCounts ≠ .por ∧
      ∀ a b d e, Instr.readCounts ≠ .resetEnd a b d e :=
  ⟨⟨_, rfl⟩, by decide, fun _ _ _ _ h => (by cases h)⟩

theorem witness_ResetClearsThePart :
    { State.reset with rst := true }.rst = true ∧ State.reset.bayA.state = .empty ∧
      State.reset.bayB.state = .empty := ⟨rfl, rfl, rfl⟩

/-- The laws hold in a state that has work to do, and its step answers. -/
theorem witness_laws_of_every_step :
    Accounted busy ∧ WithinCapacity busy ∧ InOrder busy ∧ WindowsLawful busy.windows ∧
      ItemsLawful busy.items ∧ BaysLawful busy ∧ CarriersDistinct busy ∧ Settled busy ∧
      MountsAgree busy ∧ ∃ t, step busy = .next t := by
  refine ⟨by unfold Accounted; decide, ⟨by intro b; cases b <;> decide, by decide, by decide⟩,
    ⟨by decide, by decide, by decide⟩, ⟨by decide, by decide⟩,
    ⟨by decide, by decide, by decide, by decide, by decide, by decide⟩, ?_,
    fun _ h => absurd h (by decide),
    settled_of (by decide) (fun _ _ h => by cases h) (by intro b; cases b <;> decide), ?_, _, rfl⟩
  · intro b
    cases b <;>
      exact ⟨by decide, by decide, by decide, by decide, by decide, by decide, by decide, by decide,
        by decide, by decide, by decide, by decide, by decide, fun i h => (by cases h), by decide⟩
  · refine ⟨?_, ?_, ?_, ?_, ?_, ?_, ?_, ?_⟩ <;> intro b <;> cases b
    · decide
    · decide
    · exact fun _ h => absurd h (by decide)
    · exact fun _ h => absurd h (by decide)
    · exact fun _ _ r h => by cases h
    · exact fun _ _ r h => by cases h
    all_goals decide

theorem witness_PopLossTakesTheOldest :
    Listening (listening busy) ∧
      { listening busy with lossLog := [⟨.writeFault, writeNo 0, false⟩] }.lossLog =
        [⟨.writeFault, writeNo 0, false⟩] ∧
      { listening busy with summary := some ⟨1, 9, 9⟩ }.summary = some ⟨1, 9, 9⟩ ∧
      (listening busy).lossLog = [] ∧ (listening busy).summary = none :=
  ⟨⟨rfl, _, rfl⟩, rfl, rfl, rfl, rfl⟩

theorem witness_ReadCounts_ZeroCounts :
    Listening (listening busy) ∧ Accounted (listening busy) ∧ WithinCapacity (listening busy) :=
  ⟨⟨rfl, _, rfl⟩, by unfold Accounted; decide, by intro b; cases b <;> decide, by decide, by decide⟩

/-- Window 7; a limit below the base, a range that shares one page with window 0, and one that ends
just before it. -/
theorem witness_CommitWindowReplacesOne :
    Listening (listening busy) ∧ (7 : Byte).toNat = (7 : Fin 8).val ∧
      validShape { win0 with limit := 255 } = false ∧ validShape { win0 with base := 511 } = true ∧
      (0 : Fin 8) ≠ 7 ∧ busy.windows[(0 : Fin 8)].enabled ∧
      rangesMeet { win0 with base := 511 } busy.windows[(0 : Fin 8)].record ∧
      (∀ j : Fin 8, j ≠ 7 → busy.windows[j].enabled →
        rangesMeet { win0 with base := 0, limit := 255 } busy.windows[j].record = false) :=
  ⟨⟨rfl, _, rfl⟩, by decide, by decide, by decide, by decide, by decide, by decide, by decide⟩

theorem witness_DisableAndReadWindow :
    Listening (listening busy) ∧ (0 : Byte).toNat = (0 : Fin 8).val ∧
      (7 : Byte).toNat = (7 : Fin 8).val := ⟨⟨rfl, _, rfl⟩, by decide, by decide⟩

/-- The first and the last halfword of window 0. -/
theorem witness_TranslationKeepsTheOffset :
    Window.claims ⟨true, win0⟩ (hostPage (BitVec.ofNat 23 (0x100000 / 2))) = true ∧
      Window.claims ⟨true, win0⟩ (hostPage (BitVec.ofNat 23 (0x1FFFFE / 2))) = true := by decide

theorem witness_MainAccessIsMirrored :
    { cycleAt true 0 with rd := true }.rd = { cycleAt true 0 with rd := true }.wr ∧
      { cycleAt true 0 with lb := false, ub := false }.lb = false ∧
      busy.rst = false ∧ busy.hrst = false ∧ busy.host = .idle ∧
      accessLanes (cycleAt false 0x0FFFFE) = some .both ∧
      (∀ i : Fin 8, busy.windows[i].claims (hostPage (cycleAt false 0x0FFFFE).addr) = false) ∧
      { busy with host := .mainWait ⟨0, .both, true, 0⟩ }.host = .mainWait ⟨0, .both, true, 0⟩ ∧
      (∃ d hd, { busy with host := .mainDone ⟨0, .both, true, 0⟩ none }.host = .mainDone d hd) ∧
      ∃ e hd, { busy with host := .released false none }.host = .released e hd :=
  ⟨rfl, rfl, rfl, rfl, rfl, rfl, by decide, rfl, ⟨_, _, rfl⟩, _, _, rfl⟩

/-- The last page of the carrier, the last place of the queue. -/
theorem witness_WriteAcceptedInReady :
    let s := { sample { served .ready with queue := entries 15 } with
      windows := windowsOf { win0 with start := 299, mode := .through } }
    let w := s.windows[(0 : Fin 8)].record
    let x := s.bay w.bay
    Diverts (cycleAt true 0x100000) .both 0 s ∧ (cycleAt true 0x100000).wr = true ∧ x.state = .ready ∧
      x.mount.serial = some 7 ∧ x.mount.stamp = some stamp1 ∧ x.mount.capacity = some 300 ∧
      x.mount.locked = false ∧
      inRange w.region (carrierAddr w (cycleAt true 0x100000).addr) 300 = true ∧
      w.mode ≠ .readOnly ∧ x.queue.length < 16 :=
  ⟨⟨rfl, rfl, rfl, rfl, by decide, by decide⟩, rfl, rfl, rfl, rfl, rfl, rfl, by decide, by decide,
    by decide⟩

theorem witness_WaitingWriteIsAccepted :
    let s := { sample { served .ready with queue := entries 15 } with
      host := .diverted (waiting true) .space }
    let x := s.bay (waiting true).copy.bay
    s.rst = false ∧ s.host = .diverted (waiting true) .space ∧ x.state = .ready ∧
      x.mount.serial = some 7 ∧ x.mount.stamp = some stamp1 ∧ x.queue.length < 16 :=
  ⟨rfl, rfl, rfl, rfl, rfl, by decide⟩

/-- Page 300 of 300, page 299 through a READ_ONLY window, a locked carrier, a full queue, a bay in
DRAINING and one in REPLAY. -/
theorem witness_WriteRefusedOrStalled :
    let addr (w : WindowRec) := carrierAddr w (cycleAt true 0x100000).addr
    (let w := { win0 with start := 300 };
      let s := via w (served .ready);
      Diverts (cycleAt true 0x100000) .both 0 s ∧ NoGrantDue .A s ∧ (s.bay .A).mount.capacity = some 300 ∧
        (s.bay .A).state = .ready ∧ inRange w.region (addr w) 300 = false) ∧
      (let w := { win0 with start := 299, mode := .readOnly };
        let s := via w (served .ready);
        Diverts (cycleAt true 0x100000) .both 0 s ∧ NoGrantDue .A s ∧
          inRange w.region (addr w) 300 = true ∧ w.mode = .readOnly) ∧
      (let s := sample { served .ready with
          mount := { (served .ready).mount with locked := true, verdict := .locked } };
        Diverts (cycleAt true 0x100000) .both 0 s ∧ NoGrantDue .A s ∧
          inRange .data (addr win0) 300 = true ∧ win0.mode ≠ .readOnly ∧
          (s.bay .A).mount.locked = true) ∧
      (let s := sample { served .ready with queue := entries 16, link := drains 3 };
        Diverts (cycleAt true 0x100000) .both 0 s ∧ NoGrantDue .A s ∧
          (s.bay .A).mount.locked = false ∧ 16 ≤ (s.bay .A).queue.length) ∧
      (let s := sample { served .draining with queue := entries 1, link := drains 3 };
        Diverts (cycleAt true 0x100000) .both 0 s ∧ NoGrantDue .A s ∧ (s.bay .A).state = .draining) ∧
      (let s := sample { served .replay with queue := entries 16, link := drains 3 };
        Diverts (cycleAt true 0x100000) .both 0 s ∧ NoGrantDue .A s ∧ (s.bay .A).state = .replay) :=
  ⟨⟨diverts_of rfl rfl, noGrant _ _ (.inr (by decide)), rfl, rfl, by decide⟩,
    ⟨diverts_of rfl rfl, noGrant _ _ (.inr (by decide)), by decide, rfl⟩,
    ⟨diverts_of rfl rfl, noGrant _ _ (.inr (by decide)), by decide, by decide, rfl⟩,
    ⟨diverts_of rfl rfl, noGrant _ _ (.inl (by decide)), rfl, by decide⟩,
    ⟨diverts_of rfl rfl, noGrant _ _ (.inl (by decide)), rfl⟩,
    ⟨diverts_of rfl rfl, noGrant _ _ (.inl (by decide)), rfl⟩⟩

/-- Each policy and each check, the hold store with 48 entries and with 47. -/
theorem witness_AbsentWriteIsHeldOrRefused :
    let addr (w : WindowRec) := carrierAddr w (cycleAt true 0x100000).addr
    let bound := absent (some (.bound stamp1))
    (∀ w x, w.base = 256 → w.limit = 511 → Diverts (cycleAt true 0x100000) .both 0 (via w x)) ∧
      (∀ w r, NoGrantDue .A (via w (absent r)) ∧ ((via w (absent r)).bay .A).state.serving = false) ∧
      { win0 with absentWrites := .refuse }.absentWrites = .refuse ∧ win0.absentWrites = .hold ∧
      (absent none).last = none ∧
      (absent (some (.locked none))).last = some ⟨7, 300, .locked none⟩ ∧
      bound.last = some ⟨7, 300, .bound stamp1⟩ ∧
      { win0 with mode := .readOnly }.mode = .readOnly ∧
      (let w := { win0 with start := 300 };
        w.absentWrites = .hold ∧ w.mode ≠ .readOnly ∧ inRange w.region (addr w) 300 = false) ∧
      (let w := { win0 with start := 299 };
        w.absentWrites = .hold ∧ w.mode ≠ .readOnly ∧ inRange w.region (addr w) 300 = true) ∧
      48 ≤ { via win0 bound with hold := heldEntries 48 }.hold.length ∧
      { via win0 bound with hold := heldEntries 47 }.hold.length < 48 :=
  ⟨fun _ _ hb hl => diverts_of hb hl, fun _ _ => ⟨noGrant _ _ (.inr rfl), rfl⟩, rfl, rfl, rfl, rfl, rfl,
    rfl, ⟨rfl, by decide, by decide⟩, ⟨rfl, by decide, by decide⟩, by decide, by decide⟩

theorem witness_AbsentReadFillsOrRefuses :
    (let s := sample (absent none);
      Diverts (cycleAt false 0x100000) .both 0 s ∧ NoGrantDue .A s ∧ (cycleAt false 0x100000).wr = false ∧
        (s.bay .A).state.serving = false ∧ win0.absentReads = .fill) ∧
      (let w := { win0 with absentReads := .refuse };
        Diverts (cycleAt false 0x100000) .both 0 (via w (absent none)) ∧
          NoGrantDue .A (via w (absent none)) ∧ w.absentReads = .refuse) :=
  ⟨⟨diverts_of rfl rfl, noGrant _ _ (.inr rfl), rfl, rfl, rfl⟩, diverts_of rfl rfl,
    noGrant _ _ (.inr rfl), rfl⟩

/-- Out of range; the address of a queued write (entry 0); a busy link; a free link. -/
theorem witness_ReadServedFromTheCarrier :
    let addr (w : WindowRec) := carrierAddr w (cycleAt false 0x100000).addr
    (cycleAt false 0x100000).wr = false ∧ (served .ready).mount.capacity = some 300 ∧
      (let w := { win0 with start := 300 };
        let s := via w (served .ready);
        Diverts (cycleAt false 0x100000) .both 0 s ∧ NoGrantDue .A s ∧ (s.bay .A).state = .ready ∧
          inRange w.region (addr w) 300 = false) ∧
      (let s := sample { served .draining with queue := entries 1, link := drains 3 };
        Diverts (cycleAt false 0x100000) .both 0 s ∧ NoGrantDue .A s ∧ (s.bay .A).state = .draining ∧
          inRange .data (addr win0) 300 = true ∧ win0.region = .data ∧
          ∃ e ∈ (s.bay .A).queue, e.write.addr = addr win0) ∧
      (let s := sample { served .ready with link := .abandoned (reads 0) };
        Diverts (cycleAt false 0x100000) .both 0 s ∧ NoGrantDue .A s ∧
          (¬∃ e ∈ (s.bay .A).queue, e.write.addr = addr win0) ∧ (s.bay .A).link ≠ .free) ∧
      (let s := sample (served .ready);
        Diverts (cycleAt false 0x100000) .both 0 s ∧ NoGrantDue .A s ∧
          (¬∃ e ∈ (s.bay .A).queue, e.write.addr = addr win0) ∧ (s.bay .A).link = .free) :=
  ⟨rfl, rfl, ⟨diverts_of rfl rfl, noGrant _ _ (.inr (by decide)), rfl, by decide⟩,
    ⟨diverts_of rfl rfl, noGrant _ _ (.inl (by decide)), rfl, by decide, rfl, by decide⟩,
    ⟨diverts_of rfl rfl, noGrant _ _ (.inl (by decide)), by decide, by decide⟩,
    diverts_of rfl rfl, noGrant _ _ (.inr (by decide)), by decide, rfl⟩

/-- A host access in each of its waits, a released one, and a read that holds its bay's link in each
phase of its transfer, with HRST# negated and asserted. -/
theorem witness_AccessIsAbandoned_and_StallLimit :
    busy.rst = false ∧ busy.host = .idle ∧ { busy with hrst := true }.hrst = true ∧
      (∃ d hd, { busy with host := .mainDone ⟨0, .both, true, 0⟩ none }.host = .mainDone d hd) ∧
      (∃ e hd, { busy with host := .released true none }.host = .released e hd) ∧
      { busy with host := .mainWait ⟨0, .both, true, 0⟩ }.host = .mainWait ⟨0, .both, true, 0⟩ ∧
      (waiting true).stall.isSome = true ∧
      (∀ w, { busy with host := .diverted (waiting true) w }.host = .diverted (waiting true) w) ∧
      (∀ p : Phase, let tr := { reads 3 with phase := p };
        let s := { sample { served .ready with link := .held .read tr } with
          host := .diverted (waiting false) .onLink };
        s.rst = false ∧ s.host = .diverted (waiting false) .onLink ∧
          (s.bay (waiting false).copy.bay).link = .held .read tr ∧
          (s.bay (waiting false).copy.bay).state.serving = true) :=
  ⟨rfl, rfl, rfl, ⟨_, _, rfl⟩, ⟨_, _, rfl⟩, rfl, rfl, fun _ => rfl, fun _ => ⟨rfl, rfl, rfl, rfl⟩⟩

/-- An access that waits for replay or for space, at a bay in each state that it can meet; a write that
meets READY in each case of the checks, and a read that meets READY or DRAINING in each. -/
theorem witness_StalledAccessIsHandledAgain :
    let stalled (w : Wait) (wr : Bool) (x : Bay) : State :=
      { sample x with host := .diverted (waiting wr) w }
    let old (wr : Bool) : Access := { waiting wr with carrier := 0 }
    (∀ w wr x, (stalled w wr x).rst = false ∧ (stalled w wr x).host = .diverted (waiting wr) w) ∧
      (waiting true).write = true ∧ (waiting false).write = false ∧
      (∀ w wr, NoGrantDue .A (stalled w wr
        { served .draining with queue := entries 1, link := drains 3 })) ∧
      (∀ wr, NoGrantDue .A (stalled .space wr
        { served .replay with queue := entries 16, link := drains 3 })) ∧
      (∀ wr, NoGrantDue .A (stalled .replay wr (absent none)) ∧
        ((stalled .replay wr (absent none)).bay .A).state.serving = false) ∧
      (∀ wr, NoGrantDue .A (stalled .replay wr (served .ready))) ∧
      NoGrantDue .A (stalled .replay true { served .ready with queue := entries 16, link := drains 3 }) ∧
      (served .ready).mount.capacity = some 300 ∧ (served .ready).mount.serial = some 7 ∧
      (served .ready).mount.stamp = some stamp1 ∧ (served .ready).mount.locked = false ∧
      { (served .ready).mount with locked := true }.locked = true ∧
      inRange win0.region (waiting true).carrier 300 = true ∧
      inRange win0.region { waiting true with carrier := 300 * 2048 }.carrier 300 = false ∧
      { win0 with mode := .readOnly }.mode = .readOnly ∧ win0.mode ≠ .readOnly ∧
      16 ≤ (entries 16).length ∧ (served .ready).queue.length < 16 ∧
      (win0.region = .data ∧ ∃ e ∈ entries 1, e.write.addr = (old false).carrier) ∧
      ¬(∃ e ∈ (served .ready).queue, e.write.addr = (old false).carrier) ∧
      (served .ready).link = .free ∧ drains 3 ≠ .free := by
  refine ⟨fun _ _ _ => ⟨rfl, rfl⟩, rfl, rfl, fun _ _ => noGrant _ _ (.inl fun h => (by cases h)),
    fun _ => noGrant _ _ (.inl fun h => (by cases h)), 
    fun wr => ⟨noGrant _ _ (.inr (by cases wr <;> decide)), rfl⟩,
    fun wr => noGrant _ _ (.inr (by cases wr <;> decide)), noGrant _ _ (.inl (by decide)), rfl, rfl, rfl,
    rfl, rfl, by decide, by decide, rfl, by decide, by decide, by decide, by decide, by decide, rfl,
    by decide⟩

theorem witness_ReadErrorTakesTheRecord :
    Listening (listening busy) ∧ busy.hostError = none ∧
      { listening busy with hostError := some ⟨0, .both, true, 0, .lost, some 1, false⟩ }.hostError =
        some ⟨0, .both, true, 0, .lost, some 1, false⟩ := ⟨⟨rfl, _, rfl⟩, rfl, rfl⟩

/-- A read at the link; the drain engine while a read waits at the other bay; the sequence's next
read and its next binding write; nobody. A transfer that asserts its request, and a free link with the
supply on and without supply. -/
theorem witness_LinkIsGranted :
    (let s := { sample (served .draining) with host := .diverted (waiting false) .grant };
      s.rst = false ∧ (s.bay .A).link = .free ∧ s.host = .diverted (waiting false) .grant ∧
        (waiting false).copy.bay = .A ∧ (s.bay .A).state = .draining) ∧
      (let a := { waiting false with copy := { win0 with bay := .B } };
        let s := { sample { served .ready with queue := entries 2 } with host := .diverted a .grant };
        (∀ a, s.host = .diverted a .grant → a.copy.bay ≠ .A ∨ (s.bay .A).state = .replay) ∧
          (s.bay .A).state.serving = true ∧ (s.bay .A).queue = entryNo 0 :: [entryNo 1]) ∧
      (let s := sample { mounting [] none with link := .free };
        (s.bay .A).link = .free ∧ (s.bay .A).state = .identifying ∧
          (s.bay .A).ident = some ⟨[], none⟩) ∧
      (mounting (descOf slot1) (some ⟨stamp1, 7, .clean⟩)).ident =
        some ⟨descOf slot1, some ⟨stamp1, 7, .clean⟩⟩ ∧
      requester .A (sample (absent none)) = none ∧
      (drain 3).phase = .requested 64 ∧
      (served .ready).link = .free ∧ (served .ready).mount.supply ≠ .none ∧
      (sample (absent none)).bayA.link = .free ∧ (sample (absent none)).bayA.mount.supply = .none :=
  ⟨⟨rfl, rfl, rfl, rfl, rfl⟩, ⟨fun a h => (by cases h; exact .inl (by decide)), rfl, rfl⟩,
    ⟨rfl, rfl, rfl⟩, rfl, rfl, rfl, rfl, by decide, rfl, rfl⟩

theorem witness_FailedAttemptIsRepeated :
    (sample { served .ready with queue := entries 1, link := drains 1 }).rst = false ∧
      (drain 1).phase = .requested 64 ∧ (drain 1).left = 0 + 1 ∧
      (sample { served .ready with queue := entries 1, link := drains 1 }).bayA.link =
        .held .drain (drain 1) ∧
      (sample { served .ready with link := .held .read (reads 7) }).bayA.link = .held .read (reads 7) ∧
      (sample (mounting [] none)).bayA.link = .held .ident (asks 3) ∧
      linkRequest (sample { served .ready with
        queue := entries 1, link := .held .drain { drain 0 with phase := .presenting } }) .A = false :=
  ⟨rfl, rfl, rfl, rfl, rfl, rfl, rfl⟩

theorem witness_LastAttemptOfARead :
    (let s := { sample { served .draining with link := .held .read (reads 0) } with
        host := .diverted (waiting false) .onLink };
      s.rst = false ∧ (s.bay .A).link = .held .read (reads 0) ∧ (reads 0).phase = .requested 64 ∧
        (reads 0).left = 0 ∧ s.host = .diverted (waiting false) .onLink ∧
        (waiting false).copy.bay = .A ∧ (s.bay .A).state.serving = true) ∧
      (let x := { mounting [] none with link := .held .ident (asks 0) };
        x.link = .held .ident (asks 0) ∧ (asks 0).phase = .requested 64 ∧ (asks 0).left = 0 ∧
          x.ident = some ⟨[], none⟩) ∧
      (mounting (descOf slot1) (some ⟨stamp1, 7, .clean⟩)).ident =
        some ⟨descOf slot1, some ⟨stamp1, 7, .clean⟩⟩ :=
  ⟨⟨rfl, rfl, rfl, rfl, rfl, rfl, rfl⟩, ⟨rfl, rfl, rfl, rfl⟩, rfl⟩

/-- The head entry of two; a write that waits at a full queue; a read that waits on a match with the
second entry and one whose last match is the head; a read at the link. -/
theorem witness_CommitTakesTheHead_and_CommitCountsOnce :
    let x := { served .ready with queue := entries 2, link := drains 3 }
    (let s := sample x;
      s.rst = false ∧ (s.bay .A).state = .ready ∧ (s.bay .A).link = .held .drain (drain 3) ∧
        (drain 3).phase = .requested 64 ∧ (s.bay .A).queue = entryNo 0 :: [entryNo 1] ∧
        NothingStalled .A s) ∧
      ({ x with state := .draining }.state = .draining ∧ [entryNo 1] ≠ []) ∧
      (let s := { sample { x with queue := entries 16 } with host := .diverted (waiting true) .space };
        s.host = .diverted (waiting true) .space ∧ (s.bay .A).queue = entryNo 0 :: (entries 16).tail ∧
          (entries 16).tail.length < 16 ∧ (s.bay .A).mount.serial = some 7 ∧
          (s.bay .A).mount.stamp = some stamp1) ∧
      (∀ w, { sample x with host := .diverted (waiting false) w }.host = .diverted (waiting false) w) ∧
      (waiting false).copy.bay = .A ∧ (waiting false).copy.region = .data ∧
      (∃ f ∈ [entryNo 1], f.write.addr = { waiting false with carrier := 1 }.carrier) ∧
      (∀ f ∈ [entryNo 1], f.write.addr ≠ (waiting false).carrier) ∧
      (served .replay).state.serving = true :=
  ⟨⟨rfl, rfl, rfl, rfl, rfl, nothingStalled_of_idle rfl⟩, ⟨rfl, by decide⟩,
    ⟨rfl, by decide, by decide, rfl, rfl⟩, fun _ => rfl, rfl, rfl, by decide, by decide, rfl⟩

/-- The same in REPLAY with a full queue: nobody waiting, an access that waits for the end of
replay, and one eligible entry for the place that frees. -/
theorem witness_CommitTakesTheHead_in_REPLAY :
    let x := { served .replay with queue := entries 16, link := drains 3 }
    NothingStalled .A (sample x) ∧
      let s := { sample x with
        hold := [heldNo false 20], host := .diverted (waiting true) .replay }
      s.rst = false ∧ (s.bay .A).state = .replay ∧ (s.bay .A).link = .held .drain (drain 3) ∧
        (drain 3).phase = .requested 64 ∧ (s.bay .A).queue = entryNo 0 :: (entries 16).tail ∧
        s.host = .diverted (waiting true) .replay ∧ (waiting true).copy.bay = .A ∧
        (s.bay .A).mount.capacity = some 300 ∧ (s.bay .A).mount.locked = false ∧
        s.hold.filter (eligible (s.bay .A).mount) = [heldNo false 20] ∧
        (entries 16).tail.length = 15 ∧ (s.bay .A).ejectPending = false ∧
        (waiting true).write = true ∧ (waiting true).copy.mode ≠ .readOnly ∧
        inRange (waiting true).copy.region (waiting true).carrier 300 = true :=
  ⟨nothingStalled_of_idle rfl, rfl, rfl, rfl, rfl, rfl, rfl, rfl, rfl, rfl, by decide, rfl, rfl, rfl,
    by decide, by decide⟩

/-- A last entry that commits, and one whose loss stays just below FAULT_THRESHOLD (4). -/
theorem witness_CleanEndOfADrain :
    let s := sample { served .draining with queue := entries 1, link := drains 0, lossCount := 2 }
    s.rst = false ∧ (s.bay .A).state = .draining ∧ (s.bay .A).link = .held .drain (drain 0) ∧
      (drain 0).phase = .requested 64 ∧ (s.bay .A).queue = [entryNo 0] ∧ NothingStalled .A s ∧
      (drain 0).left = 0 ∧ (s.bay .A).lossCount + 1 < s.items.faultThreshold.toNat ∧
      { s with host := .diverted (waiting false) .queueMatch }.host =
        .diverted (waiting false) .queueMatch ∧ (waiting false).copy.bay = .A ∧
      (waiting false).write = false :=
  ⟨rfl, rfl, rfl, rfl, rfl, nothingStalled_of_idle rfl, rfl, by decide, rfl, rfl, rfl⟩

/-- A loss just below FAULT_THRESHOLD (4), with nobody waiting, a write waiting for space and a read
waiting for its match; and one that reaches the threshold with 48 entries to be held. -/
theorem witness_WriteFaultLosesTheHead :
    let x := { served .ready with queue := entries 2, link := drains 0, lossCount := 2 }
    (let s := sample x;
      s.rst = false ∧ (s.bay .A).state = .ready ∧ (s.bay .A).link = .held .drain (drain 0) ∧
        (drain 0).phase = .requested 64 ∧ (drain 0).left = 0 ∧
        (s.bay .A).queue = entryNo 0 :: [entryNo 1] ∧ NothingStalled .A s ∧
        (s.bay .A).lossCount + 1 < s.items.faultThreshold.toNat) ∧
      (let s := { sample { x with queue := entries 16 } with host := .diverted (waiting true) .space };
        s.host = .diverted (waiting true) .space ∧ (waiting true).copy.bay = .A ∧
          (waiting true).write = true ∧ (entries 16).tail.length < 16 ∧
          (s.bay .A).mount.serial = some 7 ∧ (s.bay .A).mount.stamp = some stamp1) ∧
      (∀ w, { sample x with host := .diverted (waiting false) w }.host = .diverted (waiting false) w) ∧
      (waiting false).write = false ∧ (∀ f ∈ [entryNo 1], f.write.addr ≠ (waiting false).carrier) ∧
      (let s := { sample { x with lossCount := 3 } with hold := heldEntries 47 };
        s.items.faultThreshold.toNat ≤ (s.bay .A).lossCount + 1 ∧
          s.hold.length + [entryNo 1].length ≤ 48) :=
  ⟨⟨rfl, rfl, rfl, rfl, rfl, rfl, nothingStalled_of_idle rfl, by decide⟩,
    ⟨rfl, rfl, rfl, by decide, rfl, rfl⟩, fun _ => rfl, rfl, by decide, by decide, by decide⟩

/-- The same in DRAINING with an entry left, and in REPLAY; a read that another entry still matches; and
the threshold in REPLAY, and in DRAINING with the last entry. -/
theorem witness_WriteFaultLosesTheHead_in_every_serving_state :
    let x (st : BayState) (n count : Nat) :=
      { served st with queue := entries n, link := drains 0, lossCount := count }
    let still := { waiting false with carrier := 1 }
    (let s := sample (x .draining 2 2);
      (s.bay .A).state = .draining ∧ (s.bay .A).queue = entryNo 0 :: [entryNo 1] ∧ [entryNo 1] ≠ [] ∧
        (s.bay .A).link = .held .drain (drain 0) ∧ NothingStalled .A s ∧
        { s with host := .diverted still .queueMatch }.host = .diverted still .queueMatch ∧
        still.copy.bay = .A ∧ still.copy.region = .data ∧
        ∃ f ∈ [entryNo 1], f.write.addr = still.carrier) ∧
      (let s := { sample (x .replay 16 2) with hold := [heldNo false 20] };
        (s.bay .A).state = .replay ∧ (s.bay .A).queue = entryNo 0 :: (entries 16).tail ∧
          NothingStalled .A s ∧ (s.bay .A).lossCount + 1 < s.items.faultThreshold.toNat ∧
          { s with host := .diverted (waiting true) .replay }.host = .diverted (waiting true) .replay) ∧
      (let s := sample (x .replay 16 3);
        s.items.faultThreshold.toNat ≤ (s.bay .A).lossCount + 1 ∧ (s.bay .A).state.serving = true ∧
          NothingStalled .A s ∧ s.hold.length + (entries 16).tail.length ≤ 48) ∧
      (let s := sample (x .draining 1 3);
        s.items.faultThreshold.toNat ≤ (s.bay .A).lossCount + 1 ∧ (s.bay .A).state.serving = true ∧
          (s.bay .A).queue = entryNo 0 :: [] ∧ NothingStalled .A s) :=
  ⟨⟨rfl, rfl, by decide, rfl, nothingStalled_of_idle rfl, rfl, rfl, rfl, by decide⟩,
    ⟨rfl, rfl, nothingStalled_of_idle rfl, by decide, rfl⟩,
    ⟨by decide, rfl, nothingStalled_of_idle rfl, by decide⟩,
    ⟨by decide, rfl, rfl, nothingStalled_of_idle rfl⟩⟩

theorem witness_ReadAnswerReleasesTheHost :
    let s := { sample { served .ready with link := .held .read (reads 3) } with
      host := .diverted { waiting false with lanes := .low } .onLink }
    s.rst = false ∧ s.host = .diverted { waiting false with lanes := .low } .onLink ∧
      (s.bay .A).link = .held .read (reads 3) ∧ (reads 3).phase = .requested 64 ∧
      (s.bay .A).state.serving = true ∧ Lanes.low ≠ .high := ⟨rfl, rfl, rfl, rfl, rfl, by decide⟩

theorem witness_AbandonedTransferFreesTheLink :
    (let s := { sample { served .ready with link := .abandoned (reads 0) } with
        host := .diverted (waiting false) .grant };
      s.rst = false ∧ (s.bay .A).link = .abandoned (reads 0) ∧ (reads 0).phase = .requested 64 ∧
        (s.bay .A).state.serving = true ∧
        s.host = .diverted (waiting false) .grant ∧ (waiting false).copy.bay = .A ∧
        (s.bay .A).state = .ready) ∧
      ∀ a, busy.host ≠ .diverted a .grant :=
  ⟨⟨rfl, rfl, rfl, rfl, rfl, rfl, rfl⟩, fun _ h => (by cases h)⟩

theorem witness_DetectAndDebounce :
    (sample (absent none)).rst = false ∧ (absent none).state = .empty ∧
      { absent none with state := .debounce }.state = .debounce := ⟨rfl, rfl, rfl⟩

/-- A debounce that ends, and RETRY_BAY in a rejected bay, with each outcome of the key read. -/
theorem witness_KeyReadChoosesTheSupply :
    (let s := sample { absent none with state := .debounce, debounceTimer := some 20 };
      s.rst = false ∧ (s.bay .A).state = .debounce ∧ (s.bay .A).debounceTimer.isSome = true ∧
        (s.bay .A).link = .free) ∧
      (let s := listening (sample { absent none with state := .rejected });
        bayArg 0 = some .A ∧ Listening s ∧ (s.bay .A).state = .rejected) ∧
      (KeySample.mk true true false).k2 = true ∧ State.reset.items.supplyMaskA = .both ∧
      (KeySample.mk true false true).k2 = false ∧ (KeySample.mk true false true).k1 = true ∧
      (KeySample.mk false false false).k1 = false ∧ (KeySample.mk false false false).k2 = false :=
  ⟨⟨rfl, rfl, rfl, rfl⟩, ⟨by decide, ⟨rfl, _, rfl⟩, rfl⟩, rfl, rfl, rfl, rfl, rfl, rfl⟩

theorem witness_PowerGoodAndMountTimers :
    (let s := sample { absent none with state := .powering, powerTimer := some 50 };
      s.rst = false ∧ (s.bay .A).state = .powering ∧ (s.bay .A).link = .free ∧
        (s.bay .A).powerTimer.isSome = true ∧ (s.bay .A).state ≠ .identifying) ∧
      (mounting [] none).state = .identifying ∧ (mounting [] none).identTimer.isSome = true :=
  ⟨⟨rfl, rfl, rfl, rfl, by decide⟩, rfl, rfl⟩

/-- Fourteen and fifteen halfwords kept, a serial of zero, and the other bay with the same carrier. -/
theorem witness_DescriptorIsReadAndChecked :
    (let s := sample (mounting ((descOf slot1).take 14) none);
      s.rst = false ∧ (s.bay .A).state = .identifying ∧
        (s.bay .A).link = .held .ident (asks 3) ∧ (asks 3).phase = .requested 64 ∧
        (s.bay .A).ident = some ⟨(descOf slot1).take 14, none⟩ ∧
        ((descOf slot1).take 14).length < 15) ∧
      ((descOf slot1).take 15).length = 15 ∧
      descSerial ([0x5A3C, 1, 0, 0, 0, 0, 300, 0] ++ slot1) = 0 ∧
      descSignature (descOf slot1) = 0x5A3C ∧ descVersion (descOf slot1) = 1 ∧
      descSerial (descOf slot1) ≠ 0 ∧ 1 ≤ (descCapacity (descOf slot1)).toNat ∧
      (descCapacity (descOf slot1)).toNat ≤ 16384 ∧
      (let s := { sample (mounting ((descOf slot1).take 15) none) with bayB := served .ready };
        (s.bay (otherBay .A)).identified = true ∧
          (s.bay (otherBay .A)).mount.serial = some (descSerial (descOf slot1))) :=
  ⟨⟨rfl, rfl, rfl, rfl, rfl, by decide⟩, by decide, by decide, by decide, by decide, by decide, by decide,
    by decide, by decide, by decide⟩

theorem witness_LockedCarrier_and_Binding :
    let s := sample (mounting ((descOf slot1).take 15) none)
    s.rst = false ∧ (s.bay .A).state = .identifying ∧
      (s.bay .A).ident = some ⟨(descOf slot1).take 15, none⟩ ∧ (s.bay .A).queue = [] ∧
      NothingStalled .A s ∧ (descOf slot1).take 15 ++ [0xFF3C] = descOf slot1 ∧
      descriptorValid (descOf slot1) = true ∧ (s.bay (otherBay .A)).identified = false :=
  ⟨rfl, rfl, rfl, rfl, nothingStalled_of_idle rfl, by decide, by decide, by decide⟩

theorem witness_BindingIsWritten :
    (mounting (descOf slot1) (some ⟨stamp1, 0, .clean⟩)).ident =
        some ⟨descOf slot1, some ⟨stamp1, 0, .clean⟩⟩ ∧
      (⟨stamp1, 6, .clean⟩ : Binding).answered < 7 := ⟨rfl, by decide⟩

/-- Sixteen and seventeen entries that the slot vouches for; one more that is stale, and one that
becomes stale. -/
theorem witness_BindingCompletes :
    let x := mounting (descOf slot1) (some ⟨⟨0x00C3A517, 2, 7⟩, 7, .resume⟩)
    let s := { sample x with hold := heldEntries 16 ++ [heldNo true 16] }
    let u := { sample x with
      hold := heldEntries 17 ++ [⟨17, { writeNo 17 with stamp := ⟨1, 2, 3⟩ }, false⟩] }
    let vouched (e : HoldEntry) : Bool :=
      e.write.serial == descSerial (descOf slot1) && !e.stale &&
        slotStamp (descOf slot1) == some e.write.stamp
    s.rst = false ∧ (s.bay .A).state = .identifying ∧ (s.bay .A).link = .held .ident (asks 3) ∧
      (asks 3).phase = .requested 64 ∧
      (s.bay .A).ident = some ⟨descOf slot1, some ⟨⟨0x00C3A517, 2, 7⟩, 7, .resume⟩⟩ ∧
      (s.bay .A).queue = [] ∧ (s.bay .A).ejectPending = false ∧
      (s.bay .A).mount.serial = some (descSerial (descOf slot1)) ∧ NothingStalled .A s ∧
      (s.hold.filter vouched).length = 16 ∧ NothingStalled .A u ∧ 16 < (u.hold.filter vouched).length ∧
      u.hold.any fun e => e.write.serial == descSerial (descOf slot1) && !e.stale &&
        slotStamp (descOf slot1) != some e.write.stamp :=
  ⟨rfl, rfl, rfl, rfl, rfl, rfl, rfl, by decide, nothingStalled_of_idle rfl, by decide,
    nothingStalled_of_idle rfl, by decide, by decide⟩

/-- A serving bay and one that drains; a read and a write of the bay in each wait. -/
theorem witness_ServiceEnds :
    (sample (served .ready)).rst = false ∧ (served .ready).state.serving = true ∧
      (served .draining).state = .draining ∧ (served .draining).drainTimer.isSome = true ∧
      NothingStalled .A (sample (served .ready)) ∧
      (∀ wr w, { sample (served .ready) with host := .diverted (waiting wr) w }.host =
        .diverted (waiting wr) w) ∧ (∀ wr, (waiting wr).copy.bay = .A) ∧
      (waiting false).write = false ∧ (waiting true).write = true :=
  ⟨rfl, rfl, rfl, rfl, nothingStalled_of_idle rfl, fun _ _ => rfl, fun _ => rfl, rfl, rfl⟩

/-- A THROUGH entry behind another one, with one place left in the hold store and with none. -/
theorem witness_EvacuationKeepsTheOldest :
    let q := [entryNo 100, { entryNo 101 with through := true }]
    let s := { sample { served .ready with queue := q, link := drains 3 } with
      nextOrd := 102, hold := heldEntries 47, host := .diverted (waiting true) (.fate 102) }
    InOrder s ∧ s.host = .diverted (waiting true) (.fate 102) ∧
      q[1]? = some { entryNo 101 with through := true } ∧
      (∀ j < 1, ∀ x, q[j]? = some x → x.through = false) ∧ 0 < 48 - s.hold.length ∧
      s.items.holdThreshold.toNat ≤ s.hold.length ∧ 48 - s.hold.length < q.length := by
  refine ⟨⟨by decide, by decide, by decide⟩, rfl, rfl, ?_, by decide, by decide, by decide⟩
  intro j hj x h
  obtain rfl : j = 0 := by omega
  cases h; rfl

theorem witness_MountEndsAndCarriersLeave :
    (sample (mounting [] none)).rst = false ∧ (mounting [] none).state = .identifying ∧
      { absent none with state := .powering }.state ≠ .identifying ∧
      { absent none with state := .powering }.state.serving = false ∧
      { absent none with state := .released }.state = .released :=
  ⟨rfl, rfl, by decide, rfl, rfl⟩

theorem witness_EjectAndCancel :
    Listening (listening (sample (served .ready))) ∧ bayArg 0 = some .A ∧ bayArg 1 = some .B ∧
      (served .ready).state = .ready ∧ (served .ready).queue = [] ∧ entries 1 ≠ [] ∧
      NothingStalled .A (listening (sample (served .ready))) ∧
      { listening busy with host := .diverted (waiting true) .space }.host =
        .diverted (waiting true) .space ∧
      (waiting true).copy.bay = .A ∧ (waiting true).write = true ∧ (waiting false).write = false ∧
      (served .replay).state = .replay ∧ (served .replay).ejectPending = false ∧
      { served .replay with ejectPending := true }.ejectPending = true ∧
      (served .draining).state = .draining ∧ (absent none).state ≠ .ready ∧
      (absent none).state ≠ .replay ∧ (absent none).state ≠ .draining :=
  ⟨⟨rfl, _, rfl⟩, by decide, by decide, rfl, rfl, by decide, nothingStalled_of_idle rfl, rfl, rfl, rfl,
    rfl, rfl, rfl, rfl, rfl, by decide, by decide, by decide⟩

/-- A read that waits at a bay with a queue, with nothing left due. -/
theorem witness_EjectAndCancel_with_a_read :
    let s := { listening (sample { served .ready with queue := entries 1, link := drains 3 }) with
      host := .diverted (waiting false) .queueMatch }
    Settled s ∧ (s.bay .A).queue ≠ [] ∧
      ∃ a w, s.host = .diverted a w ∧ a.copy.bay = .A ∧ a.write = false := by
  exact ⟨settled_of (by decide) (by intro a w h; cases h; decide) (by intro b; cases b <;> decide),
    by decide, _, _, rfl, rfl, rfl⟩

theorem witness_ForgetAndReadBay :
    Listening (listening (sample (served .ready))) ∧ bayArg 0 = some .A ∧
      (served .ready).mount.stamp = some stamp1 ∧ (served .ready).last = none ∧
      (absent (some (.bound stamp1))).last = some ⟨7, 300, .bound stamp1⟩ :=
  ⟨⟨rfl, _, rfl⟩, by decide, rfl, rfl, rfl⟩

/-- A stale entry that just fits into a queue of fifteen, and none. -/
theorem witness_ForcedEntriesReplay :
    let x := { served .ready with queue := entries 15, link := drains 3 }
    let s := { listening (sample x) with hold := [heldNo true 0] }
    Listening s ∧ bayArg 0 = some .A ∧ (s.bay .A).state = .ready ∧ (s.bay .A).mount.locked = false ∧
      (s.bay .A).mount.serial = some 7 ∧ (s.bay .A).mount.stamp = some stamp1 ∧
      (s.bay .A).ejectPending = false ∧ NothingStalled .A s ∧
      (∃ e ∈ s.hold, e.stale = true ∧ e.write.serial = 7) ∧ (s.bay .A).queue.length + 1 ≤ 16 ∧
      (∀ e ∈ heldEntries 3, e.stale = true → some (7 : Serial) ≠ some e.write.serial) ∧
      (absent none).state ≠ .ready ∧ { x.mount with locked := true }.locked = true :=
  ⟨⟨rfl, _, rfl⟩, by decide, rfl, rfl, rfl, rfl, rfl, nothingStalled_of_idle rfl,
    ⟨_, List.mem_singleton_self _, rfl, rfl⟩, by decide, by decide, by decide, rfl⟩

/-- Two stale entries for one place; a write that waits for space at a full queue; and a read in each of
its waits, at the link in each phase of its transfer. -/
theorem witness_ForcedEntriesReplay_with_an_access :
    (let s := { listening (sample { served .ready with queue := entries 15, link := drains 3 }) with
        hold := [heldNo true 20, heldNo true 21] };
      NothingStalled .A s ∧ 16 - (s.bay .A).queue.length <
        (s.hold.filter fun e => e.write.serial == 7 && (e.stale || e.write.stamp == stamp1)).length) ∧
      (let s := { listening (sample { served .ready with queue := entries 16, link := drains 3 }) with
          hold := [heldNo true 20], host := .diverted (waiting true) .space };
        Listening s ∧ s.host = .diverted (waiting true) .space ∧ (waiting true).copy.bay = .A ∧
          16 ≤ (s.bay .A).queue.length) ∧
      (∀ w, { listening busy with host := .diverted (waiting false) w }.host =
        .diverted (waiting false) w) ∧ (waiting false).copy.bay = .A ∧
      ∀ p : Phase, let tr := { reads 3 with phase := p };
        let s := { listening (sample { served .ready with link := .held .read tr }) with
          hold := [heldNo true 20], host := .diverted (waiting false) .onLink };
        Listening s ∧ (s.bay .A).state = .ready ∧ (s.bay .A).mount.locked = false ∧
          (∃ e ∈ s.hold, e.stale = true ∧ e.write.serial = 7) ∧
          s.host = .diverted (waiting false) .onLink ∧ (s.bay .A).link = .held .read tr :=
  ⟨⟨nothingStalled_of_idle rfl, by decide⟩, ⟨⟨rfl, _, rfl⟩, rfl, rfl, by decide⟩, fun _ => rfl, rfl,
    fun _ => ⟨⟨rfl, _, rfl⟩, rfl, rfl, ⟨_, List.mem_singleton_self _, rfl, rfl⟩, rfl, rfl⟩⟩

/-- One eligible entry and one place, and two for it; an empty queue with an eject pending and
nothing to move; and an access that waits for the end of replay. -/
theorem witness_ReplayMovesTheOldest :
    let s := { sample { served .replay with queue := entries 15, link := drains 3 } with
      hold := [heldNo false 20] }
    let fit (e : HoldEntry) : Bool :=
      !e.stale && (s.bay .A).mount.serial == some e.write.serial &&
        (s.bay .A).mount.stamp == some e.write.stamp
    s.rst = false ∧ (s.bay .A).state = .replay ∧ NothingStalled .A s ∧
      (s.bay .A).ejectPending = false ∧ { s.bay .A with ejectPending := true }.ejectPending = true ∧
      (s.hold.filter fit).length = 16 - (s.bay .A).queue.length ∧ (s.bay .A).queue ≠ [] ∧
      16 - (s.bay .A).queue.length < ([heldNo false 20, heldNo false 21].filter fit).length ∧
      (let u := sample { served .replay with ejectPending := true };
        u.rst = false ∧ (u.bay .A).state = .replay ∧ NothingStalled .A u ∧
          (∀ e ∈ u.hold, eligible (u.bay .A).mount e = false) ∧ (u.bay .A).ejectPending = true ∧
          (u.bay .A).queue = []) ∧
      ∀ wr, { s with host := .diverted (waiting wr) .replay }.host = .diverted (waiting wr) .replay ∧
        (waiting wr).copy.bay = .A :=
  ⟨rfl, rfl, nothingStalled_of_idle rfl, rfl, rfl, by decide, by decide, by decide,
    ⟨rfl, rfl, nothingStalled_of_idle rfl, by decide, rfl, rfl⟩, fun _ => ⟨rfl, rfl⟩⟩

/-- Bay A replays carrier 7 and bay B as `y`, with a full queue at A. -/
def replaying (y : Bay) (h : List HoldEntry) (p : HostPort) : State :=
  { listening (sample { served .replay with
      queue := entries 16, link := drains 3, ejectPending := true }) with
    bayB := y, hold := h, host := p }

/-- Bay B replays carrier 8. -/
def other : Bay :=
  { served .replay with
    mount := { (served .replay).mount with serial := some 8 }, queue := entries 16, link := drains 3 }

def otherHeld : HoldEntry := ⟨21, { writeNo 21 with serial := 8 }, false⟩

theorem replaying_settled (p : HostPort)
    (hp : p = .idle ∨ p = .diverted (waiting true) .replay ∨
      p = .diverted { waiting true with copy := { win0 with bay := .B } } .replay) :
    Settled (replaying other [heldNo false 20, otherHeld] p) := by
  obtain rfl | rfl | rfl := hp
  all_goals
    exact settled_of (by decide) (by intro a w h; cases h; all_goals decide)
      (by intro b; cases b <;> decide)

/-- Scopes 2 and 1; nothing chosen; bays that go on: none that replays, and one with an eligible entry
left. The last eligible entry of bay A, whose eject is pending, while bay B goes on; those of both bays;
nobody waiting, and an access that waits at either bay. -/
theorem witness_DiscardHeldLosesTheSelected :
    (let s := { listening (sample (absent none)) with hold := [heldNo true 0] };
      Listening s ∧ 1 < (2 : Byte).toNat ∧ (1 : Byte).toNat ≤ 1 ∧ Settled s ∧
        (∀ b, (s.bay b).state ≠ .replay) ∧
        ∃ e ∈ s.hold, (e.write.serial == 7) = true ∧ e.stale = true) ∧
      (∀ e ∈ (listening (sample (absent none))).hold, e.stale = false) ∧
      ∀ p : HostPort,
        p = .idle ∨ p = .diverted (waiting true) .replay ∨
          p = .diverted { waiting true with copy := { win0 with bay := .B } } .replay →
        let s := replaying other [heldNo false 20, otherHeld] p
        let kept (n : Serial) : List HoldEntry :=
          s.hold.filter fun e => !((n == 0 || e.write.serial == n) && ((1 : Byte) == 1 || e.stale))
        Listening s ∧ Settled s ∧ s.host = p ∧ (p = .idle → NothingStalled .A s ∧ NothingStalled .B s) ∧
          (s.bay .A).state = .replay ∧ (s.bay .B).state = .replay ∧ (s.bay .A).ejectPending = true ∧
          (∀ e ∈ kept 7, eligible (s.bay .A).mount e = false) ∧
          (∃ e ∈ kept 7, eligible (s.bay .B).mount e = true) ∧
          (∃ e ∈ kept 8, eligible (s.bay .A).mount e = true) ∧
          (∀ e ∈ kept 8, eligible (s.bay .B).mount e = false) ∧ kept 0 = [] := by
  refine ⟨⟨⟨rfl, _, rfl⟩, by decide, by decide,
      settled_of (by decide) (fun _ _ h => by cases h) (by intro b; cases b <;> decide),
      fun b => by cases b <;> decide, _, List.mem_singleton_self _, by decide, rfl⟩,
    fun e h => (by cases h), ?_⟩
  intro p hp
  refine ⟨⟨rfl, _, rfl⟩, replaying_settled p hp, rfl, ?_, rfl, rfl, rfl, ?_⟩
  · exact fun h => ⟨nothingStalled_of_idle h, nothingStalled_of_idle h⟩
  · obtain rfl | rfl | rfl := hp <;> decide

/-- The oldest and the newest of 48 entries, and the first index past them. -/
theorem witness_ReadHoldReturnsTheEntry :
    Listening { listening busy with hold := heldEntries 48 } ∧
      (heldEntries 48)[(0 : Byte).toNat]? = some (heldNo false 0) ∧
      (heldEntries 48)[(47 : Byte).toNat]? = some (heldNo false 47) ∧
      (heldEntries 48).length ≤ (48 : Byte).toNat :=
  ⟨⟨rfl, _, rfl⟩, by decide, by decide, by decide⟩

/-- The largest event set with numbers up to 22, and the smallest that names 23. -/
theorem witness_EventSetsAndAttention :
    Listening (listening busy) ∧ (0x007FFFFF : Word).toNat < 2 ^ 23 ∧
      2 ^ 23 ≤ (0x00800000 : Word).toNat := ⟨⟨rfl, _, rfl⟩, by decide, by decide⟩

theorem witness_LatchesStayUntilCleared :
    { busy with latches := 1#23 <<< 22 }.latch .hostError = true ∧ Instr.commit .A false ≠ .por ∧
      (∀ v, Instr.commit .A false ≠ .clearEvents v) ∧
      (0x003FFFFF : Word).getLsbD Latch.hostError.number = false ∧
      ∃ t, exec (.commit .A false) { busy with latches := 1#23 <<< 22 } = .next t :=
  ⟨by decide, by decide, fun _ h => (by cases h), by decide, _, rfl⟩

/-- The codes at the edges of the two gaps of the table of items, a value at each end of a range, and
the values just outside. -/
theorem witness_ItemsReadBackAsWritten :
    Listening (listening busy) ∧ itemOfCode 0x0C ≠ none ∧ itemOfCode 0x0D = none ∧
      itemOfCode 0x0F = none ∧ itemOfCode 0x10 ≠ none ∧ itemOfCode 0x17 ≠ none ∧
      itemOfCode 0x18 = none ∧ itemOfCode 0x06 = some .stallUs ∧
      (0x06, fun s => s.items.stallUs.setWidth 32) ∈ itemFields ∧ (∀ p ∈ itemFields, p.1 ≠ 0x0D) ∧
      Item.accepts .stallUs 1 = true ∧ Item.accepts .stallUs 1023 = true ∧
      Item.accepts .stallUs 0 = false ∧ Item.accepts .stallUs 1024 = false :=
  ⟨⟨rfl, _, rfl⟩, by decide, by decide, by decide, by decide, by decide, by decide, by decide,
    by simp [itemFields], by decide, by decide, by decide, by decide, by decide⟩

/-- Each state of the port; a discard inside the first byte, and after it with an argument missing. -/
theorem witness_FramesOpenAndClose :
    busy.rst = false ∧ busy.frame = .idle ∧ (listening busy).frame = .receiving ⟨0, 0⟩ ∧
      { busy with frame := .ran ⟨1, 0⟩ 0 .ok [] }.frame = .ran ⟨1, 0⟩ 0 .ok [] ∧
      { busy with frame := .waitRise }.frame = .waitRise ∧ cmdOfCode 0x00 = none ∧
      cmdOfCode 0xFF = none ∧ ([true] : List Bool).length < 8 ∧
      (bytesOfBits (bitsOfByte 0x02)).head? = some 0x02 ∧ cmdOfCode 0x02 = some .readItem ∧
      (bitsOfByte 0x02).length < 8 * (Cmd.readItem.argBytes + 1) :=
  ⟨rfl, rfl, rfl, rfl, rfl, by decide, by decide, by decide, by decide, by decide, by decide⟩

theorem witness_FailedCommandsChangeNothing :
    Listening (listening busy) ∧
      (∃ t, exec (.popLoss) (listening busy) = .next t ∧ t.frame = .ran ⟨1, 0⟩ 0 .empty []) ∧
      Instr.popLoss.passed = false ∧ Status.empty ≠ .ok ∧ 1 < (2 : Byte).toNat ∧ 7 < (8 : Byte).toNat :=
  ⟨⟨rfl, _, rfl⟩, ⟨_, rfl, rfl⟩, rfl, by decide, by decide, by decide⟩

theorem witness_FramesSpellTheirCommand :
    (Instr.writeItem 0x06 500).wellFormed = true ∧ encodeFrame (.writeItem 0x06 500) ≠ [] ∧
      (Instr.badCommand 0xFF).wellFormed = true ∧ encodeFrame (.badCommand 0xFF) ≠ [] := by decide

end Sys2Proof.Tests
end

section
/-! PROOFS. The account of writes on the management port: READ_COUNTS and ZERO_COUNTS (R14, R15). -/

namespace Sys2Proof.Machine

/-! ### A command in a frame that awaits it -/

/-- A management command whose frame awaits it leaves what its meaning leaves, and answers with its
meaning's status and result bytes (R152 to R154). -/
theorem manage_of_listening {n : Nat} {f : State → Reply} {s : State} (h : Listening s) :
    manage n f s = .next ((f s).state.reply n (f s).status (f s).result) := by
  obtain ⟨hrst, c, hframe⟩ := h
  exact manage_next hrst hframe

/-- The answer of the management port is no part of the account. -/
@[simp] theorem accounted_reply {s : State} {n : Nat} {c : Status} {r : List Byte} :
    Accounted (s.reply n c r) ↔ Accounted s := Iff.rfl

/-! ### READ_COUNTS and ZERO_COUNTS -/

theorem exec_readCounts {s : State} (h : Listening s) :
    exec .readCounts s = .next (s.reply 0 .ok (countsResult s)) :=
  manage_of_listening (f := readCounts) h

/-- The state that ZERO_COUNTS leaves, but for its answer (R15). -/
def zeroedCounts (s : State) : State :=
  { s with accepted := BitVec.ofNat 32 (occupancy s), committed := 0, lost := 0 }

theorem exec_zeroCounts {s : State} (h : Listening s) :
    exec .zeroCounts s = .next ((zeroedCounts s).reply 0 .ok []) :=
  manage_of_listening (f := zeroCounts) h

@[simp] theorem occupancy_zeroedCounts (s : State) : occupancy (zeroedCounts s) = occupancy s := rfl

/-- With COMMITTED and LOST at 0, the law of R7 asks that ACCEPTED is the total occupancy, which
ZERO_COUNTS makes it, whatever the counters were before. -/
theorem accounted_zeroedCounts (s : State) : Accounted (zeroedCounts s) := by
  have hzero (x : Word) : x - 0 - 0 = x := by simp
  exact hzero (BitVec.ofNat 32 (occupancy s))

/-- The law of R7 fixes the difference by the collections alone. -/
theorem difference_eq_of_accounted {s t : State} (hs : Accounted s) (ht : Accounted t)
    (h : occupancy t = occupancy s) :
    t.accepted - t.committed - t.lost = s.accepted - s.committed - s.lost := by
  rw [hs, ht, h]

/-- Settles O14: the answer is the layout of R173, and the law and the ranges are those of R7 and of the
capacities. -/
theorem readCountsReturnsSix : Obligations.ReadCountsReturnsSix := by
  intro s hs
  refine ⟨exec_readCounts hs, fun law => law, fun cap => ?_⟩
  exact ⟨cap.queue .A, cap.queue .B, cap.hold⟩

/-- Settles O15: the law holds after the command, so with the law before it both differences are the
occupancy, which the command leaves. -/
theorem zeroCountsKeepsTheDifference : Obligations.ZeroCountsKeepsTheDifference := by
  intro s hs
  have law : Accounted ((zeroedCounts s).reply 0 .ok []) :=
    accounted_reply.2 (accounted_zeroedCounts s)
  exact ⟨_, exec_zeroCounts hs, rfl, law, fun before =>
    difference_eq_of_accounted before law (occupancy_zeroedCounts s)⟩

end Sys2Proof.Machine
end

section
/-! PROOFS. Host pages and offsets, and the translation of a claimed address (R26, R27). -/

namespace Sys2Proof.Machine

/-! ### The host page and the offset within it -/

/-- The window claims a page: enabled, and the page in its range (R18, R26). -/
theorem claims_iff {w : Window} {page : Nat} :
    w.claims page = true ↔
      w.enabled = true ∧ w.record.base.toNat ≤ page ∧ page ≤ w.record.limit.toNat := by
  simp [Window.claims, and_assoc]

/-- The offset within the host page, in bytes (R27). -/
def pageOffset (addr : BitVec 23) : Nat := byteAddr addr - hostPage addr * 4096

theorem byteAddr_eq_page_add_offset (addr : BitVec 23) :
    byteAddr addr = hostPage addr * 4096 + pageOffset addr := by
  unfold pageOffset hostPage
  omega

/-- The address lines carry a halfword address, so the offset is even. -/
theorem pageOffset_even (addr : BitVec 23) : pageOffset addr % 2 = 0 := by
  unfold pageOffset hostPage byteAddr
  omega

theorem pageOffset_le (addr : BitVec 23) : pageOffset addr ≤ 4094 := by
  have heven := pageOffset_even addr
  have hlt : pageOffset addr < 4096 := by
    unfold pageOffset hostPage
    omega
  omega

/-! ### The translation -/

/-- The carrier page to which a window leads a host page that it claims (R27). -/
def targetPage (w : WindowRec) (addr : BitVec 23) : Nat :=
  w.start.toNat + hostPage addr - w.base.toNat

/-- The translation in pages and offset. Below the base page, where no claimed address lies, the
subtraction in `carrierAddr` would be cut off at 0. -/
theorem carrierAddr_eq {w : WindowRec} {addr : BitVec 23} (hbase : w.base.toNat ≤ hostPage addr) :
    carrierAddr w addr = targetPage w addr * 2048 + pageOffset addr / 2 := by
  have hbyte := byteAddr_eq_page_add_offset addr
  unfold carrierAddr targetPage
  omega

/-- Half the offset is less than a page of halfwords, so it never carries into the page. -/
theorem carrierPage_carrierAddr {w : WindowRec} {addr : BitVec 23}
    (hbase : w.base.toNat ≤ hostPage addr) : carrierPage (carrierAddr w addr) = targetPage w addr := by
  have hoff := pageOffset_le addr
  rw [carrierAddr_eq hbase, carrierPage]
  omega

/-- Both terms of the translation are even, so its halving discards nothing. -/
theorem two_mul_carrierAddr (w : WindowRec) (addr : BitVec 23) :
    2 * carrierAddr w addr = w.start.toNat * 4096 + (byteAddr addr - w.base.toNat * 4096) := by
  unfold carrierAddr byteAddr
  omega

/-- A claimed page is at most the limit page, which is at most 4095. -/
theorem targetPage_le {w : Window} {addr : BitVec 23} (h : w.claims (hostPage addr) = true) :
    targetPage w.record addr ≤ w.record.start.toNat + 4095 := by
  obtain ⟨-, -, hlimit⟩ := claims_iff.1 h
  have hwidth : w.record.limit.toNat < 4096 := w.record.limit.isLt
  unfold targetPage
  omega

/-- Settles O18: a claimed page is not below the base page, so the translation is the target page with
the offset of the host address. -/
theorem translationKeepsTheOffset : Obligations.TranslationKeepsTheOffset := by
  intro w addr h
  obtain ⟨-, hbase, -⟩ := claims_iff.1 h
  have hpage : carrierPage (carrierAddr w.record addr) = targetPage w.record addr :=
    carrierPage_carrierAddr hbase
  refine ⟨hpage, ?_, two_mul_carrierAddr w.record addr, ?_, pageOffset_le addr, pageOffset_even addr⟩
  · rw [hpage]
    exact carrierAddr_eq hbase
  · rw [hpage]
    exact targetPage_le h

end Sys2Proof.Machine
end

section
/-! PROOFS. The hold store as the management port reads it: READ_HOLD (R141, R175). -/

namespace Sys2Proof.Machine

/-! ### The bytes of a hold entry -/

/-- One more flag below the others. Its bit and the shifted bits are disjoint, so the `or` is a sum. -/
theorem flagByte_or_shiftLeft (f : Bool) (n : Nat) :
    flagByte f ||| (BitVec.ofNat 8 n <<< 1) = BitVec.ofNat 8 (f.toNat + 2 * n) := by
  have hshift : BitVec.ofNat 8 n <<< 1 = BitVec.ofNat 8 (2 * n) := by
    rw [BitVec.shiftLeft_eq_mul_twoPow, BitVec.mul_comm, BitVec.ofNat_mul]
    rfl
  have hdisjoint : flagByte f &&& (BitVec.ofNat 8 n <<< 1) = 0#8 := by
    ext i hi
    cases f <;> cases i <;> simp [flagByte]
  have hflag : flagByte f = BitVec.ofNat 8 f.toNat := by cases f <;> rfl
  rw [← BitVec.add_eq_or_of_and_eq_zero _ _ hdisjoint, hshift, hflag, BitVec.ofNat_add]

/-- A flag byte read as a number: the flags are its binary digits, the first the lowest (R174, R175). -/
theorem flagsByte_eq_ofDigits (flags : List Bool) :
    flagsByte flags = BitVec.ofNat 8 (Nat.ofDigits 2 (flags.map Bool.toNat)) := by
  induction flags with
  | nil => rfl
  | cons f fs ih => simp [flagsByte, ih, flagByte_or_shiftLeft, Nat.ofDigits_cons]

/-- The last byte of a hold entry: uncertain at bit 0, forced at bit 1, stale at bit 2 (R175). -/
theorem flagsByte_three (a b c : Bool) :
    flagsByte [a, b, c] = BitVec.ofNat 8 (a.toNat + 2 * b.toNat + 4 * c.toNat) := by
  rw [flagsByte_eq_ofDigits]
  congr 1
  simp only [List.map_cons, List.map_nil, Nat.ofDigits_cons, Nat.ofDigits_nil]
  omega

/-- The 33 bytes of a hold entry, field by field (R175). -/
theorem holdResult_eq (e : HoldEntry) :
    holdResult e =
      wordBytes e.write.num ++ serialBytes e.write.serial ++ stampBytes e.write.stamp ++
        natBytes e.write.addr ++ [e.write.lanes.code] ++ halfBytes e.write.data ++
        [natByte e.write.window.val] ++
        [BitVec.ofNat 8 (e.write.uncertain.toNat + 2 * e.write.forced.toNat + 4 * e.stale.toNat)] := by
  rw [holdResult, writeBytes, flagsByte_three]

/-! ### READ_HOLD -/

theorem readHold_some {i : Byte} {s : State} {e : HoldEntry} (h : s.hold[i.toNat]? = some e) :
    readHold i s = replyOk s (holdResult e) := by
  simp [readHold, h]

theorem readHold_none {i : Byte} {s : State} (h : s.hold[i.toNat]? = none) :
    readHold i s = replyBad s .empty := by
  simp [readHold, h]

theorem exec_readHold {i : Byte} {s : State} (h : Listening s) :
    exec (.readHold i) s =
      .next ((readHold i s).state.reply 1 (readHold i s).status (readHold i s).result) :=
  manage_of_listening (f := readHold i) h

/-- Settles O54: the lookup at position i decides the answer, an entry giving its 33 bytes and a
position past the last one EMPTY; either answer leaves the state. -/
theorem readHoldReturnsTheEntry : Obligations.ReadHoldReturnsTheEntry := by
  intro i s hs
  refine ⟨fun e hentry => ?_, fun hpast => ?_⟩
  · rw [exec_readHold hs, readHold_some hentry, replyOk_state, replyOk_status, replyOk_result,
      holdResult_eq]
    simp only [stampBytes, List.append_assoc]
    rfl
  · have hnone : s.hold[i.toNat]? = none := List.getElem?_eq_none hpast
    rw [exec_readHold hs, readHold_none hnone, replyBad_state, replyBad_status, replyBad_result]

end Sys2Proof.Machine
end

section
/-! PROOFS. Event sets, the latches and their enables as the management port reads and writes them, and
the level of ATTN# (R144 to R147). -/

namespace Sys2Proof.Machine

/-! ### Event sets -/

/-- An event set names no number above 22 exactly when it is below 2^23 as a number (R171). -/
theorem eventSetValid_iff {v : Word} : eventSetValid v = true ↔ v.toNat < 2 ^ 23 := by
  have hhigh : (v.extractLsb' 23 9).toNat = v.toNat / 2 ^ 23 := by
    rw [BitVec.extractLsb'_toNat, Nat.shiftRight_eq_div_pow]
    omega
  rw [eventSetValid, beq_iff_eq, BitVec.toNat_eq, hhigh, BitVec.toNat_ofNat]
  omega

theorem eventSetValid_eq_false {v : Word} (h : 2 ^ 23 ≤ v.toNat) : eventSetValid v = false :=
  Bool.eq_false_iff.2 fun hvalid => Nat.not_lt.2 h (eventSetValid_iff.1 hvalid)

@[simp] theorem latchesOfWord_eq_setWidth (v : Word) : latchesOfWord v = v.setWidth 23 :=
  BitVec.setWidth_eq_extractLsb' (by decide) |>.symm

/-! ### READ_EVENTS, CLEAR_EVENTS and WRITE_EVENT_ENABLE -/

theorem exec_readEvents {s : State} (h : Listening s) :
    exec .readEvents s = .next (s.reply 0 .ok (wordBytes (wordOfLatches s.latches))) :=
  manage_of_listening (f := readEvents) h

theorem exec_clearEvents {v : Word} {s : State} (h : Listening s) :
    exec (.clearEvents v) s =
      .next ((clearEvents v s).state.reply 4 (clearEvents v s).status (clearEvents v s).result) :=
  manage_of_listening (f := clearEvents v) h

theorem clearEvents_of_valid {v : Word} {s : State} (h : eventSetValid v = true) :
    clearEvents v s = replyOk (clearLatches v s) [] := by
  simp [clearEvents, h]

theorem clearEvents_of_invalid {v : Word} {s : State} (h : eventSetValid v = false) :
    clearEvents v s = replyBad s .badArg := by
  simp [clearEvents, h]

/-- WRITE_EVENT_ENABLE is WRITE_ITEM of EVENT_ENABLE, which accepts the valid event sets (R144). -/
theorem writeItem_eventEnable (v : Word) (s : State) :
    writeItem eventEnableCode v s =
      if eventSetValid v then replyOk { s with enables := latchesOfWord v } []
      else replyBad s .badArg := by
  have hitem : itemOfCode eventEnableCode = some .eventEnable := by decide
  cases hvalid : eventSetValid v <;> simp [writeItem, hitem, writeItemValue, hvalid]

theorem exec_writeEventEnable {v : Word} {s : State} (h : Listening s) :
    exec (.writeEventEnable v) s =
      .next ((writeItem eventEnableCode v s).state.reply 5 (writeItem eventEnableCode v s).status
        (writeItem eventEnableCode v s).result) :=
  manage_of_listening (f := writeItem eventEnableCode v) h

/-! ### ATTN# -/

/-- The ten latches of a bay, in the order of R142, fill the places 0 to 9. -/
theorem exists_bayLatch_index {n : Nat} (h : n < 10) : ∃ l : BayLatch, l.index = n := by
  have hall : [BayLatch.inserted, .identified, .resumed, .staleFound, .rejected, .unsupported,
      .faulted, .removed, .ejectDone, .drainTimeout].map BayLatch.index = List.range 10 := rfl
  have hmem : n ∈ List.range 10 := List.mem_range.2 h
  rw [← hall] at hmem
  obtain ⟨l, -, hl⟩ := List.mem_map.1 hmem
  exact ⟨l, hl⟩

/-- Every number from 0 to 22 is the number of a latch: ten of each bay, then three (R142). -/
theorem exists_latch_number {n : Nat} (h : n < 23) : ∃ l : Latch, l.number = n := by
  by_cases hA : n < 10
  · obtain ⟨l, hl⟩ := exists_bayLatch_index hA
    exact ⟨.bay .A l, hl⟩
  by_cases hB : n < 20
  · obtain ⟨l, hl⟩ := exists_bayLatch_index (n := n - 10) (by omega)
    exact ⟨.bay .B l, by simp only [Latch.number]; omega⟩
  obtain rfl | rfl | rfl : n = 20 ∨ n = 21 ∨ n = 22 := by omega
  · exact ⟨.loss, rfl⟩
  · exact ⟨.holdHigh, rfl⟩
  · exact ⟨.hostError, rfl⟩

/-- A set of latches is not empty exactly when it holds some latch's bit: no bit is without a latch. -/
theorem latches_ne_zero_iff {x : BitVec 23} :
    x ≠ 0#23 ↔ ∃ l : Latch, x.getLsbD l.number = true := by
  constructor
  · contrapose!
    intro hclear
    refine BitVec.eq_of_getLsbD_eq fun n hn => ?_
    obtain ⟨l, rfl⟩ := exists_latch_number hn
    simpa using hclear l
  · rintro ⟨l, hl⟩ rfl
    simp at hl

/-- ATTN# is asserted exactly while a set latch has its enable set, RST# being negated (R145). -/
theorem attention_iff {s : State} :
    attention s = true ↔ s.rst = false ∧ ∃ l : Latch, s.latch l = true ∧ s.enable l = true := by
  calc attention s = true
      ↔ s.rst = false ∧ s.latches &&& s.enables ≠ 0#23 := by simp [attention]
    _ ↔ s.rst = false ∧ ∃ l : Latch, (s.latches &&& s.enables).getLsbD l.number = true := by
        rw [latches_ne_zero_iff]
    _ ↔ _ := by simp only [BitVec.getLsbD_and, Bool.and_eq_true, State.latch, State.enable]

/-- Settles O55: each command's answer is decided by whether its event set is valid, which is whether it
is below 2^23, and ATTN# looks at the common bits of the latches and the enables. -/
theorem eventSetsAndAttention : Obligations.EventSetsAndAttention := by
  refine ⟨fun v s hs => ⟨exec_readEvents hs, fun hlow => ?_, fun hhigh => ?_⟩,
    fun s => attention_iff⟩
  · have hvalid : eventSetValid v = true := eventSetValid_iff.2 hlow
    constructor
    · simp [exec_clearEvents hs, clearEvents_of_valid hvalid, clearLatches]
    · simp [exec_writeEventEnable hs, writeItem_eventEnable, hvalid]
  · have hinvalid : eventSetValid v = false := eventSetValid_eq_false hhigh
    constructor
    · simp [exec_clearEvents hs, clearEvents_of_invalid hinvalid]
    · simp [exec_writeEventEnable hs, writeItem_eventEnable, hinvalid]

end Sys2Proof.Machine
end

section
/-! PROOFS. The items as READ_ITEM and WRITE_ITEM show them (R158 to R160). -/

namespace Sys2Proof.Machine

/-! ### Items and their codes -/

theorem Item.mem_all (i : Item) : i ∈ Item.all := by cases i <;> decide

@[simp] theorem itemOfCode_code (i : Item) : itemOfCode i.code = some i := by cases i <;> rfl

theorem itemOfCode_eq_some_iff {c : Byte} {i : Item} : itemOfCode c = some i ↔ i.code = c := by
  constructor
  · intro h
    simpa using List.find?_some h
  · rintro rfl
    exact itemOfCode_code i

theorem Item.code_inj {i j : Item} : i.code = j.code ↔ i = j := by
  rw [← itemOfCode_eq_some_iff, itemOfCode_code, Option.some.injEq, eq_comm]

theorem itemOfCode_eq_none_iff {c : Byte} : itemOfCode c = none ↔ ∀ i : Item, i.code ≠ c := by
  simp only [Option.eq_none_iff_forall_ne_some, ne_eq, itemOfCode_eq_some_iff]

/-- The codes of R158, in the order of the table: 00H to 0CH, then 10H to 17H. -/
theorem Item.map_code_all :
    Item.all.map (fun i => i.code.toNat) = List.range 0x0D ++ List.range' 0x10 8 := rfl

theorem Item.exists_code_eq_iff {c : Byte} :
    (∃ i : Item, i.code = c) ↔ c.toNat < 0x0D ∨ 0x10 ≤ c.toNat ∧ c.toNat < 0x18 := by
  calc (∃ i : Item, i.code = c)
      ↔ c.toNat ∈ Item.all.map (fun i => i.code.toNat) := by
        simp [Item.mem_all, BitVec.toNat_inj]
    _ ↔ _ := by simp [Item.map_code_all]

/-- The codes that name no item lie between the two runs of the table and past the second (R158). -/
theorem itemOfCode_eq_none_iff_gap {c : Byte} :
    itemOfCode c = none ↔ 0x0D ≤ c.toNat ∧ c.toNat ≤ 0x0F ∨ 0x18 ≤ c.toNat := by
  rw [itemOfCode_eq_none_iff, ← not_exists, Item.exists_code_eq_iff]
  omega

/-- The table of the statements lists each item's code with its present value. -/
theorem itemFields_eq : itemFields = Item.all.map fun i => (i.code, readItemValue i) := by
  simp only [itemFields, Item.all, List.map_cons, List.map_nil, List.cons_append, List.nil_append,
    List.cons.injEq, Prod.mk.injEq, funext_iff, Item.code, eventEnableCode, readItemValue, revision,
    wordOfLatches, implies_true, and_true, true_and]
  refine ⟨?_, ?_, ?_, ?_, ?_, ?_, ?_⟩ <;> intro s
  · cases s.items.supplyMaskA <;> rfl
  · cases s.items.supplyMaskB <;> rfl
  · cases s.staging.bay <;> rfl
  · cases s.staging.region <;> rfl
  · cases s.staging.mode <;> rfl
  · cases s.staging.absentReads <;> rfl
  · cases s.staging.absentWrites <;> rfl

theorem mem_itemFields {p : Byte × (State → Word)} :
    p ∈ itemFields ↔ ∃ i : Item, (i.code, readItemValue i) = p := by
  simp [itemFields_eq, Item.mem_all]

/-! ### The values that an item accepts -/

theorem inItemRange_eq_some {lo hi n : Nat} {v : Word} (h : inItemRange lo hi v = some n) :
    v.toNat ≤ hi ∧ n = v.toNat := by
  rw [inItemRange, Option.ite_none_right_eq_some] at h
  obtain ⟨⟨-, hhi⟩, hn⟩ := h
  exact ⟨hhi, (Option.some.inj hn).symm⟩

theorem isSome_inItemRange {lo hi : Nat} {v : Word} :
    (inItemRange lo hi v).isSome = decide (lo ≤ v.toNat ∧ v.toNat ≤ hi) := by
  unfold inItemRange
  split <;> simp [*]

/-- A field with named values, whose codes are 0, 1, … in order, accepts the numbers of its names. -/
theorem isSome_ofCode {α : Type} {code : α → Nat} {l : List α} {m n : Nat}
    (h : l.map code = List.range (m + 1)) : (ofCode code l n).isSome = decide (n ≤ m) := by
  have hmem : n ∈ l.map code ↔ n ≤ m := by rw [h, List.mem_range, Nat.lt_succ_iff]
  rw [Bool.eq_iff_iff, decide_eq_true_iff, ← hmem]
  simp [ofCode]

/-- WRITE_ITEM sets an item to the values that R158 lets it take. -/
theorem isSome_writeItemValue (i : Item) (v : Word) (s : State) :
    (writeItemValue i v s).isSome = i.accepts v.toNat := by
  cases i
  case revision | deviceNumber | epoch => rfl
  case eventEnable =>
    have hvalid : eventSetValid v = decide (v.toNat < 2 ^ 23) := by
      rw [Bool.eq_iff_iff, eventSetValid_iff, decide_eq_true_iff]
    rw [Item.accepts, ← hvalid, writeItemValue]
    cases eventSetValid v <;> rfl
  case supplyMaskA | supplyMaskB | stageBay | stageRegion | stageMode | stageAbsentReads |
      stageAbsentWrites =>
    rw [writeItemValue, Option.isSome_map]
    exact isSome_ofCode rfl
  all_goals simp [writeItemValue, Item.accepts, isSome_inItemRange]

/-! ### What a written item changes -/

theorem setWidth_ofNat_of_inItemRange {lo hi w n : Nat} {v : Word} (h : inItemRange lo hi v = some n)
    (hw : hi < 2 ^ w) : (BitVec.ofNat w n).setWidth 32 = v := by
  obtain ⟨hhi, rfl⟩ := inItemRange_eq_some h
  refine BitVec.eq_of_toNat_eq ?_
  rw [BitVec.toNat_setWidth, BitVec.toNat_ofNat, Nat.mod_eq_of_lt (hhi.trans_lt hw),
    Nat.mod_eq_of_lt v.isLt]

theorem ofNat_code_of_ofCode {α : Type} {code : α → Nat} {l : List α} {x : α} {v : Word}
    (h : ofCode code l v.toNat = some x) : BitVec.ofNat 32 (code x) = v := by
  have hcode : code x = v.toNat := by simpa using List.find?_some h
  rw [hcode, BitVec.ofNat_toNat, BitVec.setWidth_eq]

theorem wordOfLatches_latchesOfWord {v : Word} (h : eventSetValid v = true) :
    wordOfLatches (latchesOfWord v) = v := by
  refine BitVec.eq_of_toNat_eq ?_
  have hlow := eventSetValid_iff.1 h
  rw [wordOfLatches, latchesOfWord_eq_setWidth, BitVec.toNat_setWidth, BitVec.toNat_setWidth]
  omega

/-- An item that was set holds the value written (R160). -/
theorem readItemValue_written {i : Item} {v : Word} {s t : State}
    (h : writeItemValue i v s = some t) : readItemValue i t = v := by
  cases i
  case revision | deviceNumber => cases h
  case epoch => cases h; rfl
  case eventEnable =>
    obtain ⟨hvalid, ht⟩ := Option.ite_none_right_eq_some.1 h
    cases ht
    exact wordOfLatches_latchesOfWord hvalid
  case supplyMaskA | supplyMaskB | stageBay | stageRegion | stageMode | stageAbsentReads |
      stageAbsentWrites =>
    obtain ⟨x, hx, rfl⟩ := Option.map_eq_some_iff.1 h
    exact ofNat_code_of_ofCode hx
  all_goals
    obtain ⟨n, hn, rfl⟩ := Option.map_eq_some_iff.1 h
    exact setWidth_ofNat_of_inItemRange hn (by decide)

/-- The states that differ from `s` in the field of the item `i` alone. -/
structure DiffersAt (i : Item) (s t : State) : Prop where
  frame : t = { s with items := t.items, staging := t.staging, enables := t.enables }
  others : ∀ j, j ≠ i → readItemValue j t = readItemValue j s

/-- Setting an item changes its field alone (R160): no two items share a field. -/
theorem differsAt_written {i : Item} {v : Word} {s t : State}
    (h : writeItemValue i v s = some t) : DiffersAt i s t := by
  cases i
  case revision | deviceNumber => cases h
  case' epoch => cases h
  case' eventEnable =>
    obtain ⟨-, ht⟩ := Option.ite_none_right_eq_some.1 h
    cases ht
  case' debounceMs | responseUs | retryLimit | stallUs | drainMs | faultThreshold | holdThreshold |
      supplyMaskA | supplyMaskB | stageBasePage | stageLimitPage | stageBay | stageRegion |
      stageStartPage | stageMode | stageAbsentReads | stageAbsentWrites =>
    obtain ⟨x, -, rfl⟩ := Option.map_eq_some_iff.1 h
  all_goals
    refine ⟨rfl, fun j hj => ?_⟩
    cases j
    any_goals contradiction
    all_goals rfl

/-! ### READ_ITEM and WRITE_ITEM -/

theorem exec_readItem {c : Byte} {s : State} (h : Listening s) :
    exec (.readItem c) s =
      .next ((readItem c s).state.reply 1 (readItem c s).status (readItem c s).result) :=
  manage_of_listening (f := readItem c) h

theorem exec_readItem_code (i : Item) {s : State} (h : Listening s) :
    exec (.readItem i.code) s = .next (s.reply 1 .ok (wordBytes (readItemValue i s))) := by
  simp [exec_readItem h, readItem]

theorem exec_readItem_none {c : Byte} {s : State} (h : Listening s) (hc : itemOfCode c = none) :
    exec (.readItem c) s = .next (s.reply 1 .badArg []) := by
  simp [exec_readItem h, readItem, hc]

theorem exec_writeItem {c : Byte} {v : Word} {s : State} (h : Listening s) :
    exec (.writeItem c v) s =
      .next ((writeItem c v s).state.reply 5 (writeItem c v s).status (writeItem c v s).result) :=
  manage_of_listening (f := writeItem c v) h

theorem exec_writeItem_written {i : Item} {v : Word} {s t : State} (h : Listening s)
    (ht : writeItemValue i v s = some t) :
    exec (.writeItem i.code v) s = .next (t.reply 5 .ok []) := by
  simp [exec_writeItem h, writeItem, ht]

theorem exec_writeItem_refused {c : Byte} {v : Word} {s : State} (h : Listening s)
    (hno : ∀ i, itemOfCode c = some i → i.accepts v.toNat = false) :
    exec (.writeItem c v) s = .next (s.reply 5 .badArg []) := by
  have hbad : writeItem c v s = replyBad s .badArg := by
    cases hi : itemOfCode c with
    | none => simp [writeItem, hi]
    | some i =>
      have hnone : writeItemValue i v s = none := by
        rw [← Option.not_isSome_iff_eq_none, isSome_writeItemValue, hno i hi]
        exact Bool.false_ne_true
      simp [writeItem, hi, hnone]
  simp [exec_writeItem h, hbad]

/-- Settles O57: the table of the statements is that of the items, so each clause on a code is one on
the item that it names. A value is accepted exactly when the setting answers a state, which reads back
the value at that item and differs from the state before at no other. -/
theorem itemsReadBackAsWritten : Obligations.ItemsReadBackAsWritten := by
  refine ⟨fun code s hs => ⟨itemOfCode_eq_none_iff_gap.symm, ?_, exec_readItem_none hs, ?_, ?_⟩,
    fun code v s hs => ⟨?_, exec_writeItem_refused hs⟩⟩
  · simp [itemOfCode_eq_none_iff, mem_itemFields]
  · intro field hfield
    obtain ⟨i, hi⟩ := mem_itemFields.1 hfield
    cases hi
    exact exec_readItem_code i hs
  · intro i hi
    obtain rfl := itemOfCode_eq_some_iff.1 hi
    exact exec_readItem_code i hs
  · intro i hi haccepts
    obtain rfl := itemOfCode_eq_some_iff.1 hi
    rw [← isSome_writeItemValue i v s, Option.isSome_iff_exists] at haccepts
    obtain ⟨u, hu⟩ := haccepts
    have hvalue := readItemValue_written hu
    obtain ⟨frame, others⟩ := differsAt_written hu
    refine ⟨u, exec_writeItem_written hs hu, frame, fun p hp => ?_, hvalue, others⟩
    obtain ⟨j, rfl⟩ := mem_itemFields.1 hp
    by_cases hj : j = i
    · subst hj
      simp [hvalue]
    · simp [Item.code_inj, hj, others j hj]

end Sys2Proof.Machine
end

section
/-! PROOFS. The account of writes, the capacities and the order of acceptance through every step (R7,
R10, R55, R120, R122): each is kept by the ways in which the commands change the account. -/

namespace Sys2Proof.Machine

/-! ### One step -/

/-- A property of the account that every command keeps is kept by a step: taking a command off the queue,
and the passing of time on an empty queue, leave the account (R166). -/
theorem KeptByAccount.step {P : State → Prop} (k : KeptByAccount P) (s t : State) (h : P s)
    (e : step s = .next t) : P t := by
  unfold Machine.step at e
  split at e
  · exact KeptByAccount.live_keeps h (k.elapse h) e
  next c rest _ =>
    have hrest : P { s with pending := rest } := k.fields h rfl rfl ⟨rfl, rfl, rfl, rfl, rfl, rfl⟩
    exact exec_kept k c _ t hrest e

/-! ### The collections, from one bay -/

/-- A change of the state outside its bays leaves them. -/
@[simp] theorem State.bay_mk (s : State) (rst hrst : Bool) (deviceNumber : Word) (host : HostPort)
    (hostError : Option HostError) (windows : Vector Window 8) (staging : WindowRec) (items : Items)
    (accSource accepted committed lost : Word) (lossLog : List LossRecord)
    (summary : Option Summary) (nextOrd : Nat) (hold : List HoldEntry) (mountSeq : Word)
    (latches enables : BitVec 23) (frame : Frame) (frameError : Bool) (free : Nat)
    (pending : List Instr) (b : BayId) :
    State.bay
      { rst, hrst, deviceNumber, host, hostError, windows, staging, items, accSource, accepted,
        committed, lost, lossLog, summary, nextOrd, hold, mountSeq, bayA := s.bayA, bayB := s.bayB,
        latches, enables, frame, frameError, free, pending } b = s.bay b := by
  cases b <;> rfl

theorem occupancy_eq (b : BayId) (s : State) :
    occupancy s = (s.bay b).queue.length + (s.bay (otherBay b)).queue.length + s.hold.length := by
  cases b
  · rfl
  · simp only [occupancy, State.bay_B, otherBay_B, State.bay_A]
    omega

theorem outstanding_perm (b : BayId) (s : State) :
    (outstanding s).Perm ((s.bay b).queue.map QEntry.ord ++
      ((s.bay (otherBay b)).queue.map QEntry.ord ++ s.hold.map HoldEntry.ord)) := by
  cases b
  · exact .of_eq (List.append_assoc _ _ _)
  · exact (List.perm_append_comm.append_right _).trans (.of_eq (List.append_assoc _ _ _))

/-- What an absent acceptance leaves in the hold store (R124). -/
@[simp] theorem acceptAbsent_hold (a : Access) (n : Serial) (t : Stamp) (s : State) :
    (acceptAbsent a n t s).hold = s.hold ++ [absentEntry a n t s] := by
  unfold acceptAbsent joinNewest holdHigh
  split <;> rfl

@[simp] theorem joinEvacuated_hold (e : HoldEntry) (s : State) :
    (joinEvacuated e s).hold = ordInsert HoldEntry.ord e s.hold := by
  unfold joinEvacuated holdHigh
  split <;> rfl

/-- One offer to the hold store takes the entry, or loses it, and a host that waits on it is released
(R74, R125). -/
theorem evacuateOne_cases (s : State) (e : QEntry) :
    (s.hold.length < holdCapacity ∧ ∃ c,
        evacuateOne s e = (if e.through then releaseThrough c else id)
          (joinEvacuated ⟨e.ord, e.write, false⟩ s)) ∨
      (holdCapacity ≤ s.hold.length ∧ ∃ c,
        evacuateOne s e = (if e.through then releaseThrough c else id)
          (lose ⟨.holdFull, e.write, false⟩ s)) := by
  unfold evacuateOne
  dsimp only
  split
  next hroom =>
    refine .inl ⟨hroom, some .held, ?_⟩
    split <;> rfl
  next hfull =>
    refine .inr ⟨Nat.le_of_not_lt hfull, some .lost, ?_⟩
    split <;> rfl

theorem evacuateOne_hold (s : State) (e : QEntry) :
    (evacuateOne s e).hold =
      if s.hold.length < holdCapacity then ordInsert HoldEntry.ord ⟨e.ord, e.write, false⟩ s.hold
      else s.hold := by
  obtain ⟨h, c, hc⟩ | ⟨h, c, hc⟩ := evacuateOne_cases s e <;> rw [hc]
  · rw [if_pos h]; split <;> simp
  · rw [if_neg (Nat.not_lt.2 h)]; split <;> simp

theorem evacuateOne_lost (s : State) (e : QEntry) :
    (evacuateOne s e).lost = if s.hold.length < holdCapacity then s.lost else s.lost + 1 := by
  obtain ⟨h, c, hc⟩ | ⟨h, c, hc⟩ := evacuateOne_cases s e <;> rw [hc]
  · rw [if_pos h]; split <;> simp
  · rw [if_neg (Nat.not_lt.2 h)]; split <;> simp

/-- The entries of an evacuation are those of the queue, but for the flag of the head. -/
theorem flagHead_map_ord (f : Bool) (q : List QEntry) :
    (flagHead f q).map QEntry.ord = q.map QEntry.ord := by
  cases q with
  | nil => rfl
  | cons e es => cases f <;> rfl

theorem flagHead_length (f : Bool) (q : List QEntry) : (flagHead f q).length = q.length := by
  simpa using congrArg List.length (flagHead_map_ord f q)

/-- The order in which an evacuation offers the entries of a bay (R74, R125). -/
def evacuees (b : BayId) (s : State) : List QEntry :=
  ordSort QEntry.ord (flagHead (s.bay b).link.flagsHead (s.bay b).queue)

/-- The state in which the first entry is offered. -/
def emptied (b : BayId) (s : State) : State := modBay b (fun x => { x with queue := [] }) s

theorem evacuate_eq (b : BayId) (s : State) :
    evacuate b s = (evacuees b s).foldl evacuateOne (emptied b s) := rfl

@[simp] theorem evacuees_length (b : BayId) (s : State) :
    (evacuees b s).length = (s.bay b).queue.length := by
  simp [evacuees, flagHead_length]

theorem evacuees_map_ord_perm (b : BayId) (s : State) :
    ((evacuees b s).map QEntry.ord).Perm ((s.bay b).queue.map QEntry.ord) := by
  rw [← flagHead_map_ord (s.bay b).link.flagsHead (s.bay b).queue]
  exact (ordSort_perm _ _).map _

/-- Losing entries one after the other leaves the collections. -/
theorem discardEntries_hold (p : HoldEntry → Bool) (s : State) :
    (discardEntries p s).hold = s.hold.filter fun e => !p e := by
  unfold discardEntries
  simp

/-! ### The conservation law -/

/-- The account with `n` writes taken out of the collections and not yet counted elsewhere: the law of R7
inside a step. -/
def Owes (n : Nat) (s : State) : Prop :=
  s.accepted - s.committed - s.lost = BitVec.ofNat 32 (occupancy s + n)

theorem owes_zero {s : State} : Owes 0 s ↔ Accounted s := Iff.rfl

theorem Owes.congr {n m : Nat} {s t : State} (h : Owes n s) (hc : occupancy t + m = occupancy s + n)
    (ha : t.accepted = s.accepted) (hm : t.committed = s.committed) (hl : t.lost = s.lost) :
    Owes m t := by
  unfold Owes
  rw [ha, hm, hl, hc]
  exact h

/-- A loss counts one of the writes that are owed (R5). -/
theorem Owes.counted {n : Nat} {s t : State} (h : Owes (n + 1) s) (hc : occupancy t = occupancy s)
    (ha : t.accepted = s.accepted)
    (hm : t.committed = s.committed ∧ t.lost = s.lost + 1 ∨
      t.committed = s.committed + 1 ∧ t.lost = s.lost) : Owes n t := by
  unfold Owes at *
  have hn : BitVec.ofNat 32 (occupancy s + (n + 1)) = BitVec.ofNat 32 (occupancy s + n) + 1 := by
    rw [← Nat.add_assoc, BitVec.ofNat_add]
    rfl
  rw [hn] at h
  rw [ha, hc]
  obtain ⟨hm, hl⟩ | ⟨hm, hl⟩ := hm <;> rw [hm, hl] <;> bv_omega

theorem Owes.evacuateOne {n : Nat} {s : State} {e : QEntry} (h : Owes (n + 1) s) :
    Owes n (evacuateOne s e) := by
  by_cases hroom : s.hold.length < holdCapacity
  · refine h.congr ?_ (by simp) (by simp) (by rw [evacuateOne_lost, if_pos hroom])
    simp only [occupancy, evacuateOne_hold, if_pos hroom, evacuateOne_frame, ordInsert_length]
    omega
  · refine h.counted ?_ (by simp) (.inl ⟨by simp, by rw [evacuateOne_lost, if_neg hroom]⟩)
    simp [occupancy, evacuateOne_hold, if_neg hroom]

theorem Owes.foldl_evacuateOne {l : List QEntry} {s : State} (h : Owes l.length s) :
    Accounted (l.foldl Machine.evacuateOne s) := by
  induction l generalizing s with
  | nil => exact h
  | cons e l ih => exact ih h.evacuateOne

theorem Owes.foldl_lose {l : List HoldEntry} {f : HoldEntry → LossRecord} {s : State}
    (h : Owes l.length s) : Accounted (l.foldl (fun s e => lose (f e) s) s) := by
  induction l generalizing s with
  | nil => exact h
  | cons e l ih =>
    refine ih (h.counted ?_ (by simp) (.inl ⟨by simp, by simp⟩))
    simp [occupancy]

theorem accounted_congr {s t : State} (h : SameBooks s t) (hs : Accounted s) : Accounted t := by
  refine owes_zero.1 ((owes_zero.2 hs).congr ?_ h.accepted h.committed h.lost)
  have hA := h.queue .A
  have hB := h.queue .B
  simp only [State.bay_A, State.bay_B] at hA hB
  simp [occupancy, hA, hB, h.hold]

theorem evacuate_accounted {s : State} (b : BayId) (h : Accounted s) : Accounted (evacuate b s) := by
  rw [evacuate_eq]
  refine Owes.foldl_evacuateOne ((owes_zero.2 h).congr ?_ ?_ ?_ ?_) <;> try simp [emptied]
  rw [occupancy_eq b, occupancy_eq b s]
  simp only [modBay_bay, modBay_bay_other, modBay_frame, List.length_nil]
  omega

/-- An acceptance adds a write to the collections and counts it (R1, R7). -/
theorem Accounted.accept {s t : State} (h : Accounted s) (ho : occupancy t = occupancy s + 1)
    (ha : t.accepted = s.accepted + 1) (hm : t.committed = s.committed) (hl : t.lost = s.lost) :
    Accounted t := by
  unfold Accounted at *
  rw [ha, hm, hl, ho, BitVec.ofNat_add, ← h]
  bv_omega

@[simp] theorem acceptQueue_accepted (a : Access) (s : State) :
    (acceptQueue a s).accepted = s.accepted + 1 := by
  unfold acceptQueue
  dsimp only
  split <;> simp

@[simp] theorem acceptQueue_nextOrd (a : Access) (s : State) :
    (acceptQueue a s).nextOrd = s.nextOrd + 1 := by
  unfold acceptQueue
  dsimp only
  split <;> simp

theorem acceptQueue_accounted {s : State} (a : Access) (h : Accounted s) :
    Accounted (acceptQueue a s) := by
  refine h.accept ?_ (by simp) (by simp) (by simp)
  rw [occupancy_eq a.copy.bay, occupancy_eq a.copy.bay s]
  simp only [acceptQueue_bay, acceptQueue_bay_other, acceptQueue_frame, List.length_append,
    List.length_singleton]
  omega

theorem acceptAbsent_accounted {s : State} (a : Access) (n : Serial) (t : Stamp) (h : Accounted s) :
    Accounted (acceptAbsent a n t s) := by
  refine h.accept ?_ (by simp [acceptAbsent]) (by simp) (by simp)
  simp [occupancy]
  omega

theorem clearThrough_accounted {s : State} (b : BayId) (h : Accounted s) :
    Accounted (clearThrough b s) := by
  refine owes_zero.1 ((owes_zero.2 h).congr ?_ (by simp) (by simp) (by simp))
  rw [occupancy_eq b, occupancy_eq b s]
  simp

/-- What the moves of replay do to the bay and to the hold store (R131). -/
theorem replayMoves_fields (b : BayId) (s : State) :
    let r := takeFirst (eligible (s.bay b).mount) (queueCapacity - (s.bay b).queue.length) s.hold
    (replayMoves b s).bay b =
        { s.bay b with queue := (s.bay b).queue ++ r.1.map fun e => ⟨e.ord, e.write, false⟩ } ∧
      (replayMoves b s).bay (otherBay b) = s.bay (otherBay b) ∧ (replayMoves b s).hold = r.2 := by
  cases b <;> exact ⟨rfl, rfl, rfl⟩

theorem replayMoves_accounted {s : State} (b : BayId) (h : Accounted s) :
    Accounted (replayMoves b s) := by
  obtain ⟨hb, ho, hh⟩ := replayMoves_fields b s
  refine owes_zero.1 ((owes_zero.2 h).congr ?_ (by simp) (by simp) (by simp))
  have hlen := (takeFirst_length (eligible (s.bay b).mount)
    (queueCapacity - (s.bay b).queue.length) s.hold).2
  rw [occupancy_eq b, occupancy_eq b s, hb, ho, hh]
  simp only [List.length_append, List.length_map]
  omega

theorem discardEntries_accounted {s : State} (p : HoldEntry → Bool) (h : Accounted s) :
    Accounted (discardEntries p s) := by
  refine Owes.foldl_lose (f := fun e => ⟨.discarded, e.write, e.stale⟩) ((owes_zero.2 h).congr ?_ rfl rfl rfl)
  have hlen : s.hold.length = (s.hold.filter p).length + (s.hold.filter fun e => !p e).length :=
    List.length_eq_length_filter_add p
  simp only [occupancy]
  omega

theorem Owes.dropHead {b : BayId} {s : State} (hq : (s.bay b).queue ≠ []) (h : Accounted s) :
    Owes 1 (dropHead b s) := by
  refine (owes_zero.2 h).congr ?_ (by simp) (by simp) (by simp)
  have hpos : 0 < (s.bay b).queue.length := List.length_pos_iff.2 hq
  rw [occupancy_eq b, occupancy_eq b s]
  simp only [dropHead_bay, dropHead_bay_other, dropHead_frame, List.length_tail]
  omega

theorem dropHead_committed_accounted {s : State} (b : BayId) (hq : (s.bay b).queue ≠ [])
    (h : Accounted s) : Accounted (dropHead b { s with committed := s.committed + 1 }) := by
  have howed : Owes 1 (dropHead b s) := .dropHead hq h
  refine owes_zero.1 (howed.counted ?_ (by simp) (.inr (by simp)))
  cases b <;> rfl

@[simp] theorem countLoss_lost (b : BayId) (e : QEntry) (s : State) :
    (countLoss b e s).lost = s.lost + 1 := by
  unfold countLoss
  dsimp only
  split <;> simp

@[simp] theorem countLoss_hold (b : BayId) (e : QEntry) (s : State) :
    (countLoss b e s).hold = s.hold := by
  unfold countLoss
  dsimp only
  split <;> simp

theorem countLoss_accounted {s : State} (b : BayId) (e : QEntry) (hq : (s.bay b).queue ≠ [])
    (h : Accounted s) : Accounted (countLoss b e s) := by
  have howed : Owes 1 (dropHead b s) := .dropHead hq h
  refine owes_zero.1 (howed.counted ?_ (by simp) (.inl (by simp)))
  rw [occupancy_eq b, occupancy_eq b (dropHead b s)]
  simp

theorem accounted_keptByAccount : KeptByAccount Accounted where
  congr := accounted_congr
  evacuate := evacuate_accounted
  acceptQueue := fun a _ => acceptQueue_accounted a
  acceptAbsent := fun a n t _ => acceptAbsent_accounted a n t
  clearThrough := clearThrough_accounted
  replayMoves := replayMoves_accounted
  holdMap := fun f _ h =>
    owes_zero.1 ((owes_zero.2 h).congr (by simp [occupancy]) rfl rfl rfl)
  discard := discardEntries_accounted
  commit := dropHead_committed_accounted
  countLoss := countLoss_accounted
  zero := fun _ => accounted_zeroedCounts _
  pop := fun _ h => h
  por := fun _ => by simp [Accounted, occupancy, porState, State.reset, Bay.reset]

/-- Settles O5: inside a step the law holds with the writes that are out of the collections and not yet
counted, and each way in which the account changes leaves none of them. -/
theorem accountKept : Obligations.AccountKept := accounted_keptByAccount.step

/-! ### The capacities -/

theorem lose_log_within {r : LossRecord} {s : State} (h : s.lossLog.length ≤ logCapacity) :
    (lose r s).lossLog.length ≤ logCapacity := by
  unfold lose logLoss
  repeat' split
  · simpa using h
  next hlt =>
    simp only [setLatch_frame] at hlt
    simp only [setLatch_frame, List.length_append, List.length_singleton]
    omega
  · simpa using h

theorem evacuateOne_within {s : State} {e : QEntry}
    (h : s.hold.length ≤ holdCapacity ∧ s.lossLog.length ≤ logCapacity) :
    (evacuateOne s e).hold.length ≤ holdCapacity ∧
      (evacuateOne s e).lossLog.length ≤ logCapacity := by
  constructor
  · rw [evacuateOne_hold]
    split
    next hroom => rw [ordInsert_length]; exact hroom
    next => exact h.1
  · obtain ⟨-, c, hc⟩ | ⟨-, c, hc⟩ := evacuateOne_cases s e <;> rw [hc]
    · split <;> simpa using h.2
    · split
      · simpa using lose_log_within h.2
      · exact lose_log_within h.2

theorem foldl_evacuateOne_within {l : List QEntry} {s : State}
    (h : s.hold.length ≤ holdCapacity ∧ s.lossLog.length ≤ logCapacity) :
    (l.foldl evacuateOne s).hold.length ≤ holdCapacity ∧
      (l.foldl evacuateOne s).lossLog.length ≤ logCapacity := by
  induction l generalizing s with
  | nil => exact h
  | cons e l ih => exact ih (evacuateOne_within h)

theorem foldl_lose_log_within {f : HoldEntry → LossRecord} {l : List HoldEntry} {s : State}
    (h : s.lossLog.length ≤ logCapacity) :
    (l.foldl (fun s e => lose (f e) s) s).lossLog.length ≤ logCapacity := by
  induction l generalizing s with
  | nil => exact h
  | cons e l ih => exact ih (lose_log_within h)

/-- The capacities after a step, from what it does to one bay. -/
theorem WithinCapacity.of_bay {b : BayId} {s t : State} (h : WithinCapacity s)
    (hb : (t.bay b).queue.length ≤ queueCapacity)
    (ho : (t.bay (otherBay b)).queue = (s.bay (otherBay b)).queue)
    (hh : t.hold.length ≤ holdCapacity) (hl : t.lossLog.length ≤ logCapacity) :
    WithinCapacity t := by
  refine ⟨fun c => ?_, hh, hl⟩
  obtain rfl | rfl := eq_or_eq_otherBay b c
  · exact hb
  · rw [ho]; exact h.queue _

theorem evacuate_within {s : State} (b : BayId) (h : WithinCapacity s) :
    WithinCapacity (evacuate b s) := by
  have hfold := foldl_evacuateOne_within (l := evacuees b s) (s := emptied b s)
    (by simpa [emptied] using And.intro h.hold h.log)
  exact h.of_bay (b := b) (by simp) (by simp) hfold.1 hfold.2

theorem withinCapacity_keptByAccount : KeptByAccount WithinCapacity where
  congr := fun e h =>
    ⟨fun b => by rw [e.queue]; exact h.queue b, by rw [e.hold]; exact h.hold,
      by rw [e.lossLog]; exact h.log⟩
  evacuate := evacuate_within
  acceptQueue := fun a hroom h =>
    h.of_bay (b := a.copy.bay) (by simpa using hroom) (by simp) (by simpa using h.hold)
      (by simpa using h.log)
  acceptAbsent := fun a n t hroom h =>
    ⟨fun b => by simpa using h.queue b, by simpa using hroom, by simpa using h.log⟩
  clearThrough := fun b h =>
    h.of_bay (b := b) (by simpa using h.queue b) (by simp) (by simpa using h.hold)
      (by simpa using h.log)
  replayMoves := fun {s} b h => by
    obtain ⟨hb, ho, hh⟩ := replayMoves_fields b s
    have hlen := takeFirst_length (eligible (s.bay b).mount)
      (queueCapacity - (s.bay b).queue.length) s.hold
    have hq := h.queue b
    have hcap := h.hold
    refine h.of_bay (b := b) ?_ (by rw [ho]) ?_ (by simpa using h.log)
    · rw [hb]
      simp only [List.length_append, List.length_map]
      omega
    · rw [hh]
      omega
  holdMap := fun f _ h =>
    ⟨fun b => by cases b <;> [exact h.queue .A; exact h.queue .B], by simpa using h.hold, h.log⟩
  discard := fun p h =>
    ⟨fun b => by simpa using h.queue b,
      by rw [discardEntries_hold]; exact (List.length_filter_le _ _).trans h.hold,
      foldl_lose_log_within h.log⟩
  commit := fun {s} b _ h => by
    refine h.of_bay (b := b) ?_ (by simp) (by simpa using h.hold) (by simpa using h.log)
    have := h.queue b
    simp only [dropHead_bay, State.bay_mk, List.length_tail]
    omega
  countLoss := fun {s} b e _ h => by
    refine h.of_bay (b := b) ?_ (by simp) (by simpa using h.hold) ?_
    · have := h.queue b
      simp only [countLoss_bay, List.length_tail]
      omega
    · have hlog : (lose ⟨.writeFault, e.write, false⟩ (dropHead b s)).lossLog.length ≤ logCapacity :=
        lose_log_within (by simpa using h.log)
      unfold countLoss
      dsimp only
      split <;> simpa using hlog
  zero := fun {s} h => ⟨fun b => by cases b <;> [exact h.queue .A; exact h.queue .B], h.hold, h.log⟩
  pop := fun {s r rs} hl h => by
    have hlog := h.log
    rw [hl] at hlog
    exact ⟨fun b => by cases b <;> [exact h.queue .A; exact h.queue .B], h.hold,
      (Nat.le_succ _).trans hlog⟩
  por := fun s => by
    refine ⟨fun b => ?_, Nat.zero_le _, Nat.zero_le _⟩
    cases b <;> exact Nat.zero_le _

/-- Settles O6: each way in which a collection grows checks its capacity first. -/
theorem capacityKept : Obligations.CapacityKept := withinCapacity_keptByAccount.step

/-! ### The order of acceptance -/

/-- The order with the places `l` of writes that are out of the collections inside a step (R122). -/
structure InOrderBeside (l : List Nat) (s : State) : Prop where
  rising : (s.hold.map HoldEntry.ord).Pairwise (· < ·)
  distinct : (outstanding s ++ l).Nodup
  before : ∀ o ∈ outstanding s ++ l, o < s.nextOrd

theorem inOrderBeside_nil {s : State} : InOrderBeside [] s ↔ InOrder s :=
  ⟨fun h => ⟨h.rising, by simpa using h.distinct, by simpa using h.before⟩,
    fun h => ⟨h.rising, by simpa using h.distinct, by simpa using h.before⟩⟩

/-- No write is gained, and the hold store still rises. -/
theorem InOrderBeside.of_subperm {l m : List Nat} {s t : State} (h : InOrderBeside l s)
    (hr : (t.hold.map HoldEntry.ord).Pairwise (· < ·))
    (hsub : (outstanding t ++ m).Subperm (outstanding s ++ l)) (hn : t.nextOrd = s.nextOrd) :
    InOrderBeside m t := by
  obtain ⟨k, hk, hks⟩ := hsub
  refine ⟨hr, hk.nodup_iff.1 (hks.nodup h.distinct), fun o ho => ?_⟩
  rw [hn]
  exact h.before o (hks.subset (hk.mem_iff.2 ho))

theorem InOrder.of_subperm {s t : State} (h : InOrder s)
    (hr : (t.hold.map HoldEntry.ord).Pairwise (· < ·))
    (hsub : (outstanding t).Subperm (outstanding s)) (hn : t.nextOrd = s.nextOrd) : InOrder t :=
  inOrderBeside_nil.1 ((inOrderBeside_nil.2 h).of_subperm hr (by simpa using hsub) hn)

/-- An acceptance takes the next place, behind every outstanding write (R122). -/
theorem InOrder.accept {s t : State} (h : InOrder s)
    (hr : (t.hold.map HoldEntry.ord).Pairwise (· < ·))
    (hp : (outstanding t).Perm (s.nextOrd :: outstanding s)) (hn : t.nextOrd = s.nextOrd + 1) :
    InOrder t := by
  refine ⟨hr, hp.nodup_iff.2 (List.nodup_cons.2 ⟨fun hc => ?_, h.distinct⟩), fun o ho => ?_⟩
  · exact Nat.lt_irrefl _ (h.before _ hc)
  · rw [hn]
    obtain rfl | ho := List.mem_cons.1 (hp.mem_iff.1 ho)
    · exact Nat.lt_succ_self _
    · exact Nat.lt_succ_of_lt (h.before o ho)

theorem InOrderBeside.evacuateOne {e : QEntry} {l : List Nat} {s : State}
    (h : InOrderBeside (e.ord :: l) s) : InOrderBeside l (evacuateOne s e) := by
  have hnot : e.ord ∉ s.hold.map HoldEntry.ord := fun hc => by
    have hdis := (List.nodup_append.1 h.distinct).2.2
    exact hdis e.ord (by simp only [outstanding, List.mem_append]; exact .inr hc) e.ord
      List.mem_cons_self rfl
  have hout : outstanding (Machine.evacuateOne s e) =
      s.bayA.queue.map QEntry.ord ++ s.bayB.queue.map QEntry.ord ++
        (Machine.evacuateOne s e).hold.map HoldEntry.ord := by
    simp [outstanding]
  by_cases hroom : s.hold.length < holdCapacity
  · refine h.of_subperm ?_ ?_ (by simp)
    · rw [evacuateOne_hold, if_pos hroom]
      exact ordInsert_rising _ _ _ h.rising hnot
    · rw [hout, evacuateOne_hold, if_pos hroom]
      have hins := (ordInsert_perm HoldEntry.ord ⟨e.ord, e.write, false⟩ s.hold).map HoldEntry.ord
      refine (List.Perm.trans ((hins.append_left _).append_right l) ?_).subperm
      simp only [List.map_cons, outstanding, List.append_assoc, List.cons_append]
      exact (List.perm_middle.symm.append_left _).append_left _
  · refine h.of_subperm ?_ ?_ (by simp)
    · rw [evacuateOne_hold, if_neg hroom]
      exact h.rising
    · rw [hout, evacuateOne_hold, if_neg hroom]
      exact ((List.sublist_cons_self _ _).append_left _).subperm

theorem InOrderBeside.foldl_evacuateOne {l : List QEntry} {s : State}
    (h : InOrderBeside (l.map QEntry.ord) s) : InOrder (l.foldl Machine.evacuateOne s) := by
  induction l generalizing s with
  | nil => exact inOrderBeside_nil.1 h
  | cons e l ih => exact ih h.evacuateOne

/-- The entries of a bay leave its queue to be offered to the hold store. -/
theorem emptied_inOrderBeside {s : State} (b : BayId) (h : InOrder s) :
    InOrderBeside ((evacuees b s).map QEntry.ord) (emptied b s) := by
  refine (inOrderBeside_nil.2 h).of_subperm (by simpa [emptied] using h.rising) ?_ (by simp [emptied])
  refine List.Perm.subperm ?_
  rw [List.append_nil]
  refine ((outstanding_perm b _).append_right _).trans ?_
  refine List.Perm.trans ?_ (outstanding_perm b s).symm
  simp only [emptied, modBay_bay, modBay_bay_other, modBay_frame, List.map_nil, List.nil_append]
  exact List.perm_append_comm.trans ((evacuees_map_ord_perm b s).append_right _)

theorem evacuate_inOrder {s : State} (b : BayId) (h : InOrder s) : InOrder (evacuate b s) :=
  (emptied_inOrderBeside b h).foldl_evacuateOne

theorem acceptQueue_inOrder {s : State} (a : Access) (h : InOrder s) : InOrder (acceptQueue a s) := by
  refine h.accept (by simpa using h.rising) ?_ (by simp)
  refine (outstanding_perm a.copy.bay _).trans ?_
  refine List.Perm.trans ?_ ((outstanding_perm a.copy.bay s).symm.cons _)
  simp only [acceptQueue_bay, acceptQueue_bay_other, acceptQueue_frame, List.map_append,
    List.map_cons, List.map_nil, acceptedEntry, List.append_assoc]
  exact List.perm_middle

theorem acceptAbsent_inOrder {s : State} (a : Access) (n : Serial) (t : Stamp) (h : InOrder s) :
    InOrder (acceptAbsent a n t s) := by
  refine h.accept ?_ ?_ (by simp [acceptAbsent])
  · rw [acceptAbsent_hold, List.map_append, List.pairwise_append]
    refine ⟨h.rising, by simp, fun o ho p hp => ?_⟩
    obtain rfl : p = s.nextOrd := by simpa [absentEntry] using hp
    exact h.before o (List.mem_append_right _ ho)
  · simp only [outstanding, acceptAbsent_frame, acceptAbsent_hold, List.map_append, List.map_cons,
      List.map_nil, absentEntry]
    rw [← List.append_assoc]
    exact List.perm_append_singleton _ _

theorem replayMoves_inOrder {s : State} (b : BayId) (h : InOrder s) : InOrder (replayMoves b s) := by
  obtain ⟨hb, ho, hh⟩ := replayMoves_fields b s
  generalize hr : takeFirst (eligible (s.bay b).mount) (queueCapacity - (s.bay b).queue.length)
    s.hold = r at hb hh
  have hperm := takeFirst_perm (eligible (s.bay b).mount)
    (queueCapacity - (s.bay b).queue.length) s.hold
  have hsub := (takeFirst_sublist (eligible (s.bay b).mount)
    (queueCapacity - (s.bay b).queue.length) s.hold).2
  rw [hr] at hperm hsub
  refine h.of_subperm ?_ (List.Perm.subperm ?_) (by simp)
  · rw [hh]
    exact h.rising.sublist (hsub.map _)
  · refine (outstanding_perm b _).trans (List.Perm.trans ?_ (outstanding_perm b s).symm)
    have hmoved : (r.1.map fun e => (⟨e.ord, e.write, false⟩ : QEntry)).map QEntry.ord =
        r.1.map HoldEntry.ord := by simp
    rw [hb, ho, hh]
    simp only [List.map_append, hmoved, List.append_assoc]
    refine List.Perm.append_left _ ?_
    rw [← List.append_assoc]
    refine (List.perm_append_comm.append_right _).trans ?_
    rw [List.append_assoc, ← List.map_append]
    exact (hperm.map _).append_left _

theorem discardEntries_inOrder {s : State} (p : HoldEntry → Bool) (h : InOrder s) :
    InOrder (discardEntries p s) := by
  have hsub : (discardEntries p s).hold.Sublist s.hold := by
    rw [discardEntries_hold]
    exact List.filter_sublist
  refine h.of_subperm (h.rising.sublist (hsub.map _)) ?_ (by simp)
  simp only [outstanding, discardEntries_frame]
  exact ((hsub.map _).append_left _).subperm

/-- The departure of a head entry (R65, R66). -/
theorem InOrder.tail {b : BayId} {s t : State} (h : InOrder s)
    (hb : (t.bay b).queue = (s.bay b).queue.tail)
    (ho : (t.bay (otherBay b)).queue = (s.bay (otherBay b)).queue) (hh : t.hold = s.hold)
    (hn : t.nextOrd = s.nextOrd) : InOrder t := by
  refine h.of_subperm (hh ▸ h.rising) ?_ hn
  refine (outstanding_perm b t).subperm.trans (List.Subperm.trans ?_ (outstanding_perm b s).symm.subperm)
  rw [hb, ho, hh]
  exact (((List.tail_sublist _).map _).append_right _).subperm

theorem inOrder_keptByAccount : KeptByAccount InOrder where
  congr := fun {s t} e h => by
    have hA := e.queue .A
    have hB := e.queue .B
    have hh := e.hold
    simp only [State.bay_A, State.bay_B] at hA hB
    exact h.of_subperm (by rw [hh]; exact h.rising)
      (List.Perm.of_eq (by simp [outstanding, hA, hB, hh])).subperm e.nextOrd
  evacuate := evacuate_inOrder
  acceptQueue := fun a _ => acceptQueue_inOrder a
  acceptAbsent := fun a n t _ => acceptAbsent_inOrder a n t
  clearThrough := fun {s} b h => by
    refine h.of_subperm (by simpa using h.rising) (List.Perm.subperm ?_) (by simp)
    refine (outstanding_perm b _).trans (List.Perm.trans (.of_eq ?_) (outstanding_perm b s).symm)
    simp
  replayMoves := replayMoves_inOrder
  holdMap := fun {s} f hf h => by
    have hmap : (s.hold.map f).map HoldEntry.ord = s.hold.map HoldEntry.ord := by simp [hf]
    refine h.of_subperm (by rw [hmap]; exact h.rising) (List.Perm.of_eq ?_).subperm rfl
    unfold outstanding
    rw [hmap]
  discard := discardEntries_inOrder
  commit := fun {s} b _ h => by
    exact h.tail (b := b) (by simp) (by simp) (by simp) (by simp)
  countLoss := fun b e _ h => h.tail (b := b) (by simp) (by simp) (by simp) (by simp)
  zero := fun h => ⟨h.rising, h.distinct, h.before⟩
  pop := fun _ h => ⟨h.rising, h.distinct, h.before⟩
  por := fun s => by
    refine ⟨?_, ?_, ?_⟩ <;> simp [outstanding, porState, State.reset, Bay.reset]

/-- Settles O7: writes move between the collections, or leave them, with the place that they took behind
all others at their acceptance. -/
theorem orderKept : Obligations.OrderKept := inOrder_keptByAccount.step

end Sys2Proof.Machine
end

section
/-! PROOFS. What one command does, said once for all of them: the effect of an event or of a management
command, after the request-high time that it may come after. The statements about every command rest
on it. -/

namespace Sys2Proof.Machine

/-! ### The effect of a command -/

/-- The number of argument bytes and the meaning of a management command; none for the other rows
(section 9.6). BAD_COMMAND of a code that names a command is no row. -/
def command : Instr → Option (Nat × (State → Reply))
  | .badCommand code =>
      if cmdOfCode code = none then some (0, fun s => replyBad s .badCommand) else none
  | .readStatus => some (0, readStatus)
  | .readItem code => some (1, readItem code)
  | .writeItem code v => some (5, writeItem code v)
  | .writeEventEnable v => some (5, writeItem eventEnableCode v)
  | .commitWindow n => some (1, commitWindow n)
  | .disableWindow n => some (1, disableWindow n)
  | .readWindow n => some (1, readWindow n)
  | .readBay n => some (1, onBay n readBay)
  | .eject n => some (1, onBay n eject)
  | .cancelEject n => some (1, onBay n cancelEject)
  | .retryBay n k => some (1, onBay n (retryBay k))
  | .forget n => some (1, onBay n forget)
  | .forceReplay n _ => some (1, onBay n forceReplay)
  | .discardHeld serial scope => some (9, discardHeld serial scope)
  | .readHold i => some (1, readHold i)
  | .popLoss => some (0, popLoss)
  | .readCounts => some (0, readCounts)
  | .zeroCounts => some (0, zeroCounts)
  | .readError => some (0, readError)
  | .readEvents => some (0, readEvents)
  | .clearEvents v => some (4, clearEvents v)
  | .por | .hrst _ _ | .classification _ | .mainAccessReady _ | .accessEnd | .hostWithdrawal _
  | .stallTimerExpiry _ | .waitingWriteAccepted | .stalledAccessRehandled | .linkGrant _
  | .commit _ _ | .failedAttempt _ _ | .responseTimeout _ _ | .readTransferAnswer _ _ _
  | .descriptorReadAnswer _ _ _ _ | .bindingWriteAnswer _ _ | .abandonedTransferEnd _ | .detectMake _
  | .debounceBreak _ _ | .debounceExpiry _ _ | .powerGoodRise _ | .powerTimerExpiry _
  | .identificationTimerExpiry _ | .powerLoss _ _ | .removal _ _ _ | .removalDuringMount _ _
  | .removalOfStoppedCarrier _ _ | .drainTimeout _ _ | .replayMove _ | .frameStart | .frameEnd
  | .frameDiscard _ | .resetEnd _ _ _ _ => none

/-- What an event does to the part; nothing for the management commands and for POR and RESET_END, which
act under RST#. -/
def event : Instr → State → State
  | .hrst asserted _ => hrstEffect asserted
  | .classification c => classify c
  | .mainAccessReady md => mainReady md
  | .accessEnd => accessEnd
  | .hostWithdrawal _ => abandonAccess
  | .stallTimerExpiry _ => stallExpiry
  | .waitingWriteAccepted => acceptWaiting
  | .stalledAccessRehandled => rehandle
  | .linkGrant b => grantLink b
  | .commit b _ => commitHead b
  | .failedAttempt b _ => failAttempt b
  | .responseTimeout b _ => failAttempt b
  | .readTransferAnswer b data _ => readAnswer b data
  | .descriptorReadAnswer b data lock _ => descriptorAnswer b data lock
  | .bindingWriteAnswer b _ => bindingAnswer b
  | .abandonedTransferEnd b => abandonedEnd b
  | .detectMake b => detectMake b
  | .debounceBreak b c => debounceBreak b c
  | .debounceExpiry b k => debounceExpiry b k
  | .powerGoodRise b => powerGoodRise b
  | .powerTimerExpiry b => powerTimerExpiry b
  | .identificationTimerExpiry b => identTimerExpiry b
  | .powerLoss b _ => powerLoss b
  | .removal b c _ => removeServing b c
  | .removalDuringMount b c => removeMounting b c
  | .removalOfStoppedCarrier b c => removeStopped b c
  | .drainTimeout b _ => drainTimeout b
  | .replayMove b => replayMove b
  | .frameStart => frameStart
  | .frameEnd => frameEnd
  | .frameDiscard bits => frameDiscard bits
  | .por | .badCommand _ | .readStatus | .readItem _ | .writeItem _ _ | .writeEventEnable _
  | .commitWindow _ | .disableWindow _ | .readWindow _ | .readBay _ | .eject _ | .cancelEject _
  | .retryBay _ _ | .forget _ | .forceReplay _ _ | .discardHeld _ _ | .readHold _ | .popLoss
  | .readCounts | .zeroCounts | .readError | .readEvents | .clearEvents _ | .resetEnd _ _ _ _ => id

/-- What a row does to the part out of reset. -/
def effect (c : Instr) : State → State :=
  match command c with
  | some (n, f) => runCommand n f
  | none => event c

/-- Every command but the two that act under RST# has its effect out of reset, after the request-high
time if it comes after that. -/
theorem exec_eq_live {c : Instr} (hpor : c ≠ .por) (hend : ∀ a b d e, c ≠ .resetEnd a b d e)
    (s : State) : exec c s = live (timed c.passed (effect c)) s := by
  cases c
  case por => exact absurd rfl hpor
  case resetEnd a b d e => exact absurd rfl (hend a b d e)
  case badCommand code =>
    change execBadCommand code s = _
    unfold execBadCommand
    cases hcode : cmdOfCode code with
    | none => simp [effect, command, hcode, manage, Instr.passed]
    | some c => simp [effect, command, event, hcode, live, Instr.passed]
  all_goals rfl

/-- An event that comes at once. -/
theorem exec_event {c : Instr} {s : State} (hpor : c ≠ .por) (hend : ∀ a b d e, c ≠ .resetEnd a b d e)
    (hrst : s.rst = false) (hpassed : c.passed = false) : exec c s = .next (effect c s) := by
  rw [exec_eq_live hpor hend, hpassed, timed_false, live_next hrst]

/-! ### One step, from what each row does -/

/-- From the states of `Q`, whatever the part does in one step leads to the states of `P`. -/
structure Leads (Q P : State → Prop) : Prop where
  stays : ∀ {s}, Q s → P s
  elapse : ∀ {s}, Q s → Q (elapse s)
  frame : ∀ {s} (f : Frame), P s → P { s with frame := f }
  por : ∀ {s}, Q s → P (porState s)
  resetEnd : ∀ {s} (a b d e : Bool), s.rst = true → Q s → P (resetEnd a b d e s)
  event : ∀ {s} (c : Instr), s.rst = false → Q s → P (event c s)
  reply : ∀ {s} (c : Instr) (n : Nat) (f : State → Reply), command c = some (n, f) →
    s.rst = false → Q s → P (f s).state

namespace Leads

variable {Q P : State → Prop} (k : Leads Q P)
include k

theorem effect (c : Instr) {s : State} (hrst : s.rst = false) (h : Q s) : P (effect c s) := by
  unfold Machine.effect
  cases hf : command c with
  | none => exact k.event c hrst h
  | some p =>
    change P (runCommand p.1 p.2 s)
    unfold runCommand
    split
    · exact k.frame _ (k.reply c p.1 p.2 hf hrst h)
    all_goals exact k.stays h

theorem live {f : State → State} {s t : State} (h : Q s) (hf : s.rst = false → P (f s))
    (e : live f s = .next t) : P t := by
  unfold Machine.live at e
  cases hrst : s.rst <;> rw [hrst] at e <;> cases e
  · exact hf hrst
  · exact k.stays h

theorem exec (c : Instr) {s t : State} (h : Q s) (e : exec c s = .next t) : P t := by
  by_cases hpor : c = .por
  · subst hpor
    cases e
    exact k.por h
  by_cases hend : ∃ a b d e, c = .resetEnd a b d e
  · obtain ⟨a, b, d, e', rfl⟩ := hend
    change execResetEnd a b d s e' = .next t at e
    unfold execResetEnd at e
    cases hrst : s.rst <;> rw [hrst] at e <;> cases e
    · exact k.stays h
    · exact k.resetEnd a b d e' hrst h
  · have hend' : ∀ a b d e, c ≠ .resetEnd a b d e := fun a b d e hc => hend ⟨a, b, d, e, hc⟩
    rw [exec_eq_live hpor hend'] at e
    refine k.live h (fun hrst => ?_) e
    cases c.passed
    · exact k.effect c hrst h
    · exact k.effect c (by simpa using hrst) (k.elapse h)

theorem step (hpending : ∀ {s} (l : List Instr), Q s → Q { s with pending := l }) (s t : State)
    (h : Q s) (e : step s = .next t) : P t := by
  unfold Machine.step at e
  split at e
  · exact k.live h (fun _ => k.stays (k.elapse h)) e
  · exact k.exec _ (hpending _ h) e

end Leads

/-! ### What no event and no management command changes -/

/-- No event changes the fused device number, the windows, the items, the enables, or the queue of
commands. -/
theorem event_frame (c : Instr) (s : State) :
    (event c s).rst = s.rst ∧ (event c s).deviceNumber = s.deviceNumber ∧
      (event c s).windows = s.windows ∧ (event c s).staging = s.staging ∧
      (event c s).items = s.items ∧ (event c s).enables = s.enables ∧
      (event c s).pending = s.pending := by
  cases c <;>
    simp only [event, hrstEffect, hostReset, classify, beginMain, mainReady, accessEnd, stallExpiry,
      acceptWaiting, rehandle, commitHead, readAnswer, descriptorAnswer, bindingAnswer, abandonedEnd,
      detectMake, debounceBreak, debounceExpiry, powerGoodRise, powerTimerExpiry, identTimerExpiry,
      powerLoss, removeServing, removeMounting, removeStopped, drainTimeout, replayMove, frameStart,
      frameEnd, frameDiscard] <;>
    repeat' split
  all_goals simp

theorem writeItemValue_frame {i : Item} {v : Word} {s t : State}
    (h : writeItemValue i v s = some t) :
    t.rst = s.rst ∧ t.hrst = s.hrst ∧ t.host = s.host ∧ t.windows = s.windows ∧ t.hold = s.hold ∧
      t.bayA = s.bayA ∧ t.bayB = s.bayB ∧ t.latches = s.latches ∧ t.pending = s.pending := by
  rw [(differsAt_written h).frame]
  simp

/-- No management command changes RST#, HRST# or the queue of commands. -/
theorem command_frame {c : Instr} {n : Nat} {f : State → Reply} (h : command c = some (n, f))
    (s : State) :
    (f s).state.rst = s.rst ∧ (f s).state.hrst = s.hrst ∧ (f s).state.pending = s.pending := by
  have hwrite (code : Byte) (v : Word) : (writeItem code v s).state.rst = s.rst ∧
      (writeItem code v s).state.hrst = s.hrst ∧
      (writeItem code v s).state.pending = s.pending := by
    unfold writeItem
    repeat' split
    · exact ⟨rfl, rfl, rfl⟩
    next t ht =>
      obtain ⟨hrst, hhrst, -, -, -, -, -, -, hpending⟩ := writeItemValue_frame ht
      exact ⟨hrst, hhrst, hpending⟩
    · exact ⟨rfl, rfl, rfl⟩
  cases c <;> simp only [command, Option.some.injEq, Prod.mk.injEq, reduceCtorEq] at h
  case badCommand =>
    split at h <;> cases h
    exact ⟨rfl, rfl, rfl⟩
  all_goals obtain ⟨-, rfl⟩ := h
  case writeItem | writeEventEnable => exact hwrite _ _
  all_goals
    simp only [readStatus, readItem, commitWindow, disableWindow, readWindow, onBay, readBay, eject,
      cancelEject, retryBay, forget, forceReplay, discardHeld, readHold, popLoss, readCounts,
      zeroCounts, readError, readEvents, clearEvents, clearLatches]
    repeat' split
    all_goals simp

/-! ### The block and its queue of commands -/

theorem elapse_bay (b : BayId) (s : State) :
    (elapse s).bay b = (s.bay b).elapse s.items.responseUs := by cases b <;> rfl

theorem Link.elapse_eq (n : BitVec 8) (l : Link) :
    l.elapse n =
      match l with
      | .held h t =>
          .held h { t with phase := match t.phase with
            | .requested m => .requested m
            | _ => .requested n }
      | l => l := by
  rcases l with _ | ⟨h, ⟨_, _, _, _, _, _, p⟩⟩ | t
  · rfl
  · cases p <;> rfl
  · rfl

/-- No command changes the queue of commands. -/
theorem leads_pending (l : List Instr) :
    Leads (fun s => s.pending = l) (fun s => s.pending = l) where
  stays := id
  elapse := fun h => by simpa using h
  frame := fun _ h => h
  por := id
  resetEnd := fun a b d e _ h => by simp [resetEnd, h]
  event := fun {s} c _ h => by
    obtain ⟨-, -, -, -, -, -, hpending⟩ := event_frame c s
    rw [hpending, h]
  reply := fun {s} c n f hf _ h => by
    obtain ⟨-, -, hpending⟩ := command_frame hf s
    rw [hpending, h]

@[simp] theorem atOnce_passed (c : Instr) : c.atOnce.passed = false := by cases c <;> rfl

@[simp] theorem effect_atOnce (c : Instr) : effect c.atOnce = effect c := by cases c <;> rfl

theorem eq_por_of_atOnce {c : Instr} (h : c.atOnce = .por) : c = .por := by
  cases c <;> simp_all [Instr.atOnce]

theorem eq_resetEnd_of_atOnce {c : Instr} {a b d e : Bool} (h : c.atOnce = .resetEnd a b d e) :
    c = .resetEnd a b d e := by
  cases c <;> simp_all [Instr.atOnce]

/-- An event after the request-high time is the event at once in the state that the time leaves
(R166). -/
theorem exec_passed {c : Instr} {s : State} (hrst : s.rst = false) (hpassed : c.passed = true) :
    exec c s = exec c.atOnce (elapse s) := by
  have hpor : c ≠ .por := by rintro rfl; cases hpassed
  have hend : ∀ a b d e, c ≠ .resetEnd a b d e := by rintro a b d e rfl; cases hpassed
  have hpor' : c.atOnce ≠ .por := fun h => hpor (eq_por_of_atOnce h)
  have hend' : ∀ a b d e, c.atOnce ≠ .resetEnd a b d e := fun a b d e h =>
    hend a b d e (eq_resetEnd_of_atOnce h)
  rw [exec_event hpor' hend' (by simpa using hrst) (atOnce_passed c), effect_atOnce,
    exec_eq_live hpor hend, hpassed, live_next hrst, timed_true]

/-- Settles O1: `step` is `exec` on the queue's front, no command touches the queue, and `timed` puts the
passing of time before the event. -/
theorem stepRunsTheFrontCommand : Obligations.StepRunsTheFrontCommand := by
  refine ⟨fun c rest s h => ?_, fun s h => ?_, fun c s t e => ?_, fun c s => exec_passed,
    fun s => ⟨rfl, fun b => ?_⟩⟩
  · simp [Machine.step, h]
  · simp [Machine.step, h, live]
  · exact (leads_pending s.pending).exec c rfl e
  · exact (elapse_bay b s).trans
      (congrArg (fun l => ({ s.bay b with reqHigh := false, link := l } : Bay)) (Link.elapse_eq _ _))

/-- Settles O2: every row but the two that act under RST# is `live`, which answers the state itself while
RST# is asserted. -/
theorem everyCommandAnswers : Obligations.EveryCommandAnswers := by
  intro c s
  by_cases hpor : c = .por
  · subst hpor
    exact ⟨_, rfl, fun _ h => absurd rfl h⟩
  by_cases hend : ∃ a b d e, c = .resetEnd a b d e
  · obtain ⟨a, b, d, e, rfl⟩ := hend
    exact ⟨_, rfl, fun _ _ h => absurd rfl (h a b d e)⟩
  · have hend' : ∀ a b d e, c ≠ .resetEnd a b d e := fun a b d e hc => hend ⟨a, b, d, e, hc⟩
    refine ⟨_, exec_eq_live hpor hend' s, fun hrst _ _ => ?_⟩
    rw [if_pos hrst]

/-! ### Reset -/

/-- What detect sampling does to the bay when RST# is negated (R80). -/
theorem detectSample_sampleDetect_bay (b : BayId) (seated : Bool) (s : State)
    (h : (s.bay b).state = .empty) :
    (detectSample b (sampleDetect b seated s)).bay b =
      { s.bay b with
        state := if seated then .debounce else .empty
        debounceTimer := if seated then some s.items.debounceMs else (s.bay b).debounceTimer
        mount := if seated then { (s.bay b).mount with cause := .none } else (s.bay b).mount
        contacts := { (s.bay b).contacts with det1 := seated, det2 := seated } } := by
  cases seated <;> simp [detectSample, sampleDetect, Bay.enter, h]

@[simp] theorem detectSample_bay_other (b : BayId) (s : State) :
    (detectSample b s).bay (otherBay b) = s.bay (otherBay b) := by
  unfold detectSample
  dsimp only
  split <;> simp

@[simp] theorem sampleDetect_bay_other (b : BayId) (seated : Bool) (s : State) :
    (sampleDetect b seated s).bay (otherBay b) = s.bay (otherBay b) := by simp [sampleDetect]

/-- RESET_END reaches the two bays, and three fields beside them (R53, R80, R165). -/
theorem resetEnd_frame (seatedA seatedB scsLow hrstLow : Bool) (s : State) :
    resetEnd seatedA seatedB scsLow hrstLow s =
      { s with
        rst := false, hrst := hrstLow, frame := if scsLow then .waitRise else .idle
        bayA := (resetEnd seatedA seatedB scsLow hrstLow s).bayA
        bayB := (resetEnd seatedA seatedB scsLow hrstLow s).bayB } := by
  unfold resetEnd detectSample
  dsimp only
  repeat' split
  all_goals rfl

/-- Settles O3: the state under RST# is written out field by field, and RESET_END samples one bay after
the other. -/
theorem resetClearsThePart : Obligations.ResetClearsThePart := by
  refine ⟨fun s => rfl, fun seatedA seatedB scsLow hrstLow s hrst hA hB => ?_⟩
  refine ⟨resetEnd seatedA seatedB scsLow hrstLow s, ?_, resetEnd_frame _ _ _ _ s, fun b => ?_⟩
  · change execResetEnd seatedA seatedB scsLow s hrstLow = _
    simp [execResetEnd, hrst]
  · generalize hu : ({ s with
      rst := false, hrst := hrstLow, frame := if scsLow then .waitRise else .idle } : State) = u
    have hbay (c : BayId) : u.bay c = s.bay c := by subst hu; simp
    have hitems : u.items = s.items := by subst hu; rfl
    have hend : resetEnd seatedA seatedB scsLow hrstLow s =
        detectSample .B (sampleDetect .B seatedB (detectSample .A (sampleDetect .A seatedA u))) := by
      subst hu; rfl
    rw [hend]
    cases b
    · have hother (v : State) :
          (detectSample .B (sampleDetect .B seatedB v)).bay .A = v.bay .A :=
        (detectSample_bay_other .B _).trans (sampleDetect_bay_other .B _ _)
      refine ⟨seatedA, rfl, ?_⟩
      rw [hother, detectSample_sampleDetect_bay .A _ _ (by rw [hbay]; exact hA), hbay, hitems]
    · have hother : (detectSample .A (sampleDetect .A seatedA u)).bay .B = s.bay .B :=
        (detectSample_bay_other .A _).trans ((sampleDetect_bay_other .A _ _).trans (hbay .B))
      refine ⟨seatedB, rfl, ?_⟩
      rw [detectSample_sampleDetect_bay .B _ _ (by rw [hother]; exact hB), hother]
      simp [hitems]

theorem Bay.Lawful.reset (k : Contacts) : (Bay.reset k).Lawful := by
  constructor <;> simp [Bay.reset, MountRecord.cleared, BayState.powered, BayState.allows,
    BayState.serving, Link.allowed, Link.heldByDrain, Link.timely]

theorem reset_bay (b : BayId) : State.reset.bay b = .reset .none := by cases b <;> rfl

theorem Items.reset_lawful : ItemsLawful .reset := by
  constructor <;> decide

theorem replicate_disabled_lawful (w : WindowRec) :
    WindowsLawful (Vector.replicate 8 ⟨false, w⟩) := by
  constructor <;> simp

/-- Settles O4: no write is outstanding, no window is enabled, no carrier is seated and no access is in
progress, so that each law speaks of nothing but the items. -/
theorem resetStateIsLawful : Obligations.ResetStateIsLawful := by
  refine ⟨rfl, ⟨fun b => ?_, Nat.zero_le _, Nat.zero_le _⟩, ⟨.nil, .nil, ?_⟩,
    replicate_disabled_lawful _, Items.reset_lawful, fun b => ?_, ?_, ?_, ?_⟩
  · simp [reset_bay, Bay.reset]
  · simp [outstanding, State.reset, Bay.reset]
  · rw [reset_bay]; exact .reset _
  · intro h; simp [State.reset, Bay.reset, Bay.identified, BayState.serving] at h
  · have hhost : State.reset.host = .idle := rfl
    constructor <;> simp [reset_bay, hhost, Bay.reset, Link.heldByRead, NoGrantDue, requester,
      waitingRead, BayState.serving]
  · rw [mountsAgree_iff]
    intro b
    rw [reset_bay]
    exact ⟨.out rfl rfl (Nat.zero_le _), .out rfl⟩

end Sys2Proof.Machine
end

section
/-! PROOFS. The laws of the bays, the windows and the items through every step (R18 to R24, R77 to R85,
R101, R118, R158, R166). -/

namespace Sys2Proof.Machine

/-! ### The laws of the two bays -/

theorem setFields_lawful {s t : State} (h : BaysLawful s) (hA : t.bayA = s.bayA)
    (hB : t.bayB = s.bayB) : BaysLawful t := h.congr (State.bay_congr hA hB)

theorem classify_lawful {c : HostCycle} {s : State} (h : BaysLawful s) : BaysLawful (classify c s) := by
  unfold classify beginMain
  dsimp only
  repeat' split
  all_goals first
    | exact grantLink_lawful (handleAccess_lawful h)
    | exact setFields_lawful h rfl rfl

theorem stallExpiry_lawful {s : State} (h : BaysLawful s) : BaysLawful (stallExpiry s) := by
  unfold stallExpiry
  repeat' split
  all_goals first
    | exact releaseError_lawful.2 (clearThrough_lawful h)
    | exact grantLink_lawful (releaseError_lawful.2 (abandonRead_lawful h))
    | exact releaseError_lawful.2 h
    | exact h

theorem acceptWaiting_lawful {s : State} (h : BaysLawful s) : BaysLawful (acceptWaiting s) := by
  unfold acceptWaiting
  dsimp only
  repeat' split
  next hready => exact grantLink_lawful (acceptQueue_lawful h hready.1)
  all_goals exact h

theorem rehandle_lawful {s : State} (h : BaysLawful s) : BaysLawful (rehandle s) := by
  unfold rehandle
  repeat' split
  all_goals first
    | exact grantLink_lawful (handleAccess_lawful h)
    | exact h

theorem hrstEffect_lawful {r : Bool} {s : State} (h : BaysLawful s) : BaysLawful (hrstEffect r s) := by
  have hreset : BaysLawful (hostReset s) := by
    unfold hostReset
    split
    all_goals first
      | exact abandonAccess_lawful h
      | exact setFields_lawful h rfl rfl
  unfold hrstEffect
  split
  · exact setFields_lawful hreset rfl rfl
  · exact setFields_lawful h rfl rfl

theorem commitHead_lawful {b : BayId} {s : State} (h : BaysLawful s) : BaysLawful (commitHead b s) := by
  have hdrop : BaysLawful (modBay b (fun x => { x with lossCount := 0 })
      (dropHead b { s with committed := s.committed + 1 })) := by
    have hd : BaysLawful (dropHead b { s with committed := s.committed + 1 }) :=
      dropHead_lawful (setFields_lawful h rfl rfl)
    exact hd.modBay (hd b).setLossCount
  unfold commitHead
  dsimp only
  split
  · split
    · refine markAck_lawful (settle_lawful ?_)
      split
      · exact releaseThrough_lawful.2 hdrop
      · exact hdrop
    · exact h
  · exact h

theorem readAnswer_lawful {b : BayId} {d : Half} {s : State} (h : BaysLawful s) :
    BaysLawful (readAnswer b d s) := by
  unfold readAnswer
  repeat' split
  · exact grantLink_lawful (releaseOk_lawful.2 (freeLink_lawful (setFields_lawful h rfl rfl)))
  all_goals exact h

/-- The descriptor halfwords kept so far play no part in the laws until a binding begins. -/
theorem Bay.Lawful.setIdent {x : Bay} (h : x.Lawful) (hs : x.state = .identifying) {i : Ident}
    (hi : i.binding = none) : Bay.Lawful { x with ident := some i } := by
  obtain ⟨h1, h2, h3, h4, h5, h6, h7, h8, h9, h10, h11, h12, h13, h14⟩ := h
  constructor <;> simp_all

theorem descriptorAnswer_lawful {b : BayId} {d : Half} {l : Bool} {s : State} (h : BaysLawful s) :
    BaysLawful (descriptorAnswer b d l s) := by
  unfold descriptorAnswer
  dsimp only
  split
  next halves hs hl hi =>
    have hkept : BaysLawful (modBay b (fun x => { x with ident := some ⟨halves ++ [d], none⟩ }) s) :=
      h.modBay ((h b).setIdent hs rfl)
    split
    · split
      · exact grantLink_lawful (freeLink_lawful hkept)
      · refine checkDescriptor_lawful (sampleLock_lawful hkept) (by simp [sampleLock, hs]) ?_
        intro j hj
        obtain rfl : ⟨halves ++ [d], none⟩ = j := by simpa [sampleLock] using hj
        rfl
    · exact h
  · exact h

theorem bindingAnswer_lawful {b : BayId} {s : State} (h : BaysLawful s) :
    BaysLawful (bindingAnswer b s) := by
  unfold bindingAnswer
  dsimp only
  split
  next halves w hs hl hi =>
    split
    · exact h
    · split
      · refine grantLink_lawful (h.modBay ?_)
        have hbound := (h b).binding _ hi rfl
        obtain ⟨h1, h2, h3, h4, h5, h6, h7, h8, h9, h10, h11, h12, h13, h14⟩ := h b
        constructor <;> simp_all [Link.allowed, Link.heldByDrain]
      · exact completeBinding_lawful h hs hi rfl
  · exact h

theorem abandonedEnd_lawful {b : BayId} {s : State} (h : BaysLawful s) :
    BaysLawful (abandonedEnd b s) := by
  unfold abandonedEnd
  split
  · exact grantLink_lawful (freeLink_lawful h)
  all_goals exact h

/-- A lawful bay becomes EMPTY: a carrier that is not served leaves it (R81, R104, R105). -/
theorem Bay.Lawful.toEmpty {x : Bay} (h : x.Lawful) (hs : x.state.serving = false)
    (hi : x.state ≠ .identifying) (hp : x.state ≠ .powering) {d : Option (BitVec 8)}
    (hd : x.state = .debounce ∧ d = none ∨ x.state ≠ .debounce ∧ d = x.debounceTimer) :
    Bay.Lawful { (x.enter .empty .none) with debounceTimer := d, lamp := false } := by
  have hl := Link.free_of_stopped h.link hs hi
  obtain ⟨h1, h2, h3, h4, h5, h6, h7, h8, h9, h10, h11, h12, h13, h14⟩ := h
  have hoff : x.state.powered = false := by
    cases hx : x.state <;> simp_all [BayState.serving, BayState.powered]
  have hdr : x.state ≠ .draining := by rintro e; simp [e, BayState.serving] at hs
  have hre : x.state ≠ .replay := by rintro e; simp [e, BayState.serving] at hs
  rcases hd with ⟨hd, rfl⟩ | ⟨hd, rfl⟩ <;> constructor <;>
    simp_all [Bay.enter, BayState.powered, BayState.serving, BayState.allows, Link.allowed]

/-- A mount is given up with the supply off (R104, R107). -/
theorem Bay.Lawful.giveUp {x : Bay} (h : x.Lawful) (hs : x.state = .powering ∨ x.state = .identifying)
    {st : BayState} {c : MountCause} (hst : st = .empty ∧ c = .none ∨ st = .faulted ∧ c = .powerLost) :
    Bay.Lawful ((x.endMount.supplyOff).enter st c) := by
  obtain ⟨h1, h2, h3, h4, h5, h6, h7, h8, h9, h10, h11, h12, h13, h14⟩ := h
  rcases hst with ⟨rfl, rfl⟩ | ⟨rfl, rfl⟩ <;> rcases hs with hs | hs <;> constructor <;>
    simp_all [Bay.enter, BayState.powered, BayState.serving, BayState.allows, Link.allowed,
      Link.heldByDrain]

theorem debounceBreak_lawful {b : BayId} {c : DetContact} {s : State} (h : BaysLawful s) :
    BaysLawful (debounceBreak b c s) := by
  unfold debounceBreak
  split
  next hs =>
    have hk : BaysLawful (breakDetect b c s) := breakDetect_lawful h
    have hstate : ((breakDetect b c s).bay b).state = .debounce := by simpa [breakDetect] using hs
    have hlamp : ((breakDetect b c s).bay b).lamp = false := by simp [(hk b).lamp, hstate]
    refine hk.modBay ?_
    have := (hk b).toEmpty (d := none) (by simp [hstate, BayState.serving]) (by simp [hstate])
      (by simp [hstate]) (.inl ⟨hstate, rfl⟩)
    rw [← hlamp] at this
    exact this
  · exact h

theorem removeStopped_lawful {b : BayId} {c : DetContact} {s : State} (h : BaysLawful s) :
    BaysLawful (removeStopped b c s) := by
  unfold removeStopped
  split
  next hs =>
    have hk : BaysLawful (breakDetect b c s) := breakDetect_lawful h
    have hstate : ((breakDetect b c s).bay b).state.stoppedCarrier := by
      simpa [breakDetect] using hs
    refine setLatch_lawful.2 (hk.modBay ?_)
    have hne : ((breakDetect b c s).bay b).state.serving = false ∧
        ((breakDetect b c s).bay b).state ≠ .identifying ∧
        ((breakDetect b c s).bay b).state ≠ .powering ∧
        ((breakDetect b c s).bay b).state ≠ .debounce := by
      revert hstate
      cases ((breakDetect b c s).bay b).state <;> simp [BayState.stoppedCarrier, BayState.serving]
    exact (hk b).toEmpty hne.1 hne.2.1 hne.2.2.1 (.inr ⟨hne.2.2.2, rfl⟩)
  · exact h

theorem removeMounting_lawful {b : BayId} {c : DetContact} {s : State} (h : BaysLawful s) :
    BaysLawful (removeMounting b c s) := by
  unfold removeMounting
  split
  next hs =>
    have hk : BaysLawful (breakDetect b c s) := breakDetect_lawful h
    exact setLatch_lawful.2 (hk.modBay ((hk b).giveUp (by simpa [breakDetect] using hs)
      (.inl ⟨rfl, rfl⟩)))
  · exact h

theorem powerLoss_lawful {b : BayId} {s : State} (h : BaysLawful s) : BaysLawful (powerLoss b s) := by
  have hk : BaysLawful (samplePower b false s) := samplePower_lawful h
  unfold powerLoss
  dsimp only
  split
  next hs =>
    exact settle_lawful (setLatch_lawful.2 (leaveServing_lawful hk (by simpa [samplePower] using hs)
      (by simp [BayState.powered]) rfl))
  · split
    next hs =>
      exact setLatch_lawful.2 (hk.modBay ((hk b).giveUp (.inr (by simpa [samplePower] using hs))
        (.inr ⟨rfl, rfl⟩)))
    · exact h

theorem removeServing_lawful {b : BayId} {c : DetContact} {s : State} (h : BaysLawful s) :
    BaysLawful (removeServing b c s) := by
  unfold removeServing
  split
  next hs =>
    have hk : BaysLawful (breakDetect b c s) := breakDetect_lawful h
    exact settle_lawful (setLatch_lawful.2 (leaveServing_lawful hk (by simpa [breakDetect] using hs)
      (by simp [BayState.powered]) rfl))
  · exact h

theorem drainTimeout_lawful {b : BayId} {s : State} (h : BaysLawful s) :
    BaysLawful (drainTimeout b s) := by
  unfold drainTimeout
  split
  next hs =>
    exact settle_lawful (setLatch_lawful.2 (setLatch_lawful.2 (leaveServing_lawful h
      (by simp [hs.1, BayState.serving]) (by simp [BayState.powered]) rfl)))
  · exact h

theorem event_lawful (c : Instr) {s : State} (h : BaysLawful s) : BaysLawful (event c s) := by
  cases c
  case hrst => exact hrstEffect_lawful h
  case classification => exact classify_lawful h
  case mainAccessReady =>
    change BaysLawful (mainReady _ s)
    unfold mainReady
    split <;> exact setFields_lawful h rfl rfl
  case accessEnd =>
    change BaysLawful (accessEnd s)
    unfold accessEnd
    split <;> exact setFields_lawful h rfl rfl
  case hostWithdrawal => exact abandonAccess_lawful h
  case stallTimerExpiry => exact stallExpiry_lawful h
  case waitingWriteAccepted => exact acceptWaiting_lawful h
  case stalledAccessRehandled => exact rehandle_lawful h
  case linkGrant => exact grantLink_lawful h
  case commit => exact commitHead_lawful h
  case failedAttempt | responseTimeout => exact failAttempt_lawful h
  case readTransferAnswer => exact readAnswer_lawful h
  case descriptorReadAnswer => exact descriptorAnswer_lawful h
  case bindingWriteAnswer => exact bindingAnswer_lawful h
  case abandonedTransferEnd => exact abandonedEnd_lawful h
  case detectMake =>
    change BaysLawful (detectMake _ s)
    unfold detectMake
    split
    · exact detectSample_lawful (sampleDetect_lawful h)
    · exact h
  case debounceBreak => exact debounceBreak_lawful h
  case debounceExpiry b k =>
    change BaysLawful (debounceExpiry b k s)
    unfold debounceExpiry
    split
    next hs =>
      exact keyRead_lawful (setLatch_lawful.2 (sampleKeys_lawful h))
        (.inl (by simpa [sampleKeys] using hs.1))
    · exact h
  case powerGoodRise b =>
    change BaysLawful (powerGoodRise b s)
    unfold powerGoodRise
    split
    next hs => exact enterIdentifying_lawful (samplePower_lawful h) (by simpa [samplePower] using hs)
    · exact h
  case powerTimerExpiry b =>
    change BaysLawful (powerTimerExpiry b s)
    unfold powerTimerExpiry
    split
    next hs => exact reject_lawful h (.inl hs.1) rfl
    · exact h
  case identificationTimerExpiry b =>
    change BaysLawful (identTimerExpiry b s)
    unfold identTimerExpiry
    split
    next hs => exact reject_lawful h (.inr hs.1) rfl
    · exact h
  case powerLoss => exact powerLoss_lawful h
  case removal => exact removeServing_lawful h
  case removalDuringMount => exact removeMounting_lawful h
  case removalOfStoppedCarrier => exact removeStopped_lawful h
  case drainTimeout => exact drainTimeout_lawful h
  case replayMove b =>
    change BaysLawful (replayMove b s)
    unfold replayMove
    split
    · exact settle_lawful h
    · exact h
  case frameStart =>
    change BaysLawful (frameStart s)
    unfold frameStart
    split <;> exact setFields_lawful h rfl rfl
  case frameEnd =>
    change BaysLawful (frameEnd s)
    unfold frameEnd
    split <;> exact setFields_lawful h rfl rfl
  case frameDiscard bits =>
    change BaysLawful (frameDiscard bits s)
    unfold frameDiscard
    repeat' split
    all_goals exact setFields_lawful h rfl rfl
  all_goals exact h

/-! ### The management commands that reach a bay -/

/-- The commands that reach the bays, the hold store or the account; every other one leaves these and
the host port as they are. -/
def reaches : Instr → Bool
  | .eject _ | .cancelEject _ | .retryBay _ _ | .forget _ | .forceReplay _ _ | .discardHeld _ _ => true
  | _ => false

theorem writeItem_frame (code : Byte) (v : Word) (s : State) :
    (writeItem code v s).state.rst = s.rst ∧ (writeItem code v s).state.hrst = s.hrst ∧
      (writeItem code v s).state.host = s.host ∧ (writeItem code v s).state.hold = s.hold ∧
      (writeItem code v s).state.bayA = s.bayA ∧ (writeItem code v s).state.bayB = s.bayB := by
  unfold writeItem
  repeat' split
  · exact ⟨rfl, rfl, rfl, rfl, rfl, rfl⟩
  next t ht =>
    obtain ⟨hrst, hhrst, hhost, -, hhold, hA, hB, -, -⟩ := writeItemValue_frame ht
    exact ⟨hrst, hhrst, hhost, hhold, hA, hB⟩
  · exact ⟨rfl, rfl, rfl, rfl, rfl, rfl⟩

theorem command_leaves {c : Instr} {n : Nat} {f : State → Reply} (h : command c = some (n, f))
    (hr : reaches c = false) (s : State) :
    (f s).state.rst = s.rst ∧ (f s).state.hrst = s.hrst ∧ (f s).state.host = s.host ∧
      (f s).state.hold = s.hold ∧ (f s).state.bayA = s.bayA ∧ (f s).state.bayB = s.bayB := by
  cases c <;> simp only [command, Option.some.injEq, Prod.mk.injEq, reduceCtorEq] at h
  case badCommand =>
    split at h <;> cases h
    exact ⟨rfl, rfl, rfl, rfl, rfl, rfl⟩
  all_goals obtain ⟨-, rfl⟩ := h
  case writeItem | writeEventEnable => exact writeItem_frame _ _ s
  case eject | cancelEject | retryBay | forget | forceReplay | discardHeld => cases hr
  all_goals
    simp only [readStatus, readItem, commitWindow, disableWindow, readWindow, onBay, readBay,
      readHold, popLoss, readCounts, zeroCounts, readError, readEvents, clearEvents, clearLatches]
    repeat' split
    all_goals simp

/-- A property of the part that the commands which reach no bay keep, and the commands on a bay, is kept
by every management command. -/
theorem command_keeps {Q P : State → Prop} {c : Instr} {n : Nat} {f : State → Reply} {s : State}
    (h : command c = some (n, f)) (hs : Q s) (hQP : Q s → P s)
    (hleaves : ∀ t : State, t.rst = s.rst → t.hrst = s.hrst → t.host = s.host → t.hold = s.hold →
      t.bayA = s.bayA → t.bayB = s.bayB → P t)
    (heject : ∀ b, P (eject b s).state) (hcancel : ∀ b, P (cancelEject b s).state)
    (hretry : ∀ k b, P (retryBay k b s).state) (hforget : ∀ b, P (forget b s).state)
    (hforce : ∀ b, P (forceReplay b s).state) (hdiscard : ∀ a d, P (discardHeld a d s).state) :
    P (f s).state := by
  cases hr : reaches c with
  | false =>
    obtain ⟨h1, h2, h3, h4, h5, h6⟩ := command_leaves h hr s
    exact hleaves _ h1 h2 h3 h4 h5 h6
  | true =>
    have hon (n : Byte) (g : BayId → State → Reply) (hg : ∀ b, P (g b s).state) :
        P (onBay n g s).state := by
      unfold onBay
      split
      · exact hg _
      · exact hQP hs
    cases c <;> simp only [reaches, Bool.false_eq_true] at hr <;> cases h
    · exact hon _ _ heject
    · exact hon _ _ hcancel
    · exact hon _ _ (hretry _)
    · exact hon _ _ hforget
    · exact hon _ _ hforce
    · exact hdiscard _ _

/-- A lawful READY bay stays lawful in DRAINING, and a DRAINING one in READY (R110, R117). -/
theorem Bay.Lawful.readyDraining {x : Bay} (h : x.Lawful) {n : BitVec 8} :
    (x.state = .ready → Bay.Lawful { (x.enter .draining .none) with drainTimer := some n }) ∧
    (x.state = .draining → Bay.Lawful { (x.enter .ready .none) with drainTimer := none }) := by
  obtain ⟨h1, h2, h3, h4, h5, h6, h7, h8, h9, h10, h11, h12, h13, h14⟩ := h
  have hlink (st st' : BayState) (hst : st = .ready ∧ st' = .draining ∨ st = .draining ∧ st' = .ready) :
      x.link.allowed st → x.link.allowed st' := by
    rcases hst with ⟨rfl, rfl⟩ | ⟨rfl, rfl⟩ <;> rcases x.link with _ | ⟨_ | _ | _, t⟩ | t <;>
      simp [Link.allowed, BayState.serving]
  constructor <;> intro hs
  · have := hlink _ _ (.inl ⟨rfl, rfl⟩) (hs ▸ h11)
    constructor <;> simp_all [Bay.enter, BayState.powered, BayState.serving, BayState.allows]
  · have := hlink _ _ (.inr ⟨rfl, rfl⟩) (hs ▸ h11)
    constructor <;> simp_all [Bay.enter, BayState.powered, BayState.serving, BayState.allows]

/-- The eject-pending flag is kept in REPLAY (R101). -/
theorem Bay.Lawful.setPending {x : Bay} (h : x.Lawful) {p : Bool} (hp : p → x.state = .replay) :
    Bay.Lawful { x with ejectPending := p } := by
  obtain ⟨h1, h2, h3, h4, h5, h6, h7, h8, h9, h10, h11, h12, h13, h14⟩ := h
  constructor <;> simp_all

theorem enterDraining_lawful {b : BayId} {s : State} (h : BaysLawful s) (hs : (s.bay b).state = .ready) :
    BaysLawful (enterDraining b s) := h.modBay ((h b).readyDraining.1 hs)

theorem eject_lawful {b : BayId} {s : State} (h : BaysLawful s) : BaysLawful (eject b s).state := by
  unfold eject
  split
  next hs => exact settle_lawful (enterDraining_lawful h hs)
  next hs =>
    rw [replyOk_state]
    exact h.modBay ((h b).setPending fun _ => hs)
  all_goals exact h

theorem cancelEject_lawful {b : BayId} {s : State} (h : BaysLawful s) :
    BaysLawful (cancelEject b s).state := by
  unfold cancelEject
  split
  next hs =>
    rw [replyOk_state]
    exact h.modBay ((h b).readyDraining (n := 0).2 hs)
  · split
    · rw [replyOk_state]
      exact h.modBay ((h b).setPending fun hp => absurd hp (by simp))
    · exact h
  all_goals exact h

theorem retryBay_lawful {b : BayId} {k : KeySample} {s : State} (h : BaysLawful s) :
    BaysLawful (retryBay k b s).state := by
  unfold retryBay
  split
  case h_1 hs | h_2 hs | h_3 hs =>
    refine keyRead_lawful (sampleKeys_lawful h) ?_
    simp [sampleKeys, hs, BayState.keyReads]
  all_goals exact h

/-- A bay in READY enters REPLAY with its queue and its link (R138). -/
theorem Bay.Lawful.toReplay {x : Bay} (h : x.Lawful) (hs : x.state = .ready) :
    (x.enter .replay .none).Lawful := by
  obtain ⟨h1, h2, h3, h4, h5, h6, h7, h8, h9, h10, h11, h12, h13, h14⟩ := h
  have hlink : x.link.allowed .replay := by
    rw [hs] at h11
    revert h11
    rcases x.link with _ | ⟨_ | _ | _, t⟩ | t <;> simp [Link.allowed, BayState.serving]
  constructor <;> simp_all [BayState.powered, BayState.serving, BayState.allows]

theorem forceReplay_lawful {b : BayId} {s : State} (h : BaysLawful s) :
    BaysLawful (forceReplay b s).state := by
  unfold forceReplay
  dsimp only
  split
  · exact h
  next hs =>
    split
    · exact h
    · split
      · exact h
      · refine settle_lawful (meetHost_lawful (BaysLawful.modBay ?_ ?_))
        · exact setFields_lawful h rfl rfl
        · rw [State.bay_mk]
          exact (h b).toReplay (by simpa using hs)

theorem discardHeld_lawful {n : Serial} {c : Byte} {s : State} (h : BaysLawful s) :
    BaysLawful (discardHeld n c s).state := by
  unfold discardHeld
  dsimp only
  repeat' split
  · exact h
  · exact h
  · exact settle_lawful (settle_lawful (h.congr fun b => by simp))

theorem porState_bay (b : BayId) (s : State) : (porState s).bay b = .reset (s.bay b).contacts := by
  cases b <;> rfl

/-- The laws of the two bays through one step. -/
theorem leads_baysLawful : Leads BaysLawful BaysLawful where
  stays := id
  elapse := elapse_lawful
  frame := fun _ h => setFields_lawful h rfl rfl
  por := fun {s} _ b => by rw [porState_bay]; exact .reset _
  resetEnd := fun a b d e _ h =>
    detectSample_lawful (sampleDetect_lawful (detectSample_lawful (sampleDetect_lawful
      (setFields_lawful h rfl rfl))))
  event := fun c _ h => event_lawful c h
  reply := fun c n f hf _ h =>
    command_keeps hf h id (fun t _ _ _ _ hA hB => setFields_lawful h hA hB)
      (fun _ => eject_lawful h) (fun _ => cancelEject_lawful h) (fun _ _ => retryBay_lawful h)
      (fun b => h.modBay (h b).setLast) (fun _ => forceReplay_lawful h)
      (fun _ _ => discardHeld_lawful h)

theorem step_baysLawful {s t : State} (h : BaysLawful s) (e : step s = .next t) : BaysLawful t :=
  leads_baysLawful.step (fun _ h => setFields_lawful h rfl rfl) s t h e

/-! ### The windows and the items -/

theorem mem_windowNumbers (i : Fin 8) : i ∈ windowNumbers := by revert i; decide

theorem overlaps_eq_false_iff {windows : Vector Window 8} {n : Fin 8} {w : WindowRec} :
    overlaps windows n w = false ↔
      ∀ i : Fin 8, i ≠ n → windows[i].enabled = true → rangesMeet w windows[i].record = false := by
  simp only [overlaps, List.any_eq_false, mem_windowNumbers, forall_const, Bool.and_eq_true,
    decide_eq_true_eq, not_and, Bool.not_eq_true, and_imp]

theorem rangesMeet_comm (a b : WindowRec) : rangesMeet a b = rangesMeet b a := Bool.and_comm _ _

@[simp] theorem getElem_set_fin (v : Vector Window 8) (i : Fin 8) (w : Window) :
    (v.set i w)[i] = w := Vector.getElem_set_self i.isLt

theorem getElem_set_fin_ne (v : Vector Window 8) {i j : Fin 8} (w : Window) (h : j ≠ i) :
    (v.set i w)[j] = v[j] :=
  Vector.getElem_set_ne i.isLt j.isLt fun e => h (Fin.ext e.symm)

/-- A window is replaced by one that has the shape of R21 and meets no other enabled window, if it is
enabled at all (R22, R23). -/
theorem WindowsLawful.set {v : Vector Window 8} (h : WindowsLawful v) {n : Fin 8} {w : Window}
    (hshape : w.enabled → validShape w.record)
    (hapart : w.enabled → ∀ i : Fin 8, i ≠ n → v[i].enabled = true →
      rangesMeet w.record v[i].record = false) : WindowsLawful (v.set n w) := by
  refine ⟨fun i hi => ?_, fun i j hij hi hj => ?_⟩
  · by_cases hn : i = n
    · subst hn
      rw [getElem_set_fin] at hi ⊢
      exact hshape hi
    · rw [getElem_set_fin_ne v w hn] at hi ⊢
      exact h.shape i hi
  · by_cases hn : i = n
    · subst hn
      rw [getElem_set_fin_ne v w hij.symm] at hj ⊢
      rw [getElem_set_fin] at hi ⊢
      exact hapart hi j hij.symm hj
    · rw [getElem_set_fin_ne v w hn] at hi ⊢
      by_cases hm : j = n
      · subst hm
        rw [getElem_set_fin] at hj ⊢
        rw [rangesMeet_comm]
        exact hapart hj i hij hi
      · rw [getElem_set_fin_ne v w hm] at hj ⊢
        exact h.disjoint i j hij hi hj

/-- The windows and the items as R18, R22 and R158 ask. -/
def TablesLawful (s : State) : Prop := WindowsLawful s.windows ∧ ItemsLawful s.items

theorem TablesLawful.congr {s t : State} (h : TablesLawful s) (hw : t.windows = s.windows)
    (hi : t.items = s.items) : TablesLawful t := by
  unfold TablesLawful
  rw [hw, hi]
  exact h

theorem commitWindow_tables {n : Byte} {s : State} (h : TablesLawful s) :
    TablesLawful (commitWindow n s).state := by
  unfold commitWindow
  split
  · exact h
  · split
    · exact h
    next hshape =>
      split
      · exact h
      next hover =>
        refine ⟨h.1.set (fun _ => by simpa using hshape) fun _ => ?_, h.2⟩
        exact overlaps_eq_false_iff.1 (by simpa using hover)

theorem disableWindow_tables {n : Byte} {s : State} (h : TablesLawful s) :
    TablesLawful (disableWindow n s).state := by
  unfold disableWindow
  split
  · exact h
  · refine ⟨h.1.set ?_ ?_, h.2⟩ <;> intro hc <;> cases hc

theorem inItemRange_bounds {lo hi n : Nat} {v : Word} (h : inItemRange lo hi v = some n) :
    lo ≤ n ∧ n ≤ hi := by
  unfold inItemRange at h
  split at h
  · cases h; assumption
  · cases h

theorem ofNat_ne_zero_of_inItemRange {w lo hi n : Nat} {v : Word} (h : inItemRange lo hi v = some n)
    (hlo : 0 < lo) (hw : hi < 2 ^ w) : BitVec.ofNat w n ≠ 0 := by
  obtain ⟨h1, h2⟩ := inItemRange_bounds h
  intro hc
  have hn := congrArg BitVec.toNat hc
  rw [BitVec.toNat_ofNat, Nat.mod_eq_of_lt (h2.trans_lt hw)] at hn
  simp at hn
  omega

/-- A written item is within its range (R158, R160). -/
theorem writeItemValue_tables {i : Item} {v : Word} {s t : State} (h : TablesLawful s)
    (ht : writeItemValue i v s = some t) : TablesLawful t := by
  obtain ⟨hw, hi⟩ := h
  obtain ⟨h1, h2, h3, h4, h5, h6⟩ := hi
  have hwindows : t.windows = s.windows := by
    obtain ⟨-, -, -, hwindows, -⟩ := writeItemValue_frame ht
    exact hwindows
  refine ⟨hwindows ▸ hw, ?_⟩
  cases i
  case revision | deviceNumber => cases ht
  case epoch => cases ht; exact ⟨h1, h2, h3, h4, h5, h6⟩
  case eventEnable =>
    obtain ⟨-, ht⟩ := Option.ite_none_right_eq_some.1 ht
    cases ht
    exact ⟨h1, h2, h3, h4, h5, h6⟩
  all_goals obtain ⟨n, hn, rfl⟩ := Option.map_eq_some_iff.1 ht
  case debounceMs => exact ⟨ofNat_ne_zero_of_inItemRange hn (by decide) (by decide), h2, h3, h4, h5, h6⟩
  case responseUs => exact ⟨h1, ofNat_ne_zero_of_inItemRange hn (by decide) (by decide), h3, h4, h5, h6⟩
  case stallUs => exact ⟨h1, h2, ofNat_ne_zero_of_inItemRange hn (by decide) (by decide), h4, h5, h6⟩
  case drainMs => exact ⟨h1, h2, h3, ofNat_ne_zero_of_inItemRange hn (by decide) (by decide), h5, h6⟩
  case faultThreshold =>
    exact ⟨h1, h2, h3, h4, ofNat_ne_zero_of_inItemRange hn (by decide) (by decide), h6⟩
  case holdThreshold =>
    obtain ⟨hlo, hhi⟩ := inItemRange_bounds hn
    have hmod : (BitVec.ofNat 6 n).toNat = n := by
      rw [BitVec.toNat_ofNat, Nat.mod_eq_of_lt (by omega)]
    exact ⟨h1, h2, h3, h4, h5, by rw [hmod]; exact ⟨hlo, hhi⟩⟩
  all_goals exact ⟨h1, h2, h3, h4, h5, h6⟩

theorem writeItem_tables {code : Byte} {v : Word} {s : State} (h : TablesLawful s) :
    TablesLawful (writeItem code v s).state := by
  unfold writeItem
  repeat' split
  · exact h
  next ht => exact writeItemValue_tables h ht
  · exact h

theorem command_tables {c : Instr} {n : Nat} {f : State → Reply} (hf : command c = some (n, f))
    {s : State} (h : TablesLawful s) : TablesLawful (f s).state := by
  cases c <;> simp only [command, Option.some.injEq, Prod.mk.injEq, reduceCtorEq] at hf
  case badCommand =>
    split at hf <;> cases hf
    exact h
  all_goals obtain ⟨-, rfl⟩ := hf
  case writeItem | writeEventEnable => exact writeItem_tables h
  case commitWindow => exact commitWindow_tables h
  case disableWindow => exact disableWindow_tables h
  all_goals
    refine h.congr ?_ ?_ <;>
      simp only [readStatus, readItem, readWindow, onBay, readBay, eject, cancelEject, retryBay,
        forget, forceReplay, discardHeld, readHold, popLoss, readCounts, zeroCounts, readError,
        readEvents, clearEvents, clearLatches] <;>
      repeat' split
    all_goals simp

/-- Settles O9: only three commands write to the windows or the items, and each checks what it
writes. -/
theorem windowsAndItemsKept : Obligations.WindowsAndItemsKept := by
  have hleads : Leads TablesLawful TablesLawful :=
    { stays := id
      elapse := fun h => h.congr (by simp) (by simp)
      frame := fun _ h => h
      por := fun _ => ⟨replicate_disabled_lawful _, Items.reset_lawful⟩
      resetEnd := fun a b d e _ h => h.congr (by simp [resetEnd]) (by simp [resetEnd])
      event := fun {s} c _ h => by
        obtain ⟨-, -, hwindows, -, hitems, -, -⟩ := event_frame c s
        exact h.congr hwindows hitems
      reply := fun c n f hf _ h => command_tables hf h }
  exact fun s t hw hi e => hleads.step (fun _ h => h) s t ⟨hw, hi⟩ e

end Sys2Proof.Machine
end

section
/-! PROOFS. Which carrier a bay holds identified, through every shared operation and every step (R87). -/

namespace Sys2Proof.Machine

/-! ### Bays that differ in their queue and their link alone -/

/-- The bay differs in its queue and its link alone. -/
def Bay.Alike (x y : Bay) : Prop := y = { x with queue := y.queue, link := y.link, reqHigh := y.reqHigh }

theorem Bay.alike_iff {x y : Bay} :
    x.Alike y ↔ y = { x with queue := y.queue, link := y.link, reqHigh := y.reqHigh } := Iff.rfl

/-- The two bays differ in their queues and their links alone: what the host port, the arbiter and the
drain engine do to them. -/
def Alike (s t : State) : Prop := ∀ b, (s.bay b).Alike (t.bay b)

namespace Bay.Alike

variable {x y z : Bay}

theorem refl (x : Bay) : x.Alike x := rfl

theorem trans (h : x.Alike y) (k : y.Alike z) : x.Alike z := by
  unfold Bay.Alike at *
  rw [k, h]

theorem state (h : x.Alike y) : y.state = x.state := by rw [alike_iff.1 h]

theorem mount (h : x.Alike y) : y.mount = x.mount := by rw [alike_iff.1 h]

theorem ident (h : x.Alike y) : y.ident = x.ident := by rw [alike_iff.1 h]

theorem last (h : x.Alike y) : y.last = x.last := by rw [alike_iff.1 h]

theorem lossCount (h : x.Alike y) : y.lossCount = x.lossCount := by rw [alike_iff.1 h]

theorem ejectPending (h : x.Alike y) : y.ejectPending = x.ejectPending := by rw [alike_iff.1 h]

theorem identified (h : x.Alike y) : y.identified = x.identified := by
  unfold Bay.identified
  rw [h.state, h.ident]

end Bay.Alike

namespace Alike

variable {s t u : State}

theorem refl (s : State) : Alike s s := fun _ => rfl

theorem trans (h : Alike s t) (k : Alike t u) : Alike s u := fun b => (h b).trans (k b)

theorem of_bays (h : ∀ b, t.bay b = s.bay b) : Alike s t := fun b => h b ▸ .refl _

theorem modBay {b : BayId} {f : Bay → Bay} (h : (s.bay b).Alike (f (s.bay b))) :
    Alike s (modBay b f s) := by
  intro c
  obtain rfl | rfl := eq_or_eq_otherBay b c
  · rwa [modBay_bay]
  · rw [modBay_bay_other]; exact .refl _

end Alike

/-! ### The shared operations that change queues and links alone -/

theorem alike_grantLink (b : BayId) (s : State) : Alike s (grantLink b s) := by
  obtain e | ⟨-, ⟨a, -, e⟩ | ⟨-, -, x, es, -, e⟩ | ⟨-, -, i, -, e⟩⟩ := grantLink_cases b s <;> rw [e]
  · exact .refl s
  · refine Alike.trans (Alike.modBay (b := b) (f := fun x => { x with
      link := .held .read (readTransfer a (firstPhase (s.bay b).reqHigh s) s) }) rfl) (.of_bays ?_)
    intro c; simp
  · exact .modBay rfl
  · exact .modBay rfl

theorem alike_freeLink (b : BayId) (s : State) : Alike s (freeLink b s) := .modBay rfl

theorem alike_abandonRead (b : BayId) (s : State) : Alike s (abandonRead b s) := by
  unfold abandonRead
  split
  · exact .modBay rfl
  · exact .refl s

theorem alike_elapse (s : State) : Alike s (elapse s) := by
  intro b
  rw [elapse_bay]
  rfl

theorem alike_acceptQueue (a : Access) (s : State) : Alike s (acceptQueue a s) := by
  intro b
  obtain rfl | rfl := eq_or_eq_otherBay a.copy.bay b
  · rw [acceptQueue_bay]; rfl
  · rw [acceptQueue_bay_other]; rfl

theorem alike_handleAccess (a : Access) (s : State) : Alike s (handleAccess a s) := by
  unfold handleAccess writeReady
  dsimp only
  repeat' split
  all_goals first
    | exact alike_acceptQueue a s
    | exact .of_bays fun b => by simp

theorem alike_meetHost (s : State) : Alike s (meetHost s) := by
  unfold meetHost
  dsimp only
  repeat' split
  all_goals first
    | exact .refl s
    | exact alike_handleAccess _ s
    | exact alike_acceptQueue _ s
    | exact (alike_abandonRead _ s).trans (.of_bays fun b => absentRead_bay _ _ b)
    | exact .of_bays fun b => by simp

theorem alike_clearThrough (b : BayId) (s : State) : Alike s (clearThrough b s) := .modBay rfl

theorem alike_setHost (p : HostPort) (s : State) : Alike s { s with host := p } :=
  .of_bays fun b => by simp

theorem alike_abandonAccess (s : State) : Alike s (abandonAccess s) := by
  unfold abandonAccess
  repeat' split
  all_goals first
    | exact (alike_setHost _ s).trans (alike_clearThrough _ _)
    | exact ((alike_setHost _ s).trans (alike_abandonRead _ _)).trans (alike_grantLink _ _)
    | exact alike_setHost _ s

theorem alike_replayMoves (b : BayId) (s : State) : Alike s (replayMoves b s) := by
  obtain ⟨hb, ho, -⟩ := replayMoves_fields b s
  intro c
  obtain rfl | rfl := eq_or_eq_otherBay b c
  · rw [hb]; rfl
  · rw [ho]; rfl

theorem alike_dropHead (b : BayId) (s : State) : Alike s (dropHead b s) := .modBay rfl

theorem alike_markAck (b : BayId) (s : State) : Alike s (markAck b s) := .modBay rfl

/-! ### Bays that come to hold no other identified carrier -/

/-- A bay that holds an identified carrier held it before. -/
def Bay.Keeps (x y : Bay) : Prop :=
  y.identified → x.identified ∧ y.mount.serial = x.mount.serial

/-- The carriers that the bays hold identified were held before: none is new to its bay. -/
def CarriersKept (s t : State) : Prop := ∀ b, (s.bay b).Keeps (t.bay b)

theorem Bay.Keeps.refl (x : Bay) : x.Keeps x := fun h => ⟨h, rfl⟩

theorem Bay.Keeps.of_alike {x y : Bay} (h : x.Alike y) : x.Keeps y := fun hy =>
  ⟨h.identified ▸ hy, by rw [h.mount]⟩

/-- A bay that neither serves nor identifies holds no identified carrier. -/
theorem Bay.identified_eq_false {x : Bay} (h : x.state.serving = false)
    (hi : x.state = .identifying → ∀ i, x.ident = some i → i.binding = none) :
    x.identified = false := by
  unfold Bay.identified
  rw [h, Bool.false_or]
  cases hs : x.state == .identifying with
  | false => rfl
  | true =>
    cases hx : x.ident with
    | none => rfl
    | some i => simp [hi (by simpa using hs) i hx]

theorem Bay.Keeps.of_out {x y : Bay} (h : y.state.serving = false) (hi : y.state ≠ .identifying) :
    x.Keeps y := fun hy => by
  rw [Bay.identified_eq_false h fun e => absurd e hi] at hy
  cases hy

theorem Bay.identified_of_serving {x : Bay} (h : x.state.serving) : x.identified := by
  simp [Bay.identified, h]

/-- A bay in service stays in service with its carrier, or leaves it. -/
theorem Bay.Keeps.of_serving {x y : Bay} (h : x.state.serving)
    (hm : y.mount.serial = x.mount.serial) : x.Keeps y := fun _ => ⟨identified_of_serving h, hm⟩

namespace CarriersKept

variable {s t u : State}

theorem refl (s : State) : CarriersKept s s := fun _ => .refl _

theorem trans (h : CarriersKept s t) (k : CarriersKept t u) : CarriersKept s u := fun b hb =>
  ⟨(h b (k b hb).1).1, (k b hb).2.trans (h b (k b hb).1).2⟩

theorem of_alike (h : Alike s t) : CarriersKept s t := fun b => .of_alike (h b)

theorem of_bays (h : ∀ b, t.bay b = s.bay b) : CarriersKept s t := .of_alike (.of_bays h)

theorem of_bay {b : BayId} (hb : (s.bay b).Keeps (t.bay b))
    (ho : t.bay (otherBay b) = s.bay (otherBay b)) : CarriersKept s t := by
  intro c
  obtain rfl | rfl := eq_or_eq_otherBay b c
  · exact hb
  · rw [ho]; exact .refl _

theorem modBay {b : BayId} {f : Bay → Bay} (h : (s.bay b).Keeps (f (s.bay b))) :
    CarriersKept s (modBay b f s) := .of_bay (b := b) (by rwa [modBay_bay]) (by simp)

end CarriersKept

theorem carriersDistinct_iff (b : BayId) {s : State} :
    CarriersDistinct s ↔ ((s.bay b).identified → (s.bay (otherBay b)).identified →
      (s.bay b).mount.serial ≠ (s.bay (otherBay b)).mount.serial) := by
  cases b
  · exact Iff.rfl
  · exact ⟨fun h hB hA => (h hA hB).symm, fun h hA hB => (h hB hA).symm⟩

/-- Two bays that hold no carrier which they did not hold before hold distinct ones still (R87). -/
theorem CarriersDistinct.kept {s t : State} (h : CarriersDistinct s) (k : CarriersKept s t) :
    CarriersDistinct t := fun hA hB => by
  obtain ⟨hA', eA⟩ := k .A hA
  obtain ⟨hB', eB⟩ := k .B hB
  simp only [State.bay_A, State.bay_B] at *
  rw [eA, eB]
  exact h hA' hB'

/-! ### The shared operations that change a bay's state -/

theorem carriersKept_leaveServing {b : BayId} {st : BayState} {c : MountCause} {s : State}
    (hst : st.serving = false) (hi : st ≠ .identifying) : CarriersKept s (leaveServing b st c s) :=
  .of_bay (b := b) (.of_out (by simpa using hst) (by simpa using hi)) (by simp)

theorem carriersKept_reject (b : BayId) (c : MountCause) (s : State) :
    CarriersKept s (reject b c s) :=
  .of_bay (b := b) (.of_out (by simp [BayState.serving]) (by simp)) (by simp)

theorem carriersKept_enterDraining {b : BayId} {s : State} (hs : (s.bay b).state.serving) :
    CarriersKept s (enterDraining b s) := .modBay (.of_serving hs rfl)

theorem carriersKept_setLatch (l : Latch) (s : State) : CarriersKept s (setLatch l s) :=
  .of_bays fun b => by simp

theorem carriersKept_replayEnd {b : BayId} {s : State} (hs : (s.bay b).state = .replay) :
    CarriersKept s (replayEnd b s) := by
  have hserving : (s.bay b).state.serving := by rw [hs]; rfl
  unfold replayEnd
  dsimp only
  split
  · exact .refl s
  · split
    · exact .of_bay (b := b) (.of_serving hserving (by simp)) (by simp)
    · exact .of_bay (b := b) (.of_serving hserving (by simp)) (by simp)

theorem carriersKept_replayWork (b : BayId) (s : State) : CarriersKept s (replayWork b s) := by
  unfold replayWork
  split
  next hs =>
    exact (CarriersKept.of_alike (alike_replayMoves b s)).trans (carriersKept_replayEnd (by simpa))
  · exact .refl s

theorem carriersKept_drainEnd (b : BayId) (s : State) : CarriersKept s (drainEnd b s) := by
  unfold drainEnd
  dsimp only
  split
  · exact (carriersKept_leaveServing rfl (by simp)).trans (carriersKept_setLatch _ _)
  · exact .refl s

theorem carriersKept_meetHost (s : State) : CarriersKept s (meetHost s) :=
  .of_alike (alike_meetHost s)

theorem carriersKept_grantLink (b : BayId) (s : State) : CarriersKept s (grantLink b s) :=
  .of_alike (alike_grantLink b s)

theorem carriersKept_settle (b : BayId) (s : State) : CarriersKept s (settle b s) :=
  (((carriersKept_replayWork b s).trans (carriersKept_drainEnd b _)).trans
    (carriersKept_meetHost _)).trans (carriersKept_grantLink b _)

theorem carriersKept_countLoss (b : BayId) (e : QEntry) (s : State) :
    CarriersKept s (countLoss b e s) := by
  refine .of_bay (b := b) ?_ (by simp)
  rw [countLoss_bay]
  exact fun h => ⟨h, rfl⟩

theorem carriersKept_loseHead (b : BayId) (e : QEntry) (s : State) :
    CarriersKept s (loseHead b e s) := by
  refine (carriersKept_countLoss b e s).trans ?_
  change CarriersKept _ (checkThreshold b (countLoss b e s))
  unfold checkThreshold
  split
  · exact (carriersKept_leaveServing rfl (by simp)).trans (carriersKept_setLatch _ _)
  · exact .refl _

theorem carriersKept_failTransfer (b : BayId) (h : Holder) (s : State) :
    CarriersKept s (failTransfer b h s) := by
  cases h with
  | drain =>
    unfold failTransfer
    dsimp only
    split
    · exact (carriersKept_loseHead _ _ _).trans (carriersKept_settle _ _)
    · exact .refl s
  | read =>
    unfold failTransfer
    dsimp only
    split
    · split
      · exact ((CarriersKept.of_alike (alike_freeLink b s)).trans
          (.of_bays fun c => releaseError_bay _ _ _ _ c)).trans (carriersKept_grantLink b _)
      · exact .refl s
    · exact .refl s
  | ident =>
    unfold failTransfer
    dsimp only
    split
    · exact carriersKept_reject _ _ _
    · exact .refl s

theorem carriersKept_failAttempt (b : BayId) (s : State) : CarriersKept s (failAttempt b s) := by
  unfold failAttempt
  split
  · split
    · split
      · exact .of_alike (.modBay rfl)
      · exact carriersKept_failTransfer _ _ _
    · exact .refl s
  all_goals exact .refl s

theorem carriersKept_enterIdentifying (b : BayId) (s : State) :
    CarriersKept s (enterIdentifying b s) := by
  refine CarriersKept.trans (CarriersKept.modBay fun h => ?_) (carriersKept_grantLink b _)
  rw [Bay.identified_eq_false rfl fun _ i hi => ?_] at h
  · cases h
  · cases hi; rfl

/-- The contacts and the debounce timer say nothing of the carrier. -/
theorem carriersKept_sample {b : BayId} {f : Bay → Bay} {s : State}
    (hs : (f (s.bay b)).state = (s.bay b).state) (hi : (f (s.bay b)).ident = (s.bay b).ident)
    (hm : (f (s.bay b)).mount.serial = (s.bay b).mount.serial) : CarriersKept s (modBay b f s) :=
  .modBay fun h => ⟨by unfold Bay.identified at *; rw [hs, hi] at h; exact h, hm⟩

theorem carriersKept_keyRead {b : BayId} {s : State} : CarriersKept s (keyRead b s) := by
  have hclear : ∀ t, (t.bay b).state = .powering ∨ (t.bay b).state = .unsupported ∨
      (t.bay b).state = .identifying ∧ (∀ i, (t.bay b).ident = some i → i.binding = none) →
      t.bay (otherBay b) = s.bay (otherBay b) → CarriersKept s t := by
    intro t ht ho
    refine .of_bay (b := b) (fun h => ?_) ho
    rw [Bay.identified_eq_false] at h
    · cases h
    · rcases ht with e | e | ⟨e, -⟩ <;> rw [e] <;> rfl
    · rcases ht with e | e | ⟨-, hi⟩
      · intro h'; rw [e] at h'; cases h'
      · intro h'; rw [e] at h'; cases h'
      · exact fun _ => hi
  unfold keyRead
  dsimp only
  split
  next v _ =>
    unfold enterPowering
    dsimp only
    split
    · have halike := alike_grantLink b
      unfold enterIdentifying
      refine hclear _ (.inr (.inr ⟨?_, fun i hi => ?_⟩)) (by simp)
      · rw [(halike _ b).state, modBay_bay]; rfl
      · rw [(halike _ b).ident, modBay_bay] at hi
        cases hi; rfl
    · exact hclear _ (.inl (by simp)) (by simp)
  · exact hclear _ (.inr (.inl (by simp))) (by simp)

/-! ### Identification -/

/-- Identification completes with the carrier that was identified (R95). -/
theorem carriersKept_completeMount {b : BayId} {v : Verdict} {s : State}
    (h : (s.bay b).identified) : CarriersKept s (completeMount b v s) :=
  ((CarriersKept.modBay fun _ => ⟨h, rfl⟩).trans (carriersKept_setLatch _ _)).trans
    (carriersKept_settle b _)

/-- A bay's carrier becomes identified when the other bay holds none, or another (R87). -/
theorem CarriersDistinct.newcomer {b : BayId} {n : Serial} {s t : State}
    (hb : (t.bay b).mount.serial = some n) (ho : t.bay (otherBay b) = s.bay (otherBay b))
    (hn : (s.bay (otherBay b)).identified → (s.bay (otherBay b)).mount.serial ≠ some n) :
    CarriersDistinct t := by
  rw [carriersDistinct_iff b, hb, ho]
  exact fun _ h => (hn h).symm

theorem mountLocked_distinct {b : BayId} {n : Serial} {c : BitVec 16} {slot : Option Stamp}
    {s : State} (hb : (s.bay b).mount.serial = some n)
    (hn : (s.bay (otherBay b)).identified → (s.bay (otherBay b)).mount.serial ≠ some n) :
    CarriersDistinct (mountLocked b n c slot s) := by
  refine CarriersDistinct.kept (.newcomer (b := b) (n := n) (s := s) ?_ ?_ hn)
    (carriersKept_settle b _) <;> simp [hb]

theorem beginBinding_distinct {b : BayId} {i : Ident} {n : Serial} {s : State}
    (hb : (s.bay b).mount.serial = some n)
    (hn : (s.bay (otherBay b)).identified → (s.bay (otherBay b)).mount.serial ≠ some n) :
    CarriersDistinct (beginBinding b i n s) := by
  refine CarriersDistinct.kept (.newcomer (b := b) (n := n) (s := s) ?_ ?_ hn)
    (carriersKept_grantLink b _) <;> simp [hb]

theorem checkDescriptor_distinct {b : BayId} {i : Ident} {s : State} (h : CarriersDistinct s) :
    CarriersDistinct (checkDescriptor b i s) := by
  unfold checkDescriptor
  split
  · exact h.kept (carriersKept_reject b _ s)
  · dsimp only
    split
    · exact h.kept (.of_bay (b := b) (.of_out (by simp [BayState.serving]) (by simp)) (by simp))
    next hconflict =>
      have hn : (s.bay (otherBay b)).identified →
          (s.bay (otherBay b)).mount.serial ≠ some (descSerial i.halves) := by
        intro hid hserial
        simp [hid, hserial] at hconflict
      split
      · exact mountLocked_distinct (by simp) (by simpa using hn)
      · exact beginBinding_distinct (by simp) (by simpa using hn)

theorem descriptorAnswer_distinct {b : BayId} {d : Half} {l : Bool} {s : State}
    (h : CarriersDistinct s) : CarriersDistinct (descriptorAnswer b d l s) := by
  unfold descriptorAnswer
  dsimp only
  split
  next halves hs hl hi =>
    have hkept : CarriersKept s
        (modBay b (fun x => { x with ident := some ⟨halves ++ [d], none⟩ }) s) := by
      refine .modBay fun hid => ?_
      rw [Bay.identified_eq_false (by simp [hs, BayState.serving]) fun _ i hi => by cases hi; rfl] at hid
      cases hid
    split
    · split
      · exact h.kept ((hkept.trans (.of_alike (alike_freeLink b _))).trans (carriersKept_grantLink b _))
      · exact checkDescriptor_distinct
          (h.kept (hkept.trans (carriersKept_sample (by simp) (by simp) (by simp))))
    · exact h
  · exact h

theorem judgeHold_setHold_bay (b c : BayId) (n : Serial) (slot : Option Stamp) (s : State)
    (l : List HoldEntry) : State.bay { judgeHold b n slot s with hold := l } c = s.bay c :=
  (State.bay_congr rfl rfl c).trans (judgeHold_bay b n slot s c)

theorem carriersKept_bindingAnswer (b : BayId) (s : State) : CarriersKept s (bindingAnswer b s) := by
  unfold bindingAnswer
  dsimp only
  split
  next halves w hs hl hi =>
    have hid : (s.bay b).identified := by simp [Bay.identified, hs, hi]
    split
    · exact .refl s
    · split
      · exact (CarriersKept.modBay fun _ => ⟨hid, rfl⟩).trans (carriersKept_grantLink b _)
      · unfold completeBinding
        dsimp only
        have hmount : ∀ v l, CarriersKept s (modBay (otherBay b)
            (fun y => { y with last := y.last.filter fun r => decide (r.serial ≠ descSerial halves) })
            (modBay b (fun x => { x with
              mount := { x.mount with stamp := some w.stamp, locked := false, verdict := v }
              lossCount := 0
              last := some ⟨descSerial halves, descCapacity halves, .bound w.stamp⟩ })
              { judgeHold b (descSerial halves) (slotStamp halves) s with hold := l })) := by
          intro v l
          have hjudge : CarriersKept s
              { judgeHold b (descSerial halves) (slotStamp halves) s with hold := l } :=
            .of_bays fun c => judgeHold_setHold_bay b c _ _ s l
          exact (hjudge.trans (carriersKept_sample rfl rfl rfl)).trans (carriersKept_sample rfl rfl rfl)
        refine (hmount _ _).trans (carriersKept_completeMount ?_)
        rw [modBay_bay_ne _ _ (ne_otherBay b), modBay_bay, judgeHold_setHold_bay]
        exact hid
  · exact .refl s

/-! ### The events and the commands -/

theorem carriersKept_commitHead (b : BayId) (s : State) : CarriersKept s (commitHead b s) := by
  have hdrop : CarriersKept s (modBay b (fun x => { x with lossCount := 0 })
      (dropHead b { s with committed := s.committed + 1 })) :=
    ((CarriersKept.of_bays fun c => by simp).trans (.of_alike (alike_dropHead b _))).trans
      (carriersKept_sample rfl rfl rfl)
  unfold commitHead
  dsimp only
  split
  · split
    · refine CarriersKept.trans (CarriersKept.trans (hdrop.trans (.of_bays fun c => ?_))
        (carriersKept_settle b _)) (.of_alike (alike_markAck b _))
      split <;> simp
    · exact .refl s
  · exact .refl s

/-- No event but the answer to a descriptor read brings an identified carrier to a bay. -/
theorem carriersKept_event {c : Instr} (hc : ∀ b d l p, c ≠ .descriptorReadAnswer b d l p)
    (s : State) : CarriersKept s (event c s) := by
  have hhost (t : State) (hA : t.bayA = s.bayA) (hB : t.bayB = s.bayB) : CarriersKept s t :=
    .of_bays (State.bay_congr hA hB)
  cases c
  case descriptorReadAnswer b d l p => exact absurd rfl (hc b d l p)
  case hrst r p =>
    change CarriersKept s (hrstEffect r s)
    unfold hrstEffect hostReset
    split
    · refine CarriersKept.trans ?_ (CarriersKept.of_bays fun c => by rw [State.bay_mk])
      split
      all_goals first
        | exact .of_alike (alike_abandonAccess s)
        | exact hhost _ rfl rfl
    · exact hhost _ rfl rfl
  case classification cy =>
    change CarriersKept s (classify cy s)
    unfold classify beginMain
    dsimp only
    repeat' split
    all_goals first
      | exact .of_alike ((alike_handleAccess _ s).trans (alike_grantLink _ _))
      | exact hhost _ rfl rfl
  case mainAccessReady =>
    change CarriersKept s (mainReady _ s)
    unfold mainReady
    split <;> exact hhost _ rfl rfl
  case accessEnd =>
    change CarriersKept s (accessEnd s)
    unfold accessEnd
    split <;> exact hhost _ rfl rfl
  case hostWithdrawal => exact .of_alike (alike_abandonAccess s)
  case stallTimerExpiry =>
    change CarriersKept s (stallExpiry s)
    unfold stallExpiry
    repeat' split
    all_goals first
      | exact .refl s
      | exact (CarriersKept.of_alike (alike_clearThrough _ s)).trans
          (.of_bays fun c => releaseError_bay _ _ _ _ c)
      | exact ((CarriersKept.of_alike (alike_abandonRead _ s)).trans
          (.of_bays fun c => releaseError_bay _ _ _ _ c)).trans (carriersKept_grantLink _ _)
  case waitingWriteAccepted =>
    change CarriersKept s (acceptWaiting s)
    unfold acceptWaiting
    dsimp only
    repeat' split
    · exact .of_alike ((alike_acceptQueue _ s).trans (alike_grantLink _ _))
    all_goals exact .refl s
  case stalledAccessRehandled =>
    change CarriersKept s (rehandle s)
    unfold rehandle
    repeat' split
    all_goals first
      | exact .refl s
      | exact .of_alike ((alike_handleAccess _ s).trans (alike_grantLink _ _))
  case linkGrant => exact carriersKept_grantLink _ s
  case commit => exact carriersKept_commitHead _ s
  case failedAttempt | responseTimeout => exact carriersKept_failAttempt _ s
  case readTransferAnswer =>
    change CarriersKept s (readAnswer _ _ s)
    unfold readAnswer
    repeat' split
    · exact (((CarriersKept.of_bays fun c => State.bay_mk ..).trans
        (.of_alike (alike_freeLink _ _))).trans (.of_bays fun c => releaseOk_bay _ _ c)).trans
          (carriersKept_grantLink _ _)
    all_goals exact .refl s
  case bindingWriteAnswer => exact carriersKept_bindingAnswer _ s
  case abandonedTransferEnd =>
    change CarriersKept s (abandonedEnd _ s)
    unfold abandonedEnd
    split
    · exact .of_alike ((alike_freeLink _ s).trans (alike_grantLink _ _))
    all_goals exact .refl s
  case detectMake b =>
    change CarriersKept s (detectMake b s)
    unfold detectMake detectSample
    dsimp only
    repeat' split
    · exact (carriersKept_sample rfl rfl rfl).trans (.modBay (.of_out rfl (by simp)))
    · exact carriersKept_sample rfl rfl rfl
    · exact .refl s
  case debounceBreak b k =>
    change CarriersKept s (debounceBreak b k s)
    unfold debounceBreak
    split
    · exact (carriersKept_sample rfl rfl rfl).trans (.modBay (.of_out rfl (by simp)))
    · exact .refl s
  case debounceExpiry b k =>
    change CarriersKept s (debounceExpiry b k s)
    unfold debounceExpiry
    split
    · exact ((carriersKept_sample rfl rfl rfl).trans (carriersKept_setLatch _ _)).trans
        carriersKept_keyRead
    · exact .refl s
  case powerGoodRise b =>
    change CarriersKept s (powerGoodRise b s)
    unfold powerGoodRise
    split
    · exact (carriersKept_sample rfl rfl rfl).trans (carriersKept_enterIdentifying b _)
    · exact .refl s
  case powerTimerExpiry b =>
    change CarriersKept s (powerTimerExpiry b s)
    unfold powerTimerExpiry
    split
    · exact carriersKept_reject b _ s
    · exact .refl s
  case identificationTimerExpiry b =>
    change CarriersKept s (identTimerExpiry b s)
    unfold identTimerExpiry
    split
    · exact carriersKept_reject b _ s
    · exact .refl s
  case powerLoss b p =>
    change CarriersKept s (powerLoss b s)
    have hsample : CarriersKept s (samplePower b false s) := carriersKept_sample rfl rfl rfl
    unfold powerLoss
    dsimp only
    repeat' split
    · exact ((hsample.trans (carriersKept_leaveServing rfl (by simp))).trans
        (carriersKept_setLatch _ _)).trans (carriersKept_settle b _)
    · exact (hsample.trans (.modBay (.of_out rfl (by simp)))).trans (carriersKept_setLatch _ _)
    · exact .refl s
  case removal b k p =>
    change CarriersKept s (removeServing b k s)
    unfold removeServing
    split
    · exact (((carriersKept_sample rfl rfl rfl).trans (carriersKept_leaveServing rfl (by simp))).trans
        (carriersKept_setLatch _ _)).trans (carriersKept_settle b _)
    · exact .refl s
  case removalDuringMount b k =>
    change CarriersKept s (removeMounting b k s)
    unfold removeMounting
    split
    · exact ((carriersKept_sample rfl rfl rfl).trans (.modBay (.of_out rfl (by simp)))).trans
        (carriersKept_setLatch _ _)
    · exact .refl s
  case removalOfStoppedCarrier b k =>
    change CarriersKept s (removeStopped b k s)
    unfold removeStopped
    split
    · exact ((carriersKept_sample rfl rfl rfl).trans (.modBay (.of_out rfl (by simp)))).trans
        (carriersKept_setLatch _ _)
    · exact .refl s
  case drainTimeout b p =>
    change CarriersKept s (drainTimeout b s)
    unfold drainTimeout
    split
    · exact (((carriersKept_leaveServing rfl (by simp)).trans (carriersKept_setLatch _ _)).trans
        (carriersKept_setLatch _ _)).trans (carriersKept_settle b _)
    · exact .refl s
  case replayMove b =>
    change CarriersKept s (replayMove b s)
    unfold replayMove
    split
    · exact carriersKept_settle b s
    · exact .refl s
  case frameStart =>
    change CarriersKept s (frameStart s)
    unfold frameStart
    split <;> exact hhost _ rfl rfl
  case frameEnd =>
    change CarriersKept s (frameEnd s)
    unfold frameEnd
    split <;> exact hhost _ rfl rfl
  case frameDiscard bits =>
    change CarriersKept s (frameDiscard bits s)
    unfold frameDiscard
    repeat' split
    all_goals exact hhost _ rfl rfl
  all_goals exact .refl s

/-- FORCE_REPLAY brings the hold entries back and the bay to REPLAY with its carrier (R138). -/
theorem carriersKept_forced {b : BayId} {s : State} (hs : (s.bay b).state = .ready) :
    CarriersKept s (modBay b (Bay.enter .replay .none)
      { s with hold := s.hold.map (forceEntry (s.bay b).mount) }) := by
  refine (CarriersKept.of_bays fun c => State.bay_mk ..).trans (.modBay ?_)
  rw [State.bay_mk]
  exact .of_serving (by rw [hs]; rfl) rfl

theorem carriersKept_command {c : Instr} {n : Nat} {f : State → Reply}
    (hf : command c = some (n, f)) (s : State) : CarriersKept s (f s).state := by
  refine command_keeps (Q := fun _ => True) (P := CarriersKept s) hf trivial
    (fun _ => .refl s) (fun t _ _ _ _ hA hB => .of_bays (State.bay_congr hA hB)) ?_ ?_ ?_ ?_ ?_ ?_
  · intro b
    unfold eject
    split
    next hs =>
      exact (carriersKept_enterDraining (by rw [hs]; rfl)).trans (carriersKept_settle b _)
    · exact carriersKept_sample rfl rfl rfl
    all_goals exact .refl s
  · intro b
    unfold cancelEject
    split
    next hs => exact .modBay (.of_serving (by rw [hs]; rfl) rfl)
    · split
      · exact carriersKept_sample rfl rfl rfl
      · exact .refl s
    all_goals exact .refl s
  · intro k b
    unfold retryBay
    split
    case h_1 | h_2 | h_3 => exact (carriersKept_sample rfl rfl rfl).trans carriersKept_keyRead
    all_goals exact .refl s
  · exact fun b => carriersKept_sample rfl rfl rfl
  · intro b
    unfold forceReplay
    dsimp only
    split
    · exact .refl s
    next hs =>
      repeat' split
      · exact .refl s
      · exact .refl s
      · exact ((carriersKept_forced (by simpa using hs)).trans (carriersKept_meetHost _)).trans
          (carriersKept_settle b _)
  · intro serial scope
    unfold discardHeld
    dsimp only
    repeat' split
    · exact .refl s
    · exact .refl s
    · exact ((CarriersKept.of_bays fun c => by simp).trans (carriersKept_settle .A _)).trans
        (carriersKept_settle .B _)

theorem event_distinct (c : Instr) {s : State} (h : CarriersDistinct s) :
    CarriersDistinct (event c s) := by
  by_cases hc : ∃ b d l p, c = .descriptorReadAnswer b d l p
  · obtain ⟨b, d, l, p, rfl⟩ := hc
    exact descriptorAnswer_distinct h
  · exact h.kept (carriersKept_event (fun b d l p e => hc ⟨b, d, l, p, e⟩) s)

theorem elapse_distinct {s : State} (h : CarriersDistinct s) : CarriersDistinct (elapse s) :=
  h.kept (.of_alike (alike_elapse s))

/-- Settles O10: a bay comes to hold an identified carrier by the descriptor check alone, which looks at
the other bay first. -/
theorem carriersStayDistinct : Obligations.CarriersStayDistinct := by
  have hleads : Leads CarriersDistinct CarriersDistinct :=
    { stays := id
      elapse := elapse_distinct
      frame := fun _ h => h
      por := fun _ h => by
        simp [porState, Bay.reset, Bay.identified, BayState.serving] at h
      resetEnd := fun a b d e _ h => h.kept (by
        have hdetect (b : BayId) (t : State) : CarriersKept t (detectSample b t) := by
          unfold detectSample
          dsimp only
          split
          · exact .modBay (.of_out rfl (by simp))
          · exact .refl t
        exact ((((CarriersKept.of_bays fun c => State.bay_mk ..).trans
          (carriersKept_sample rfl rfl rfl)).trans (hdetect .A _)).trans
          (carriersKept_sample rfl rfl rfl)).trans (hdetect .B _))
      event := fun c _ h => event_distinct c h
      reply := fun c n f hf _ h => h.kept (carriersKept_command hf _) }
  exact hleads.step fun _ h => h

end Sys2Proof.Machine
end

section
/-! PROOFS. What settles a bay inside one step: the moves and the end of replay, the end of a drain, the
waiting host, and the grant of the link leave no work due (R37, R39, R41, R71, R114, R131, R132). -/

namespace Sys2Proof.Machine

/-! ### When a grant is due -/

theorem requester_eq_none_iff {b : BayId} {s : State} :
    requester b s = none ↔ waitingRead b s = none ∧
      ((s.bay b).state.serving → (s.bay b).queue = []) ∧
      ((s.bay b).state = .identifying → (s.bay b).ident = none) := by
  unfold requester
  dsimp only
  cases hw : waitingRead b s with
  | some a => simp
  | none =>
    cases hs : (s.bay b).state.serving with
    | true =>
      have hi : (s.bay b).state ≠ .identifying := by rintro e; simp [e, BayState.serving] at hs
      cases hq : (s.bay b).queue <;> simp [hi]
    | false => simp

/-- The link of a bay that the arbiter has looked at is free only when nobody asks for it (R71). -/
theorem noGrantDue_grantLink (b : BayId) (s : State) : NoGrantDue b (grantLink b s) := by
  obtain e | ⟨-, ⟨a, -, e⟩ | ⟨-, -, x, es, -, e⟩ | ⟨-, -, i, -, e⟩⟩ := grantLink_cases b s
  · rw [e]
    intro hfree
    rw [requester_eq_none_iff]
    have hne : ∀ h t, ((grantLink b s).bay b).link ≠ .held h t := by
      intro h t; rw [e, hfree]; exact fun hc => by cases hc
    cases hw : waitingRead b s with
    | some a =>
      refine absurd ?_ (hne .read (readTransfer a (firstPhase (s.bay b).reqHigh s) s))
      unfold grantLink
      simp [hfree, hw]
    | none =>
      refine ⟨rfl, fun hs => ?_, fun hs => ?_⟩
      · cases hq : (s.bay b).queue with
        | nil => rfl
        | cons x es =>
          refine absurd ?_ (hne .drain (entryTransfer x (firstPhase (s.bay b).reqHigh s) s))
          unfold grantLink
          simp [hfree, hw, hs, hq]
      · cases hi : (s.bay b).ident with
        | none => rfl
        | some i =>
          refine absurd ?_ (hne .ident (identTransfer i (firstPhase (s.bay b).reqHigh s) s))
          unfold grantLink
          simp [hfree, hw, hs, hi, BayState.serving]
  all_goals
    intro hfree
    rw [e] at hfree
    simp at hfree

/-- Nothing happens to a link of which no grant is due. -/
theorem grantLink_of_noGrantDue {b : BayId} {s : State} (h : NoGrantDue b s) : grantLink b s = s := by
  obtain e | ⟨hfree, hc⟩ := grantLink_cases b s
  · exact e
  · obtain ⟨hw, hq, hi⟩ := requester_eq_none_iff.1 (h hfree)
    obtain ⟨a, ha, -⟩ | ⟨-, hs, x, es, hx, -⟩ | ⟨-, hs, i, hx, -⟩ := hc
    · rw [hw] at ha; cases ha
    · rw [hq hs] at hx; cases hx
    · rw [hi hs] at hx; cases hx

/-- No grant is due at a bay that asks no more than before. -/
theorem NoGrantDue.mono {b : BayId} {s t : State} (h : NoGrantDue b s)
    (hl : (t.bay b).link = .free → (s.bay b).link = .free)
    (hs : (t.bay b).state = (s.bay b).state)
    (hq : (s.bay b).queue = [] → (t.bay b).queue = [])
    (hi : (t.bay b).ident = (s.bay b).ident)
    (hw : waitingRead b s = none → waitingRead b t = none) : NoGrantDue b t := by
  intro hfree
  obtain ⟨h1, h2, h3⟩ := requester_eq_none_iff.1 (h (hl hfree))
  rw [requester_eq_none_iff, hs, hi]
  exact ⟨hw h1, fun hv => hq (h2 hv), h3⟩

/-- No grant is due at a bay that neither serves nor identifies. -/
theorem NoGrantDue.of_out {b : BayId} {s : State} (hs : (s.bay b).state.serving = false)
    (hi : (s.bay b).state ≠ .identifying) : NoGrantDue b s := by
  intro _
  rw [requester_eq_none_iff]
  refine ⟨?_, fun h => absurd h (by rw [hs]; exact Bool.false_ne_true), fun h => absurd h hi⟩
  cases hw : waitingRead b s with
  | none => rfl
  | some a =>
    obtain ⟨-, -, hr⟩ := waitingRead_some hw
    rw [BayState.servesReads_serving hr] at hs
    cases hs

theorem waitingRead_eq_none {b : BayId} {s : State}
    (h : ∀ a, s.host = .diverted a .grant → a.copy.bay = b → (s.bay b).state.servesReads = false) :
    waitingRead b s = none := by
  cases hw : waitingRead b s with
  | none => rfl
  | some a =>
    obtain ⟨hhost, hbay, hr⟩ := waitingRead_some hw
    rw [h a hhost hbay] at hr
    cases hr

theorem waitingRead_congr {b : BayId} {s t : State} (hh : t.host = s.host)
    (hs : (t.bay b).state = (s.bay b).state) : waitingRead b t = waitingRead b s := by
  unfold waitingRead
  rw [hh, hs]

/-- No grant is due at a bay that stands as it did, while the host stands as it did. -/
theorem NoGrantDue.of_other {b : BayId} {s t : State} (h : NoGrantDue b s) (hb : t.bay b = s.bay b)
    (hh : t.host = s.host) : NoGrantDue b t :=
  h.mono (by rw [hb]; exact id) (by rw [hb]) (by rw [hb]; exact id) (by rw [hb])
    fun hw => by rw [waitingRead_congr hh (by rw [hb])]; exact hw

/-! ### What the waiting host looks at -/

/-- Two bays between which no rule of a step makes a difference: they differ in their timers, their
records and their flags alone, in the THROUGH-waiting flags of their queues, and in the transfer of a
link that is held or abandoned. -/
structure Bay.Same (x y : Bay) : Prop where
  state : y.state = x.state
  mount : y.mount = x.mount
  queue : y.queue.map QEntry.write = x.queue.map QEntry.write
  ident : y.ident = x.ident
  read : y.link.heldByRead = x.link.heldByRead
  free : y.link = .free ↔ x.link = .free

theorem Bay.Same.refl (x : Bay) : x.Same x := ⟨rfl, rfl, rfl, rfl, rfl, .rfl⟩

theorem Bay.Same.of_eq {x y : Bay} (h : y = x) : x.Same y := h ▸ .refl _

theorem Bay.Same.queue_length {x y : Bay} (h : x.Same y) : y.queue.length = x.queue.length := by
  simpa using congrArg List.length h.queue

theorem Bay.Same.queue_nil {x y : Bay} (h : x.Same y) : y.queue = [] ↔ x.queue = [] := by
  rw [← List.length_eq_zero_iff, h.queue_length, List.length_eq_zero_iff]

/-- A read meets the writes of the queue, whatever else its entries carry (R46). -/
theorem readMatches_eq_writes (a : Access) (x : Bay) :
    readMatches a x =
      (a.copy.region == .data && (x.queue.map QEntry.write).any fun w => w.addr == a.carrier) := by
  simp [readMatches, Function.comp_def]

theorem readMatches_writes {x y : Bay} (h : y.queue.map QEntry.write = x.queue.map QEntry.write)
    (a : Access) : readMatches a y = readMatches a x := by
  rw [readMatches_eq_writes, readMatches_eq_writes, h]

theorem readMatches_congr {x y : Bay} (h : y.queue = x.queue) (a : Access) :
    readMatches a y = readMatches a x := readMatches_writes (by rw [h]) a

theorem agrees_congr {x y : Bay} (a : Access) (w : Wait) (hs : y.state = x.state)
    (hq : y.queue.length = x.queue.length) (hm : readMatches a y = readMatches a x)
    (hl : y.link.heldByRead = x.link.heldByRead) : w.agrees a y = w.agrees a x := by
  cases w <;> simp only [Wait.agrees, hs, hq, hm, hl]

theorem Bay.Same.agrees {x y : Bay} (h : x.Same y) (a : Access) (w : Wait) :
    w.agrees a y = w.agrees a x :=
  agrees_congr a w h.state h.queue_length (readMatches_writes h.queue a) h.read

/-- A wait at a bay out of service agrees with it only for the fate of an accepted write. -/
theorem fate_of_agrees {a : Access} {w : Wait} {x : Bay} (h : w.agrees a x)
    (hs : x.state.serving = false) : ∃ num, w = .fate num := by
  cases w with
  | fate num => exact ⟨num, rfl⟩
  | replay => cases hx : x.state <;> simp_all [Wait.agrees, BayState.serving]
  | space => cases hx : x.state <;> simp_all [Wait.agrees, BayState.serving]
  | queueMatch | grant | onLink =>
    cases hx : x.state <;> simp_all [Wait.agrees, BayState.serving, BayState.servesReads]

/-- Where an access may stand when its bay is about to be met: it agrees with the bay, or with one that
the step has taken out of the states in which it could wait so. -/
def Wait.mayMeet (a : Access) (x : Bay) : Wait → Bool
  | .replay | .fate _ => true
  | .space => a.write
  | .queueMatch => !a.write
  | .grant => !a.write && (!x.state.servesReads || !readMatches a x)
  | .onLink => !a.write && (!x.state.servesReads || x.link.heldByRead)

/-- The waits that a bay in REPLAY can find (R36, R39, R43). -/
def Wait.fitsReplay : Wait → Bool
  | .replay | .space | .fate _ => true
  | .queueMatch | .grant | .onLink => false

theorem mayMeet_of_agrees {a : Access} {w : Wait} {x y : Bay} (h : w.agrees a x)
    (hm : y.state.servesReads → readMatches a y → readMatches a x)
    (hl : x.link.heldByRead → y.state.servesReads → y.link.heldByRead) : w.mayMeet a y := by
  cases w with
  | replay | fate => rfl
  | space | queueMatch => simp_all [Wait.agrees, Wait.mayMeet]
  | grant =>
    cases hr : readMatches a y <;> cases hs : y.state.servesReads <;>
      simp_all [Wait.agrees, Wait.mayMeet]
  | onLink => cases hs : y.state.servesReads <;> simp_all [Wait.agrees, Wait.mayMeet]

theorem fitsReplay_of_agrees {a : Access} {w : Wait} {x : Bay} (h : w.agrees a x)
    (hs : x.state.servesReads = false) : w.fitsReplay := by
  cases w <;> simp_all [Wait.agrees, Wait.fitsReplay]

/-! ### Settled, piece by piece -/

/-- The replay of the bay has made its moves, and has ended if nothing is left to move (R131, R132). -/
def ReplayDone (b : BayId) (s : State) : Prop :=
  (s.bay b).state = .replay →
    queueCapacity ≤ (s.bay b).queue.length ∧ s.hold.any (eligible (s.bay b).mount)

/-- The drain of the bay has ended if its queue is empty (R114). -/
def DrainDone (b : BayId) (s : State) : Prop := (s.bay b).state = .draining → (s.bay b).queue ≠ []

/-- What is settled but for replay: the host, the links and the drains. -/
structure SettledPort (s : State) : Prop where
  reset : s.rst ∨ s.hrst → s.host = .idle
  host : ∀ a w, s.host = .diverted a w → a.stall.isSome ∧ w.agrees a (s.bay a.copy.bay)
  link : ∀ c, (s.bay c).link.heldByRead → ∃ a, s.host = .diverted a .onLink ∧ a.copy.bay = c
  grant : ∀ c, NoGrantDue c s
  drain : ∀ c, DrainDone c s

theorem settled_iff {s : State} : Settled s ↔ SettledPort s ∧ ∀ b, ReplayDone b s :=
  ⟨fun h => ⟨⟨h.reset, h.host, h.link, h.grant, h.drain⟩, h.replay⟩,
    fun h => ⟨h.1.reset, h.1.host, h.1.link, h.1.grant, h.2, h.1.drain⟩⟩

theorem Settled.port {s : State} (h : Settled s) : SettledPort s := (settled_iff.1 h).1

/-- What is settled before the arbiter of bay `b` grants its link. -/
structure BeforeGrant (b : BayId) (s : State) : Prop where
  reset : s.rst ∨ s.hrst → s.host = .idle
  host : ∀ a w, s.host = .diverted a w → a.stall.isSome ∧ w.agrees a (s.bay a.copy.bay)
  link : ∀ c, (s.bay c).link.heldByRead → ∃ a, s.host = .diverted a .onLink ∧ a.copy.bay = c
  grant : NoGrantDue (otherBay b) s
  drain : ∀ c, DrainDone c s

/-- What is settled when the rest of the part is about to meet what an event did to bay `b`. -/
structure DueAt (b : BayId) (s : State) : Prop where
  reset : s.rst ∨ s.hrst → s.host = .idle
  stall : ∀ a w, s.host = .diverted a w → a.stall.isSome
  here : ∀ a w, s.host = .diverted a w → a.copy.bay = b → w.mayMeet a (s.bay b)
  there : ∀ a w, s.host = .diverted a w → a.copy.bay = otherBay b → w.agrees a (s.bay (otherBay b))
  link : ∀ c, (s.bay c).link.heldByRead → ∃ a, s.host = .diverted a .onLink ∧ a.copy.bay = c
  grant : NoGrantDue (otherBay b) s
  drain : DrainDone (otherBay b) s

/-! ### The grant -/

@[simp] theorem heldByRead_free : Link.heldByRead .free = false := rfl

/-- The replay of a bay stays done when nothing that waits for it goes. -/
theorem ReplayDone.mono {b : BayId} {s t : State} (h : ReplayDone b s)
    (hs : (t.bay b).state = (s.bay b).state) (hm : (t.bay b).mount = (s.bay b).mount)
    (hq : (s.bay b).queue.length ≤ (t.bay b).queue.length)
    (hh : (s.bay b).state = .replay → s.hold.any (eligible (s.bay b).mount) →
      t.hold.any (eligible (s.bay b).mount)) : ReplayDone b t := by
  intro hr
  rw [hs] at hr
  obtain ⟨h1, h2⟩ := h hr
  exact ⟨h1.trans hq, by rw [hm]; exact hh hr h2⟩

theorem grantLink_replayDone {b c : BayId} {s : State} (h : ReplayDone c s) :
    ReplayDone c (grantLink b s) :=
  h.mono (alike_grantLink b s c).state (alike_grantLink b s c).mount (by simp) (by simp)

theorem DrainDone.of_queue {b : BayId} {s t : State} (h : DrainDone b s)
    (hs : (t.bay b).state = (s.bay b).state)
    (hq : (s.bay b).queue ≠ [] → (t.bay b).queue ≠ []) : DrainDone b t := by
  intro hd
  exact hq (h (hs ▸ hd))

/-- What a grant does, its transfer aside: a free link is held, and a host read that waits for it stands
on the link (R71). -/
theorem grantLink_effect (b : BayId) (s : State) :
    grantLink b s = s ∨ (s.bay b).link = .free ∧ ∃ k t,
      (grantLink b s).bay b = { s.bay b with link := .held k t } ∧
        ((k = .read ∧ ∃ a, waitingRead b s = some a ∧ (grantLink b s).host = .diverted a .onLink) ∨
          (k ≠ .read ∧ (grantLink b s).host = s.host)) := by
  obtain e | ⟨hfree, ⟨a, hw, e⟩ | ⟨hw, -, x, es, -, e⟩ | ⟨hw, -, i, -, e⟩⟩ := grantLink_cases b s
  · exact .inl e
  · exact .inr ⟨hfree, .read, _, by rw [e]; simp; rfl, .inl ⟨rfl, a, hw, by rw [e]⟩⟩
  · exact .inr ⟨hfree, .drain, _, by rw [e]; simp; rfl, .inr ⟨by simp, by rw [e]; simp⟩⟩
  · exact .inr ⟨hfree, .ident, _, by rw [e]; simp; rfl, .inr ⟨by simp, by rw [e]; simp⟩⟩

/-- A wait at a bay whose link changes, but not to or from a host read. -/
theorem agrees_of_link {l : Link} {x : Bay} {a : Access} {w : Wait} (h : w.agrees a x)
    (hl : l.heldByRead = x.link.heldByRead) : w.agrees a { x with link := l } := by
  have hsame := agrees_congr (x := x) (y := { x with link := l }) a w rfl rfl (readMatches_congr rfl a) hl
  rwa [hsame]

theorem BeforeGrant.no_read {b : BayId} {s : State} {a : Access} (h : BeforeGrant b s)
    (ha : s.host = .diverted a .grant) (c : BayId) : (s.bay c).link.heldByRead = false := by
  cases hc : (s.bay c).link.heldByRead with
  | false => rfl
  | true =>
    obtain ⟨a', ha', -⟩ := h.link c hc
    rw [ha] at ha'
    cases ha'

/-- The grant is the last piece: the read that waits for it stands on the link after it (R71). -/
theorem BeforeGrant.grantLink {b : BayId} {s : State} (h : BeforeGrant b s) :
    SettledPort (grantLink b s) := by
  have hdue := noGrantDue_grantLink b s
  have hdrain : ∀ c, DrainDone c (Machine.grantLink b s) := fun c =>
    (h.drain c).of_queue (alike_grantLink b s c).state (by simp)
  obtain e | ⟨hfree, k, t, hbay, hk⟩ := grantLink_effect b s
  · rw [e] at hdue ⊢
    refine ⟨h.reset, h.host, h.link, fun c => ?_, h.drain⟩
    obtain rfl | rfl := eq_or_eq_otherBay b c
    · exact hdue
    · exact h.grant
  have hother (hw : waitingRead (otherBay b) s = none →
      waitingRead (otherBay b) (Machine.grantLink b s) = none) :
      ∀ c, NoGrantDue c (Machine.grantLink b s) := fun c => by
    obtain rfl | rfl := eq_or_eq_otherBay b c
    · exact hdue
    · exact h.grant.mono (by simp) (by simp) (by simp) (by simp) hw
  obtain ⟨rfl, a, hw, hhost'⟩ | ⟨hread, hhost'⟩ := hk
  · obtain ⟨hhost, rfl, -⟩ := waitingRead_some hw
    have hagrees := (h.host a .grant hhost).2
    refine ⟨fun hr => ?_, fun a' w' ha' => ?_, fun c hc => ?_, hother fun _ => ?_, hdrain⟩
    · rw [h.reset (by simpa using hr)] at hhost
      cases hhost
    · rw [hhost'] at ha'
      cases ha'
      refine ⟨(h.host a .grant hhost).1, ?_⟩
      rw [hbay]
      simp only [Wait.agrees, Bool.and_eq_true] at hagrees ⊢
      exact ⟨hagrees.1, rfl⟩
    · obtain rfl | rfl := eq_or_eq_otherBay a.copy.bay c
      · exact ⟨a, hhost', rfl⟩
      · rw [grantLink_bay_other, h.no_read hhost] at hc
        cases hc
    · refine waitingRead_eq_none fun a' ha' _ => ?_
      rw [hhost'] at ha'
      cases ha'
  · have hnot : (s.bay b).link.heldByRead = false := by rw [hfree]; rfl
    have hnot' : (Link.held k t).heldByRead = false := by cases k <;> first | rfl | exact absurd rfl hread
    refine ⟨fun hr => ?_, fun a' w' ha' => ?_, fun c hc => ?_, hother fun hn => ?_, hdrain⟩
    · rw [hhost']; exact h.reset (by simpa using hr)
    · rw [hhost'] at ha'
      obtain ⟨hstall, hagrees⟩ := h.host a' w' ha'
      refine ⟨hstall, ?_⟩
      obtain hb | hb := eq_or_eq_otherBay b a'.copy.bay
      · rw [hb] at hagrees ⊢
        rw [hbay]
        exact agrees_of_link hagrees (hnot'.trans hnot.symm)
      · rw [hb] at hagrees ⊢
        rw [grantLink_bay_other]
        exact hagrees
    · rw [hhost']
      obtain rfl | rfl := eq_or_eq_otherBay b c
      · rw [hbay, hnot'] at hc; cases hc
      · rw [grantLink_bay_other] at hc
        exact h.link _ hc
    · rw [waitingRead_congr hhost' (by simp)]
      exact hn

/-! ### The waiting host -/

/-- The host stands at bay `b` as the rule of its access has left it: released, or waiting in agreement
with the bay, with no transfer of its own. -/
def Handled (b : BayId) (s : State) : Prop :=
  (∃ e d, s.host = .released e d) ∨ ∃ a w, s.host = .diverted a w ∧ a.copy.bay = b ∧
    a.stall.isSome ∧ w ≠ .onLink ∧ w.agrees a (s.bay b)

theorem handled_releaseError {b : BayId} (a : Access) (c : HostCause) (n : Option Word) (s : State) :
    Handled b (releaseError a c n s) := .inl ⟨_, _, rfl⟩

theorem handled_releaseOk {b : BayId} (d : Option BusHalf) (s : State) : Handled b (releaseOk d s) :=
  .inl ⟨_, _, rfl⟩

theorem handled_waitIn {a : Access} {w : Wait} {s : State} (hw : w ≠ .onLink)
    (h : w.agrees a (s.bay a.copy.bay)) : Handled a.copy.bay (waitIn a w s) := by
  refine .inr ⟨_, w, rfl, rfl, rfl, hw, ?_⟩
  rw [waitIn_bay]
  cases w <;> exact h

theorem handled_acceptQueue (a : Access) (s : State) : Handled a.copy.bay (acceptQueue a s) := by
  unfold acceptQueue
  dsimp only
  split
  · exact handled_waitIn (by simp) rfl
  · exact handled_releaseOk _ _

theorem handled_absentRead {b : BayId} (a : Access) (s : State) : Handled b (absentRead a s) := by
  unfold absentRead
  split
  · exact handled_releaseOk _ _
  · exact handled_releaseError _ _ _ _

theorem handled_absentWrite {b : BayId} (a : Access) (s : State) : Handled b (absentWrite a s) := by
  unfold absentWrite acceptAbsent
  repeat' split
  all_goals first
    | exact handled_releaseError _ _ _ _
    | exact handled_releaseOk _ _

theorem handled_writeReady {a : Access} {s : State} (ha : a.write = true)
    (hs : (s.bay a.copy.bay).state = .ready) : Handled a.copy.bay (writeReady a s) := by
  unfold writeReady
  dsimp only
  split
  · exact handled_releaseError _ _ _ _
  · split
    · exact handled_releaseError _ _ _ _
    · split
      · exact handled_releaseError _ _ _ _
      · split
        · exact handled_acceptQueue a s
        next hfull => exact handled_waitIn (by simp) (by simp [Wait.agrees, ha, hs, Nat.le_of_not_lt hfull])

theorem handled_readServing {a : Access} {s : State} (ha : a.write = false)
    (hs : (s.bay a.copy.bay).state.servesReads) : Handled a.copy.bay (readServing a s) := by
  unfold readServing
  dsimp only
  split
  · exact handled_releaseError _ _ _ _
  · split
    next hm => exact handled_waitIn (by simp) (by simp [Wait.agrees, ha, hs, hm])
    next hm => exact handled_waitIn (by simp) (by simp [Wait.agrees, ha, hs, hm])

/-- Each rule of R36 releases the access, or lets it wait in agreement with its bay. -/
theorem handled_handleAccess (a : Access) (s : State) : Handled a.copy.bay (handleAccess a s) := by
  have hwrite : a.write = true ∨ a.write = false := by cases a.write <;> simp
  unfold handleAccess
  split
  next hs =>
    split
    next ha => exact handled_writeReady ha hs
    next ha => exact handled_readServing (by simpa using ha) (by rw [hs]; rfl)
  next hs =>
    split
    · exact handled_releaseError _ _ _ _
    next ha => exact handled_readServing (by simpa using ha) (by rw [hs]; rfl)
  next hs => exact handled_waitIn (by simp) (by simp [Wait.agrees, hs])
  all_goals
    split
    · exact handled_absentWrite _ _
    · exact handled_absentRead _ _

/-- What the rule of an access leaves of the part, the host aside: nothing goes, and a write may join the
tail of bay `b`'s queue, or the hold store. -/
structure Grows (b : BayId) (s t : State) : Prop where
  rst : t.rst = s.rst
  hrst : t.hrst = s.hrst
  alike : Alike s t
  other : t.bay (otherBay b) = s.bay (otherBay b)
  link : (t.bay b).link = (s.bay b).link
  queue : ∃ l, (t.bay b).queue = (s.bay b).queue ++ l
  hold : ∃ l, t.hold = s.hold ++ l

theorem Grows.of_bays {b : BayId} {s t : State} (h : ∀ c, t.bay c = s.bay c) (hr : t.rst = s.rst)
    (hh : t.hrst = s.hrst) (hhold : ∃ l, t.hold = s.hold ++ l) : Grows b s t :=
  ⟨hr, hh, .of_bays h, h _, by rw [h], ⟨[], by rw [h, List.append_nil]⟩, hhold⟩

theorem grows_acceptQueue (a : Access) (s : State) : Grows a.copy.bay s (acceptQueue a s) :=
  ⟨by simp, by simp, alike_acceptQueue a s, by simp, by simp, ⟨_, by rw [acceptQueue_bay]⟩,
    ⟨[], by simp⟩⟩

theorem grows_absentWrite {b : BayId} (a : Access) (s : State) : Grows b s (absentWrite a s) := by
  refine .of_bays (fun c => by simp) (by simp) (by simp) ?_
  unfold absentWrite
  repeat' split
  all_goals first
    | exact ⟨_, acceptAbsent_hold _ _ _ _⟩
    | exact ⟨[], by simp⟩

theorem grows_handleAccess (a : Access) (s : State) : Grows a.copy.bay s (handleAccess a s) := by
  unfold handleAccess writeReady
  dsimp only
  repeat' split
  all_goals first
    | exact grows_acceptQueue a s
    | exact grows_absentWrite a s
    | exact .of_bays (fun c => by simp) (by simp) (by simp) ⟨[], by simp⟩

theorem Grows.replayDone {b c : BayId} {s t : State} (g : Grows b s t) (h : ReplayDone c s) :
    ReplayDone c t := by
  obtain ⟨l, hl⟩ := g.hold
  obtain ⟨q, hq⟩ := g.queue
  refine h.mono (g.alike c).state (g.alike c).mount ?_ fun _ ha => ?_
  · obtain rfl | rfl := eq_or_eq_otherBay b c
    · rw [hq, List.length_append]; omega
    · rw [g.other]
  · rw [hl, List.any_append, ha, Bool.true_or]

/-- An access of bay `b` has been handled, and no read transfer is on a link: the rest is settled as it
was. -/
theorem BeforeGrant.of_handled {b : BayId} {s t : State} (h : Handled b t) (g : Grows b s t)
    (hreset : s.rst = false ∧ s.hrst = false) (hlink : ∀ c, (s.bay c).link.heldByRead = false)
    (hgrant : NoGrantDue (otherBay b) s) (hdrain : ∀ c, DrainDone c s) : BeforeGrant b t := by
  have hwait : ∀ a w, t.host = .diverted a w →
      a.copy.bay = b ∧ a.stall.isSome ∧ w.agrees a (t.bay b) := by
    intro a w ha
    obtain ⟨e, d, he⟩ | ⟨a', w', he, hb, hst, -, hag⟩ := h
    · rw [he] at ha; cases ha
    · rw [he] at ha; cases ha; exact ⟨hb, hst, hag⟩
  obtain ⟨q, hq⟩ := g.queue
  refine ⟨fun hr => ?_, fun a w ha => ?_, fun c hc => ?_, ?_, fun c => ?_⟩
  · rw [g.rst, g.hrst, hreset.1, hreset.2] at hr
    simp at hr
  · obtain ⟨rfl, hst, hag⟩ := hwait a w ha
    exact ⟨hst, hag⟩
  · have : (t.bay c).link = (s.bay c).link := by
      obtain rfl | rfl := eq_or_eq_otherBay b c
      · exact g.link
      · rw [g.other]
    rw [this, hlink] at hc
    cases hc
  · refine hgrant.mono (by rw [g.other]; exact id) (by rw [g.other]) (by rw [g.other]; exact id)
      (by rw [g.other]) fun _ => waitingRead_eq_none fun a ha hb => ?_
    obtain ⟨hb', -⟩ := hwait a _ ha
    rw [hb'] at hb
    exact absurd hb (ne_otherBay b)
  · refine (hdrain c).of_queue (g.alike c).state fun hne => ?_
    obtain rfl | rfl := eq_or_eq_otherBay b c
    · rw [hq]; exact fun hc => hne (List.append_eq_nil_iff.1 hc).1
    · rw [g.other]; exact hne

/-- An access that agrees with its bay is met by no rule. -/
theorem meetHost_of_agrees {s : State}
    (h : ∀ a w, s.host = .diverted a w → w.agrees a (s.bay a.copy.bay)) : meetHost s = s := by
  unfold meetHost
  split
  next a w hh =>
    have hw := h a w hh
    cases w <;> simp_all [Wait.agrees]
  all_goals rfl

theorem abandonRead_not_heldByRead (b : BayId) (s : State) :
    ((abandonRead b s).bay b).link.heldByRead = false := by
  unfold abandonRead
  split
  next t ht =>
    rw [modBay_bay]
    dsimp only
    split <;> rfl
  next hne =>
    cases hl : (s.bay b).link with
    | held k t =>
      cases k with
      | read => exact absurd hl (hne t)
      | _ => rfl
    | _ => rfl

/-- The end of a read on the link by its absent-reads policy (R48). -/
theorem grows_absentRead {b : BayId} (a : Access) (s : State) : Grows b s (absentRead a s) :=
  .of_bays (fun c => by simp) (by simp) (by simp) ⟨[], by simp⟩

/-- What meeting the host at its bay does: the access agrees already, or it is handled. -/
theorem meetHost_cases {b : BayId} {s : State} {a : Access} {w : Wait} (h : s.host = .diverted a w)
    (hb : a.copy.bay = b) (hst : a.stall.isSome) (hm : w.mayMeet a (s.bay b)) :
    (meetHost s = s ∧ w.agrees a (s.bay b)) ∨
      (Handled b (meetHost s) ∧
        ((w ≠ .onLink ∧ Grows b s (meetHost s)) ∨
          (w = .onLink ∧ Grows b (abandonRead b s) (meetHost s)))) := by
  subst hb
  unfold meetHost
  rw [h]
  cases w with
  | replay =>
    dsimp only
    split
    next hs => exact .inl ⟨rfl, by simp [Wait.agrees, hs]⟩
    next => exact .inr ⟨handled_handleAccess a s, .inl ⟨by simp, grows_handleAccess a s⟩⟩
  | space =>
    dsimp only
    split
    next hs =>
      split
      next => exact .inr ⟨handled_acceptQueue a s, .inl ⟨by simp, grows_acceptQueue a s⟩⟩
      next hfull =>
        exact .inl ⟨rfl, by simpa [Wait.agrees, hs, Nat.le_of_not_lt hfull, Wait.mayMeet] using hm⟩
    next => exact .inr ⟨handled_handleAccess a s, .inl ⟨by simp, grows_handleAccess a s⟩⟩
  | fate num => exact .inl ⟨rfl, rfl⟩
  | queueMatch =>
    dsimp only
    split
    next hs =>
      split
      next hr => exact .inl ⟨rfl, by simpa [Wait.agrees, hs, hr, Wait.mayMeet] using hm⟩
      next hr =>
        refine .inr ⟨.inr ⟨a, .grant, rfl, rfl, hst, by simp, ?_⟩, .inl ⟨by simp, ?_⟩⟩
        · simpa [Wait.agrees, hs, hr, Wait.mayMeet, State.bay_mk] using hm
        · exact .of_bays (fun _ => State.bay_mk ..) rfl rfl ⟨[], (List.append_nil _).symm⟩
    next => exact .inr ⟨handled_absentRead a s, .inl ⟨by simp, grows_absentRead a s⟩⟩
  | grant =>
    dsimp only
    split
    next hs => exact .inl ⟨rfl, by simpa [Wait.agrees, hs, Wait.mayMeet] using hm⟩
    next => exact .inr ⟨handled_absentRead a s, .inl ⟨by simp, grows_absentRead a s⟩⟩
  | onLink =>
    dsimp only
    split
    next hs => exact .inl ⟨rfl, by simpa [Wait.agrees, hs, Wait.mayMeet] using hm⟩
    next => exact .inr ⟨handled_absentRead a _, .inr ⟨rfl, grows_absentRead a _⟩⟩

/-- What is due at a bay is settled, but for the grant, when nothing is left for the host to meet. -/
theorem DueAt.beforeGrant {b : BayId} {s : State} (h : DueAt b s) (hd : DrainDone b s)
    (ha : ∀ a w, s.host = .diverted a w → w.agrees a (s.bay a.copy.bay)) : BeforeGrant b s := by
  refine ⟨h.reset, fun a w hh => ⟨h.stall a w hh, ha a w hh⟩, h.link, h.grant, fun c => ?_⟩
  obtain rfl | rfl := eq_or_eq_otherBay b c
  · exact hd
  · exact h.drain

theorem DueAt.running {b : BayId} {s : State} (h : DueAt b s) {a : Access} {w : Wait}
    (ha : s.host = .diverted a w) : s.rst = false ∧ s.hrst = false := by
  have hr : ¬(s.rst ∨ s.hrst) := fun hr => by rw [h.reset hr] at ha; cases ha
  simpa using hr

theorem DueAt.drainDone {b : BayId} {s : State} (h : DueAt b s) (hd : DrainDone b s) (c : BayId) :
    DrainDone c s := by
  obtain rfl | rfl := eq_or_eq_otherBay b c
  · exact hd
  · exact h.drain

/-- Meeting the host leaves the grant alone due (R39, R41, R46, R48). -/
theorem DueAt.meetHost {b : BayId} {s : State} (h : DueAt b s) (hd : DrainDone b s) :
    BeforeGrant b (Machine.meetHost s) := by
  have hsame (ha : ∀ a w, s.host = .diverted a w → w.agrees a (s.bay a.copy.bay)) :
      BeforeGrant b (Machine.meetHost s) := by
    rw [meetHost_of_agrees ha]
    exact h.beforeGrant hd ha
  by_cases hnone : ∃ a w, s.host = .diverted a w
  swap
  · exact hsame fun a w ha => absurd ⟨a, w, ha⟩ hnone
  obtain ⟨a, w, ha⟩ := hnone
  obtain hb | hb := eq_or_eq_otherBay b a.copy.bay
  swap
  · refine hsame fun a' w' ha' => ?_
    rw [ha] at ha'
    cases ha'
    rw [hb]
    exact h.there a w ha hb
  obtain ⟨-, hag⟩ | ⟨hh, ⟨hw, hg⟩ | ⟨hw, hg⟩⟩ := meetHost_cases ha hb (h.stall a w ha) (h.here a w ha hb)
  · refine hsame fun a' w' ha' => ?_
    rw [ha] at ha'
    cases ha'
    rwa [hb]
  · refine .of_handled hh hg (h.running ha) (fun c => ?_) h.grant (h.drainDone hd)
    cases hc : (s.bay c).link.heldByRead with
    | false => rfl
    | true =>
      obtain ⟨a', ha', -⟩ := h.link c hc
      rw [ha] at ha'
      cases ha'
      exact absurd rfl hw
  · refine .of_handled hh hg (by simpa using h.running ha) (fun c => ?_)
      (h.grant.of_other (abandonRead_bay_other b s) (by simp)) fun c => ?_
    · obtain rfl | rfl := eq_or_eq_otherBay b c
      · exact abandonRead_not_heldByRead _ s
      · rw [abandonRead_bay_other]
        cases hc : (s.bay (otherBay b)).link.heldByRead with
        | false => rfl
        | true =>
          obtain ⟨a', ha', hb'⟩ := h.link _ hc
          rw [ha] at ha'
          cases ha'
          rw [hb] at hb'
          exact absurd hb' (ne_otherBay b)
    · exact (h.drainDone hd c).of_queue (alike_abandonRead b s c).state (by simp)

/-- Meeting the host takes nothing that a replay waits for. -/
theorem meetHost_replayDone {b c : BayId} {s : State} (h : DueAt b s) (hr : ReplayDone c s) :
    ReplayDone c (Machine.meetHost s) := by
  by_cases hnone : ∃ a w, s.host = .diverted a w ∧ ¬ w.agrees a (s.bay a.copy.bay)
  swap
  · rw [meetHost_of_agrees fun a w ha => by_contra fun hc => hnone ⟨a, w, ha, hc⟩]
    exact hr
  obtain ⟨a, w, ha, hnot⟩ := hnone
  obtain hb | hb := eq_or_eq_otherBay b a.copy.bay
  swap
  · exact absurd (by rw [hb]; exact h.there a w ha hb) hnot
  obtain ⟨-, hag⟩ | ⟨-, ⟨-, hg⟩ | ⟨-, hg⟩⟩ := meetHost_cases ha hb (h.stall a w ha) (h.here a w ha hb)
  · rw [hb] at hnot; exact absurd hag hnot
  · exact hg.replayDone hr
  · exact hg.replayDone (hr.mono (alike_abandonRead b s c).state (alike_abandonRead b s c).mount (by simp) (by simp))

/-! ### Replay -/

/-- Taking the first `n` that satisfy `p` is filtering, and leaving the others in their order (R131). -/
theorem takeFirst_eq {α : Type} (p : α → Bool) (n : Nat) (l : List α) :
    takeFirst p n l = ((l.filter p).take n, withoutFirst p n l) := by
  induction l generalizing n with
  | nil => cases n <;> rfl
  | cons x xs ih =>
    cases n with
    | zero => rfl
    | succ n =>
      unfold takeFirst withoutFirst
      split
      next hx => simp [ih, hx]
      next hx => simp [ih, hx]

theorem filter_withoutFirst {α : Type} (p : α → Bool) (n : Nat) (l : List α) :
    (withoutFirst p n l).filter p = (l.filter p).drop n := by
  induction l generalizing n with
  | nil => cases n <;> simp [withoutFirst]
  | cons x xs ih =>
    cases n with
    | zero => simp [withoutFirst]
    | succ n =>
      unfold withoutFirst
      split
      next hx => simp [ih, hx]
      next hx => simp [ih, hx]

theorem mem_withoutFirst {α : Type} {p : α → Bool} {n : Nat} {l : List α} {x : α} (hx : x ∈ l)
    (hp : p x = false) : x ∈ withoutFirst p n l := by
  induction l generalizing n with
  | nil => cases hx
  | cons y ys ih =>
    cases n with
    | zero => exact hx
    | succ n =>
      unfold withoutFirst
      split
      next hy =>
        rcases List.mem_cons.1 hx with rfl | hx
        · rw [hp] at hy; cases hy
        · exact ih hx
      next hy =>
        rcases List.mem_cons.1 hx with rfl | hx
        · exact List.mem_cons_self
        · exact List.mem_cons_of_mem _ (ih hx)

/-- Something that satisfies `p` is left exactly when there was more than room for (R132). -/
theorem any_withoutFirst {α : Type} (p : α → Bool) (n : Nat) (l : List α) :
    (withoutFirst p n l).any p = decide (n < (l.filter p).length) := by
  have hany : (withoutFirst p n l).any p = !((withoutFirst p n l).filter p).isEmpty := by
    induction withoutFirst p n l with
    | nil => rfl
    | cons x xs ih => cases hx : p x <;> simp [hx, ih]
  rw [hany, filter_withoutFirst]
  by_cases h : n < (l.filter p).length
  · simp [h]
  · simp [h, Nat.le_of_not_lt h]

theorem replayMoves_bay (b : BayId) (s : State) :
    (replayMoves b s).bay b =
      { s.bay b with
        queue := (s.bay b).queue ++
          (((s.hold.filter (eligible (s.bay b).mount)).take (queueCapacity - (s.bay b).queue.length)).map
            fun e => ⟨e.ord, e.write, false⟩) } := by
  rw [(replayMoves_fields b s).1, takeFirst_eq]

theorem replayMoves_hold (b : BayId) (s : State) :
    (replayMoves b s).hold =
      withoutFirst (eligible (s.bay b).mount) (queueCapacity - (s.bay b).queue.length) s.hold := by
  rw [(replayMoves_fields b s).2.2, takeFirst_eq]

/-- The end of replay: nothing while an eligible entry remains, else READY, or DRAINING with an eject
pending (R111, R132). -/
theorem replayEnd_cases (b : BayId) (s : State) :
    (s.hold.any (eligible (s.bay b).mount) ∧ replayEnd b s = s) ∨
      (s.hold.any (eligible (s.bay b).mount) = false ∧ (replayEnd b s).hold = s.hold ∧
        (replayEnd b s).bay (otherBay b) = s.bay (otherBay b) ∧
        ((replayEnd b s).bay b).link = (s.bay b).link ∧
        (((replayEnd b s).bay b).state = .ready ∨ ((replayEnd b s).bay b).state = .draining)) := by
  unfold replayEnd
  dsimp only
  split
  next h => exact .inl ⟨h, rfl⟩
  next h =>
    refine .inr ⟨by simpa using h, ?_⟩
    split <;> simp

@[simp] theorem replayMoves_bay_other (b : BayId) (s : State) :
    (replayMoves b s).bay (otherBay b) = s.bay (otherBay b) := (replayMoves_fields b s).2.1

@[simp] theorem replayWork_bay_other (b : BayId) (s : State) :
    (replayWork b s).bay (otherBay b) = s.bay (otherBay b) := by
  unfold replayWork
  split
  · obtain ⟨-, e⟩ | ⟨-, -, e, -⟩ := replayEnd_cases b (replayMoves b s) <;> rw [e] <;> simp
  · rfl

theorem replayWork_link (b : BayId) (s : State) :
    ((replayWork b s).bay b).link = (s.bay b).link := by
  unfold replayWork
  split
  · obtain ⟨-, e⟩ | ⟨-, -, -, e, -⟩ := replayEnd_cases b (replayMoves b s) <;> rw [e] <;>
      rw [replayMoves_bay]
  · rfl

/-- Replay stays only where the queue has been filled and an eligible entry is left (R131, R132). -/
theorem replayWork_replayDone (b : BayId) (s : State) : ReplayDone b (replayWork b s) := by
  unfold replayWork
  split
  next hs =>
    obtain ⟨hany, e⟩ | ⟨-, -, -, -, hst⟩ := replayEnd_cases b (replayMoves b s)
    · rw [e]
      refine fun _ => ⟨?_, hany⟩
      rw [replayMoves_hold, replayMoves_bay] at hany
      rw [any_withoutFirst] at hany
      have hroom := of_decide_eq_true hany
      rw [replayMoves_bay]
      simp only [List.length_append, List.length_map, List.length_take]
      omega
    · intro hr
      obtain h | h := hst <;> rw [h] at hr <;> cases hr
  next hs => exact fun hr => absurd hr hs

/-- Replay takes nothing that is not eligible in its bay (R130). -/
theorem mem_replayWork_hold {b : BayId} {s : State} {e : HoldEntry} (he : e ∈ s.hold)
    (hn : (s.bay b).state = .replay → eligible (s.bay b).mount e = false) :
    e ∈ (replayWork b s).hold := by
  unfold replayWork
  split
  next hs =>
    have hmem : e ∈ (replayMoves b s).hold := by
      rw [replayMoves_hold]
      exact mem_withoutFirst he (hn hs)
    obtain ⟨-, e⟩ | ⟨-, e, -⟩ := replayEnd_cases b (replayMoves b s) <;> rwa [e]
  next => exact he

/-! ### The end of a drain -/

/-- With an empty queue an evacuation has nothing to offer (R114). -/
theorem evacuate_of_nil {b : BayId} {s : State} (h : (s.bay b).queue = []) : evacuate b s = s := by
  unfold evacuate
  simp only [h, flagHead, ordSort, List.foldr_nil, List.foldl_nil]
  cases b
  · have : s.bayA.queue = [] := h
    simp [modBay, ← this]
  · have : s.bayB.queue = [] := h
    simp [modBay, ← this]

theorem drainEnd_cases (b : BayId) (s : State) :
    (((s.bay b).state = .draining → (s.bay b).queue ≠ []) ∧ drainEnd b s = s) ∨
      ((s.bay b).state = .draining ∧ (s.bay b).queue = [] ∧
        drainEnd b s = setLatch (.bay b .ejectDone) (leaveServing b .released .none s)) := by
  unfold drainEnd
  dsimp only
  split
  next h =>
    rw [Bool.and_eq_true, List.isEmpty_iff] at h
    exact .inr ⟨by simpa using h.1, h.2, rfl⟩
  next h =>
    refine .inl ⟨fun hd hq => h ?_, rfl⟩
    simp [hd, hq]

@[simp] theorem drainEnd_bay_other (b : BayId) (s : State) :
    (drainEnd b s).bay (otherBay b) = s.bay (otherBay b) := by
  obtain ⟨-, e⟩ | ⟨-, -, e⟩ := drainEnd_cases b s <;> rw [e]
  simp

theorem drainEnd_host (b : BayId) (s : State) : (drainEnd b s).host = s.host := by
  obtain ⟨-, e⟩ | ⟨-, hq, e⟩ := drainEnd_cases b s <;> rw [e]
  simp [leaveServing, evacuate_of_nil hq]

theorem drainEnd_hold (b : BayId) (s : State) : (drainEnd b s).hold = s.hold := by
  obtain ⟨-, e⟩ | ⟨-, hq, e⟩ := drainEnd_cases b s <;> rw [e]
  simp [leaveServing, evacuate_of_nil hq]

theorem drainEnd_drainDone (b : BayId) (s : State) : DrainDone b (drainEnd b s) := by
  obtain ⟨h, e⟩ | ⟨-, -, e⟩ := drainEnd_cases b s <;> rw [e]
  · exact h
  · intro hd
    simp at hd

theorem drainEnd_replayDone {b : BayId} {s : State} (h : ReplayDone b s) :
    ReplayDone b (drainEnd b s) := by
  obtain ⟨-, e⟩ | ⟨-, -, e⟩ := drainEnd_cases b s <;> rw [e]
  · exact h
  · intro hr
    simp at hr

/-! ### Settling -/

/-- The bay of an event, after the work of replay and the end of a drain. -/
def afterWork (b : BayId) (s : State) : State := drainEnd b (replayWork b s)

theorem settle_eq (b : BayId) (s : State) : settle b s = grantLink b (meetHost (afterWork b s)) := rfl

@[simp] theorem afterWork_bay_other (b : BayId) (s : State) :
    (afterWork b s).bay (otherBay b) = s.bay (otherBay b) := by
  rw [afterWork, drainEnd_bay_other, replayWork_bay_other]

@[simp] theorem afterWork_host (b : BayId) (s : State) : (afterWork b s).host = s.host := by
  rw [afterWork, drainEnd_host, (replayWork_frame b s).2.2.2.1]

theorem afterWork_state {b : BayId} {s : State} (h : (s.bay b).state ≠ .replay) :
    ((afterWork b s).bay b).link = (s.bay b).link ∧ ((afterWork b s).bay b).state = (s.bay b).state ∧
        ((afterWork b s).bay b).queue = (s.bay b).queue ∨
      ((afterWork b s).bay b).link = .free ∧ ((afterWork b s).bay b).state = .released := by
  have hw : replayWork b s = s := by simp [replayWork, h]
  rw [afterWork, hw]
  obtain ⟨-, e⟩ | ⟨-, -, e⟩ := drainEnd_cases b s <;> rw [e]
  · exact .inl ⟨rfl, rfl, rfl⟩
  · exact .inr (by simp)

theorem afterWork_link (b : BayId) (s : State) :
    ((afterWork b s).bay b).link = (s.bay b).link ∨ ((afterWork b s).bay b).link = .free := by
  obtain ⟨-, e⟩ | ⟨-, -, e⟩ := drainEnd_cases b (replayWork b s) <;> rw [afterWork, e]
  · exact .inl (replayWork_link b s)
  · exact .inr (by simp)

theorem mayMeet_congr {x y : Bay} (a : Access) (w : Wait) (hs : y.state = x.state)
    (hq : y.queue = x.queue) (hl : y.link = x.link) : w.mayMeet a y = w.mayMeet a x := by
  cases w <;> simp only [Wait.mayMeet, hs, hl, readMatches_congr hq]

theorem mayMeet_of_fitsReplay {a : Access} {w : Wait} {x y : Bay} (h : w.mayMeet a x)
    (hf : w.fitsReplay) : w.mayMeet a y := by
  cases w <;> simp_all [Wait.mayMeet, Wait.fitsReplay]

theorem mayMeet_of_out {a : Access} {w : Wait} {x y : Bay} (h : w.mayMeet a x)
    (hy : y.state.servesReads = false) : w.mayMeet a y := by
  cases w <;> simp_all [Wait.mayMeet]

/-- Only a wait that REPLAY can find stands at a bay in REPLAY. -/
def FitsReplay (b : BayId) (s : State) : Prop :=
  (s.bay b).state = .replay → ∀ a w, s.host = .diverted a w → a.copy.bay = b → w.fitsReplay

theorem afterWork_running (b : BayId) (s : State) :
    (afterWork b s).rst = s.rst ∧ (afterWork b s).hrst = s.hrst := by
  simp [afterWork]

theorem DueAt.afterWork {b : BayId} {s : State} (h : DueAt b s) (hf : FitsReplay b s) :
    DueAt b (Machine.afterWork b s) := by
  refine ⟨fun hr => ?_, fun a w ha => ?_, fun a w ha hb => ?_, fun a w ha hb => ?_, fun c hc => ?_,
    h.grant.of_other (by simp) (by simp), h.drain.of_queue (by simp) (by simp)⟩
  · rw [afterWork_host]
    rw [(afterWork_running b s).1, (afterWork_running b s).2] at hr
    exact h.reset hr
  · rw [afterWork_host] at ha
    exact h.stall a w ha
  · rw [afterWork_host] at ha
    have hm := h.here a w ha hb
    by_cases hs : (s.bay b).state = .replay
    · exact mayMeet_of_fitsReplay hm (hf hs a w ha hb)
    · obtain ⟨hl, hst, hq⟩ | ⟨-, hst⟩ := afterWork_state hs
      · rwa [mayMeet_congr a w hst hq hl]
      · exact mayMeet_of_out hm (by rw [hst]; rfl)
  · rw [afterWork_host] at ha
    rw [afterWork_bay_other]
    exact h.there a w ha hb
  · rw [afterWork_host]
    refine h.link c ?_
    obtain rfl | rfl := eq_or_eq_otherBay b c
    · obtain e | e := afterWork_link c s <;> rw [e] at hc
      · exact hc
      · cases hc
    · rwa [afterWork_bay_other] at hc

theorem afterWork_done (b : BayId) (s : State) :
    DrainDone b (afterWork b s) ∧ ReplayDone b (afterWork b s) :=
  ⟨drainEnd_drainDone b _, drainEnd_replayDone (replayWork_replayDone b s)⟩

/-- Settling leaves nothing due but for the replay of the other bay. -/
theorem DueAt.settle {b : BayId} {s : State} (h : DueAt b s) (hf : FitsReplay b s) :
    SettledPort (Machine.settle b s) ∧ ReplayDone b (Machine.settle b s) := by
  have hd := h.afterWork hf
  obtain ⟨hdrain, hreplay⟩ := afterWork_done b s
  exact ⟨(hd.meetHost hdrain).grantLink, grantLink_replayDone (meetHost_replayDone hd hreplay)⟩

/-- The entries for which the replay of bay `c` waits are not eligible in bay `b`. -/
def ReplayApart (b c : BayId) (s : State) : Prop :=
  (s.bay b).state = .replay → (s.bay c).state = .replay → ∀ e ∈ s.hold,
    eligible (s.bay c).mount e → eligible (s.bay b).mount e = false

theorem CarriersDistinct.replayApart {s : State} (h : CarriersDistinct s) (b : BayId) :
    ReplayApart b (otherBay b) s := by
  intro hb hc e _ he
  have hne := (carriersDistinct_iff b).1 h (by simp [Bay.identified, hb, BayState.serving])
    (by simp [Bay.identified, hc, BayState.serving])
  simp only [eligible, Bool.and_eq_true, beq_iff_eq] at he
  simp only [eligible, Bool.and_eq_false_iff, beq_eq_false_iff_ne]
  exact .inl (.inr fun hs => hne (hs.trans he.1.2.symm))

/-- Settling one bay keeps the replay of the other bay done. -/
theorem DueAt.settle_other {b : BayId} {s : State} (h : DueAt b s) (hf : FitsReplay b s)
    (ha : ReplayApart b (otherBay b) s) (hr : ReplayDone (otherBay b) s) :
    ReplayDone (otherBay b) (Machine.settle b s) := by
  have hw : ReplayDone (otherBay b) (Machine.afterWork b s) := by
    refine hr.mono (by simp) (by simp) (by simp) fun hs hany => ?_
    obtain ⟨e, he, hel⟩ := List.any_eq_true.1 hany
    refine List.any_eq_true.2 ⟨e, ?_, hel⟩
    rw [Machine.afterWork, drainEnd_hold]
    exact mem_replayWork_hold he fun hb => ha hb hs e he hel
  exact grantLink_replayDone (meetHost_replayDone (h.afterWork hf) hw)

theorem DueAt.settled {b : BayId} {s : State} (h : DueAt b s) (hf : FitsReplay b s)
    (ha : ReplayApart b (otherBay b) s) (hr : ReplayDone (otherBay b) s) :
    Settled (Machine.settle b s) := by
  obtain ⟨hp, hb⟩ := h.settle hf
  refine settled_iff.2 ⟨hp, fun c => ?_⟩
  obtain rfl | rfl := eq_or_eq_otherBay b c
  · exact hb
  · exact h.settle_other hf ha hr

end Sys2Proof.Machine
end

section
/-! PROOFS. Nothing is left due after an event: what each event did to its bay and to the host is met in
its own step (R37, R39, R41, R53, R71, R114, R131, R132; logs 6 to 10). -/

namespace Sys2Proof.Machine

/-! ### What an event may do before its step settles -/

/-- No diverted access is in progress, and none has a transfer on a link. -/
structure HostOver (s : State) : Prop where
  reset : s.rst ∨ s.hrst → s.host = .idle
  none : ∀ a w, s.host ≠ .diverted a w
  link : ∀ c, (s.bay c).link.heldByRead = false

/-- The access in progress stands as it did, or it is over. -/
def PortKept (s t : State) : Prop :=
  (t.rst = s.rst ∧ t.hrst = s.hrst ∧ t.host = s.host) ∨ HostOver t

/-- What an event may do to a bay at which an access waits, before its step settles the bay. -/
structure Bay.Waits (x y : Bay) : Prop where
  /-- no read gets the link, and where reads are still served a read keeps it -/
  gets : y.link.heldByRead → x.link.heldByRead
  keeps : x.link.heldByRead → y.state.servesReads → y.link.heldByRead
  /-- where reads are still served, no queued write comes to match a read -/
  unmatched : y.state.servesReads → ∀ a, readMatches a y → readMatches a x
  /-- no read waits at a bay that is in REPLAY -/
  replay : y.state = .replay → x.state.servesReads = false

/-- What an event at bay `b` may do to a settled part, before its step settles the bay. -/
structure Touches (b : BayId) (s t : State) : Prop where
  port : PortKept s t
  here : HostOver t ∨ (s.bay b).Waits (t.bay b)
  other : (s.bay (otherBay b)).Same (t.bay (otherBay b))
  /-- the other bay's replay keeps an entry to wait for -/
  hold : (s.bay (otherBay b)).state = .replay →
    s.hold.any (eligible (s.bay (otherBay b)).mount) → t.hold.any (eligible (s.bay (otherBay b)).mount)

theorem Settled.no_read {s : State} (h : Settled s) (hn : ∀ a, s.host ≠ .diverted a .onLink) (c : BayId) :
    (s.bay c).link.heldByRead = false := by
  cases hc : (s.bay c).link.heldByRead with
  | false => rfl
  | true =>
    obtain ⟨a, ha, -⟩ := h.link c hc
    exact absurd ha (hn a)

theorem Settled.running {s : State} (h : Settled s) (hn : s.host ≠ .idle) :
    s.rst = false ∧ s.hrst = false := by
  have hr : ¬(s.rst ∨ s.hrst) := fun hr => hn (h.reset hr)
  simpa using hr

/-- A host that is not diverted asks for no link. -/
theorem NoGrantDue.of_same {b : BayId} {s t : State} (h : NoGrantDue b s)
    (hb : (s.bay b).Same (t.bay b)) (hp : PortKept s t) : NoGrantDue b t := by
  refine h.mono hb.free.1 hb.state hb.queue_nil.2 hb.ident fun hw => ?_
  obtain ⟨-, -, hh⟩ | ho := hp
  · rw [waitingRead_congr hh hb.state]; exact hw
  · exact waitingRead_eq_none fun a ha => absurd ha (ho.none a _)

theorem DrainDone.of_same {b : BayId} {s t : State} (h : DrainDone b s)
    (hb : (s.bay b).Same (t.bay b)) : DrainDone b t :=
  h.of_queue hb.state (mt hb.queue_nil.1)

variable {b : BayId} {s t : State}

theorem HostOver.dueAt (ho : HostOver t) (hg : NoGrantDue (otherBay b) t)
    (hd : DrainDone (otherBay b) t) : DueAt b t :=
  ⟨ho.reset, fun a w ha => absurd ha (ho.none a w), fun a w ha => absurd ha (ho.none a w),
    fun a w ha => absurd ha (ho.none a w), fun c hc => absurd hc (by simp [ho.link c]), hg, hd⟩

theorem Touches.dueAt (ht : Touches b s t) (hs : Settled s) : DueAt b t := by
  have hgrant := (hs.grant (otherBay b)).of_same ht.other ht.port
  have hdrain : DrainDone (otherBay b) t := DrainDone.of_same (hs.drain _) ht.other
  obtain ⟨hrst, hhrst, hh⟩ | ho := ht.port
  swap
  · exact ho.dueAt hgrant hdrain
  obtain ho | hw := ht.here
  · exact ho.dueAt hgrant hdrain
  have hreset : t.rst ∨ t.hrst → t.host = .idle := by
    rw [hrst, hhrst, hh]
    exact hs.reset
  refine ⟨hreset, fun a w ha => ?_, fun a w ha hb => ?_, fun a w ha hb => ?_, fun c hc => ?_, hgrant,
    hdrain⟩
  all_goals rw [hh] at *
  · exact (hs.host a w ha).1
  · have hag := (hs.host a w ha).2
    rw [hb] at hag
    exact mayMeet_of_agrees hag (fun hr => hw.unmatched hr a) hw.keeps
  · have hag := (hs.host a w ha).2
    rw [hb] at hag
    rwa [ht.other.agrees]
  · obtain rfl | rfl := eq_or_eq_otherBay b c
    · exact hs.link _ (hw.gets hc)
    · rw [ht.other.read] at hc
      exact hs.link _ hc

theorem Touches.fitsReplay (ht : Touches b s t) (hs : Settled s) : FitsReplay b t := by
  intro hr a w ha hb
  obtain ⟨-, -, hh⟩ | ho := ht.port
  swap
  · exact absurd ha (ho.none a w)
  obtain ho | hw := ht.here
  · exact absurd ha (ho.none a w)
  rw [hh] at ha
  have hag := (hs.host a w ha).2
  rw [hb] at hag
  exact fitsReplay_of_agrees hag (hw.replay hr)

theorem Touches.replayDone (ht : Touches b s t) (hs : Settled s) : ReplayDone (otherBay b) t :=
  ReplayDone.mono (hs.replay _) ht.other.state ht.other.mount ht.other.queue_length.ge ht.hold

/-- The step of an event that settles its bay leaves nothing due. -/
theorem Touches.settled (ht : Touches b s t) (hs : Settled s) (ha : ReplayApart b (otherBay b) t) :
    Settled (settle b t) :=
  (ht.dueAt hs).settled (ht.fitsReplay hs) ha (ht.replayDone hs)

/-- The step of an event that leaves the grant of a link due at most, and makes it, leaves nothing due. -/
theorem Touches.granted (ht : Touches b s t) (hs : Settled s)
    (hw : ∀ a w, t.host = .diverted a w → a.copy.bay = b → w.agrees a (t.bay b))
    (hd : DrainDone b t) (hr : ReplayDone b t) : Settled (grantLink b t) := by
  have hdue := ht.dueAt hs
  refine settled_iff.2 ⟨(hdue.beforeGrant hd fun a w ha => ?_).grantLink, fun c => ?_⟩
  · obtain hb | hb := eq_or_eq_otherBay b a.copy.bay
    · rw [hb]; exact hw a w ha hb
    · rw [hb]; exact hdue.there a w ha hb
  · obtain rfl | rfl := eq_or_eq_otherBay b c
    · exact grantLink_replayDone hr
    · exact grantLink_replayDone (ht.replayDone hs)

/-- A bay that is, and stays, out of service has nothing due but a grant. -/
theorem Touches.granted_out (ht : Touches b s t) (hs : Settled s)
    (hx : (s.bay b).state.serving = false) (hy : (t.bay b).state.serving = false) :
    Settled (grantLink b t) := by
  refine ht.granted hs (fun a w ha hb => ?_) (fun hd => ?_) fun hr => ?_
  · obtain ⟨-, -, hh⟩ | ho := ht.port
    · rw [hh] at ha
      have hag := (hs.host a w ha).2
      rw [hb] at hag
      obtain ⟨num, rfl⟩ := fate_of_agrees hag hx
      rfl
    · exact absurd ha (ho.none a w)
  · rw [hd] at hy; cases hy
  · rw [hr] at hy; cases hy

/-- A bay that leaves one stopped state for another has nothing due. -/
theorem Touches.out (ht : Touches b s t) (hs : Settled s) (hx : (s.bay b).state.serving = false)
    (hy : (t.bay b).state.serving = false) (hi : (t.bay b).state ≠ .identifying) : Settled t := by
  have h := ht.granted_out hs hx hy
  rwa [grantLink_of_noGrantDue (.of_out hy hi)] at h

/-- Nothing comes due where the bays stand as they did, and the access in progress does too, or is
over. -/
theorem Settled.same (hs : Settled s) (hp : PortKept s t) (hb : ∀ c, (s.bay c).Same (t.bay c))
    (hh : t.hold = s.hold) : Settled t := by
  have hr : ∀ c, ReplayDone c t := fun c =>
    ReplayDone.mono (hs.replay c) (hb c).state (hb c).mount (hb c).queue_length.ge (by rw [hh]; exact fun _ => id)
  have hd : ∀ c, DrainDone c t := fun c => DrainDone.of_same (hs.drain c) (hb c)
  have hg : ∀ c, NoGrantDue c t := fun c => (hs.grant c).of_same (hb c) hp
  obtain ⟨hrst, hhrst, hh⟩ | ho := hp
  · have hreset : t.rst ∨ t.hrst → t.host = .idle := by
      rw [hrst, hhrst, hh]
      exact hs.reset
    refine settled_iff.2 ⟨⟨hreset, fun a w ha => ?_, fun c hc => ?_, hg, hd⟩, hr⟩
    all_goals rw [hh] at *
    · rw [(hb _).agrees]
      exact hs.host a w ha
    · rw [(hb c).read] at hc
      exact hs.link c hc
  · exact settled_iff.2 ⟨⟨ho.reset, fun a w ha => absurd ha (ho.none a w),
      fun c hc => absurd hc (by simp [ho.link c]), hg, hd⟩, hr⟩

/-- The access is over, and no other has a transfer on a link. -/
theorem HostOver.of_running (hrun : t.rst = false ∧ t.hrst = false)
    (hnone : ∀ a w, t.host ≠ .diverted a w) (hl : ∀ c, (t.bay c).link.heldByRead = false) :
    HostOver t :=
  ⟨fun hr => absurd hr (by simp [hrun.1, hrun.2]), hnone, hl⟩

theorem HostOver.of_idle (hi : t.host = .idle) (hl : ∀ c, (t.bay c).link.heldByRead = false) :
    HostOver t :=
  ⟨fun _ => hi, fun a w => by simp [hi], hl⟩

/-- The host port changes, and nothing else, where no read has a transfer. -/
theorem Settled.setHost (hs : Settled s) (ho : HostOver t) (hb : ∀ c, t.bay c = s.bay c)
    (hh : t.hold = s.hold) : Settled t :=
  hs.same (.inr ho) (fun c => .of_eq (hb c)) hh

theorem Settled.no_read_of_idle (hs : Settled s) (hi : s.host = .idle) (c : BayId) :
    (s.bay c).link.heldByRead = false :=
  hs.no_read (fun a ha => by rw [hi] at ha; cases ha) c

theorem Bay.same_setLink {x : Bay} {l : Link} {r : Bool} (hr : l.heldByRead = x.link.heldByRead)
    (hf : l = .free ↔ x.link = .free) : x.Same { x with link := l, reqHigh := r } :=
  ⟨rfl, rfl, rfl, rfl, hr, hf⟩

/-! ### The host port -/

theorem clearThrough_same (b : BayId) (s : State) (c : BayId) :
    (s.bay c).Same ((clearThrough b s).bay c) := by
  obtain rfl | rfl := eq_or_eq_otherBay b c
  · rw [clearThrough_bay]
    exact ⟨rfl, rfl, by simp [Function.comp_def], rfl, rfl, .rfl⟩
  · rw [clearThrough_bay_other]
    exact .refl _

/-- What becomes of the link of a read transfer that loses its holder (R73, R166). -/
def Link.withoutRead : Link → Link
  | .held .read t => if t.phase.asserted then .abandoned t else .free
  | .held .ident t => .held .ident t
  | .held .drain t => .held .drain t
  | .free => .free
  | .abandoned t => .abandoned t

theorem Link.withoutRead_of_ne {l : Link} (h : ∀ t, l ≠ .held .read t) : l.withoutRead = l := by
  rcases l with _ | ⟨_ | _ | _, t⟩ | t
  case held.read => exact absurd rfl (h t)
  all_goals rfl

/-- A read transfer that loses its holder is abandoned, or frees its link (R73, R166). -/
theorem abandonRead_bay (b : BayId) (s : State) :
    (Machine.abandonRead b s).bay b = { s.bay b with link := (s.bay b).link.withoutRead } := by
  unfold Machine.abandonRead
  split
  next t ht => simp [ht, Link.withoutRead]
  next hne => rw [Link.withoutRead_of_ne hne]

theorem abandonRead_bay_congr {b : BayId} {s t : State} (h : ∀ c, t.bay c = s.bay c) (c : BayId) :
    (Machine.abandonRead b t).bay c = (Machine.abandonRead b s).bay c := by
  obtain rfl | rfl := eq_or_eq_otherBay b c
  · rw [abandonRead_bay, abandonRead_bay, h]
  · rw [abandonRead_bay_other, abandonRead_bay_other, h]

theorem Settled.abandonRead_no_read {a : Access} (hs : Settled s) (ha : s.host = .diverted a .onLink)
    (c : BayId) : ((Machine.abandonRead a.copy.bay s).bay c).link.heldByRead = false := by
  obtain rfl | rfl := eq_or_eq_otherBay a.copy.bay c
  · exact abandonRead_not_heldByRead _ s
  · rw [abandonRead_bay_other]
    cases hc : (s.bay (otherBay a.copy.bay)).link.heldByRead with
    | false => rfl
    | true =>
      obtain ⟨a', ha', hb'⟩ := hs.link _ hc
      rw [ha] at ha'
      cases ha'
      exact absurd hb' (ne_otherBay _)

/-- The access of a read on the link is over: its transfer is abandoned, and the link is granted when
that frees it (R73, R166). -/
theorem Settled.abandonRead {a : Access} (hs : Settled s) (ha : s.host = .diverted a .onLink)
    (ho : HostOver t) (hb : ∀ c, t.bay c = (Machine.abandonRead a.copy.bay s).bay c)
    (hh : t.hold = s.hold) : Settled (grantLink a.copy.bay t) := by
  have hst : (t.bay a.copy.bay).state = (s.bay a.copy.bay).state := by
    rw [hb, (alike_abandonRead _ s _).state]
  refine Touches.granted (s := s) ⟨.inr ho, .inl ho, ?_, fun _ hany => ?_⟩ hs
    (fun a' w' ha' => absurd ha' (ho.none a' w'))
    (DrainDone.of_queue (hs.drain _) hst (by rw [hb, abandonRead_queue]; exact id)) fun hr => ?_
  · rw [hb, abandonRead_bay_other]; exact .refl _
  · rwa [hh]
  · have hag := (hs.host a _ ha).2
    rw [hst] at hr
    simp [Wait.agrees, hr, BayState.servesReads] at hag

/-- An access abandoned leaves nothing due, and the host idle (R53, R54). -/
theorem abandonAccess_settled (hs : Settled s) :
    Settled (abandonAccess s) ∧ ((∃ d, s.host = .mainWait d) ∨ (∃ a w, s.host = .diverted a w) →
      (abandonAccess s).host = .idle) := by
  have hidle (hn : ∀ a, s.host ≠ .diverted a .onLink) : HostOver { s with host := .idle } :=
    .of_idle rfl fun c => by rw [State.bay_mk]; exact hs.no_read hn c
  have hset (hn : ∀ a, s.host ≠ .diverted a .onLink) : Settled { s with host := .idle } :=
    hs.setHost (hidle hn) (fun c => State.bay_mk ..) rfl
  unfold abandonAccess
  split
  next a w ha =>
    split
    · have hn : ∀ a, s.host ≠ .diverted a .onLink := fun a' => by simp [ha]
      refine ⟨(hset hn).same (.inr (.of_idle (by simp) fun c => ?_)) (clearThrough_same _ _) (by simp),
        fun _ => by simp⟩
      rw [(clearThrough_same a.copy.bay _ c).read]
      exact (hidle hn).link c
    · have hb := abandonRead_bay_congr (b := a.copy.bay) (s := s) (t := { s with host := .idle })
        fun c => State.bay_mk ..
      have ho : HostOver (Machine.abandonRead a.copy.bay { s with host := .idle }) :=
        .of_idle (by simp) fun c => by rw [hb]; exact hs.abandonRead_no_read ha c
      refine ⟨hs.abandonRead ha ho hb (by simp), fun _ => ?_⟩
      obtain e | ⟨-, k, t, -, ⟨-, a', hw, -⟩ | ⟨-, e⟩⟩ := grantLink_effect a.copy.bay
        (Machine.abandonRead a.copy.bay { s with host := .idle })
      · rw [e]; simp
      · obtain ⟨hc, -, -⟩ := waitingRead_some hw
        exact absurd hc (ho.none a' _)
      · rw [e]; simp
    all_goals exact ⟨hset (by simp [ha]), fun _ => rfl⟩
  next ha => exact ⟨hset (by simp [ha]), fun _ => rfl⟩
  next ha => exact ⟨hs, fun h => by simp [ha] at h⟩
  next ha => exact ⟨hs, fun h => by simp [ha] at h⟩
  next ha => exact ⟨hs, fun h => by simp [ha] at h⟩

theorem hrstEffect_settled (level : Bool) (hs : Settled s) : Settled (hrstEffect level s) := by
  have hlevel {u : State} (hu : Settled u) (hi : u.host = .idle) (l : Bool) : Settled { u with hrst := l } :=
    hu.setHost (.of_idle hi fun c => by rw [State.bay_mk]; exact hu.no_read_of_idle hi c)
      (fun c => State.bay_mk ..) rfl
  unfold hrstEffect
  split
  · have hreset : Settled (hostReset s) ∧ (hostReset s).host = .idle := by
      obtain ⟨hset, hidle⟩ := abandonAccess_settled hs
      unfold hostReset
      split
      case h_1 ha | h_2 ha =>
        exact ⟨hs.setHost (.of_idle rfl fun c => by rw [State.bay_mk]; exact hs.no_read (by simp [ha]) c)
          (fun c => State.bay_mk ..) rfl, rfl⟩
      case h_3 ha => exact ⟨hset, by simp [abandonAccess, ha]⟩
      case h_4 d ha => exact ⟨hset, hidle (.inl ⟨d, ha⟩)⟩
      case h_5 a w ha => exact ⟨hset, hidle (.inr ⟨a, w, ha⟩)⟩
    exact hlevel hreset.1 hreset.2 true
  · cases hr : s.hrst with
    | true => exact hlevel hs (hs.reset (.inr hr)) false
    | false => exact hs.same (.inl ⟨rfl, hr.symm, rfl⟩) (fun c => .of_eq (State.bay_mk ..)) rfl

theorem classify_settled (c : HostCycle) (hs : Settled s) (hrst : s.rst = false) :
    Settled (classify c s) := by
  unfold classify
  split
  next l hhrst hidle _ =>
    have hread := hs.no_read_of_idle hidle
    dsimp only
    split
    · have hmain (b : BayId) : (beginMain c l s).bay b = s.bay b := by
        unfold beginMain
        dsimp only
        split <;> exact State.bay_mk ..
      have ho : HostOver (beginMain c l s) := by
        unfold beginMain
        dsimp only
        split <;> exact .of_running ⟨hrst, hhrst⟩ (by simp) fun c => by rw [State.bay_mk]; exact hread c
      exact hs.setHost ho (fun c => hmain c) (by unfold beginMain; dsimp only; split <;> rfl)
    next n _ =>
      have hg := grows_handleAccess (divertedAccess c l n s) s
      have hb := BeforeGrant.of_handled (handled_handleAccess (divertedAccess c l n s) s) hg ⟨hrst, hhrst⟩
        hread (hs.grant _) hs.drain
      exact settled_iff.2 ⟨hb.grantLink, fun c => grantLink_replayDone (hg.replayDone (hs.replay c))⟩
  · exact hs

theorem mainReady_settled (md : Half) (hs : Settled s) : Settled (mainReady md s) := by
  unfold mainReady
  split
  next d ha =>
    exact hs.setHost (.of_running (hs.running (by simp [ha])) (by simp)
      fun c => by rw [State.bay_mk]; exact hs.no_read (by simp [ha]) c) (fun c => State.bay_mk ..) rfl
  all_goals exact hs

theorem accessEnd_settled (hs : Settled s) : Settled (accessEnd s) := by
  unfold accessEnd
  split
  case h_1 ha | h_2 ha =>
    exact hs.setHost (.of_idle rfl fun c => by rw [State.bay_mk]; exact hs.no_read (by simp [ha]) c)
      (fun c => State.bay_mk ..) rfl
  all_goals exact hs

theorem stallExpiry_settled (hs : Settled s) : Settled (stallExpiry s) := by
  unfold stallExpiry
  split
  next a w ha =>
    have hrun := hs.running (by simp [ha])
    split
    · exact hs
    · split
      · have hb := clearThrough_same a.copy.bay s
        have ho : HostOver (releaseError a .throughTimeout (some ‹_›) (clearThrough a.copy.bay s)) :=
          .of_running (by simpa using hrun) (by simp) fun c => by
            rw [releaseError_bay, (hb c).read]
            exact hs.no_read (by simp [ha]) c
        exact hs.same (.inr ho) (fun c => by rw [releaseError_bay]; exact hb c) (by simp)
      · refine hs.abandonRead ha (.of_running (by simpa using hrun) (by simp) fun c => ?_)
          (fun c => releaseError_bay _ _ _ _ c) (by simp)
        rw [releaseError_bay]
        exact hs.abandonRead_no_read ha c
      all_goals
        exact hs.setHost (.of_running (by simpa using hrun) (by simp)
          fun c => by rw [releaseError_bay]; exact hs.no_read (by simp [ha]) c)
          (fun c => releaseError_bay _ _ _ _ c) (by simp)
  all_goals exact hs

/-! ### Events that find nothing due -/

theorem acceptWaiting_of_settled (hs : Settled s) : acceptWaiting s = s := by
  unfold acceptWaiting
  split
  next a ha =>
    have hag := (hs.host a _ ha).2
    simp only [Wait.agrees, Bool.and_eq_true, decide_eq_true_eq] at hag
    exact if_neg fun hc => absurd hc.2 (Nat.not_lt.2 hag.2)
  · rfl

theorem rehandle_of_settled (hs : Settled s) : rehandle s = s := by
  unfold rehandle
  split
  next a ha =>
    have hag := (hs.host a _ ha).2
    simp only [Wait.agrees, beq_iff_eq] at hag
    exact if_pos hag
  next a ha =>
    have hag := (hs.host a _ ha).2
    simp only [Wait.agrees, Bool.and_eq_true, beq_iff_eq] at hag
    exact if_pos hag.1.2
  · rfl

/-! ### THROUGH writes released by the fate of their entry -/

/-- The host is as it was, or it waited for the fate of a THROUGH write and has been released (R43). -/
def FateMet (s t : State) : Prop :=
  t.host = s.host ∨ (∃ a num, s.host = .diverted a (.fate num)) ∧ ∃ e d, t.host = .released e d

theorem FateMet.of_eq (h : t.host = s.host) : FateMet s t := .inl h

theorem FateMet.trans {u : State} (h : FateMet s t) (k : FateMet t u) : FateMet s u := by
  obtain h | ⟨hf, e, d, h⟩ := h
  · obtain k | ⟨hk, hr⟩ := k
    · exact .inl (k.trans h)
    · exact .inr ⟨by rwa [h] at hk, hr⟩
  · obtain k | ⟨⟨a, num, hk⟩, -⟩ := k
    · exact .inr ⟨hf, e, d, k.trans h⟩
    · rw [h] at hk; cases hk

theorem fateMet_releaseThrough (c : Option HostCause) (s : State) : FateMet s (releaseThrough c s) := by
  unfold releaseThrough
  split
  next a num ha => cases c <;> exact .inr ⟨⟨a, num, ha⟩, _, _, rfl⟩
  · exact .of_eq rfl

theorem fateMet_evacuateOne (s : State) (e : QEntry) : FateMet s (evacuateOne s e) := by
  have h (t : State) (ht : t.host = s.host) (c : Option HostCause) :
      FateMet s ((if e.through then releaseThrough c else id) t) := by
    split
    · exact (FateMet.of_eq ht).trans (fateMet_releaseThrough c t)
    · exact .of_eq ht
  obtain ⟨-, c, hc⟩ | ⟨-, c, hc⟩ := evacuateOne_cases s e <;> rw [hc] <;> exact h _ (by simp) c

theorem fateMet_foldl_evacuateOne (l : List QEntry) (s : State) : FateMet s (l.foldl evacuateOne s) := by
  induction l generalizing s with
  | nil => exact .of_eq rfl
  | cons e es ih => exact (fateMet_evacuateOne s e).trans (ih _)

theorem fateMet_leaveServing (b : BayId) (st : BayState) (c : MountCause) (s : State) :
    FateMet s (leaveServing b st c s) := by
  refine FateMet.trans (t := evacuate b s) ?_ (.of_eq (by simp [leaveServing]))
  rw [evacuate_eq]
  exact FateMet.trans (.of_eq (by simp [emptied])) (fateMet_foldl_evacuateOne _ _)

theorem fateMet_countLoss (b : BayId) (e : QEntry) (s : State) : FateMet s (countLoss b e s) := by
  unfold countLoss
  dsimp only
  split
  · exact FateMet.trans (.of_eq (by simp [dropHead])) (fateMet_releaseThrough _ _)
  · exact .of_eq (by simp [dropHead])

theorem fateMet_checkThreshold (b : BayId) (s : State) : FateMet s (checkThreshold b s) := by
  unfold checkThreshold
  split
  · exact (fateMet_leaveServing b .faulted .writeFaults s).trans (.of_eq (by simp))
  · exact .of_eq rfl

/-- Where the host was released so, no read has a transfer. -/
theorem FateMet.portKept (h : FateMet s t) (hs : Settled s) (hr : t.rst = s.rst ∧ t.hrst = s.hrst)
    (hl : ∀ c, (t.bay c).link.heldByRead → (s.bay c).link.heldByRead) : PortKept s t := by
  obtain h | ⟨⟨a, num, ha⟩, e, d, ht⟩ := h
  · exact .inl ⟨hr.1, hr.2, h⟩
  · refine .inr (.of_running (by rw [hr.1, hr.2]; exact hs.running (by simp [ha])) (by simp [ht])
      fun c => ?_)
    have hc := hs.no_read (by simp [ha]) c
    cases h : (t.bay c).link.heldByRead with
    | false => rfl
    | true => rw [hl c h] at hc; cases hc

/-- What an evacuation offers to the hold store joins it, or is lost: nothing leaves it (R125). -/
theorem mem_evacuate_of_mem {e : HoldEntry} (h : e ∈ s.hold) : e ∈ (evacuate b s).hold := by
  have hfold : ∀ (l : List QEntry) (t : State), e ∈ t.hold → e ∈ (l.foldl evacuateOne t).hold := by
    intro l
    induction l with
    | nil => exact fun _ => id
    | cons q qs ih =>
      intro t ht
      refine ih _ ?_
      rw [evacuateOne_hold]
      split
      · exact (ordInsert_perm _ _ _).mem_iff.2 (List.mem_cons_of_mem _ ht)
      · exact ht
  rw [evacuate_eq]
  exact hfold _ _ (by simpa [emptied] using h)

@[simp] theorem setLatch_hold (l : Latch) (s : State) : (setLatch l s).hold = s.hold := rfl

@[simp] theorem modBay_hold (b : BayId) (f : Bay → Bay) (s : State) : (modBay b f s).hold = s.hold := by
  cases b <;> rfl

theorem leaveServing_hold (b : BayId) (st : BayState) (c : MountCause) (s : State) :
    (leaveServing b st c s).hold = (evacuate b s).hold := by simp [leaveServing]

theorem any_of_forall_mem {α : Type} {p : α → Bool} {l m : List α} (h : ∀ x ∈ l, x ∈ m)
    (hl : l.any p) : m.any p := by
  obtain ⟨x, hx, hp⟩ := List.any_eq_true.1 hl
  exact List.any_eq_true.2 ⟨x, h x hx, hp⟩

/-- A bay that has left service has no read on its link, and serves none. -/
theorem Bay.Waits.of_out {x y : Bay} (hl : y.link = .free) (hs : y.state.serving = false) : x.Waits y := by
  have hr : y.state.servesReads = false := by
    cases h : y.state.servesReads with
    | false => rfl
    | true => rw [BayState.servesReads_serving h] at hs; cases hs
  refine ⟨fun h => ?_, fun _ h => ?_, fun h => ?_, fun h => ?_⟩
  · rw [hl] at h; cases h
  · rw [hr] at h; cases h
  · rw [hr] at h; cases h
  · rw [h] at hs; cases hs

/-- A bay whose link no read holds, and whose queue can only have lost its entries. -/
theorem Bay.Waits.of_sublist {x y : Bay} (hl : x.link.heldByRead = false) (hl' : y.link.heldByRead = false)
    (hs : y.state = x.state) (hq : y.queue.Sublist x.queue) : x.Waits y := by
  refine ⟨fun h => ?_, fun h _ => ?_, fun _ a hm => ?_, fun h => by rw [← hs, h]; rfl⟩
  · rw [hl'] at h; cases h
  · rw [hl] at h; cases h
  · unfold readMatches at *
    rw [Bool.and_eq_true] at *
    exact ⟨hm.1, any_of_forall_mem (fun _ h => hq.subset h) hm.2⟩

theorem Touches.settled_of (ht : Touches b s t) (hs : Settled s) (hc : CarriersDistinct t) :
    Settled (settle b t) := ht.settled hs (hc.replayApart b)

theorem heldByRead_of_heldByDrain {l : Link} (h : l.heldByDrain) : l.heldByRead = false := by
  rcases l with _ | ⟨_ | _ | _, _⟩ | _ <;> first | rfl | cases h

/-! ### Ends of the head entry -/

theorem markAck_settled (hs : Settled s) : Settled (markAck b s) := by
  refine hs.same (.inl (by simp)) (fun c => ?_) (by simp)
  obtain rfl | rfl := eq_or_eq_otherBay b c
  · rw [markAck_bay]
    exact ⟨rfl, rfl, rfl, rfl, by simp, by simp⟩
  · rw [markAck_bay_other]; exact .refl _

theorem loseHead_bay_link (b : BayId) (e : QEntry) (s : State) :
    ((loseHead b e s).bay b).link = .free := by
  unfold loseHead checkThreshold
  split <;> simp

theorem loseHead_touches {e : QEntry} (hs : Settled s) (hl : (s.bay b).link.heldByRead = false) :
    Touches b s (loseHead b e s) := by
  have hother : (loseHead b e s).bay (otherBay b) = s.bay (otherBay b) := by
    unfold loseHead checkThreshold
    split <;> simp
  have hfate : FateMet s (loseHead b e s) :=
    (fateMet_countLoss b e s).trans (fateMet_checkThreshold b _)
  refine ⟨hfate.portKept hs (by simp) fun c hc => ?_, .inr ?_, .of_eq hother, fun _ => any_of_forall_mem fun x hx => ?_⟩
  · obtain rfl | rfl := eq_or_eq_otherBay b c
    · rw [loseHead_bay_link] at hc; cases hc
    · rwa [hother] at hc
  · unfold loseHead checkThreshold
    split
    · exact .of_out (by simp) (by simp [BayState.serving])
    · refine .of_sublist hl (by simp) (by simp) ?_
      rw [countLoss_bay]
      exact List.tail_sublist _
  · unfold loseHead checkThreshold
    split
    · rw [setLatch_hold, leaveServing_hold]
      exact mem_evacuate_of_mem (by simpa [countLoss_hold] using hx)
    · simpa [countLoss_hold] using hx

theorem Settled.modBay_same {f : Bay → Bay} (hs : Settled s) (hf : (s.bay b).Same (f (s.bay b))) :
    Settled (modBay b f s) := by
  refine hs.same (.inl (by simp)) (fun c => ?_) (by simp)
  obtain rfl | rfl := eq_or_eq_otherBay b c
  · rwa [modBay_bay]
  · rw [modBay_bay_other]; exact .refl _

theorem Settled.setFields (hs : Settled s) (hr : t.rst = s.rst ∧ t.hrst = s.hrst ∧ t.host = s.host)
    (hh : t.hold = s.hold) (hA : t.bayA = s.bayA) (hB : t.bayB = s.bayB) : Settled t :=
  hs.same (.inl hr) (fun c => .of_eq (State.bay_congr hA hB c)) hh

theorem Settled.setLatch (hs : Settled s) (l : Latch) : Settled (setLatch l s) :=
  hs.setFields (by simp) (by simp) (by simp) (by simp)

/-- An event that reaches nothing but its bay. -/
theorem Touches.here_only (hr : t.rst = s.rst ∧ t.hrst = s.hrst ∧ t.host = s.host)
    (hw : (s.bay b).Waits (t.bay b)) (ho : t.bay (otherBay b) = s.bay (otherBay b))
    (hh : t.hold = s.hold) : Touches b s t :=
  ⟨.inl hr, .inr hw, .of_eq ho, fun _ h => by rwa [hh]⟩

theorem Bay.Lawful.no_read {x : Bay} (h : x.Lawful) (hs : x.state.serving = false) :
    x.link.heldByRead = false := by
  have hl := h.link
  rcases hx : x.link with _ | ⟨_ | _ | _, _⟩ | _
  case held.read =>
    simp only [hx, Link.allowed] at hl
    rw [hl] at hs
    cases hs
  all_goals rfl

theorem readMatches_nil {x : Bay} (hq : x.queue = []) (a : Access) : readMatches a x = false := by
  simp [readMatches, hq]

/-- A bay at which no read waited, and whose queue matches none. -/
theorem Bay.Waits.of_no_read {x y : Bay} (hx : x.link.heldByRead = false) (hy : y.link.heldByRead = false)
    (hq : y.state.servesReads → y.queue = []) (hr : x.state.servesReads = false) : x.Waits y :=
  ⟨fun h => absurd h (by simp [hy]), fun h => absurd h (by simp [hx]),
    fun h a hm => absurd hm (by simp [readMatches_nil (hq h)]), fun _ => hr⟩

theorem servesReads_of_not_serving {st : BayState} (h : st.serving = false) : st.servesReads = false := by
  cases st <;> first | rfl | cases h

theorem Bay.Waits.of_stopped {x y : Bay} (h : x.Lawful) (hx : x.state.serving = false)
    (hy : y.state.serving = false) (hl : y.link.heldByRead = false) : x.Waits y :=
  .of_no_read (h.no_read hx) hl (fun hr => absurd hr (by simp [servesReads_of_not_serving hy]))
    (servesReads_of_not_serving hx)

/-- An end of the head entry by its commit (R65). -/
theorem commitHead_settled (hs : Settled s) (hc : CarriersDistinct s) : Settled (commitHead b s) := by
  unfold commitHead
  dsimp only
  split
  next e es hw hq =>
    split
    swap
    · exact hs
    have hdrain : (s.bay b).link.heldByRead = false := by
      refine heldByRead_of_heldByDrain ?_
      unfold Bay.engine at hw
      repeat' split at hw
      all_goals first | assumption | cases hw
    have htouch : ∀ t : State, t.rst = s.rst ∧ t.hrst = s.hrst → FateMet s t → t.hold = s.hold →
        (∀ c, t.bay c = (modBay b (fun x => { x with lossCount := 0 }) (dropHead b s)).bay c) →
        Settled (markAck b (settle b t)) := by
      intro t hr hf hh hb
      have hbay : t.bay b = { (s.bay b).dropLink with queue := (s.bay b).queue.tail, lossCount := 0 } := by
        rw [hb]; simp
      have hother : t.bay (otherBay b) = s.bay (otherBay b) := by rw [hb]; simp
      refine markAck_settled (Touches.settled_of ⟨hf.portKept hs hr fun c hl => ?_, .inr ?_,
        .of_eq hother, fun _ h => by rwa [hh]⟩ hs (hc.kept (.of_bay (b := b) ?_ hother)))
      · obtain rfl | rfl := eq_or_eq_otherBay b c
        · rw [hbay] at hl; cases hl
        · rwa [hother] at hl
      · rw [hbay]
        exact .of_sublist hdrain rfl rfl (List.tail_sublist _)
      · rw [hbay]
        exact fun h => ⟨h, rfl⟩
    split
    · refine htouch _ (by simp) (FateMet.trans (.of_eq (by simp)) (fateMet_releaseThrough _ _)) (by simp)
        fun c => ?_
      obtain rfl | rfl := eq_or_eq_otherBay b c <;> simp
    · refine htouch _ (by simp) (.of_eq (by simp)) (by simp) fun c => ?_
      obtain rfl | rfl := eq_or_eq_otherBay b c <;> simp
  · exact hs

theorem reject_settled {c : MountCause} (hs : Settled s)
    (hst : (s.bay b).state.serving = false) : Settled (reject b c s) :=
  (Touches.here_only (b := b) (by simp) (.of_out (by simp) (by simp [BayState.serving])) (by simp)
    (by simp)).out hs hst (by simp [BayState.serving]) (by simp)

/-- The host read on bay `b`'s link is released, and its link comes free (R47). -/
theorem Settled.readEnds {a : Access} (hs : Settled s) (ha : s.host = .diverted a .onLink)
    (hr : t.rst = s.rst ∧ t.hrst = s.hrst) (hhost : ∀ a w, t.host ≠ .diverted a w)
    (hbay : t.bay a.copy.bay = (s.bay a.copy.bay).dropLink)
    (hother : t.bay (otherBay a.copy.bay) = s.bay (otherBay a.copy.bay)) (hh : t.hold = s.hold) :
    Settled (grantLink a.copy.bay t) := by
  have hag := (hs.host a _ ha).2
  have ho : HostOver t := by
    refine .of_running (by rw [hr.1, hr.2]; exact hs.running (by simp [ha])) hhost fun c => ?_
    obtain rfl | rfl := eq_or_eq_otherBay a.copy.bay c
    · rw [hbay]; rfl
    · rw [hother]
      have hno := hs.abandonRead_no_read ha (otherBay a.copy.bay)
      rwa [abandonRead_bay_other] at hno
  refine Touches.granted (s := s) ⟨.inr ho, .inl ho, .of_eq hother, fun _ h => by rwa [hh]⟩ hs
    (fun a' w' ha' => absurd ha' (hhost a' w'))
    (DrainDone.of_queue (hs.drain _) (by simp [hbay]) (by simp [hbay])) fun hrep => ?_
  rw [hbay, (Bay.dropLink_frame _).1] at hrep
  simp [Wait.agrees, hrep, BayState.servesReads] at hag

theorem failAttempt_settled (hs : Settled s) (hB : BaysLawful s) (hc : CarriersDistinct s) :
    Settled (failAttempt b s) := by
  unfold failAttempt
  split
  next k tr hl =>
    split
    swap
    · exact hs
    split
    · exact hs.modBay_same (Bay.same_setLink (by rw [hl]; cases k <;> rfl) (by simp [hl]))
    · unfold failTransfer
      split
      · split
        · have hread : (s.bay b).link.heldByRead = false := by rw [hl]; rfl
          exact (loseHead_touches hs hread).settled_of hs (hc.kept (carriersKept_loseHead b _ s))
        · exact hs
      · split
        next a ha =>
          split
          next hb =>
            subst hb
            exact hs.readEnds ha (by simp) (by simp) (by simp) (by simp) (by simp)
          · exact hs
        · exact hs
      · have hid : (s.bay b).state = .identifying := by
          have hlaw := (hB b).link
          simpa [hl, Link.allowed] using hlaw
        split
        · exact reject_settled hs (by rw [hid]; rfl)
        · exact hs
  all_goals exact hs

theorem readAnswer_settled {d : Half} (hs : Settled s) : Settled (readAnswer b d s) := by
  unfold readAnswer
  split
  next tr a hl ha =>
    split
    next hb =>
      obtain ⟨rfl, -⟩ := hb
      exact hs.readEnds ha (by simp) (by simp) (by simp) (by simp) (by simp)
    · exact hs
  · exact hs

theorem abandonedEnd_settled (hs : Settled s) : Settled (abandonedEnd b s) := by
  unfold abandonedEnd
  split
  next tr hl =>
    have hread : (s.bay b).link.heldByRead = false := by rw [hl]; rfl
    refine Touches.granted (s := s) (.here_only (by simp) ?_ (by simp) (by simp)) hs (fun a w ha hb => ?_)
      (DrainDone.of_queue (hs.drain b) (by simp) (by simp))
      (ReplayDone.mono (hs.replay b) (by simp) (by simp) (by simp) (by simp))
    · exact .of_sublist hread (by simp) (by simp) (by simp)
    · have hag := (hs.host a w (by simpa using ha)).2
      rw [hb] at hag
      rw [freeLink_bay]
      exact agrees_of_link hag hread.symm
  all_goals exact hs

/-! ### Mounting -/

theorem judgeHold_hold (b : BayId) (n : Serial) (slot : Option Stamp) (s : State) :
    (judgeHold b n slot s).hold =
      s.hold.map fun e => if marksStale n slot e then { e with stale := true } else e := by
  unfold judgeHold
  dsimp only
  split <;> rfl

/-- A verdict on a carrier leaves the entries of every other serial (R90, R94). -/
theorem mem_judgeHold {n : Serial} {slot : Option Stamp} {e : HoldEntry} (he : e ∈ s.hold)
    (hn : e.write.serial ≠ n) : e ∈ (judgeHold b n slot s).hold := by
  rw [judgeHold_hold]
  exact List.mem_map.2 ⟨e, he, by simp [marksStale, hn]⟩

theorem mem_restamp {n : Serial} {st : Stamp} {l : List HoldEntry} {e : HoldEntry} (he : e ∈ l)
    (hn : e.write.serial ≠ n) : e ∈ restamp n st l :=
  List.mem_map.2 ⟨e, he, by simp [hn]⟩

/-- What is eligible in a bay is of its carrier's serial (R130). -/
theorem serial_of_eligible {m : MountRecord} {e : HoldEntry} (h : eligible m e) :
    m.serial = some e.write.serial := by
  simp only [eligible, Bool.and_eq_true, beq_iff_eq] at h
  exact h.1.2

/-- The entries that another bay's carrier waits for stay when those of its own serial do. -/
theorem any_eligible_of_serial {m : MountRecord} {n : Serial} {k l : List HoldEntry}
    (hne : m.serial ≠ some n) (hmem : ∀ e ∈ k, e.write.serial ≠ n → e ∈ l) (h : k.any (eligible m)) :
    l.any (eligible m) := by
  obtain ⟨e, he, hel⟩ := List.any_eq_true.1 h
  exact List.any_eq_true.2
    ⟨e, hmem e he fun hs => hne (by rw [serial_of_eligible hel, hs]), hel⟩

theorem Bay.Waits.of_mount {x y : Bay} (h : x.Lawful) (hx : x.state.serving = false)
    (hl : y.link.heldByRead = false) (hq : y.queue = x.queue) : x.Waits y :=
  .of_no_read (h.no_read hx) hl (fun _ => by rw [hq]; exact h.queue hx) (servesReads_of_not_serving hx)

/-- Identification completes: the bay begins its service (R95). -/
theorem completeMount_settled {v : Verdict} (hs : Settled s) (hB : BaysLawful s)
    (hx : (s.bay b).state.serving = false)
    (ht : t.rst = s.rst ∧ t.hrst = s.hrst ∧ t.host = s.host) (hq : (t.bay b).queue = (s.bay b).queue)
    (hother : (s.bay (otherBay b)).Same (t.bay (otherBay b)))
    (hh : (s.bay (otherBay b)).state = .replay → s.hold.any (eligible (s.bay (otherBay b)).mount) →
      t.hold.any (eligible (s.bay (otherBay b)).mount))
    (hserial : (s.bay (otherBay b)).identified →
      (t.bay b).mount.serial ≠ (s.bay (otherBay b)).mount.serial) :
    Settled (completeMount b v t) := by
  refine Touches.settled (s := s) ⟨.inl (by simpa using ht), .inr (.of_mount (hB b) hx (by simp) (by simp [hq])),
    by simpa using hother, by simpa using hh⟩ hs fun _ ho e _ he => ?_
  have hne := hserial (by simp at ho; simp [Bay.identified, ← hother.state, ho, BayState.serving])
  have heq := serial_of_eligible he
  simp only [setLatch_bay, modBay_bay_other, hother.mount] at heq
  rw [heq] at hne
  simp [eligible, hne]

theorem keyRead_settled (hs : Settled s) (hB : BaysLawful s) (hx : (s.bay b).state.serving = false) :
    Settled (keyRead b s) := by
  have hread := (hB b).no_read hx
  unfold keyRead
  dsimp only
  split
  · unfold enterPowering
    dsimp only
    split
    · exact Touches.granted_out (s := s) (.here_only (by simp)
        (.of_stopped (hB b) hx (by simp [BayState.serving]) (by simpa using hread)) (by simp) (by simp)) hs hx
        (by simp [BayState.serving])
    · exact Touches.out (s := s) (b := b) (.here_only (by simp)
        (.of_stopped (hB b) hx (by simp [BayState.serving]) (by simpa using hread)) (by simp) (by simp)) hs hx
        (by simp [BayState.serving]) (by simp)
  · exact Touches.out (s := s) (b := b) (.here_only (by simp)
      (.of_stopped (hB b) hx (by simp [BayState.serving]) (by simpa using hread)) (by simp) (by simp)) hs hx
      (by simp [BayState.serving]) (by simp)

/-- A step of the identification sequence that leaves the bay IDENTIFYING makes the next request. -/
theorem identGrant_settled (hs : Settled s) (hB : BaysLawful s) (hx : (s.bay b).state = .identifying)
    (hr : t.rst = s.rst ∧ t.hrst = s.hrst ∧ t.host = s.host) (hst : (t.bay b).state = .identifying)
    (hl : (t.bay b).link = .free) (ho : t.bay (otherBay b) = s.bay (otherBay b))
    (hh : (s.bay (otherBay b)).state = .replay → s.hold.any (eligible (s.bay (otherBay b)).mount) →
      t.hold.any (eligible (s.bay (otherBay b)).mount)) : Settled (grantLink b t) := by
  have hx' : (s.bay b).state.serving = false := by rw [hx]; rfl
  exact Touches.granted_out (s := s) ⟨.inl hr, .inr (.of_stopped (hB b) hx' (by rw [hst]; rfl)
    (by rw [hl]; rfl)), .of_eq ho, hh⟩ hs hx' (by rw [hst]; rfl)

/-- The other bay holds no identified carrier of this serial: its replay waits for other entries. -/
theorem other_eligible {n : Serial} {l : List HoldEntry}
    (hne : (s.bay (otherBay b)).identified → (s.bay (otherBay b)).mount.serial ≠ some n)
    (hmem : ∀ e ∈ s.hold, e.write.serial ≠ n → e ∈ l) (hrep : (s.bay (otherBay b)).state = .replay)
    (h : s.hold.any (eligible (s.bay (otherBay b)).mount)) :
    l.any (eligible (s.bay (otherBay b)).mount) :=
  any_eligible_of_serial (hne (by simp [Bay.identified, hrep, BayState.serving])) hmem h

theorem checkDescriptor_settled {i : Ident} (hs : Settled s) (hB : BaysLawful s)
    (hx : (s.bay b).state = .identifying)
    (ht : t.rst = s.rst ∧ t.hrst = s.hrst ∧ t.host = s.host) (hh : t.hold = s.hold)
    (hst : (t.bay b).state = .identifying) (hq : (t.bay b).queue = (s.bay b).queue)
    (ho : t.bay (otherBay b) = s.bay (otherBay b)) : Settled (checkDescriptor b i t) := by
  have hx' : (s.bay b).state.serving = false := by rw [hx]; rfl
  have hreject {c : MountCause} {u : State} (hu : u.rst = s.rst ∧ u.hrst = s.hrst ∧ u.host = s.host)
      (huh : u.hold = s.hold) (huo : u.bay (otherBay b) = s.bay (otherBay b)) :
      Settled (reject b c u) :=
    Touches.out (b := b) (s := s) (.here_only (by simpa using hu)
      (.of_out (by simp) (by simp [BayState.serving])) (by simpa using huo) (by simpa using huh)) hs hx'
      (by simp [BayState.serving]) (by simp)
  unfold checkDescriptor
  split
  · exact hreject ht hh ho
  · dsimp only
    split
    · exact hreject (by simpa using ht) (by simpa using hh) (by simpa using ho)
    next hconflict =>
      have hn : (s.bay (otherBay b)).identified →
          (s.bay (otherBay b)).mount.serial ≠ some (descSerial i.halves) := by
        intro hid hserial
        rw [modBay_bay_other, ho] at hconflict
        simp [hid, hserial] at hconflict
      split
      · exact completeMount_settled hs hB hx' (by simpa using ht) (by simpa using hq)
          (.of_eq (by simpa using ho)) (by simp [hh])
          (fun hid => by simpa using (hn hid).symm)
      · unfold beginBinding
        refine identGrant_settled hs hB hx (by simpa using ht) (by simpa using hst) (by simp)
          (by simpa using ho) (other_eligible hn fun e he hne => ?_)
        rw [modBay_hold]
        exact mem_judgeHold (by simpa [hh] using he) hne

theorem descriptorAnswer_settled {d : Half} {l : Bool} (hs : Settled s) (hB : BaysLawful s) :
    Settled (descriptorAnswer b d l s) := by
  unfold descriptorAnswer
  dsimp only
  split
  next halves tr hx hl hi =>
    split
    swap
    · exact hs
    split
    · exact identGrant_settled hs hB hx (by simp) (by simpa using hx) (by simp) (by simp)
        (by simp)
    · exact checkDescriptor_settled hs hB hx (by simp [sampleLock]) (by simp [sampleLock])
        (by simpa [sampleLock] using hx) (by simp [sampleLock]) (by simp [sampleLock])
  · exact hs

theorem bindingAnswer_settled (hs : Settled s) (hB : BaysLawful s) (hc : CarriersDistinct s) :
    Settled (bindingAnswer b s) := by
  unfold bindingAnswer
  dsimp only
  split
  swap
  · exact hs
  next tr halves w hx hl hi =>
  split
  · exact hs
  split
  · exact identGrant_settled hs hB hx (by simp) (by simpa using hx) (by simp) (by simp)
      (by simp)
  · have hid : (s.bay b).identified := by simp [Bay.identified, hx, hi]
    have hserial := ((hB b).binding _ hi rfl).1
    have hn : (s.bay (otherBay b)).identified →
        (s.bay (otherBay b)).mount.serial ≠ some (descSerial halves) := by
      intro ho
      rw [← hserial]
      exact ((carriersDistinct_iff b).1 hc hid ho).symm
    unfold completeBinding
    dsimp only
    refine completeMount_settled hs hB (by rw [hx]; rfl) (by simp) ?_ ?_
      (other_eligible hn fun e he hne => ?_) fun ho => ?_
    · rw [modBay_bay_ne _ _ (ne_otherBay b), modBay_bay, judgeHold_setHold_bay]
    · rw [modBay_bay, modBay_bay_other, judgeHold_setHold_bay]
      exact ⟨rfl, rfl, rfl, rfl, rfl, .rfl⟩
    · rw [modBay_hold, modBay_hold]
      exact mem_restamp (mem_judgeHold he hne) hne
    · rw [modBay_bay_ne _ _ (ne_otherBay b), modBay_bay, judgeHold_setHold_bay]
      exact hserial ▸ (hn ho).symm

/-! ### Detection, power and removal -/

/-- A bay goes from one stopped state to another. -/
theorem Settled.stopped (hs : Settled s) (hB : BaysLawful s) (hx : (s.bay b).state.serving = false)
    (hr : t.rst = s.rst ∧ t.hrst = s.hrst ∧ t.host = s.host) (hy : (t.bay b).state.serving = false)
    (hi : (t.bay b).state ≠ .identifying) (hl : (t.bay b).link = (s.bay b).link ∨ (t.bay b).link = .free)
    (ho : t.bay (otherBay b) = s.bay (otherBay b)) (hh : t.hold = s.hold) : Settled t := by
  refine (Touches.here_only (b := b) hr (.of_stopped (hB b) hx hy ?_) ho hh).out hs hx hy hi
  obtain h | h := hl <;> rw [h]
  · exact (hB b).no_read hx
  · rfl

theorem detectSample_settled (hs : Settled s) (hB : BaysLawful s) : Settled (detectSample b s) := by
  unfold detectSample
  dsimp only
  split
  next hx =>
    simp only [Bool.and_eq_true, decide_eq_true_eq] at hx
    exact hs.stopped (b := b) hB (by rw [hx.1.1]; rfl) (by simp) (by simp [BayState.serving]) (by simp)
      (by simp) (by simp) (by simp)
  · exact hs

theorem sampleDetect_settled {m : Bool} (hs : Settled s) : Settled (sampleDetect b m s) :=
  hs.modBay_same (by exact ⟨rfl, rfl, rfl, rfl, rfl, .rfl⟩)

theorem detectMake_settled (hs : Settled s) (hB : BaysLawful s) : Settled (detectMake b s) := by
  unfold detectMake
  split
  · exact detectSample_settled (sampleDetect_settled hs) (sampleDetect_lawful hB)
  · exact hs

theorem sampleKeys_settled {k : KeySample} (hs : Settled s) : Settled (sampleKeys b k s) :=
  hs.modBay_same (by exact ⟨rfl, rfl, rfl, rfl, rfl, .rfl⟩)

theorem breakDetect_settled (b : BayId) (c : DetContact) (hs : Settled s) : Settled (breakDetect b c s) :=
  hs.modBay_same (by exact ⟨rfl, rfl, rfl, rfl, rfl, .rfl⟩)

theorem samplePower_settled (b : BayId) (l : Bool) (hs : Settled s) : Settled (samplePower b l s) :=
  hs.modBay_same (by exact ⟨rfl, rfl, rfl, rfl, rfl, .rfl⟩)

theorem debounceBreak_settled {c : DetContact} (hs : Settled s) (hB : BaysLawful s) :
    Settled (debounceBreak b c s) := by
  unfold debounceBreak
  split
  next hx =>
    exact (breakDetect_settled b c hs).stopped (b := b) (breakDetect_lawful hB) (by simp [breakDetect, hx, BayState.serving])
      (by simp) (by simp [BayState.serving]) (by simp) (by simp) (by simp) (by simp)
  · exact hs

theorem debounceExpiry_settled {k : KeySample} (hs : Settled s) (hB : BaysLawful s) :
    Settled (debounceExpiry b k s) := by
  unfold debounceExpiry
  split
  next hx =>
    exact keyRead_settled ((sampleKeys_settled hs).setLatch _) (setLatch_lawful.2 (sampleKeys_lawful hB))
      (by simp [sampleKeys, hx.1, BayState.serving])
  · exact hs

theorem powerGoodRise_settled (hs : Settled s) (hB : BaysLawful s) : Settled (powerGoodRise b s) := by
  unfold powerGoodRise
  split
  next hx =>
    have hx' : (s.bay b).state.serving = false := by rw [hx]; rfl
    exact Touches.granted_out (s := s) (.here_only (by simp [samplePower])
      (.of_stopped (hB b) hx' (by simp [BayState.serving])
        (by simpa [samplePower] using (hB b).no_read hx')) (by simp [samplePower]) (by simp [samplePower]))
      hs hx' (by simp [BayState.serving])
  · exact hs

theorem timerExpiry_settled (hs : Settled s) :
    Settled (powerTimerExpiry b s) ∧ Settled (identTimerExpiry b s) := by
  unfold powerTimerExpiry identTimerExpiry
  constructor
  all_goals
    split
    next hx => exact reject_settled hs (by rw [hx.1]; rfl)
    · exact hs

/-- The bay leaves service: its queue is evacuated (R102). -/
theorem leaveServing_settled {st : BayState} {c : MountCause} {l : List Latch} (hs : Settled s)
    (hc : CarriersDistinct s) (hst : st.serving = false) (hi : st ≠ .identifying) :
    Settled (settle b (l.foldr setLatch (leaveServing b st c s))) := by
  have hlatch : ∀ l : List Latch, let t := l.foldr Machine.setLatch (leaveServing b st c s)
      t.rst = s.rst ∧ t.hrst = s.hrst ∧ t.host = (leaveServing b st c s).host ∧
        t.hold = (leaveServing b st c s).hold ∧ ∀ c', t.bay c' = (leaveServing b st c s).bay c' := by
    intro l
    induction l with
    | nil => simp
    | cons x xs ih => simpa using ih
  obtain ⟨hrst, hhrst, hhost, hhold, hbay⟩ := hlatch l
  refine Touches.settled_of ⟨((fateMet_leaveServing b st c s).trans (.of_eq hhost)).portKept hs ⟨hrst, hhrst⟩
    fun d hd => ?_, .inr (.of_out (by simp [hbay]) (by simpa [hbay] using hst)), .of_eq (by simp [hbay]),
    fun _ => any_of_forall_mem fun x hx => ?_⟩ hs
    (hc.kept ((carriersKept_leaveServing hst hi).trans (.of_bays hbay)))
  · rw [hbay] at hd
    obtain rfl | rfl := eq_or_eq_otherBay b d
    · simp at hd
    · simpa using hd
  · rw [hhold, leaveServing_hold]
    exact mem_evacuate_of_mem hx

theorem powerLoss_settled (hs : Settled s) (hB : BaysLawful s) (hc : CarriersDistinct s) :
    Settled (powerLoss b s) := by
  have hkept : CarriersKept s (samplePower b false s) := carriersKept_sample rfl rfl rfl
  unfold powerLoss
  dsimp only
  split
  · exact leaveServing_settled (l := [.bay b .faulted]) (samplePower_settled b false hs) (hc.kept hkept) rfl (by simp)
  · split
    next hx =>
      exact (samplePower_settled b false hs).stopped (b := b) (samplePower_lawful hB)
        (by simp [samplePower, hx, BayState.serving]) (by simp) (by simp [BayState.serving]) (by simp)
        (by simp) (by simp) (by simp)
    · exact hs

theorem removeServing_settled {c : DetContact} (hs : Settled s) (hc : CarriersDistinct s) :
    Settled (removeServing b c s) := by
  have hkept : CarriersKept s (breakDetect b c s) := carriersKept_sample rfl rfl rfl
  unfold removeServing
  split
  · exact leaveServing_settled (l := [.bay b .removed]) (breakDetect_settled b c hs) (hc.kept hkept) rfl (by simp)
  · exact hs

theorem drainTimeout_settled (hs : Settled s) (hc : CarriersDistinct s) : Settled (drainTimeout b s) := by
  unfold drainTimeout
  split
  · exact leaveServing_settled (l := [.bay b .drainTimeout, .bay b .ejectDone]) hs hc rfl (by simp)
  · exact hs

theorem removeMounting_settled {c : DetContact} (hs : Settled s) (hB : BaysLawful s) :
    Settled (removeMounting b c s) := by
  unfold removeMounting
  split
  next hx =>
    refine (breakDetect_settled b c hs).stopped (b := b) (breakDetect_lawful hB) ?_ (by simp)
      (by simp [BayState.serving]) (by simp) (by simp) (by simp) (by simp)
    obtain h | h := hx <;> simp [breakDetect, h, BayState.serving]
  · exact hs

theorem removeStopped_settled {c : DetContact} (hs : Settled s) (hB : BaysLawful s) :
    Settled (removeStopped b c s) := by
  unfold removeStopped
  split
  next hx =>
    refine (breakDetect_settled b c hs).stopped (b := b) (breakDetect_lawful hB) ?_ (by simp)
      (by simp [BayState.serving]) (by simp) (by simp) (by simp) (by simp)
    cases h : (s.bay b).state <;> simp_all [breakDetect, BayState.serving, BayState.stoppedCarrier]
  · exact hs

theorem Touches.refl (b : BayId) (s : State) : Touches b s s :=
  .here_only ⟨rfl, rfl, rfl⟩ ⟨id, fun h _ => h, fun _ _ h => h, fun h => by rw [h]; rfl⟩ rfl rfl

theorem replayMove_settled (hs : Settled s) (hc : CarriersDistinct s) : Settled (replayMove b s) := by
  unfold replayMove
  split
  · exact (Touches.refl b s).settled_of hs hc
  · exact hs

/-! ### Frames and commands -/

theorem frameStart_settled (hs : Settled s) : Settled (frameStart s) := by
  unfold frameStart
  split <;> exact hs.setFields ⟨rfl, rfl, rfl⟩ rfl rfl rfl

theorem frameEnd_settled (hs : Settled s) : Settled (frameEnd s) := by
  unfold frameEnd
  split <;> exact hs.setFields ⟨rfl, rfl, rfl⟩ rfl rfl rfl

theorem frameDiscard_settled {l : List Bool} (hs : Settled s) : Settled (frameDiscard l s) := by
  unfold frameDiscard
  repeat' split
  all_goals exact hs.setFields ⟨rfl, rfl, rfl⟩ rfl rfl rfl

theorem event_settled (c : Instr) (hrst : s.rst = false) (hB : BaysLawful s) (hc : CarriersDistinct s)
    (hs : Settled s) : Settled (event c s) := by
  cases c
  case hrst l _ => exact hrstEffect_settled l hs
  case classification c => exact classify_settled c hs hrst
  case mainAccessReady md => exact mainReady_settled md hs
  case accessEnd => exact accessEnd_settled hs
  case hostWithdrawal => exact (abandonAccess_settled hs).1
  case stallTimerExpiry => exact stallExpiry_settled hs
  case waitingWriteAccepted => change Settled (acceptWaiting s); rwa [acceptWaiting_of_settled hs]
  case stalledAccessRehandled => change Settled (rehandle s); rwa [rehandle_of_settled hs]
  case linkGrant b => change Settled (grantLink b s); rwa [grantLink_of_noGrantDue (hs.grant b)]
  case commit => exact commitHead_settled hs hc
  case failedAttempt | responseTimeout => exact failAttempt_settled hs hB hc
  case readTransferAnswer => exact readAnswer_settled hs
  case descriptorReadAnswer => exact descriptorAnswer_settled hs hB
  case bindingWriteAnswer => exact bindingAnswer_settled hs hB hc
  case abandonedTransferEnd => exact abandonedEnd_settled hs
  case detectMake => exact detectMake_settled hs hB
  case debounceBreak => exact debounceBreak_settled hs hB
  case debounceExpiry => exact debounceExpiry_settled hs hB
  case powerGoodRise => exact powerGoodRise_settled hs hB
  case powerTimerExpiry => exact (timerExpiry_settled hs).1
  case identificationTimerExpiry => exact (timerExpiry_settled hs).2
  case powerLoss => exact powerLoss_settled hs hB hc
  case removal => exact removeServing_settled hs hc
  case removalDuringMount => exact removeMounting_settled hs hB
  case removalOfStoppedCarrier => exact removeStopped_settled hs hB
  case drainTimeout => exact drainTimeout_settled hs hc
  case replayMove => exact replayMove_settled hs hc
  case frameStart => exact frameStart_settled hs
  case frameEnd => exact frameEnd_settled hs
  case frameDiscard => exact frameDiscard_settled hs
  all_goals exact hs

theorem eject_settled (hs : Settled s) (hc : CarriersDistinct s) : Settled (eject b s).state := by
  unfold eject
  split
  next hx =>
    refine Touches.settled_of (s := s) (.here_only (by simp) ⟨by simp, fun h _ => by simpa using h,
      fun _ a h => ?_, by simp⟩ (by simp) (by simp)) hs
      (hc.kept (carriersKept_enterDraining (by rw [hx]; rfl)))
    rw [enterDraining_bay] at h
    exact h
  · change Settled (modBay b (fun x => { x with ejectPending := true }) s)
    exact hs.modBay_same ⟨rfl, rfl, rfl, rfl, rfl, .rfl⟩
  all_goals exact hs

/-- A DRAINING bay serves READY again: what waited there waits on (R117). -/
theorem cancelEject_settled (hs : Settled s) : Settled (cancelEject b s).state := by
  unfold cancelEject
  split
  next hx =>
    let t := modBay b (fun x => { (x.enter .ready .none) with drainTimer := none }) s
    have hbay : t.bay b = { (s.bay b).enter .ready .none with drainTimer := none } := modBay_bay ..
    have htouch : Touches b s t :=
      .here_only (by simp [t]) ⟨by simp [t], fun h _ => by simpa [t] using h,
        fun _ a h => by rw [hbay] at h; exact h, by simp [t]⟩ (by simp [t]) (by simp [t])
    have hgrant : NoGrantDue b t := by
      intro hfree
      have hdue := requester_eq_none_iff.1 (hs.grant b (by simpa [t] using hfree))
      refine requester_eq_none_iff.2 ⟨waitingRead_eq_none fun a ha hb => ?_, fun _ => ?_, fun hi => ?_⟩
      · have hw := hdue.1
        unfold waitingRead at hw
        rw [show s.host = .diverted a .grant by simpa [t] using ha] at hw
        simp [hb, hx, BayState.servesReads] at hw
      · simpa [t] using hdue.2.1 (by rw [hx]; rfl)
      · simp [t] at hi
    have hsettled := htouch.granted hs (fun a w ha hb => ?_) (fun hd => by simp [t] at hd)
      fun hr => by simp [t] at hr
    · rwa [grantLink_of_noGrantDue hgrant] at hsettled
    · have hag := (hs.host a w (by simpa [t] using ha)).2
      rw [hb] at hag
      cases w <;> simp_all [t, Wait.agrees, BayState.servesReads, readMatches]
  · split
    · change Settled (modBay b (fun x => { x with ejectPending := false }) s)
      exact hs.modBay_same ⟨rfl, rfl, rfl, rfl, rfl, .rfl⟩
    · exact hs
  all_goals exact hs

theorem retryBay_settled {k : KeySample} (hs : Settled s) (hB : BaysLawful s) :
    Settled (retryBay k b s).state := by
  unfold retryBay
  split
  case h_1 hx | h_2 hx | h_3 hx =>
    exact keyRead_settled (sampleKeys_settled hs) (sampleKeys_lawful hB)
      (by simp [sampleKeys, hx, BayState.serving])
  all_goals exact hs

theorem forget_settled (hs : Settled s) : Settled (forget b s).state := by
  change Settled (modBay b (fun x => { x with last := none }) s)
  exact hs.modBay_same ⟨rfl, rfl, rfl, rfl, rfl, .rfl⟩

theorem SettledPort.dueAt (h : SettledPort s) (b : BayId) : DueAt b s :=
  ⟨h.reset, fun a w ha => (h.host a w ha).1,
    fun a w ha hb => mayMeet_of_agrees (hb ▸ (h.host a w ha).2) (fun _ => id) fun hl _ => hl,
    fun a w ha hb => hb ▸ (h.host a w ha).2, h.link, h.grant _, h.drain _⟩

theorem SettledPort.fitsReplay (h : SettledPort s) (b : BayId) : FitsReplay b s :=
  fun hr a w ha hb => fitsReplay_of_agrees (hb ▸ (h.host a w ha).2) (by rw [hr]; rfl)

theorem BeforeGrant.dueAt (h : BeforeGrant b s) : DueAt b s :=
  ⟨h.reset, fun a w ha => (h.host a w ha).1,
    fun a w ha hb => mayMeet_of_agrees (hb ▸ (h.host a w ha).2) (fun _ => id) fun hl _ => hl,
    fun a w ha hb => hb ▸ (h.host a w ha).2, h.link, h.grant, h.drain _⟩

theorem BeforeGrant.fitsReplay (h : BeforeGrant b s) : FitsReplay b s :=
  fun hr a w ha hb => fitsReplay_of_agrees (hb ▸ (h.host a w ha).2) (by rw [hr]; rfl)

/-- FORCE_REPLAY brings back stale entries alone: what was eligible stays so (R138). -/
theorem any_eligible_forced {m k : MountRecord} {l : List HoldEntry} (h : l.any (eligible k)) :
    (l.map (forceEntry m)).any (eligible k) := by
  obtain ⟨e, he, hel⟩ := List.any_eq_true.1 h
  refine List.any_eq_true.2 ⟨e, List.mem_map.2 ⟨e, he, if_neg ?_⟩, hel⟩
  simp only [eligible, Bool.and_eq_true, Bool.not_eq_true'] at hel
  simp [forceable, hel.1.1]

/-- A bay that goes from READY to REPLAY has its waiting host to meet (R39, R138). -/
theorem Settled.dueAt_replay (hs : Settled s) (b : BayId) (l : List HoldEntry) :
    DueAt b (modBay b (Bay.enter .replay .none) { s with hold := l }) := by
  let t := modBay b (Bay.enter .replay .none) { s with hold := l }
  have hb : (t.bay b).state = .replay := by simp [t]
  refine ⟨by simpa using hs.reset, fun a w ha => (hs.host a w (by simpa using ha)).1,
    fun a w ha hbay => ?_, fun a w ha hbay => ?_, fun c hl => ?_,
    (hs.grant _).of_other (by simp) (by simp), DrainDone.of_queue (hs.drain _) ?_ ?_⟩
  · have hag := (hs.host a w (by simpa using ha)).2
    rw [hbay] at hag
    exact mayMeet_of_agrees hag (by simp [BayState.servesReads]) (by simp [BayState.servesReads])
  · have hag := (hs.host a w (by simpa using ha)).2
    rw [hbay] at hag
    simpa using hag
  · obtain rfl | rfl := eq_or_eq_otherBay b c
    · simpa using hs.link _ (by simpa using hl)
    · simpa using hs.link _ (by simpa using hl)
  · simp
  · simp

/-- FORCE_REPLAY meets the host in REPLAY before replay makes its moves (R39, R138). -/
theorem forceReplay_settled (hs : Settled s) (hc : CarriersDistinct s) :
    Settled (forceReplay b s).state := by
  unfold forceReplay
  dsimp only
  split
  · exact hs
  next hx =>
  split
  · exact hs
  split
  · exact hs
  have hdue := hs.dueAt_replay b (s.hold.map (forceEntry (s.bay b).mount))
  have hkept := hc.kept (carriersKept_forced (by simpa using hx))
  have hmet := hdue.meetHost fun hd => by simp at hd
  refine hmet.dueAt.settled hmet.fitsReplay ((hkept.kept (carriersKept_meetHost _)).replayApart b)
    (meetHost_replayDone hdue ?_)
  refine ReplayDone.mono (hs.replay _) (by simp) (by simp) (by simp) fun _ => ?_
  simpa using any_eligible_forced

theorem discardEntries_settled {p : HoldEntry → Bool} (hs : Settled s) :
    SettledPort (discardEntries p s) := by
  have h := hs.port
  have hb : ∀ c, (discardEntries p s).bay c = s.bay c := fun c => by simp
  have hh : (discardEntries p s).host = s.host := by simp
  exact ⟨by simpa using h.reset, by simpa [hh, hb] using h.host, by simpa [hh, hb] using h.link,
    fun c => (h.grant c).of_other (hb c) hh, fun c => (h.drain c).of_queue (by rw [hb]) (by rw [hb]; exact id)⟩

/-- Both bays may end their replay so (R140). -/
theorem discardHeld_settled {n : Serial} {d : Byte} (hs : Settled s) (hc : CarriersDistinct s) :
    Settled (discardHeld n d s).state := by
  unfold discardHeld
  dsimp only
  split
  · exact hs
  next stale _ =>
    split
    · exact hs
    · have hport := discardEntries_settled (p := discards n stale) hs
      obtain ⟨hA, hrA⟩ := (hport.dueAt .A).settle (hport.fitsReplay .A)
      obtain ⟨hB, hrB⟩ := (hA.dueAt .B).settle (hA.fitsReplay .B)
      have hc' := (hc.kept (.of_bays fun c => discardEntries_bay (discards n stale) s c)).kept
        (carriersKept_settle .A _)
      refine settled_iff.2 ⟨hB, fun c => ?_⟩
      cases c with
      | A => exact (hA.dueAt .B).settle_other (hA.fitsReplay .B) (hc'.replayApart .B) hrA
      | B => exact hrB

theorem elapse_settled (hs : Settled s) : Settled (elapse s) := by
  refine hs.same (.inl (by simp)) (fun c => ?_) (by simp)
  rw [elapse_bay]
  refine ⟨by simp, by simp, by simp, by simp, ?_, ?_⟩ <;> rw [Bay.elapse_link] <;>
    cases (s.bay c).link <;> simp [Link.elapse]
  cases ‹Holder› <;> rfl

theorem porState_settled : Settled (porState s) := by
  refine ⟨fun _ => rfl, fun a w ha => ?_, fun c hc => ?_, fun c => .of_out ?_ ?_, fun c hr => ?_, fun c hd => ?_⟩
  · cases ha
  · rw [porState_bay] at hc; cases hc
  · rw [porState_bay]; rfl
  · rw [porState_bay]; simp [Bay.reset]
  · rw [porState_bay] at hr; cases hr
  · rw [porState_bay] at hd; cases hd

theorem resetEnd_settled {a b d e : Bool} (hs : Settled s) (hB : BaysLawful s) (hr : s.rst = true) :
    Settled (resetEnd a b d e s) := by
  have hidle := hs.reset (.inl hr)
  have h0 : Settled { s with rst := false, hrst := e, frame := if d then .waitRise else .idle } :=
    hs.setHost (.of_idle hidle fun c => by rw [State.bay_mk]; exact hs.no_read_of_idle hidle c)
      (fun c => State.bay_mk ..) rfl
  have hB0 : BaysLawful { s with rst := false, hrst := e, frame := if d then .waitRise else .idle } :=
    setFields_lawful hB rfl rfl
  exact detectSample_settled
    (sampleDetect_settled (detectSample_settled (sampleDetect_settled h0) (sampleDetect_lawful hB0)))
    (sampleDetect_lawful (detectSample_lawful (sampleDetect_lawful hB0)))

/-- Settles O11: every event and every command meets in its own step what it makes due, bay by bay. -/
theorem nothingIsLeftDue : Obligations.NothingIsLeftDue := by
  have hleads : Leads (fun s => BaysLawful s ∧ CarriersDistinct s ∧ Settled s) Settled :=
    { stays := fun h => h.2.2
      elapse := fun ⟨hB, hc, hs⟩ => ⟨elapse_lawful hB, elapse_distinct hc, elapse_settled hs⟩
      frame := fun _ h => h.setFields ⟨rfl, rfl, rfl⟩ rfl rfl rfl
      por := fun _ => porState_settled
      resetEnd := fun a b d e hr ⟨hB, _, hs⟩ => resetEnd_settled hs hB hr
      event := fun c hrst ⟨hB, hc, hs⟩ => event_settled c hrst hB hc hs
      reply := fun c n f hf _ ⟨hB, hc, hs⟩ =>
        command_keeps hf hs id
          (fun t hr hhr hh hhold hA hB' => hs.setFields ⟨hr, hhr, hh⟩ hhold hA hB')
          (fun b => eject_settled hs hc) (fun b => cancelEject_settled hs)
          (fun k b => retryBay_settled hs hB) (fun b => forget_settled hs)
          (fun b => forceReplay_settled hs hc) (fun n d => discardHeld_settled hs hc) }
  intro s t hB hc hs
  exact hleads.step (fun rest ⟨hB, hc, hs⟩ => ⟨setFields_lawful hB rfl rfl, hc,
    hs.setFields ⟨rfl, rfl, rfl⟩ rfl rfl rfl⟩) s t ⟨hB, hc, hs⟩

end Sys2Proof.Machine
end

section
/-! PROOFS. The queues and the hold store go on agreeing with the carriers that serve, through every step
(R58, R61, R67, R98, R133, R134). -/

namespace Sys2Proof.Machine

/-! ### Settling -/

/-- A write that waits for queue space waits at an unlocked bay, where it still can (R40). -/
def SpaceUnlocked (s : State) : Prop :=
  ∀ a, s.host = .diverted a .space → (s.bay a.copy.bay).state.serving →
    (s.bay a.copy.bay).mount.locked = false

/-- The carriers that serve are two. -/
def ServingApart (b : BayId) (s : State) : Prop :=
  (s.bay b).state.serving → (s.bay (otherBay b)).state.serving →
    (s.bay b).mount.serial ≠ (s.bay (otherBay b)).mount.serial

theorem identified_of_serving {x : Bay} (h : x.state.serving) : x.identified := by
  simp [Bay.identified, h]

theorem CarriersDistinct.servingApart {s : State} (h : CarriersDistinct s) (b : BayId) :
    ServingApart b s := fun hb ho =>
  (carriersDistinct_iff b).1 h (identified_of_serving hb) (identified_of_serving ho)

variable {b : BayId} {s t : State}

/-- A locked bay has an empty queue, so a write that waits at a full one waits at no locked bay. -/
theorem MountsAgree.spaceUnlocked (h : MountsAgree s)
    (ha : ∀ a, s.host = .diverted a .space → Wait.space.agrees a (s.bay a.copy.bay)) :
    SpaceUnlocked s := by
  intro a hh hs
  have hag := ha a hh
  cases hl : (s.bay a.copy.bay).mount.locked with
  | false => rfl
  | true =>
    have hq := (h.locked _ hs hl).2
    simp [Wait.agrees, hq, queueCapacity] at hag

theorem SpaceUnlocked.mono (h : SpaceUnlocked s)
    (hh : ∀ a, t.host = .diverted a .space → s.host = .diverted a .space)
    (hb : ∀ c, (t.bay c).state.serving →
      (s.bay c).state.serving ∧ (t.bay c).mount.locked = (s.bay c).mount.locked) : SpaceUnlocked t :=
  fun a ha hs => by
    obtain ⟨hs', hl⟩ := hb _ hs
    rw [hl]
    exact h a (hh a ha) hs'

theorem replayWork_mount (b : BayId) (s : State) :
    ((replayWork b s).bay b).mount.serial = (s.bay b).mount.serial ∧
      ((replayWork b s).bay b).mount.locked = (s.bay b).mount.locked ∧
      (((replayWork b s).bay b).state.serving → (s.bay b).state.serving) := by
  unfold replayWork
  split
  next hs =>
    have hm := replayMoves_bay b s
    unfold replayEnd
    dsimp only
    repeat' split
    all_goals simp [hm, hs, Bay.enter, BayState.serving]
  · exact ⟨rfl, rfl, id⟩

theorem afterWork_mount (b : BayId) (s : State) :
    ((afterWork b s).bay b).mount.serial = (s.bay b).mount.serial ∧
      ((afterWork b s).bay b).mount.locked = (s.bay b).mount.locked ∧
      (((afterWork b s).bay b).state.serving → (s.bay b).state.serving) := by
  have hw := replayWork_mount b s
  obtain ⟨-, e⟩ | ⟨-, -, e⟩ := drainEnd_cases b (replayWork b s) <;> rw [afterWork, e]
  · exact hw
  · simpa [BayState.serving] using ⟨hw.1, hw.2.1⟩

theorem afterWork_mountsAgree (h : MountsAgree s) (hO : InOrder s) (hc : ServingApart b s) :
    MountsAgree (afterWork b s) := by
  refine (h.replayWork hO).drainEnd fun hb ho => ?_
  obtain ⟨hser, -, hst⟩ := replayWork_mount b s
  rw [hser, replayWork_bay_other]
  exact hc (hst hb) (by rwa [replayWork_bay_other] at ho)

theorem afterWork_inOrder (hO : InOrder s) : InOrder (afterWork b s) := by
  have k := inOrder_keptByAccount
  have hr : InOrder (replayWork b s) := by
    unfold replayWork
    split
    · exact k.replayEnd (k.replayMoves b hO)
    · exact hO
  obtain ⟨-, e⟩ | ⟨-, -, e⟩ := drainEnd_cases b (replayWork b s) <;> rw [afterWork, e]
  · exact hr
  · exact k.latch (k.leaveServing hr)

theorem MountsAgree.settle (h : MountsAgree s) (hO : InOrder s) (hB : BaysLawful s)
    (hc : ServingApart b s) (hl : SpaceUnlocked s) : MountsAgree (settle b s) := by
  rw [settle_eq]
  refine ((afterWork_mountsAgree h hO hc).meetHost (afterWork_inOrder hO)
    (drainEnd_lawful (replayWork_lawful hB)) (hl.mono (fun a ha => by simpa using ha) fun c hs => ?_)).grantLink
  obtain rfl | rfl := eq_or_eq_otherBay b c
  · obtain ⟨-, hlock, hst⟩ := afterWork_mount c s
    exact ⟨hst hs, hlock⟩
  · rw [afterWork_bay_other] at *
    exact ⟨hs, rfl⟩

/-- Settling a bay at which nobody waits, but for the fate of an accepted write. -/
theorem MountsAgree.settle_unmet (h : MountsAgree s) (hO : InOrder s) (hc : ServingApart b s)
    (hw : NothingStalled b s) : MountsAgree (Machine.settle b s) := by
  rw [settle_eq, meetHost_of_agrees fun a w ha => ?_]
  · exact (afterWork_mountsAgree h hO hc).grantLink
  · have hn := hw a w (by simpa using ha)
    obtain hb | hb := eq_or_eq_otherBay b a.copy.bay
    · rw [if_pos hb] at hn
      obtain ⟨num, rfl⟩ := hn
      rfl
    · rw [if_neg (by rw [hb]; simp)] at hn
      rw [hb] at hn ⊢
      rwa [afterWork_bay_other]

/-! ### What a step starts from -/

/-- The states in which the second law of the bays is kept (R58, R133, R134). -/
structure Sound (s : State) : Prop where
  order : InOrder s
  bays : BaysLawful s
  carriers : CarriersDistinct s
  settled : Settled s
  mounts : MountsAgree s

theorem Sound.spaceUnlocked (h : Sound s) : SpaceUnlocked s :=
  h.mounts.spaceUnlocked fun a ha => (h.settled.host a _ ha).2

/-- A bay with an entry in its queue is mounted unlocked. -/
theorem Sound.unlocked_of_queue (h : Sound s) (hs : (s.bay b).state.serving)
    (hq : (s.bay b).queue ≠ []) : (s.bay b).mount.locked = false := by
  cases hl : (s.bay b).mount.locked with
  | false => rfl
  | true => exact absurd (h.mounts.locked b hs hl).2 hq

/-- A stopped bay stays stopped, or only its timers, its contacts and its mount record change. -/
theorem MountsAgree.stopped (h : MountsAgree s) (hx : (s.bay b).queue = [])
    (hy : (t.bay b).state.serving = false) (hq : (t.bay b).queue = (s.bay b).queue)
    (hc : (t.bay b).lossCount = (s.bay b).lossCount) (hl : (t.bay b).last = (s.bay b).last)
    (ho : t.bay (otherBay b) = s.bay (otherBay b)) (hh : t.hold = s.hold) : MountsAgree t :=
  h.out (b := b) hy (hq.trans hx) (hc.trans_le (h.count b)) hl ho
    fun _ he => .inl (HoldEntry.drawn_of_mem (hh ▸ he))

/-- Only timers, flags and contacts of a bay change. -/
theorem MountsAgree.modBay_idle {f : Bay → Bay} (h : MountsAgree s)
    (hf : (f (s.bay b)).state = (s.bay b).state ∧ (f (s.bay b)).mount = (s.bay b).mount ∧
      (f (s.bay b)).lossCount = (s.bay b).lossCount ∧ (f (s.bay b)).queue = (s.bay b).queue ∧
      (f (s.bay b)).last = (s.bay b).last) : MountsAgree (Machine.modBay b f s) := by
  obtain ⟨hs, hm, hr⟩ := hf
  exact h.reState (.inl hs) (by rw [hm]; exact ⟨rfl, rfl, rfl⟩) hr

/-! ### The host port and the link -/

theorem classify_mountsAgree (c : HostCycle) (h : Sound s) : MountsAgree (classify c s) := by
  unfold classify
  repeat' split
  · unfold beginMain
    dsimp only
    split <;> exact h.mounts.setHost
  · exact (h.mounts.handleAccess h.order h.bays).grantLink
  · exact h.mounts

theorem hrstEffect_mountsAgree (l : Bool) (h : MountsAgree s) : MountsAgree (hrstEffect l s) := by
  unfold hrstEffect
  split
  · refine MountsAgree.congr (s := hostReset s) ?_ (fun c => State.bay_mk ..) rfl
    unfold hostReset
    split
    case h_1 | h_2 => exact h.setHost
    all_goals exact h.abandonAccess
  · exact h.congr (fun c => State.bay_mk ..) rfl

theorem stallExpiry_mountsAgree (h : MountsAgree s) : MountsAgree (stallExpiry s) := by
  unfold stallExpiry
  repeat' split
  all_goals first
    | exact h
    | exact h.clearThrough.releaseError
    | exact h.abandonRead.releaseError.grantLink
    | exact h.releaseError

theorem commitHead_mountsAgree (h : Sound s) : MountsAgree (commitHead b s) := by
  have k := inOrder_keptByAccount
  unfold commitHead
  dsimp only
  split
  swap
  · exact h.mounts
  next e es hw hq =>
  split
  swap
  · exact h.mounts
  have hcommit : ∀ c, State.bay { s with committed := s.committed + 1 } c = s.bay c := fun c =>
    State.bay_mk ..
  have hmount : MountsAgree (modBay b (fun x => { x with lossCount := 0 })
      (dropHead b { s with committed := s.committed + 1 })) :=
    ((h.mounts.congr hcommit rfl).dropHead).modBay
      ⟨.inl rfl, rfl, rfl, rfl, Nat.zero_le _, List.Sublist.refl _⟩ rfl
  have horder : InOrder (modBay b (fun x => { x with lossCount := 0 })
      (dropHead b { s with committed := s.committed + 1 })) :=
    k.modBay (by simp) (k.commit b (by simp [hq]) h.order)
  have hlaw : BaysLawful (modBay b (fun x => { x with lossCount := 0 })
      (dropHead b { s with committed := s.committed + 1 })) := by
    have hdrop : BaysLawful (dropHead b { s with committed := s.committed + 1 }) :=
      dropHead_lawful (setFields_lawful h.bays rfl rfl)
    exact hdrop.modBay (hdrop b).setLossCount
  have hsettle : ∀ u : State, MountsAgree u → InOrder u → BaysLawful u →
      (∀ a, u.host = .diverted a .space → s.host = .diverted a .space) →
      (∀ c, u.bay c = (modBay b (fun x => { x with lossCount := 0 })
        (dropHead b { s with committed := s.committed + 1 })).bay c) →
      MountsAgree (markAck b (settle b u)) := by
    intro u hu hO hB hh hb
    have hsame : ∀ c, (u.bay c).state = (s.bay c).state ∧ (u.bay c).mount = (s.bay c).mount := by
      intro c
      rw [hb]
      obtain rfl | rfl := eq_or_eq_otherBay b c <;> simp
    refine (hu.settle hO hB (fun h1 h2 => ?_) (h.spaceUnlocked.mono hh fun c => ?_)).markAck
    · rw [(hsame _).1] at h1 h2
      rw [(hsame _).2, (hsame _).2]
      exact h.carriers.servingApart b h1 h2
    · rw [(hsame c).1, (hsame c).2]
      exact fun hs => ⟨hs, rfl⟩
  split
  · refine hsettle _ hmount.releaseThrough (k.releaseThrough horder) (releaseThrough_lawful.2 hlaw)
      (fun a ha => ?_) fun c => by simp
    obtain hs | ⟨-, _, _, hs⟩ := fateMet_releaseThrough none (modBay b (fun x => { x with lossCount := 0 })
      (dropHead b { s with committed := s.committed + 1 }))
    · rw [hs] at ha
      simpa using ha
    · rw [hs] at ha
      cases ha
  · exact hsettle _ hmount horder hlaw (fun a ha => by simpa using ha) fun c => rfl

theorem reject_mountsAgree {c : MountCause} (h : MountsAgree s) (hB : BaysLawful s)
    (hx : (s.bay b).state.serving = false) : MountsAgree (reject b c s) :=
  h.stopped (b := b) ((hB b).queue hx) (by simp [BayState.serving]) (by simp) (by simp) (by simp) (by simp) (by simp)

/-- A host that waits for space in this state waited for it before. -/
theorem FateMet.space (h : FateMet s t) {a : Access} (ha : t.host = .diverted a .space) :
    s.host = .diverted a .space := by
  obtain e | ⟨-, _, _, ht⟩ := h
  · rwa [e] at ha
  · rw [ht] at ha; cases ha

theorem loseHead_state (b c : BayId) (e : QEntry) (s : State)
    (hs : ((loseHead b e s).bay c).state.serving) :
    ((loseHead b e s).bay c).state = (s.bay c).state ∧
      ((loseHead b e s).bay c).mount = (s.bay c).mount := by
  unfold loseHead checkThreshold at *
  obtain rfl | rfl := eq_or_eq_otherBay b c
  · split at hs
    · simp [BayState.serving] at hs
    next hc => rw [if_neg hc]; simp
  · split <;> simp

theorem failAttempt_mountsAgree (h : Sound s) : MountsAgree (failAttempt b s) := by
  have k := inOrder_keptByAccount
  unfold failAttempt
  split
  next kind tr hl =>
    split
    swap
    · exact h.mounts
    split
    · exact h.mounts.setLink
    · have hallowed := (h.bays b).link
      rw [hl] at hallowed
      unfold failTransfer
      split
      · split
        next e es hq =>
          have hs : (s.bay b).state.serving := hallowed
          have hm := h.mounts.loseHead (e := e) hs (h.unlocked_of_queue hs (by simp [hq]))
            (h.carriers.servingApart b hs)
          have hfate : FateMet s (loseHead b e s) :=
            (fateMet_countLoss b e s).trans (fateMet_checkThreshold b _)
          refine hm.settle ?_ (loseHead_lawful h.bays hs) (fun h1 h2 => ?_)
            (h.spaceUnlocked.mono (fun a => hfate.space) fun c hc => ?_)
          · unfold loseHead checkThreshold
            have hO := k.countLoss b e (by simp [hq]) h.order
            split
            · exact k.latch (k.leaveServing hO)
            · exact hO
          · obtain ⟨e1, e2⟩ := loseHead_state b _ e s h1
            obtain ⟨e3, e4⟩ := loseHead_state b _ e s h2
            rw [e2, e4]
            exact h.carriers.servingApart b (e1 ▸ h1) (e3 ▸ h2)
          · obtain ⟨e1, e2⟩ := loseHead_state b c e s hc
            exact ⟨e1 ▸ hc, by rw [e2]⟩
        · exact h.mounts
      · split
        · split
          · exact h.mounts.freeLink.releaseError.grantLink
          · exact h.mounts
        · exact h.mounts
      · have hx : (s.bay b).state.serving = false := by
          simp only [Link.allowed, beq_iff_eq] at hallowed
          rw [hallowed]
          rfl
        split
        · exact reject_mountsAgree h.mounts h.bays hx
        · exact h.mounts
  all_goals exact h.mounts

theorem readAnswer_mountsAgree {d : Half} (h : MountsAgree s) : MountsAgree (readAnswer b d s) := by
  unfold readAnswer
  repeat' split
  · have hf : MountsAgree { s with free := s.free + 1 } := h.congr (fun c => State.bay_mk ..) rfl
    exact hf.freeLink.releaseOk.grantLink
  all_goals exact h

theorem abandonedEnd_mountsAgree (h : MountsAgree s) : MountsAgree (abandonedEnd b s) := by
  unfold abandonedEnd
  split
  · exact h.freeLink.grantLink
  all_goals exact h

/-! ### Mounting -/

/-- At a stopped bay nobody waits, but for the fate of an accepted write (R48). -/
theorem Settled.nothingStalled (hs : Settled s) (hx : (s.bay b).state.serving = false) :
    NothingStalled b s := by
  intro a w ha
  have hag := (hs.host a w ha).2
  split
  next hb =>
    rw [hb] at hag
    exact fate_of_agrees hag hx
  · exact hag

theorem NothingStalled.congr (h : NothingStalled b s) (hh : t.host = s.host)
    (ho : (s.bay (otherBay b)).Same (t.bay (otherBay b))) : NothingStalled b t := by
  intro a w ha
  have hn := h a w (hh ▸ ha)
  split
  next hb => rwa [if_pos hb] at hn
  next hb =>
    rw [if_neg hb] at hn
    have hb' := (eq_or_eq_otherBay b a.copy.bay).resolve_left hb
    rw [hb'] at hn ⊢
    rwa [ho.agrees]

/-- The state in which a mount is complete, before its step settles (R95). -/
def mounted (b : BayId) (v : Verdict) (s : State) : State :=
  setLatch (.bay b .identified)
    (modBay b
      (fun x => (x.dropLink.endMount).enter (if v = Verdict.resume then .replay else .ready) .none) s)

theorem completeMount_eq (b : BayId) (v : Verdict) (s : State) :
    completeMount b v s = settle b (mounted b v s) := rfl

@[simp] theorem mounted_bay (b : BayId) (v : Verdict) (s : State) :
    (mounted b v s).bay b =
      (((s.bay b).dropLink.endMount).enter (if v = Verdict.resume then .replay else .ready) .none) := by
  simp [mounted]

@[simp] theorem mounted_bay_other (b : BayId) (v : Verdict) (s : State) :
    (mounted b v s).bay (otherBay b) = s.bay (otherBay b) := by simp [mounted]

@[simp] theorem mounted_hold (b : BayId) (v : Verdict) (s : State) : (mounted b v s).hold = s.hold := by
  simp [mounted]

theorem completeMount_mountsAgree {v : Verdict} (h : Sound s) (hx : (s.bay b).state.serving = false)
    (hm : MountsAgree (mounted b v t)) (hO : InOrder t) (hh : t.host = s.host)
    (ho : (s.bay (otherBay b)).Same (t.bay (otherBay b)))
    (hserial : (s.bay (otherBay b)).identified →
      (t.bay b).mount.serial ≠ (s.bay (otherBay b)).mount.serial) :
    MountsAgree (completeMount b v t) := by
  have k := inOrder_keptByAccount
  rw [completeMount_eq]
  refine hm.settle_unmet (k.latch (k.modBay (by simp) hO)) (fun _ h2 => ?_)
    ((h.settled.nothingStalled hx).congr (by simpa [mounted] using hh) (by simpa using ho))
  rw [mounted_bay_other] at h2 ⊢
  rw [ho.state] at h2
  simpa [ho.mount] using hserial (identified_of_serving h2)

theorem checkDescriptor_mountsAgree {i : Ident} (h : Sound s) (hx : (s.bay b).state = .identifying)
    (hm : MountsAgree t) (hO : InOrder t) (hB : BaysLawful t) (hh : t.host = s.host)
    (hst : (t.bay b).state = .identifying) (ho : t.bay (otherBay b) = s.bay (otherBay b)) :
    MountsAgree (checkDescriptor b i t) := by
  have hx' : (s.bay b).state.serving = false := by rw [hx]; rfl
  have hst' : (t.bay b).state.serving = false := by rw [hst]; rfl
  have hq := (hB b).queue hst'
  have k := inOrder_keptByAccount
  unfold checkDescriptor
  split
  · exact reject_mountsAgree hm hB hst'
  dsimp only
  have hnamed : MountsAgree (modBay b (fun x => { x with mount := { x.mount with
      serial := some (descSerial i.halves), capacity := some (descCapacity i.halves) } }) t) :=
    hm.stopped (b := b) hq (by simpa using hst') (by simp) (by simp) (by simp) (by simp) (by simp)
  split
  · exact hm.stopped (b := b) hq (by simp [BayState.serving]) (by simp) (by simp) (by simp) (by simp) (by simp)
  next hconflict =>
    have hn : (s.bay (otherBay b)).identified →
        (s.bay (otherBay b)).mount.serial ≠ some (descSerial i.halves) := by
      intro hid hserial
      rw [modBay_bay_other, ho] at hconflict
      simp [hid, hserial] at hconflict
    split
    · refine completeMount_mountsAgree h hx' ?_ (k.modBay (by simp) (k.modBay (by simp) hO))
        (by simpa using hh) (.of_eq (by simpa using ho)) fun hid => by simpa using (hn hid).symm
      refine hm.boundLocked (b := b) (by simp) (by simp) (by simpa using hq) (by simp) (by simp)
        (fun r hr hs => ?_) (by simp)
      simp only [mounted_bay, Bay.enter_frame, Bay.endMount_frame, Bay.dropLink_frame, modBay_bay] at hr
      cases hr
      rw [ho] at hs ⊢
      exact hn (identified_of_serving hs)
    · unfold beginBinding
      refine MountsAgree.grantLink (MountsAgree.stopped (b := b)
        (hnamed.judgeHold (b := b) (n := descSerial i.halves) (t := slotStamp i.halves)) ?_ ?_ ?_ ?_ ?_ ?_ ?_)
      all_goals simp [hst, hq, BayState.serving]

theorem descriptorAnswer_mountsAgree {d : Half} {l : Bool} (h : Sound s) :
    MountsAgree (descriptorAnswer b d l s) := by
  have k := inOrder_keptByAccount
  unfold descriptorAnswer
  dsimp only
  split
  swap
  · exact h.mounts
  next tr halves hx hl hi =>
  split
  swap
  · exact h.mounts
  have hkept : MountsAgree (modBay b (fun x => { x with ident := some ⟨halves ++ [d], none⟩ }) s) :=
    h.mounts.modBay_idle ⟨rfl, rfl, rfl, rfl, rfl⟩
  have hlaw : BaysLawful (modBay b (fun x => { x with ident := some ⟨halves ++ [d], none⟩ }) s) :=
    h.bays.modBay ((h.bays b).setIdent hx rfl)
  split
  · exact hkept.freeLink.grantLink
  · exact checkDescriptor_mountsAgree h hx (hkept.modBay_idle ⟨rfl, rfl, rfl, rfl, rfl⟩)
      (k.modBay (by simp) (k.modBay (by simp) h.order)) (sampleLock_lawful hlaw) (by simp [sampleLock])
      (by simpa [sampleLock] using hx) (by simp [sampleLock])

/-- The part when a binding has been answered, before its mount is complete (R94). -/
def boundState (b : BayId) (i : Ident) (w : Binding) (s : State) : State :=
  let n := descSerial i.halves
  let judged := judgeHold b n (slotStamp i.halves) s
  modBay (otherBay b) (fun y => { y with last := y.last.filter fun r => decide (r.serial ≠ n) })
    (modBay b
      (fun x => { x with
        mount := { x.mount with stamp := some w.stamp, locked := false, verdict := verdictOn n judged.hold }
        lossCount := 0
        last := some ⟨n, descCapacity i.halves, .bound w.stamp⟩ })
      { judged with hold := restamp n w.stamp judged.hold })

/-- The verdict on the hold store as it is judged when a binding has been answered (R94). -/
def boundVerdict (b : BayId) (i : Ident) (s : State) : Verdict :=
  verdictOn (descSerial i.halves) (judgeHold b (descSerial i.halves) (slotStamp i.halves) s).hold

theorem completeBinding_eq (b : BayId) (i : Ident) (w : Binding) (s : State) :
    completeBinding b i w s = completeMount b (boundVerdict b i s) (boundState b i w s) := rfl

theorem boundState_bay (b : BayId) (i : Ident) (w : Binding) (s : State) :
    (boundState b i w s).bay b =
      { s.bay b with
        mount := { (s.bay b).mount with
          stamp := some w.stamp, locked := false, verdict := boundVerdict b i s }
        lossCount := 0
        last := some ⟨descSerial i.halves, descCapacity i.halves, .bound w.stamp⟩ } := by
  unfold boundState
  rw [modBay_bay_ne _ _ (ne_otherBay b), modBay_bay, judgeHold_setHold_bay]
  rfl

theorem boundState_bay_other (b : BayId) (i : Ident) (w : Binding) (s : State) :
    (boundState b i w s).bay (otherBay b) =
      { s.bay (otherBay b) with
        last := (s.bay (otherBay b)).last.filter fun r => decide (r.serial ≠ descSerial i.halves) } := by
  unfold boundState
  rw [modBay_bay, modBay_bay_other, judgeHold_setHold_bay]

theorem boundState_hold (b : BayId) (i : Ident) (w : Binding) (s : State) :
    (boundState b i w s).hold = restamp (descSerial i.halves) w.stamp
      (judgeHold b (descSerial i.halves) (slotStamp i.halves) s).hold := by
  simp [boundState]

/-- Without the verdict RESUME no entry of the serial is left to replay (R90, R94). -/
theorem not_eligible_of_verdict {n : Serial} {t : Stamp} {m : MountRecord} {l : List HoldEntry}
    (hm : m.serial = some n) (hv : verdictOn n l ≠ .resume) : (restamp n t l).any (eligible m) = false := by
  have hnone : l.any (fun e => decide (e.write.serial = n) && !e.stale) = false := by
    cases h : l.any fun e => decide (e.write.serial = n) && !e.stale with
    | false => rfl
    | true => exact absurd (by simp [verdictOn, h]) hv
  rw [List.any_eq_false] at hnone ⊢
  intro e he hel
  obtain ⟨d, hd, rfl⟩ := List.mem_map.1 he
  have hd' := hnone d hd
  simp only [Bool.and_eq_true, decide_eq_true_eq, Bool.not_eq_true'] at hd'
  rw [if_neg (by simpa using hd')] at hel
  refine hd' ⟨?_, ?_⟩
  · have hs := serial_of_eligible hel
    rw [hm] at hs
    exact (Option.some.inj hs).symm
  · simp only [eligible, Bool.and_eq_true, Bool.not_eq_true'] at hel
    exact hel.1.1

theorem completeBinding_mountsAgree {i : Ident} {w : Binding} (h : Sound s)
    (hx : (s.bay b).state = .identifying) (hi : (s.bay b).ident = some i) (hw : i.binding.isSome) :
    MountsAgree (completeBinding b i w s) := by
  have k := inOrder_keptByAccount
  have hx' : (s.bay b).state.serving = false := by rw [hx]; rfl
  have hid : (s.bay b).identified := by
    obtain ⟨w', hw'⟩ := Option.isSome_iff_exists.1 hw
    simp [Bay.identified, hx, hi, hw']
  have hserial := ((h.bays b).binding _ hi hw).1
  have hn : (s.bay (otherBay b)).identified →
      (s.bay (otherBay b)).mount.serial ≠ some (descSerial i.halves) := by
    intro ho
    rw [← hserial]
    exact ((carriersDistinct_iff b).1 h.carriers hid ho).symm
  have hother : (s.bay (otherBay b)).Same ((boundState b i w s).bay (otherBay b)) := by
    rw [boundState_bay_other]
    exact ⟨rfl, rfl, rfl, rfl, rfl, .rfl⟩
  have hrestamp : InOrder { judgeHold b (descSerial i.halves) (slotStamp i.halves) s with
      hold := restamp (descSerial i.halves) w.stamp
        (judgeHold b (descSerial i.halves) (slotStamp i.halves) s).hold } :=
    k.holdMap _ (fun e => by split <;> rfl) (k.judgeHold h.order)
  have horder : InOrder (boundState b i w s) := by
    unfold boundState
    exact k.modBay (fun _ => rfl) (k.modBay (fun _ => rfl) hrestamp)
  rw [completeBinding_eq]
  refine completeMount_mountsAgree h hx' ?_ horder (by simp [boundState]) hother fun ho => ?_
  · refine h.mounts.bound (b := b) (n := descSerial i.halves) ?_ ?_ ?_ ?_ ?_ ?_ ?_ ?_ ?_ ?_
    · rw [mounted_bay, mounted_hold, boundState_hold, Bay.enter_state]
      by_cases hv : boundVerdict b i s = .resume
      · exact .inl (if_pos hv)
      · exact .inr ⟨if_neg hv, not_eligible_of_verdict (by simpa [boundState_bay] using hserial) hv⟩
    · simp [boundState_bay]
    · simpa [boundState_bay] using (h.bays b).queue hx'
    · simp [boundState_bay]
    · simpa [boundState_bay] using hserial
    · rw [mounted_bay_other, boundState_bay_other]
      exact ⟨.inl rfl, rfl, rfl, rfl, Nat.le_refl _, List.Sublist.refl _⟩
    · intro r hr
      rw [mounted_bay_other, boundState_bay_other] at hr
      simpa using (Option.filter_eq_some_iff.1 hr).2
    · intro r hr
      rw [mounted_bay, boundState_bay] at hr
      cases hr
      rfl
    · exact fun ho => hn (identified_of_serving ho)
    · intro e he
      rw [mounted_hold, boundState_hold] at he
      obtain ⟨d, hd, rfl⟩ := List.mem_map.1 he
      dsimp only
      split
      next hc =>
        simp only [Bool.and_eq_true, decide_eq_true_eq] at hc
        exact .inr hc.1
      · rw [judgeHold_hold] at hd
        obtain ⟨f, hf, rfl⟩ := List.mem_map.1 hd
        refine .inl ⟨f, hf, ?_⟩
        split
        · exact ⟨rfl, by simp⟩
        · exact ⟨rfl, id⟩
  · rw [boundState_bay]
    exact hserial ▸ (hn ho).symm

theorem bindingAnswer_mountsAgree (h : Sound s) : MountsAgree (bindingAnswer b s) := by
  unfold bindingAnswer
  dsimp only
  split
  swap
  · exact h.mounts
  next tr halves w hx hl hi =>
  split
  · exact h.mounts
  split
  · exact (h.mounts.modBay_idle ⟨rfl, rfl, rfl, rfl, rfl⟩).grantLink
  · exact completeBinding_mountsAgree h hx hi rfl

theorem keyRead_mountsAgree (h : MountsAgree s) (hB : BaysLawful s)
    (hx : (s.bay b).state.serving = false) : MountsAgree (keyRead b s) := by
  have hq := (hB b).queue hx
  unfold keyRead
  dsimp only
  split
  · unfold enterPowering
    dsimp only
    split
    · refine MountsAgree.grantLink (h.stopped (b := b) hq ?_ ?_ ?_ ?_ ?_ ?_) <;> simp [BayState.serving]
    · refine h.stopped (b := b) hq ?_ ?_ ?_ ?_ ?_ ?_ <;> simp [BayState.serving]
  · refine h.stopped (b := b) hq ?_ ?_ ?_ ?_ ?_ ?_ <;> simp [BayState.serving]

/-! ### Detection, power and removal -/

theorem sample_mountsAgree (h : MountsAgree s) (b : BayId) (k : KeySample) (c : DetContact) (l : Bool) :
    MountsAgree (sampleDetect b l s) ∧ MountsAgree (breakDetect b c s) ∧ MountsAgree (sampleKeys b k s) ∧
      MountsAgree (samplePower b l s) :=
  ⟨h.modBay_idle ⟨rfl, rfl, rfl, rfl, rfl⟩, h.modBay_idle ⟨rfl, rfl, rfl, rfl, rfl⟩,
    h.modBay_idle ⟨rfl, rfl, rfl, rfl, rfl⟩, h.modBay_idle ⟨rfl, rfl, rfl, rfl, rfl⟩⟩

theorem detectSample_mountsAgree (h : MountsAgree s) (hB : BaysLawful s) :
    MountsAgree (detectSample b s) := by
  unfold detectSample
  dsimp only
  split
  next hx =>
    simp only [Bool.and_eq_true, decide_eq_true_eq] at hx
    refine h.stopped (b := b) ((hB b).queue (by rw [hx.1.1]; rfl)) ?_ ?_ ?_ ?_ ?_ ?_ <;> simp [BayState.serving]
  · exact h

theorem sampleDetect_mountsAgree {m : Bool} (h : MountsAgree s) : MountsAgree (sampleDetect b m s) :=
  h.modBay_idle ⟨rfl, rfl, rfl, rfl, rfl⟩

theorem leaveServing_latched_mountsAgree {st : BayState} {c : MountCause} {l : List Latch} (h : Sound s)
    (hs : (s.bay b).state.serving) (hst : st.serving = false)
    (hlaw : BaysLawful (leaveServing b st c s)) :
    MountsAgree (settle b (l.foldr setLatch (leaveServing b st c s))) := by
  have k := inOrder_keptByAccount
  have hlatch : ∀ (P : State → Prop), (∀ x u, P u → P (setLatch x u)) → P (leaveServing b st c s) →
      P (l.foldr setLatch (leaveServing b st c s)) := by
    intro P hP h0
    induction l with
    | nil => exact h0
    | cons x xs ih => exact hP x _ ih
  refine MountsAgree.settle (hlatch _ (fun _ _ => MountsAgree.latch) ?_) (hlatch _ (fun _ _ => k.latch) ?_)
    (hlatch _ (fun _ _ => setLatch_lawful.2) hlaw) ?_ ?_
  · exact h.mounts.leaveServing hst (h.carriers.servingApart b hs)
  · exact k.leaveServing h.order
  · refine hlatch (ServingApart b) (fun x u hu => by simpa [ServingApart] using hu) fun h1 => ?_
    simp [hst] at h1
  · refine hlatch SpaceUnlocked (fun x u hu => by simpa [SpaceUnlocked] using hu)
      (h.spaceUnlocked.mono (fun a => (fateMet_leaveServing b st c s).space) fun d hd => ?_)
    obtain rfl | rfl := eq_or_eq_otherBay b d
    · simp [hst] at hd
    · simpa using hd

theorem powerLoss_mountsAgree (h : Sound s) : MountsAgree (powerLoss b s) := by
  have k := inOrder_keptByAccount
  have hsound : Sound (samplePower b false s) :=
    ⟨k.modBay (fun _ => rfl) h.order, samplePower_lawful h.bays,
      h.carriers.kept (carriersKept_sample rfl rfl rfl), samplePower_settled b false h.settled,
      (sample_mountsAgree h.mounts b ⟨false, false, false⟩ .det1 false).2.2.2⟩
  have hbay : ((samplePower b false s).bay b).state = (s.bay b).state := by simp [samplePower]
  unfold powerLoss
  dsimp only
  split
  next hs =>
    exact leaveServing_latched_mountsAgree (l := [.bay b .faulted]) hsound (by rwa [hbay]) rfl
      (leaveServing_lawful hsound.bays (by rwa [hbay]) ⟨rfl, by simp⟩ rfl)
  · split
    next hx =>
      refine hsound.mounts.stopped (b := b) ((hsound.bays b).queue (by rw [hbay, hx]; rfl)) ?_ ?_ ?_ ?_ ?_ ?_ <;>
        simp [BayState.serving]
    · exact h.mounts

theorem Sound.breakDetect (h : Sound s) (b : BayId) (c : DetContact) : Sound (breakDetect b c s) :=
  ⟨inOrder_keptByAccount.modBay (fun _ => rfl) h.order, breakDetect_lawful h.bays,
    h.carriers.kept (carriersKept_sample rfl rfl rfl), breakDetect_settled b c h.settled,
    (sample_mountsAgree h.mounts b ⟨false, false, false⟩ c false).2.1⟩

theorem breakDetect_state (b : BayId) (c : DetContact) (s : State) :
    ((breakDetect b c s).bay b).state = (s.bay b).state := by simp [breakDetect]

theorem removeServing_mountsAgree {c : DetContact} (h : Sound s) : MountsAgree (removeServing b c s) := by
  have hsound := h.breakDetect b c
  unfold removeServing
  split
  next hs =>
    exact leaveServing_latched_mountsAgree (l := [.bay b .removed]) hsound (by rwa [breakDetect_state]) rfl
      (leaveServing_lawful hsound.bays (by rwa [breakDetect_state]) ⟨rfl, by simp⟩ rfl)
  · exact h.mounts

theorem drainTimeout_mountsAgree (h : Sound s) : MountsAgree (drainTimeout b s) := by
  unfold drainTimeout
  split
  next hs =>
    have hserving : (s.bay b).state.serving := by rw [hs.1]; rfl
    exact leaveServing_latched_mountsAgree (l := [.bay b .drainTimeout, .bay b .ejectDone]) h hserving rfl
      (leaveServing_lawful h.bays hserving ⟨rfl, by simp⟩ rfl)
  · exact h.mounts

theorem debounceBreak_mountsAgree {c : DetContact} (h : Sound s) : MountsAgree (debounceBreak b c s) := by
  unfold debounceBreak
  split
  next hx =>
    refine h.mounts.stopped (b := b) ((h.bays b).queue (by rw [hx]; rfl)) ?_ ?_ ?_ ?_ ?_ ?_ <;>
      simp [BayState.serving, breakDetect]
  · exact h.mounts

theorem removeMounting_mountsAgree {c : DetContact} (h : Sound s) : MountsAgree (removeMounting b c s) := by
  unfold removeMounting
  split
  next hx =>
    have hstopped : (s.bay b).state.serving = false := by
      obtain e | e := hx <;> rw [e] <;> rfl
    refine h.mounts.stopped (b := b) ((h.bays b).queue hstopped) ?_ ?_ ?_ ?_ ?_ ?_ <;>
      simp [BayState.serving, breakDetect]
  · exact h.mounts

theorem removeStopped_mountsAgree {c : DetContact} (h : Sound s) : MountsAgree (removeStopped b c s) := by
  unfold removeStopped
  split
  next hx =>
    have hstopped : (s.bay b).state.serving = false := by
      cases e : (s.bay b).state <;> rw [e] at hx <;> first | rfl | cases hx
    refine h.mounts.stopped (b := b) ((h.bays b).queue hstopped) ?_ ?_ ?_ ?_ ?_ ?_ <;>
      simp [BayState.serving, breakDetect]
  · exact h.mounts

theorem event_mountsAgree (c : Instr) (h : Sound s) : MountsAgree (event c s) := by
  have hm := h.mounts
  have hsame (u : State) (hA : u.bayA = s.bayA) (hB : u.bayB = s.bayB) (hh : u.hold = s.hold) :
      MountsAgree u := hm.congr (State.bay_congr hA hB) hh
  cases c
  case hrst l _ => exact hrstEffect_mountsAgree l hm
  case classification c => exact classify_mountsAgree c h
  case mainAccessReady md =>
    change MountsAgree (mainReady md s)
    unfold mainReady
    split <;> exact hsame _ rfl rfl rfl
  case accessEnd =>
    change MountsAgree (accessEnd s)
    unfold accessEnd
    split <;> exact hsame _ rfl rfl rfl
  case hostWithdrawal => exact hm.abandonAccess
  case stallTimerExpiry => exact stallExpiry_mountsAgree hm
  case waitingWriteAccepted =>
    change MountsAgree (acceptWaiting s)
    rwa [acceptWaiting_of_settled h.settled]
  case stalledAccessRehandled =>
    change MountsAgree (rehandle s)
    rwa [rehandle_of_settled h.settled]
  case linkGrant => exact hm.grantLink
  case commit => exact commitHead_mountsAgree h
  case failedAttempt | responseTimeout => exact failAttempt_mountsAgree h
  case readTransferAnswer => exact readAnswer_mountsAgree hm
  case descriptorReadAnswer => exact descriptorAnswer_mountsAgree h
  case bindingWriteAnswer => exact bindingAnswer_mountsAgree h
  case abandonedTransferEnd => exact abandonedEnd_mountsAgree hm
  case detectMake b =>
    change MountsAgree (detectMake b s)
    unfold detectMake
    split
    · exact detectSample_mountsAgree (sampleDetect_mountsAgree hm) (sampleDetect_lawful h.bays)
    · exact hm
  case debounceBreak => exact debounceBreak_mountsAgree h
  case debounceExpiry b k =>
    change MountsAgree (debounceExpiry b k s)
    unfold debounceExpiry
    split
    next hx =>
      exact keyRead_mountsAgree (hm.modBay_idle ⟨rfl, rfl, rfl, rfl, rfl⟩).latch
        (setLatch_lawful.2 (sampleKeys_lawful h.bays)) (by simp [sampleKeys, hx.1, BayState.serving])
    · exact hm
  case powerGoodRise b =>
    change MountsAgree (powerGoodRise b s)
    unfold powerGoodRise
    split
    next hx =>
      refine MountsAgree.grantLink (hm.stopped (b := b) ((h.bays b).queue (by rw [hx]; rfl)) ?_ ?_ ?_ ?_ ?_ ?_) <;>
        simp [BayState.serving, samplePower]
    · exact hm
  case powerTimerExpiry b =>
    change MountsAgree (powerTimerExpiry b s)
    unfold powerTimerExpiry
    split
    next hx => exact reject_mountsAgree hm h.bays (by rw [hx.1]; rfl)
    · exact hm
  case identificationTimerExpiry b =>
    change MountsAgree (identTimerExpiry b s)
    unfold identTimerExpiry
    split
    next hx => exact reject_mountsAgree hm h.bays (by rw [hx.1]; rfl)
    · exact hm
  case powerLoss => exact powerLoss_mountsAgree h
  case removal => exact removeServing_mountsAgree h
  case removalDuringMount => exact removeMounting_mountsAgree h
  case removalOfStoppedCarrier => exact removeStopped_mountsAgree h
  case drainTimeout => exact drainTimeout_mountsAgree h
  case replayMove b =>
    change MountsAgree (replayMove b s)
    unfold replayMove
    split
    · exact hm.settle h.order h.bays (h.carriers.servingApart b) h.spaceUnlocked
    · exact hm
  case frameStart =>
    change MountsAgree (frameStart s)
    unfold frameStart
    split <;> exact hsame _ rfl rfl rfl
  case frameEnd =>
    change MountsAgree (frameEnd s)
    unfold frameEnd
    split <;> exact hsame _ rfl rfl rfl
  case frameDiscard bits =>
    change MountsAgree (frameDiscard bits s)
    unfold frameDiscard
    repeat' split
    all_goals exact hsame _ rfl rfl rfl
  all_goals exact hm

/-! ### Commands -/

theorem eject_mountsAgree (h : Sound s) : MountsAgree (eject b s).state := by
  unfold eject
  split
  next hx =>
    have hready : (s.bay b).state.serving := by rw [hx]; rfl
    have hdraining : MountsAgree (enterDraining b s) :=
      h.mounts.reState (.inr ⟨by rw [hx]; rfl, rfl⟩) ⟨rfl, rfl, rfl⟩ ⟨rfl, rfl, rfl⟩
    refine hdraining.settle (inOrder_keptByAccount.enterDraining h.order) (enterDraining_lawful h.bays hx)
      (fun _ ho => ?_) (h.spaceUnlocked.mono (fun a ha => by simpa using ha) fun c hc => ?_)
    · simpa using h.carriers.servingApart b hready (by simpa using ho)
    · obtain rfl | rfl := eq_or_eq_otherBay b c
      · exact ⟨hready, by simp⟩
      · simpa using hc
  · change MountsAgree (modBay b (fun x => { x with ejectPending := true }) s)
    exact h.mounts.modBay_idle ⟨rfl, rfl, rfl, rfl, rfl⟩
  all_goals exact h.mounts

theorem cancelEject_mountsAgree (h : Sound s) : MountsAgree (cancelEject b s).state := by
  unfold cancelEject
  split
  next hx =>
    change MountsAgree (modBay b (fun x => { (x.enter .ready .none) with drainTimer := none }) s)
    exact h.mounts.reState (.inr ⟨by rw [hx]; rfl, rfl⟩) ⟨rfl, rfl, rfl⟩ ⟨rfl, rfl, rfl⟩
  · split
    · change MountsAgree (modBay b (fun x => { x with ejectPending := false }) s)
      exact h.mounts.modBay_idle ⟨rfl, rfl, rfl, rfl, rfl⟩
    · exact h.mounts
  all_goals exact h.mounts

theorem retryBay_mountsAgree {k : KeySample} (h : Sound s) : MountsAgree (retryBay k b s).state := by
  unfold retryBay
  split
  case h_1 hx | h_2 hx | h_3 hx =>
    exact keyRead_mountsAgree (h.mounts.modBay_idle ⟨rfl, rfl, rfl, rfl, rfl⟩) (sampleKeys_lawful h.bays)
      (by simp [sampleKeys, hx, BayState.serving])
  all_goals exact h.mounts

theorem forget_mountsAgree (h : Sound s) : MountsAgree (forget b s).state := by
  change MountsAgree (modBay b (fun x => { x with last := none }) s)
  refine h.mounts.within (fun c => ?_) (fun c r hr => ?_) fun e he => HoldEntry.drawn_of_mem (by simpa using he)
  · obtain rfl | rfl := eq_or_eq_otherBay b c
    · rw [modBay_bay]; exact ⟨.inl rfl, rfl, rfl, rfl, Nat.le_refl _, List.Sublist.refl _⟩
    · rw [modBay_bay_other]; exact .refl _
  · obtain rfl | rfl := eq_or_eq_otherBay b c
    · rw [modBay_bay] at hr; cases hr
    · rwa [modBay_bay_other] at hr

theorem forceReplay_mountsAgree (h : Sound s) : MountsAgree (forceReplay b s).state := by
  have k := inOrder_keptByAccount
  unfold forceReplay
  dsimp only
  split
  · exact h.mounts
  next hx =>
  split
  · exact h.mounts
  next hlocked =>
  split
  · exact h.mounts
  have hx : (s.bay b).state = .ready := by simpa using hx
  have hserving : (s.bay b).state.serving := by rw [hx]; rfl
  have hforced := h.mounts.force (b := b) hx (by simpa using hlocked) (h.carriers.servingApart b hserving)
  have horder : InOrder (modBay b (Bay.enter .replay .none)
      { s with hold := s.hold.map (forceEntry (s.bay b).mount) }) :=
    k.modBay (fun _ => rfl) (k.holdMap _ (fun e => by unfold forceEntry; split <;> rfl) h.order)
  have hlaw : BaysLawful (modBay b (Bay.enter .replay .none)
      { s with hold := s.hold.map (forceEntry (s.bay b).mount) }) := by
    refine BaysLawful.modBay (setFields_lawful h.bays rfl rfl) ?_
    rw [State.bay_mk]
    exact (h.bays b).toReplay hx
  have hmet := (h.settled.dueAt_replay b (s.hold.map (forceEntry (s.bay b).mount))).meetHost
    fun hd => by simp at hd
  have hagree := hforced.meetHost horder hlaw
    (h.spaceUnlocked.mono (fun a ha => by simpa using ha) fun c hc => by
      obtain rfl | rfl := eq_or_eq_otherBay b c
      · exact ⟨hserving, by simp⟩
      · simpa using hc)
  exact hagree.settle (k.meetHost horder) (meetHost_lawful hlaw)
    (((h.carriers.kept (carriersKept_forced hx)).kept (carriersKept_meetHost _)).servingApart b)
    (hagree.spaceUnlocked fun a ha => (hmet.host a _ ha).2)

theorem discardHeld_mountsAgree {n : Serial} {d : Byte} (h : Sound s) :
    MountsAgree (discardHeld n d s).state := by
  have k := inOrder_keptByAccount
  unfold discardHeld
  dsimp only
  split
  · exact h.mounts
  next stale _ =>
  split
  · exact h.mounts
  have hport := discardEntries_settled (p := discards n stale) h.settled
  have hA := (hport.dueAt .A).settle (hport.fitsReplay .A)
  have hm := h.mounts.discardEntries (p := discards n stale)
  have hO := k.discard (discards n stale) h.order
  have hB : BaysLawful (discardEntries (discards n stale) s) := (baysLawful_congr (by simp)).2 h.bays
  have hc := h.carriers.kept (.of_bays fun c => discardEntries_bay (discards n stale) s c)
  have hmA := hm.settle (b := .A) hO hB (hc.servingApart .A)
    (hm.spaceUnlocked fun a ha => (hport.host a _ ha).2)
  exact hmA.settle (k.settle hO) (settle_lawful hB) ((hc.kept (carriersKept_settle .A _)).servingApart .B)
    (hmA.spaceUnlocked fun a ha => (hA.1.host a _ ha).2)

/-! ### The whole part -/

theorem porState_mountsAgree (s : State) : MountsAgree (porState s) := by
  rw [mountsAgree_iff]
  intro c
  rw [porState_bay]
  exact ⟨.out rfl rfl (Nat.zero_le _), .out rfl⟩

theorem resetEnd_mountsAgree {a b d e : Bool} (h : Sound s) : MountsAgree (resetEnd a b d e s) := by
  have h0 : MountsAgree { s with rst := false, hrst := e, frame := if d then .waitRise else .idle } :=
    h.mounts.congr (fun c => State.bay_mk ..) rfl
  have hB0 : BaysLawful { s with rst := false, hrst := e, frame := if d then .waitRise else .idle } :=
    setFields_lawful h.bays rfl rfl
  exact detectSample_mountsAgree (sampleDetect_mountsAgree
    (detectSample_mountsAgree (sampleDetect_mountsAgree h0) (sampleDetect_lawful hB0)))
    (sampleDetect_lawful (detectSample_lawful (sampleDetect_lawful hB0)))

theorem Sound.elapse (h : Sound s) : Sound (elapse s) :=
  ⟨inOrder_keptByAccount.elapse h.order, elapse_lawful h.bays, elapse_distinct h.carriers,
    elapse_settled h.settled, h.mounts.elapse⟩

theorem leads_mountsAgree : Leads Sound MountsAgree where
  stays := Sound.mounts
  elapse := Sound.elapse
  frame := fun _ h => h.congr (fun _ => State.bay_mk ..) rfl
  por := fun {s} _ => porState_mountsAgree s
  resetEnd := fun _ _ _ _ _ h => resetEnd_mountsAgree h
  event := fun c _ h => event_mountsAgree c h
  reply := fun _ _ _ hf _ h =>
    command_keeps hf h Sound.mounts
      (fun _ _ _ _ hhold hA hB => h.mounts.congr (State.bay_congr hA hB) hhold)
      (fun _ => eject_mountsAgree h) (fun _ => cancelEject_mountsAgree h)
      (fun _ _ => retryBay_mountsAgree h) (fun _ => forget_mountsAgree h)
      (fun _ => forceReplay_mountsAgree h) (fun _ _ => discardHeld_mountsAgree h)

/-- Settles O8: the laws of one bay by the rules of each event, and the agreement of the collections with
the mounts in the states where the other laws hold. -/
theorem baysKept : Obligations.BaysKept := by
  refine ⟨fun _ _ => step_baysLawful, fun s t hO hB hC hS hM => ?_⟩
  refine leads_mountsAgree.step (fun rest h => ?_) s t ⟨hO, hB, hC, hS, hM⟩
  exact ⟨⟨h.order.rising, h.order.distinct, h.order.before⟩, setFields_lawful h.bays rfl rfl, h.carriers,
    h.settled.setFields ⟨rfl, rfl, rfl⟩ rfl rfl rfl, h.mounts.congr (fun _ => State.bay_mk ..) rfl⟩

end Sys2Proof.Machine
end

section
/-! PROOFS. The management port's answers: the loss log, the host error record, the windows, the readout
of a bay, and what a failed command leaves (R5, R10, R12, R20 to R25, R52, R119, R157, R164). -/

namespace Sys2Proof.Machine

/-- A management command answers what its meaning says, in the frame that awaited it (R152 to R154). -/
theorem exec_command {c : Instr} {n : Nat} {f : State → Reply} {s : State} (h : Listening s)
    (hf : command c = some (n, f)) (hp : c.passed = false) :
    exec c s = .next ((f s).state.reply n (f s).status (f s).result) := by
  obtain ⟨count, hframe⟩ := h.frame
  have hpor : c ≠ .por := by rintro rfl; cases hf
  have hend : ∀ a b d e, c ≠ .resetEnd a b d e := by rintro a b d e rfl; cases hf
  rw [exec_event hpor hend h.live hp]
  unfold effect
  rw [hf]
  simp only [runCommand, hframe]
  rfl

theorem setLatch_eq_raise (l : Latch) (s : State) : setLatch l s = s.raise l := rfl

/-! ### Losses -/

/-- Settles O12: the log's three cases are the summary, room in the FIFO, and none. -/
theorem oneLossIsLogged : Obligations.OneLossIsLogged := by
  intro r s
  unfold lose logLoss
  cases hm : s.summary with
  | some m => simp [setLatch_eq_raise, State.raise, hm]
  | none =>
    by_cases hroom : s.lossLog.length < 15
    · simp [setLatch_eq_raise, State.raise, hm, hroom, logCapacity]
    · simp [setLatch_eq_raise, State.raise, hm, hroom, logCapacity]

theorem lossCause_code (c : LossCause) :
    c.code = (match c with | .writeFault => 1 | .holdFull => 2 | .discarded => 3 : Byte) := by
  cases c <;> rfl

theorem lanes_code (l : Lanes) : l.code = (match l with | .low => 1 | .high => 2 | .both => 3 : Byte) := by
  cases l <;> rfl

theorem flagByte_eq (f : Bool) : flagByte f = BitVec.ofNat 8 f.toNat := by cases f <;> rfl

/-- The 35 bytes of a loss record, field by field (R175). -/
theorem lossResult_eq (r : LossRecord) :
    lossResult r =
      [1#8, r.cause.code] ++ wordBytes r.write.num ++ serialBytes r.write.serial ++
        wordBytes r.write.stamp.device ++ wordBytes r.write.stamp.epoch ++
        wordBytes r.write.stamp.sequence ++ wordBytes (BitVec.ofNat 32 r.write.addr) ++
        [r.write.lanes.code] ++ [r.write.data.extractLsb' 8 8, r.write.data.extractLsb' 0 8] ++
        [BitVec.ofNat 8 r.write.window.val] ++
        [BitVec.ofNat 8 (r.write.uncertain.toNat + 2 * r.write.forced.toNat + 4 * r.stale.toNat)] := by
  simp only [lossResult, writeBytes, flagsByte_three, stampBytes, natBytes, halfBytes, natByte,
    List.append_assoc]

/-- Settles O13: the log holds a record, the summary alone, or nothing. -/
theorem popLossTakesTheOldest : Obligations.PopLossTakesTheOldest := by
  intro s hs
  refine ⟨fun r rs hlog => ?_, fun m hlog hm => ?_, fun hlog hm => ?_⟩
  · rw [exec_command hs rfl rfl]
    simp only [popLoss, hlog, replyOk_state, replyOk_status, replyOk_result, lossResult_eq,
      lossCause_code, lanes_code] <;>
    rfl
  · rw [exec_command hs rfl rfl]
    simp only [popLoss, hlog, hm]
    rfl
  · rw [exec_command hs rfl rfl]
    simp only [popLoss, hlog, hm]
    rfl

/-! ### The host error record -/

/-- Settles O29: a present record spells its fourteen bytes, an absent one fourteen bytes of zero. -/
theorem readErrorTakesTheRecord : Obligations.ReadErrorTakesTheRecord := by
  intro s hs
  refine ⟨fun hnone => ?_, fun e he => ?_⟩
  · rw [exec_command hs rfl rfl]
    simp only [readError, hnone]
    have hsame : { s with hostError := none } = s := by rw [← hnone]
    rw [hsame]
    rfl
  · dsimp only
    rw [exec_command hs rfl rfl]
    simp only [readError, he, replyOk_state, replyOk_status, replyOk_result, errorResult, flagByte_eq,
      lanes_code]
    rfl

/-! ### Windows -/

theorem windowArg_of_val {n : Byte} {i : Fin 8} (h : n.toNat = i.val) : windowArg n = some i := by
  have hlt : n.toNat < 8 := h ▸ i.isLt
  simp only [windowArg, hlt, dif_pos]
  exact congrArg some (Fin.ext h)

/-- Settles O16: the two checks come before the one entry of the table that changes. -/
theorem commitWindowReplacesOne : Obligations.CommitWindowReplacesOne := by
  intro n i s hs hn
  have hreply : ∀ r, commitWindow n s = r →
      exec (.commitWindow n) s = .next (r.state.reply 1 r.status r.result) := by
    rintro r rfl
    exact exec_command hs rfl rfl
  refine ⟨fun hshape => ?_, fun hshape hmeet => ?_, fun hshape hapart => ?_⟩
  · exact hreply (replyBad s .badWindow) (by simp [commitWindow, windowArg_of_val hn, hshape])
  · have hover : overlaps s.windows i s.staging = true := by
      by_contra hnot
      obtain ⟨j, hj, hen, hm⟩ := hmeet
      rw [overlaps_eq_false_iff.1 (by simpa using hnot) j hj hen] at hm
      cases hm
    exact hreply (replyBad s .overlap) (by simp [commitWindow, windowArg_of_val hn, hshape, hover])
  · have hover : overlaps s.windows i s.staging = false := overlaps_eq_false_iff.2 hapart
    refine ⟨_, hreply (replyOk { s with windows := s.windows.set i ⟨true, s.staging⟩ } [])
      (by simp [commitWindow, windowArg_of_val hn, hshape, hover]), rfl, ?_, fun j hj => ?_⟩
    · exact getElem_set_fin ..
    · exact getElem_set_fin_ne _ _ hj

theorem natByte_bayCode (b : BayId) : natByte (bayCode b) = (match b with | .A => 0 | .B => 1 : Byte) := by
  cases b <;> rfl

theorem natByte_region (r : Region) :
    natByte r.code = (match r with | .data => 0 | .descriptor => 1 : Byte) := by cases r <;> rfl

theorem natByte_mode (m : Mode) :
    natByte m.code = (match m with | .posted => 0 | .through => 1 | .readOnly => 2 : Byte) := by
  cases m <;> rfl

theorem natByte_absentReads (a : AbsentReads) :
    natByte a.code = (match a with | .refuse => 0 | .fill => 1 : Byte) := by cases a <;> rfl

theorem natByte_absentWrites (a : AbsentWrites) :
    natByte a.code = (match a with | .refuse => 0 | .hold => 1 : Byte) := by cases a <;> rfl

/-- Settles O17: one flag of one entry changes, and the readout spells the entry's fields. -/
theorem disableAndReadWindow : Obligations.DisableAndReadWindow := by
  intro n i s hs hn
  dsimp only
  constructor
  · refine ⟨_, exec_command hs rfl rfl, ?_, ?_, fun j hj => ?_⟩ <;>
      simp only [disableWindow, windowArg_of_val hn, replyOk_state, replyOk_status, replyOk_result]
    · rfl
    · exact getElem_set_fin ..
    · exact getElem_set_fin_ne _ _ hj
  · rw [exec_command hs rfl rfl]
    simp only [readWindow, windowArg_of_val hn, replyOk_state, replyOk_status, replyOk_result,
      windowResult, flagByte_eq, natByte_bayCode, natByte_region, natByte_mode, natByte_absentReads,
      natByte_absentWrites]
    rfl

/-! ### The readout of a bay -/

/-- Bit `i` of a flag byte is its flag number `i` (R171). -/
theorem getLsbD_flagsByte (l : List Bool) (i : Nat) (hi : i < 8) :
    (flagsByte l).getLsbD i = l.getD i false := by
  induction l generalizing i with
  | nil => simp [flagsByte]
  | cons f fs ih =>
    cases i with
    | zero => cases f <;> simp [flagsByte, flagByte]
    | succ i =>
      have hflag : (flagByte f).getLsbD (i + 1) = false := by
        cases f
        · exact BitVec.getLsbD_zero
        · exact BitVec.getLsbD_one.trans (by simp)
      rw [flagsByte, BitVec.getLsbD_or, hflag, BitVec.getLsbD_shiftLeft, Bool.false_or,
        Nat.add_sub_cancel, ih i (Nat.lt_of_succ_lt hi)]
      simp [hi]

theorem stampBytesOpt_eq (t : Option Stamp) :
    stampBytesOpt t =
      match t with
      | some t => wordBytes t.device ++ wordBytes t.epoch ++ wordBytes t.sequence
      | none => List.replicate 12 0#8 := by
  cases t <;> rfl

theorem stampBytesOpt_length (t : Option Stamp) : (stampBytesOpt t).length = 12 := by
  cases t <;> rfl

theorem lastBytes_length (r : Option LastCarrier) : (lastBytes r).length = 22 := by
  cases r with
  | none => rfl
  | some r => simp [lastBytes, serialBytes, halfBytes, stampBytesOpt_length]

/-- The flag byte of READ_BAY (R174). -/
def bayFlags (x : Bay) : List Bool :=
  [x.mount.serial.isSome && x.mount.capacity.isSome, x.mount.stamp.isSome, x.mount.locked,
    x.ejectPending, x.last.isSome, (x.last.bind fun r => r.stamp.stamp?).isSome,
    (x.last.map fun r => r.stamp.isLocked).getD false]

theorem bayResult_eq (x : Bay) :
    bayResult x =
      [x.state.code, x.mount.cause.code, x.mount.supply.code, x.mount.verdict.code,
        flagsByte (bayFlags x), BitVec.ofNat 8 x.lossCount, BitVec.ofNat 8 x.queue.length] ++
        serialBytes (x.mount.serial.getD 0) ++ halfBytes (x.mount.capacity.getD 0) ++
        stampBytesOpt x.mount.stamp ++ lastBytes x.last := by
  unfold bayResult bayFlags
  cases x.last <;> rfl

theorem recordStamp_stamp (r : RecordStamp) :
    r.stamp? = (match r with | .bound t => some t | .locked t => t) := by cases r <;> rfl

theorem recordStamp_isLocked {r : RecordStamp} : r.isLocked = true ↔ ∃ t, r = .locked t := by
  cases r <;> simp [RecordStamp.isLocked]

/-- Settles O50: FORGET writes one field, and READ_BAY's bytes are those of the bay, flag by flag. -/
theorem forgetAndReadBay : Obligations.ForgetAndReadBay := by
  intro n b s hs hb
  dsimp only
  have hon (f : BayId → State → Reply) : onBay n f s = f b s := by simp [onBay, hb]
  refine ⟨?_, flagsByte (bayFlags (s.bay b)), lastBytes (s.bay b).last, ?_, lastBytes_length _, ?_⟩
  · rw [exec_command hs rfl rfl, hon]
    rfl
  · rw [exec_command hs rfl rfl, hon]
    simp only [readBay, replyOk_state, replyOk_status, replyOk_result, bayResult_eq, stampBytesOpt_eq]
    rfl
  · simp only [getLsbD_flagsByte, Nat.reduceLT]
    refine ⟨rfl, rfl, rfl, rfl, rfl, rfl, fun hnone => ?_, fun r hr => ?_⟩
    · simp [bayFlags, hnone, lastBytes, zeroBytes]
    · refine ⟨?_, ?_, ?_⟩
      · simp only [hr, lastBytes, stampBytesOpt_eq, recordStamp_stamp]
        rfl
      · simp only [bayFlags, hr, List.getD_cons_succ, List.getD_cons_zero, Option.bind_some,
          recordStamp_stamp] <;>
        rfl
      · simpa [bayFlags, hr] using recordStamp_isLocked

end Sys2Proof.Machine
end

section
/-! PROOFS. What no command takes away: a set latch (R142, R147), and the part as it was when a command
fails (R20, R154, R157). -/

namespace Sys2Proof.Machine

/-! ### The waiting access by its wait -/

section Waits

variable {s : State} {a : Access}

theorem meetHost_replay (h : s.host = .diverted a .replay) :
    meetHost s = if (s.bay a.copy.bay).state = .replay then s else handleAccess a s := by
  simp only [meetHost, h]

theorem meetHost_space (h : s.host = .diverted a .space) :
    meetHost s = if (s.bay a.copy.bay).state = .ready then
      if (s.bay a.copy.bay).queue.length < queueCapacity then acceptQueue a s else s
      else handleAccess a s := by
  simp only [meetHost, h]

theorem meetHost_fate {num : Word} (h : s.host = .diverted a (.fate num)) : meetHost s = s := by
  simp only [meetHost, h]

theorem meetHost_queueMatch (h : s.host = .diverted a .queueMatch) :
    meetHost s = if (s.bay a.copy.bay).state.servesReads then
      if readMatches a (s.bay a.copy.bay) then s else { s with host := .diverted a .grant }
      else absentRead a s := by
  simp only [meetHost, h]

theorem meetHost_grant (h : s.host = .diverted a .grant) :
    meetHost s = if (s.bay a.copy.bay).state.servesReads then s else absentRead a s := by
  simp only [meetHost, h]

theorem meetHost_onLink (h : s.host = .diverted a .onLink) :
    meetHost s = if (s.bay a.copy.bay).state.servesReads then s
      else absentRead a (abandonRead a.copy.bay s) := by
  simp only [meetHost, h]

theorem meetHost_idle (h : ∀ a w, s.host ≠ .diverted a w) : meetHost s = s := by
  cases hh : s.host with
  | diverted a w => exact absurd hh (h a w)
  | idle | mainWait | mainDone | released => simp only [meetHost, hh]

end Waits

/-! ### Latches only rise -/

/-- Every latch that is set in the first state is set in the second (R142). -/
def Raises (s t : State) : Prop := ∀ l, s.latch l = true → t.latch l = true

namespace Raises

variable {s t u : State}

theorem of_eq (h : t.latches = s.latches) : Raises s t := fun l hl => by
  rw [State.latch, h]
  exact hl

theorem refl (s : State) : Raises s s := .of_eq rfl

theorem trans (h : Raises s t) (k : Raises t u) : Raises s u := fun l hl => k l (h l hl)

theorem latch (h : Raises s t) (l : Latch) : Raises s (setLatch l t) := fun k hk => by
  have hset := h k hk
  simp only [State.latch, setLatch, BitVec.getLsbD_or, Bool.or_eq_true] at hset ⊢
  exact .inl hset

theorem eq (h : Raises s t) (e : u.latches = t.latches) : Raises s u := h.trans (.of_eq e)

theorem lose (h : Raises s t) (r : LossRecord) : Raises s (lose r t) :=
  (Raises.latch (t := { t with lost := t.lost + 1 }) (h.eq rfl) .loss).eq (by simp [Machine.lose])

theorem holdHigh (h : Raises s t) : Raises s (holdHigh t) := by
  unfold Machine.holdHigh
  split
  · exact h.latch _
  · exact h

theorem joinEvacuated (h : Raises s t) (e : HoldEntry) : Raises s (joinEvacuated e t) :=
  holdHigh (h.eq rfl)

theorem acceptAbsent (h : Raises s t) (a : Access) (n : Serial) (st : Stamp) :
    Raises s (acceptAbsent a n st t) :=
  (holdHigh (t := { takeNumber t with hold := (takeNumber t).hold ++ [absentEntry a n st t] })
    (h.eq (by simp))).eq (by simp [Machine.acceptAbsent, joinNewest])

theorem releaseError (h : Raises s t) (a : Access) (c : HostCause) (n : Option Word) :
    Raises s (releaseError a c n t) := latch (h.eq rfl) _

theorem releaseOk (h : Raises s t) (d : Option BusHalf) : Raises s (releaseOk d t) := h.eq rfl

theorem releaseThrough (h : Raises s t) (c : Option HostCause) : Raises s (releaseThrough c t) := by
  unfold Machine.releaseThrough
  split
  · cases c
    · exact h.releaseOk _
    · exact h.releaseError _ _ _
  · exact h

theorem evacuateOne (h : Raises s t) (e : QEntry) : Raises s (evacuateOne t e) := by
  have hfate {v : State} (hv : Raises s v) (c : Option HostCause) :
      Raises s ((if e.through then Machine.releaseThrough c else id) v) := by
    split
    · exact hv.releaseThrough c
    · exact hv
  obtain ⟨-, c, hc⟩ | ⟨-, c, hc⟩ := evacuateOne_cases t e <;> rw [hc]
  · exact hfate (h.joinEvacuated _) c
  · exact hfate (h.lose _) c

theorem foldl_evacuateOne (h : Raises s t) (l : List QEntry) : Raises s (l.foldl Machine.evacuateOne t) := by
  induction l generalizing t with
  | nil => exact h
  | cons e es ih => exact ih (h.evacuateOne e)

theorem leaveServing (h : Raises s t) (b : BayId) (st : BayState) (c : MountCause) :
    Raises s (leaveServing b st c t) := by
  have hevacuate : Raises s (evacuate b t) := by
    rw [evacuate_eq]
    exact foldl_evacuateOne (h.eq (by simp [emptied])) _
  exact hevacuate.eq (by simp [Machine.leaveServing])

theorem reject (h : Raises s t) (b : BayId) (c : MountCause) : Raises s (reject b c t) :=
  latch (h.eq (by simp)) _

theorem absentRead (h : Raises s t) (a : Access) : Raises s (absentRead a t) := by
  unfold Machine.absentRead
  split
  · exact h.releaseOk _
  · exact h.releaseError _ _ _

theorem acceptQueue (h : Raises s t) (a : Access) : Raises s (acceptQueue a t) := h.eq (by simp)

theorem waitIn (h : Raises s t) (a : Access) (w : Wait) : Raises s (waitIn a w t) := h.eq (by simp)

theorem grantLink (h : Raises s t) (b : BayId) : Raises s (grantLink b t) := h.eq (by simp)

theorem modBay (h : Raises s t) (b : BayId) (f : Bay → Bay) : Raises s (modBay b f t) :=
  h.eq (by simp)

theorem writeReady (h : Raises s t) (a : Access) : Raises s (writeReady a t) := by
  unfold Machine.writeReady
  dsimp only
  repeat' split
  · exact h.releaseError _ _ _
  · exact h.releaseError _ _ _
  · exact h.releaseError _ _ _
  · exact h.acceptQueue a
  · exact h.waitIn _ _

theorem readServing (h : Raises s t) (a : Access) : Raises s (readServing a t) := by
  unfold Machine.readServing
  dsimp only
  repeat' split
  · exact h.releaseError _ _ _
  · exact h.waitIn _ _
  · exact h.waitIn _ _

theorem absentWrite (h : Raises s t) (a : Access) : Raises s (absentWrite a t) := by
  unfold Machine.absentWrite
  repeat' split
  · exact h.releaseError _ _ _
  · exact h.releaseError _ _ _
  · exact h.releaseError _ _ _
  · exact h.releaseError _ _ _
  · exact h.releaseError _ _ _
  · exact h.acceptAbsent _ _ _
  · exact h.releaseError _ _ _

theorem handleAccess (h : Raises s t) (a : Access) : Raises s (handleAccess a t) := by
  have habsent : Raises s (if a.write then Machine.absentWrite a t else Machine.absentRead a t) := by
    split
    · exact h.absentWrite a
    · exact h.absentRead a
  unfold Machine.handleAccess
  split
  · split
    · exact h.writeReady a
    · exact h.readServing a
  · split
    · exact h.releaseError _ _ _
    · exact h.readServing a
  · exact h.waitIn _ _
  all_goals exact habsent

theorem meetHost (h : Raises s t) : Raises s (meetHost t) := by
  cases hh : t.host with
  | diverted a w =>
    cases w with
    | replay =>
      rw [meetHost_replay hh]
      split
      · exact h
      · exact h.handleAccess a
    | space =>
      rw [meetHost_space hh]
      repeat' split
      · exact h.acceptQueue a
      · exact h
      · exact h.handleAccess a
    | fate => rwa [meetHost_fate hh]
    | queueMatch =>
      rw [meetHost_queueMatch hh]
      repeat' split
      · exact h
      · exact h.eq rfl
      · exact h.absentRead a
    | grant =>
      rw [meetHost_grant hh]
      split
      · exact h
      · exact h.absentRead a
    | onLink =>
      rw [meetHost_onLink hh]
      split
      · exact h
      · exact absentRead (h.eq (by simp)) a
  | idle | mainWait | mainDone | released => rwa [meetHost_idle (by simp [hh])]

theorem replayWork (h : Raises s t) (b : BayId) : Raises s (replayWork b t) := by
  have hmoves : Raises s (replayMoves b t) := h.eq (by simp)
  unfold Machine.replayWork
  split
  · unfold replayEnd
    dsimp only
    repeat' split
    · exact hmoves
    · exact ((hmoves.latch (.bay b .resumed)).modBay b _).modBay b _
    · exact (hmoves.latch (.bay b .resumed)).modBay b _
  · exact h

theorem drainEnd (h : Raises s t) (b : BayId) : Raises s (drainEnd b t) := by
  obtain ⟨-, e⟩ | ⟨-, -, e⟩ := drainEnd_cases b t <;> rw [e]
  · exact h
  · exact (h.leaveServing _ _ _).latch _

theorem settle (h : Raises s t) (b : BayId) : Raises s (settle b t) :=
  (((h.replayWork b).drainEnd b).meetHost).eq (by simp [Machine.settle])

theorem loseHead (h : Raises s t) (b : BayId) (e : QEntry) : Raises s (loseHead b e t) := by
  have hdrop : Raises s (dropHead b t) := h.eq (by simp [dropHead])
  have hcount : Raises s (countLoss b e t) := by
    unfold countLoss
    dsimp only
    have hlost := (hdrop.lose ⟨.writeFault, e.write, false⟩).eq (u := Machine.modBay b
      (fun x => { x with lossCount := x.lossCount + 1 })
      (Machine.lose ⟨.writeFault, e.write, false⟩ (dropHead b t))) (by simp)
    split
    · exact hlost.releaseThrough _
    · exact hlost
  unfold Machine.loseHead checkThreshold
  split
  · exact (hcount.leaveServing _ _ _).latch _
  · exact hcount

theorem failTransfer (h : Raises s t) (b : BayId) (k : Holder) : Raises s (failTransfer b k t) := by
  unfold Machine.failTransfer
  repeat' split
  · exact (h.loseHead b _).settle b
  · exact h
  · exact (releaseError (t := freeLink b t) (h.modBay b _) _ _ _).grantLink b
  · exact h
  · exact h
  · exact h.reject b _
  · exact h.reject b _
  · exact h

theorem failAttempt (h : Raises s t) (b : BayId) : Raises s (failAttempt b t) := by
  unfold Machine.failAttempt
  repeat' split
  · exact h.modBay b _
  · exact h.failTransfer b _
  all_goals exact h

theorem keyRead (h : Raises s t) (b : BayId) : Raises s (keyRead b t) := by
  unfold Machine.keyRead enterPowering enterIdentifying
  dsimp only
  repeat' split
  · exact h.eq (by simp)
  · exact h.eq (by simp)
  · exact latch (h.eq (by simp)) _

theorem judgeHold (h : Raises s t) (b : BayId) (n : Serial) (st : Option Stamp) :
    Raises s (judgeHold b n st t) := by
  unfold Machine.judgeHold
  dsimp only
  split
  · exact latch (h.eq rfl) _
  · exact h.eq rfl

theorem completeMount (h : Raises s t) (b : BayId) (v : Verdict) : Raises s (completeMount b v t) :=
  settle (latch (h.eq (by simp)) _) b

theorem beginBinding (h : Raises s t) (b : BayId) (i : Ident) (n : Serial) :
    Raises s (beginBinding b i n t) :=
  (modBay (t := { t with mountSeq := t.mountSeq + 1 }) (h.eq rfl) b _).grantLink b

theorem checkDescriptor (h : Raises s t) (b : BayId) (i : Ident) : Raises s (checkDescriptor b i t) := by
  unfold Machine.checkDescriptor mountLocked
  dsimp only
  repeat' split
  · exact h.reject b _
  · exact (h.modBay b _).reject b _
  · exact completeMount ((h.modBay b _).modBay b _) b _
  · exact ((h.modBay b _).judgeHold b _ _).beginBinding b i _

theorem completeBinding (h : Raises s t) (b : BayId) (i : Ident) (w : Binding) :
    Raises s (completeBinding b i w t) :=
  completeMount
    ((modBay (t := { Machine.judgeHold b (descSerial i.halves) (slotStamp i.halves) t with
        hold := restamp (descSerial i.halves) w.stamp
          (Machine.judgeHold b (descSerial i.halves) (slotStamp i.halves) t).hold })
      ((h.judgeHold b (descSerial i.halves) (slotStamp i.halves)).eq rfl) b _).modBay (otherBay b) _)
    b _

theorem discardEntries (h : Raises s t) (p : HoldEntry → Bool) : Raises s (discardEntries p t) := by
  have hfold : ∀ (l : List HoldEntry) (v : State), Raises s v →
      Raises s (l.foldl (fun s e => Machine.lose ⟨.discarded, e.write, e.stale⟩ s) v) := by
    intro l
    induction l with
    | nil => exact fun _ => id
    | cons e es ih => exact fun v hv => ih _ (hv.lose _)
  exact hfold _ _ (h.eq rfl)

theorem abandonAccess (h : Raises s t) : Raises s (abandonAccess t) := h.eq (by simp)

end Raises


section Events

variable {s : State}

theorem raises_classify (c : HostCycle) : Raises s (classify c s) := by
  unfold classify
  dsimp only
  repeat' split
  · unfold beginMain
    dsimp only
    split <;> exact .of_eq rfl
  · exact ((Raises.refl s).handleAccess _).grantLink _
  · exact .refl s

theorem raises_stallExpiry : Raises s (stallExpiry s) := by
  have h := Raises.refl s
  unfold stallExpiry
  repeat' split
  · exact h
  · exact Raises.releaseError (h.eq (by simp)) _ _ _
  · exact (Raises.releaseError (h.eq (by simp)) _ _ _).grantLink _
  · exact h.releaseError _ _ _
  · exact h.releaseError _ _ _
  · exact h.releaseError _ _ _
  · exact h.releaseError _ _ _
  all_goals exact h

theorem raises_rehandle : Raises s (rehandle s) := by
  have h := Raises.refl s
  unfold rehandle
  repeat' split
  · exact h
  · exact (h.handleAccess _).grantLink _
  · exact h
  · exact (h.handleAccess _).grantLink _
  · exact h

theorem raises_commitHead (b : BayId) : Raises s (commitHead b s) := by
  have h := Raises.refl s
  have hdrop : Raises s (modBay b (fun x => { x with lossCount := 0 })
      (dropHead b { s with committed := s.committed + 1 })) :=
    (Raises.modBay (t := { s with committed := s.committed + 1 }) (h.eq rfl) b _).modBay b _
  unfold commitHead
  dsimp only
  repeat' split
  · exact ((hdrop.releaseThrough none).settle b).modBay b _
  · exact (hdrop.settle b).modBay b _
  all_goals exact h

theorem raises_descriptorAnswer (b : BayId) (data : Half) (lock : Bool) :
    Raises s (descriptorAnswer b data lock s) := by
  have h := Raises.refl s
  unfold descriptorAnswer
  dsimp only
  repeat' split
  · exact ((h.modBay b _).modBay b _).grantLink b
  · exact ((h.modBay b _).modBay b _).checkDescriptor b _
  all_goals exact h

theorem raises_bindingAnswer (b : BayId) : Raises s (bindingAnswer b s) := by
  have h := Raises.refl s
  unfold bindingAnswer
  dsimp only
  repeat' split
  · exact h
  · exact (h.modBay b _).grantLink b
  · exact h.completeBinding b _ _
  · exact h

theorem raises_leaving (b : BayId) (st : BayState) (c : MountCause) (l : Latch) {t : State}
    (h : Raises s t) : Raises s (settle b (setLatch l (leaveServing b st c t))) :=
  ((h.leaveServing b st c).latch l).settle b

theorem raises_powerLoss (b : BayId) : Raises s (powerLoss b s) := by
  have hfound : Raises s (samplePower b false s) := (Raises.refl s).modBay b _
  unfold powerLoss
  dsimp only
  repeat' split
  · exact raises_leaving b _ _ _ hfound
  · exact (hfound.modBay b _).latch _
  · exact .refl s

theorem raises_removeServing (b : BayId) (d : DetContact) : Raises s (removeServing b d s) := by
  unfold removeServing
  split
  · exact raises_leaving b _ _ _ ((Raises.refl s).modBay b _)
  · exact .refl s

theorem raises_drainTimeout (b : BayId) : Raises s (drainTimeout b s) := by
  unfold drainTimeout
  split
  · exact ((((Raises.refl s).leaveServing b _ _).latch _).latch _).settle b
  · exact .refl s

theorem raises_removeMounting (b : BayId) (d : DetContact) : Raises s (removeMounting b d s) := by
  unfold removeMounting
  split
  · exact (((Raises.refl s).modBay b _).modBay b _).latch _
  · exact .refl s

theorem raises_removeStopped (b : BayId) (d : DetContact) : Raises s (removeStopped b d s) := by
  unfold removeStopped
  split
  · exact (((Raises.refl s).modBay b _).modBay b _).latch _
  · exact .refl s

theorem raises_debounceExpiry (b : BayId) (k : KeySample) : Raises s (debounceExpiry b k s) := by
  unfold debounceExpiry
  split
  · exact (((Raises.refl s).modBay b _).latch _).keyRead b
  · exact .refl s

theorem raises_powerTimerExpiry (b : BayId) : Raises s (powerTimerExpiry b s) := by
  unfold powerTimerExpiry
  split
  · exact (Raises.refl s).reject b _
  · exact .refl s

theorem raises_identTimerExpiry (b : BayId) : Raises s (identTimerExpiry b s) := by
  unfold identTimerExpiry
  split
  · exact (Raises.refl s).reject b _
  · exact .refl s

theorem raises_replayMove (b : BayId) : Raises s (replayMove b s) := by
  unfold replayMove
  split
  · exact (Raises.refl s).settle b
  · exact .refl s

end Events

theorem raises_event (c : Instr) (s : State) : Raises s (event c s) := by
  cases c
  case classification => exact raises_classify _
  case stallTimerExpiry => exact raises_stallExpiry
  case stalledAccessRehandled => exact raises_rehandle
  case commit => exact raises_commitHead _
  case failedAttempt => exact (Raises.refl s).failAttempt _
  case responseTimeout => exact (Raises.refl s).failAttempt _
  case descriptorReadAnswer => exact raises_descriptorAnswer _ _ _
  case bindingWriteAnswer => exact raises_bindingAnswer _
  case debounceExpiry => exact raises_debounceExpiry _ _
  case powerTimerExpiry => exact raises_powerTimerExpiry _
  case identificationTimerExpiry => exact raises_identTimerExpiry _
  case powerLoss => exact raises_powerLoss _
  case removal => exact raises_removeServing _ _
  case removalDuringMount => exact raises_removeMounting _ _
  case removalOfStoppedCarrier => exact raises_removeStopped _ _
  case drainTimeout => exact raises_drainTimeout _
  case replayMove => exact raises_replayMove _
  all_goals
    refine .of_eq ?_
    simp only [event, hrstEffect, hostReset, mainReady, accessEnd, acceptWaiting, readAnswer,
      abandonedEnd, detectMake, debounceBreak, powerGoodRise, frameStart, frameEnd, frameDiscard]
    repeat' split
    all_goals simp

/-- CLEAR_EVENTS leaves the latches that its set does not name (R147). -/
theorem clearEvents_latch {v : Word} {s : State} {l : Latch} (hl : s.latch l = true)
    (hv : v.getLsbD l.number = false) : (clearEvents v s).state.latch l = true := by
  have hnumber : l.number < 23 := by
    rcases l with ⟨b, l⟩ | _ | _ | _
    · cases b <;> cases l <;> decide
    all_goals decide
  unfold clearEvents
  split
  · simpa [State.latch, clearLatches, latchesOfWord, hnumber, hv] using hl
  · exact hl

/-- Every management command but CLEAR_EVENTS leaves the set latches. -/
theorem raises_command {c : Instr} {n : Nat} {f : State → Reply} (h : command c = some (n, f))
    (hclear : ∀ v, c ≠ .clearEvents v) (s : State) : Raises s (f s).state := by
  have hs := Raises.refl s
  have hwrite (code : Byte) (v : Word) : Raises s (writeItem code v s).state := by
    unfold writeItem
    repeat' split
    · exact hs
    next t ht =>
      obtain ⟨-, -, -, -, -, -, -, hlatches, -⟩ := writeItemValue_frame ht
      exact .of_eq hlatches
    · exact hs
  have hbay (m : Byte) (g : BayId → State → Reply) (hg : ∀ b, Raises s (g b s).state) :
      Raises s (onBay m g s).state := by
    unfold onBay
    split
    · exact hg _
    · exact hs
  cases c <;> simp only [command, Option.some.injEq, Prod.mk.injEq, reduceCtorEq] at h
  case badCommand =>
    split at h <;> cases h
    exact hs
  all_goals obtain ⟨-, rfl⟩ := h
  case writeItem => exact hwrite _ _
  case writeEventEnable => exact hwrite _ _
  case clearEvents v => exact absurd rfl (hclear v)
  case eject =>
    refine hbay _ _ fun b => ?_
    unfold eject
    split
    · exact Raises.settle (hs.modBay b _) b
    · exact hs.modBay b _
    all_goals exact hs
  case retryBay =>
    refine hbay _ _ fun b => ?_
    unfold retryBay
    split
    all_goals first | exact hs | exact Raises.keyRead (hs.modBay b _) b
  case forceReplay =>
    refine hbay _ _ fun b => ?_
    unfold forceReplay
    dsimp only
    repeat' split
    · exact hs
    · exact hs
    · exact hs
    · exact ((Raises.modBay (t := { s with hold := s.hold.map (forceEntry (s.bay b).mount) })
        (hs.eq rfl) b _).meetHost).settle b
  case discardHeld =>
    unfold discardHeld
    dsimp only
    repeat' split
    · exact hs
    · exact hs
    · exact ((hs.discardEntries _).settle .A).settle .B
  all_goals
    refine .of_eq ?_
    simp only [readStatus, readItem, commitWindow, disableWindow, readWindow, onBay, readBay,
      cancelEject, forget, readHold, popLoss, readCounts, zeroCounts, readError, readEvents]
    repeat' split
    all_goals simp

theorem raises_effect {c : Instr} (hclear : ∀ v, c ≠ .clearEvents v) (s : State) :
    Raises s (effect c s) := by
  unfold effect
  cases hf : command c with
  | none => exact raises_event c s
  | some p =>
    change Raises s (runCommand p.1 p.2 s)
    unfold runCommand
    split
    · exact (raises_command hf hclear s).eq rfl
    all_goals exact .refl s

/-- A set latch stays set through every row but POR and CLEAR_EVENTS. -/
theorem raises_exec {c : Instr} (hpor : c ≠ .por) (hclear : ∀ v, c ≠ .clearEvents v) {s t : State}
    (e : exec c s = .next t) : Raises s t := by
  by_cases hend : ∃ a b d e, c = .resetEnd a b d e
  · obtain ⟨a, b, d, e', rfl⟩ := hend
    change execResetEnd a b d s e' = .next t at e
    unfold execResetEnd at e
    split at e <;> cases e
    · exact .of_eq (by simp [resetEnd])
    · exact .refl s
  · rw [exec_eq_live hpor (fun a b d e hc => hend ⟨a, b, d, e, hc⟩), live] at e
    split at e <;> cases e
    · exact .refl s
    · unfold timed
      split
      · exact (Raises.of_eq (by simp)).trans (raises_effect hclear _)
      · exact raises_effect hclear s

/-- Settles O56: every operation of the part but CLEAR_EVENTS and POR only adds latches. -/
theorem latchesStayUntilCleared : Obligations.LatchesStayUntilCleared := by
  intro c s t l e hl
  refine ⟨fun hpor hclear => raises_exec hpor hclear e l hl, ?_⟩
  rintro v rfl hv
  rw [exec_eq_live (by simp) (by simp), live] at e
  split at e <;> cases e
  · exact hl
  · change (runCommand 4 (clearEvents v) s).latch l = true
    unfold runCommand
    split
    · exact clearEvents_latch hl hv
    all_goals exact hl

/-! ### A failed command changes nothing -/

/-- Only SCS# moves the management port outside a command: no event completes one. -/
theorem event_not_ran {c : Instr} {s : State} {count : Count} (hs : s.frame = .receiving count)
    (k : Count) (n : Nat) (st : Status) (r : List Byte) : (event c s).frame ≠ .ran k n st r := by
  have hkept (h : (event c s).frame = s.frame) : (event c s).frame ≠ .ran k n st r := by
    rw [h, hs]
    exact fun h => nomatch h
  cases c
  case frameStart => simp [event, frameStart, hs]
  case frameEnd => simp [event, frameEnd, hs]
  case frameDiscard bits =>
    simp only [event, frameDiscard, hs]
    split <;> simp [hs]
  all_goals
    refine hkept ?_
    simp only [event, hrstEffect, hostReset, classify, beginMain, mainReady, accessEnd, stallExpiry,
      acceptWaiting, rehandle, commitHead, readAnswer, descriptorAnswer, bindingAnswer, abandonedEnd,
      detectMake, debounceBreak, debounceExpiry, powerGoodRise, powerTimerExpiry, identTimerExpiry,
      powerLoss, removeServing, removeMounting, removeStopped, drainTimeout, replayMove]
    repeat' split
    all_goals simp

/-- The answer is OK, or it is a refusal that leaves the part as it was (R157). -/
def Reply.Sound (r : Reply) (s : State) : Prop := r.status = .ok ∨ ∃ st, r = replyBad s st

theorem Reply.sound_ok (s t : State) (l : List Byte) : (replyOk t l).Sound s := .inl rfl

theorem Reply.sound_bad (s : State) (st : Status) : (replyBad s st).Sound s := .inr ⟨st, rfl⟩

/-- Every management command answers OK, or refuses. -/
theorem command_sound {c : Instr} {n : Nat} {f : State → Reply} (h : command c = some (n, f))
    (s : State) : (f s).Sound s := by
  cases c <;> simp only [command, Option.some.injEq, Prod.mk.injEq, reduceCtorEq] at h
  case badCommand =>
    split at h <;> cases h
    exact Reply.sound_bad s _
  all_goals
    obtain ⟨-, rfl⟩ := h
    simp only [readStatus, readItem, writeItem, commitWindow, disableWindow, readWindow, onBay, readBay,
      eject, cancelEject, retryBay, forget, forceReplay, discardHeld, readHold, popLoss, readCounts,
      zeroCounts, readError, readEvents, clearEvents]
    repeat' split
    all_goals first | exact Reply.sound_bad s _ | exact Reply.sound_ok s _ _

theorem bayArg_eq_none {n : Byte} (h : 1 < n.toNat) : bayArg n = none := by
  unfold bayArg
  rw [if_neg, if_neg] <;> rintro rfl <;> simp at h

theorem windowArg_eq_none {n : Byte} (h : 7 < n.toNat) : windowArg n = none :=
  dif_neg (by omega)

theorem onBay_bad {n : Byte} (h : 1 < n.toNat) (f : BayId → State → Reply) (s : State) :
    onBay n f s = replyBad s .badArg := by
  unfold onBay
  rw [bayArg_eq_none h]

/-- Settles O59: a command answers OK or refuses (`command_sound`), and a refusal keeps the state. -/
theorem failedCommandsChangeNothing : Obligations.FailedCommandsChangeNothing := by
  refine ⟨fun c s t k args st result hs hp e hran hst => ?_, fun n k s hs => ⟨fun hn => ?_, fun hn => ?_⟩⟩
  · obtain ⟨count, hframe⟩ := hs.frame
    by_cases hpor : c = .por
    · subst hpor
      cases e
      cases hran
    by_cases hend : ∃ a b d e, c = .resetEnd a b d e
    · obtain ⟨a, b, d, e', rfl⟩ := hend
      change execResetEnd a b d s e' = .next t at e
      rw [execResetEnd, hs.live] at e
      cases e
      change s.frame = _ at hran
      rw [hframe] at hran
      cases hran
    cases hf : command c with
    | none =>
      rw [exec_event hpor (fun a b d e hc => hend ⟨a, b, d, e, hc⟩) hs.live hp] at e
      cases e
      unfold effect at hran
      rw [hf] at hran
      exact absurd hran (event_not_ran hframe k args st result)
    | some p =>
      obtain ⟨n, f⟩ := p
      rw [exec_command hs hf hp] at e
      cases e
      have hcommand := command_sound hf s
      generalize f s = r at hran hcommand ⊢
      cases hran
      obtain hok | ⟨st, rfl⟩ := hcommand
      · exact absurd hok hst
      · rfl
  · have hbad (f : BayId → State → Reply) {c : Instr} (hf : command c = some (1, onBay n f))
        (hp : c.passed = false) : exec c s = .next (s.reply 1 .badArg []) := by
      rw [exec_command hs hf hp, onBay_bad hn]
      rfl
    simp only [List.forall_mem_cons]
    exact ⟨hbad _ rfl rfl, hbad _ rfl rfl, hbad _ rfl rfl, hbad _ rfl rfl, hbad _ rfl rfl,
      hbad _ rfl rfl, by simp⟩
  · have hnone := windowArg_eq_none hn
    simp only [List.forall_mem_cons]
    refine ⟨?_, ?_, ?_, by simp⟩
    · rw [exec_command hs rfl rfl, commitWindow, hnone]
      rfl
    · rw [exec_command hs rfl rfl, disableWindow, hnone]
      rfl
    · rw [exec_command hs rfl rfl, readWindow, hnone]
      rfl

end Sys2Proof.Machine
end

section
/-! PROOFS. The management port's frames: the bytes that its bits make, the command that they spell, the
counts and SDO (R152 to R156, R163, R165, R171, R172). -/

namespace Sys2Proof.Machine

/-! ### Bits and bytes -/

theorem foldl_shiftIn_bitsOfByte (x : Byte) : (bitsOfByte x).foldl shiftIn 0 = x := by
  apply BitVec.eq_of_getMsbD_eq
  intro i hi
  simp only [bitsOfByte, List.foldl_cons, List.foldl_nil, shiftIn]
  interval_cases i <;> simp [BitVec.getMsbD_or, BitVec.getMsbD_shiftLeft, BitVec.getMsbD_setWidth, BitVec.getMsbD_ofBool]

theorem bytesOfBits_byte (x : Byte) (l : List Bool) :
    bytesOfBits (bitsOfByte x ++ l) = x :: bytesOfBits l := by
  conv_rhs => rw [← foldl_shiftIn_bitsOfByte x]
  rfl

theorem bytesOfBits_flatMap (bytes : List Byte) (l : List Bool) :
    bytesOfBits (bytes.flatMap bitsOfByte ++ l) = bytes ++ bytesOfBits l := by
  induction bytes with
  | nil => rfl
  | cons x xs ih => rw [List.flatMap_cons, List.append_assoc, bytesOfBits_byte, ih, List.cons_append]

theorem bytesOfBits_length (l : List Bool) : (bytesOfBits l).length = l.length / 8 := by
  induction l using bytesOfBits.induct with
  | case1 a b c d e f g h rest ih =>
    simp only [bytesOfBits, List.length_cons, ih]
    omega
  | case2 l hl =>
    have hshort : l.length < 8 := by
      rcases l with _ | ⟨a, _ | ⟨b, _ | ⟨c, _ | ⟨d, _ | ⟨e, _ | ⟨f, _ | ⟨g, _ | ⟨h, rest⟩⟩⟩⟩⟩⟩⟩⟩
      case cons.cons.cons.cons.cons.cons.cons.cons => exact absurd rfl (hl a b c d e f g h rest)
      all_goals simp
    rw [bytesOfBits]
    · simp only [List.length_nil]
      omega
    · exact hl

theorem bytesOfBits_short {l : List Bool} (h : l.length < 8) : bytesOfBits l = [] :=
  List.eq_nil_of_length_eq_zero (by rw [bytesOfBits_length]; omega)

@[simp] theorem bitsOfByte_length (x : Byte) : (bitsOfByte x).length = 8 := rfl

theorem flatMap_bitsOfByte_length (bytes : List Byte) :
    (bytes.flatMap bitsOfByte).length = 8 * bytes.length := by
  induction bytes with
  | nil => rfl
  | cons x xs ih =>
    simp only [List.flatMap_cons, List.length_append, bitsOfByte_length, ih, List.length_cons]
    omega

/-- The whole bytes among the first `n` bits of a frame. -/
theorem bytesOfBits_take (bytes : List Byte) (n : Nat) :
    bytesOfBits ((bytes.flatMap bitsOfByte).take n) = bytes.take (n / 8) := by
  induction bytes generalizing n with
  | nil => simp [bytesOfBits]
  | cons x xs ih =>
    by_cases hn : n < 8
    · rw [bytesOfBits_short, Nat.div_eq_of_lt hn, List.take_zero]
      exact (List.length_take_le n _).trans_lt hn
    · obtain ⟨m, rfl⟩ := Nat.exists_eq_add_of_le (Nat.le_of_not_lt hn)
      rw [List.flatMap_cons, ← bitsOfByte_length x, List.take_length_add_append, bytesOfBits_byte, ih,
        bitsOfByte_length, Nat.add_div_left _ (by omega), List.take_succ_cons]

/-! ### The command that a frame spells -/

theorem cmdOfCode_code (c : Cmd) : cmdOfCode c.code = some c := by cases c <;> rfl

/-- A command has exactly its argument bytes. -/
theorem length_of_instr {c : Cmd} {keys : KeySample} {passed : Bool} {l : List Byte} {i : Instr}
    (h : c.instr keys passed l = some i) : l.length = c.argBytes := by
  unfold Cmd.instr at h
  split at h <;> first | rfl | cases h

/-- The bytes of a frame spell the command `i`: a byte 0 that names no command, or a code and the
arguments of its command (R153, R156). -/
inductive Spells (i : Instr) : List Byte → Prop
  | bad {b : Byte} (h : cmdOfCode b = none) (hi : i = .badCommand b) : Spells i [b]
  | command {c : Cmd} {l : List Byte} (h : c.instr i.keys i.passed l = some i) : Spells i (c.code :: l)

theorem wordOfBytes_extract (v : Word) :
    wordOfBytes (v.extractLsb' 24 8) (v.extractLsb' 16 8) (v.extractLsb' 8 8) (v.extractLsb' 0 8) =
      v := by
  unfold wordOfBytes
  rw [BitVec.extractLsb'_append_extractLsb'_eq_extractLsb' (start₁ := 16) (start₂ := 24) (by rfl),
    BitVec.extractLsb'_append_extractLsb'_eq_extractLsb' (start₁ := 8) (by rfl),
    BitVec.extractLsb'_append_extractLsb'_eq_extractLsb' (start₁ := 0) (by rfl)]
  exact BitVec.extractLsb'_eq_self

theorem serialOfBytes_extract (v : Serial) :
    serialOfBytes (v.extractLsb' 56 8) (v.extractLsb' 48 8) (v.extractLsb' 40 8) (v.extractLsb' 32 8)
      (v.extractLsb' 24 8) (v.extractLsb' 16 8) (v.extractLsb' 8 8) (v.extractLsb' 0 8) = v := by
  unfold serialOfBytes
  rw [BitVec.extractLsb'_append_extractLsb'_eq_extractLsb' (start₁ := 48) (start₂ := 56) (by rfl),
    BitVec.extractLsb'_append_extractLsb'_eq_extractLsb' (start₁ := 40) (by rfl),
    BitVec.extractLsb'_append_extractLsb'_eq_extractLsb' (start₁ := 32) (by rfl),
    BitVec.extractLsb'_append_extractLsb'_eq_extractLsb' (start₁ := 24) (by rfl),
    BitVec.extractLsb'_append_extractLsb'_eq_extractLsb' (start₁ := 16) (by rfl),
    BitVec.extractLsb'_append_extractLsb'_eq_extractLsb' (start₁ := 8) (by rfl),
    BitVec.extractLsb'_append_extractLsb'_eq_extractLsb' (start₁ := 0) (by rfl)]
  exact BitVec.extractLsb'_eq_self

theorem spells_encodeFrame {i : Instr} (hw : i.wellFormed = true) (hne : encodeFrame i ≠ []) :
    Spells i (encodeFrame i) := by
  cases i
  case badCommand b => exact .bad (by simpa [Instr.wellFormed] using hw) rfl
  case writeItem c v =>
    refine .command ?_
    have hcode : c ≠ eventEnableCode := by simpa [Instr.wellFormed] using hw
    simp only [wordBytes, Cmd.instr, wordOfBytes_extract, if_neg hcode]
  case writeEventEnable v =>
    refine .command ?_
    simp only [wordBytes, Cmd.instr, wordOfBytes_extract, if_pos]
  case clearEvents v =>
    refine .command ?_
    simp only [wordBytes, Cmd.instr, wordOfBytes_extract]
  case discardHeld n sc =>
    refine .command ?_
    simp only [serialBytes, List.cons_append, List.nil_append, Cmd.instr, serialOfBytes_extract]
  all_goals first | exact absurd rfl hne | exact .command rfl

theorem Spells.decode {i : Instr} {bytes : List Byte} (h : Spells i bytes) (more : List Byte) :
    decodeFrame i.keys i.passed (bytes ++ more) = some i ∧ frameRuns (bytes ++ more) = true := by
  cases h with
  | bad h hi => simp [decodeFrame, frameRuns, h, hi]
  | command h =>
    have hlen := length_of_instr h
    simp [decodeFrame, frameRuns, cmdOfCode_code, ← hlen, h]

theorem Spells.no_fewer {i : Instr} {bytes : List Byte} (h : Spells i bytes) {n : Nat}
    (hn : n < bytes.length) :
    frameRuns (bytes.take n) = false ∧ decodeFrame i.keys i.passed (bytes.take n) = none := by
  cases n with
  | zero => exact ⟨rfl, rfl⟩
  | succ n =>
    cases h with
    | bad => simp at hn
    | @command c l h =>
      have hlen := length_of_instr h
      have hfew : ((l.take n).take c.argBytes).length < c.argBytes := by
        simp only [List.length_cons] at hn
        simp only [List.length_take]
        omega
      refine ⟨?_, ?_⟩
      · simp only [List.take_succ_cons, frameRuns, cmdOfCode_code, decide_eq_false_iff_not]
        simp only [List.length_take] at hfew ⊢
        omega
      · simp only [List.take_succ_cons, decodeFrame, cmdOfCode_code]
        cases hi : c.instr i.keys i.passed ((l.take n).take c.argBytes) with
        | none => rfl
        | some j => exact absurd (length_of_instr hi) (by omega)

/-- Settles O60: eight bits make a byte again (`bytesOfBits_flatMap`), and the bytes of a frame spell its
command and no fewer do (`Spells`). -/
theorem framesSpellTheirCommand : Obligations.FramesSpellTheirCommand := by
  intro i more hw hne
  have hspells := spells_encodeFrame hw hne
  have hlen := flatMap_bitsOfByte_length (encodeFrame i)
  obtain ⟨hdecode, hruns⟩ := hspells.decode (bytesOfBits more)
  refine ⟨hlen, ?_, ?_, fun n hn => ?_⟩
  · rwa [bytesOfBits_flatMap]
  · rwa [bytesOfBits_flatMap]
  · rw [bytesOfBits_take]
    exact hspells.no_fewer (by omega)

/-! ### Counts and SDO -/

/-- The clock cycles of a frame so far. -/
def Count.cycles (k : Count) : Nat := 8 * k.bytes + k.bits.val

theorem Count.cycles_clock (k : Count) : k.clock.cycles = k.cycles + 1 := by
  obtain ⟨bytes, bits⟩ := k
  unfold Count.clock Count.cycles
  split
  next h =>
    have hval : bits.val = 7 := congrArg Fin.val h
    simp only [hval, Fin.val_zero]
    omega
  next h =>
    have hval : bits.val ≠ 7 := fun hv => h (Fin.ext hv)
    have hnext : (bits + 1).val = bits.val + 1 := by
      have := bits.isLt
      rw [Fin.val_add_one_of_lt' (by omega)]
    simp only [hnext]
    omega

theorem Count.cycles_clocks (k : Count) (n : Nat) : (k.clocks n).cycles = k.cycles + n := by
  induction n with
  | zero => rfl
  | succ n ih => rw [Count.clocks, Count.cycles_clock, ih, Nat.add_assoc]

theorem Count.clocks_bytes (k : Count) (n : Nat) :
    (k.clocks n).bytes = (8 * k.bytes + k.bits.val + n) / 8 := by
  have h := k.cycles_clocks n
  have hbits := (k.clocks n).bits.isLt
  unfold Count.cycles at h
  omega

theorem Count.clocks_bits (k : Count) (n : Nat) :
    (k.clocks n).bits.val = (k.bits.val + n) % 8 := by
  have h := k.cycles_clocks n
  have hbits := (k.clocks n).bits.isLt
  unfold Count.cycles at h
  omega

theorem sdo_ran {s : State} {k : Count} {n : Nat} {st : Status} {r : List Byte}
    (h : s.frame = .ran k n st r) (m : Nat) :
    sdo s m =
      some ((sdoByte s ((8 * k.bytes + k.bits.val + m) / 8)).getMsbD ((k.bits.val + m) % 8)) := by
  simp only [sdo, h, Frame.count, Option.map_some, Count.clocks_bytes, Count.clocks_bits]

/-- A frame whose bits end before its command's last byte has not run it. -/
theorem frameRuns_of_short {bits : List Bool}
    (h : bits.length < 8 ∨ ∃ code c, (bytesOfBits bits).head? = some code ∧ cmdOfCode code = some c ∧
      bits.length < 8 * (c.argBytes + 1)) : frameRuns (bytesOfBits bits) = false := by
  obtain h | ⟨code, c, hhead, hcode, hlen⟩ := h
  · rw [bytesOfBits_short h]
    rfl
  · obtain ⟨args, hbytes⟩ := List.head?_eq_some_iff.mp hhead
    have hcount := bytesOfBits_length bits
    rw [hbytes] at hcount ⊢
    simp only [frameRuns, hcode, decide_eq_false_iff_not]
    simp only [List.length_cons] at hcount
    omega

theorem flagsByte_lt (a b c d : Bool) : (flagsByte [a, b, c, d]).toNat < 16 := by
  cases a <;> cases b <;> cases c <;> cases d <;> decide

theorem decide_ne_nil {α : Type} (l : List α) [DecidableEq α] : decide (l ≠ []) = !l.isEmpty := by
  cases l <;> simp

/-- Settles O58: SCS# by the port's four states, the counts by the cycles that they number
(`Count.cycles`), and SDO by the byte and the bit that they have come to. -/
theorem framesOpenAndClose : Obligations.FramesOpenAndClose := by
  refine ⟨fun s hrst => ⟨fun h => ?_, fun k n st r h => ?_, fun k bits h hshort => ?_,
    fun bits h => ?_, fun k h => ?_⟩, Count.cycles_clocks, fun s m => ⟨fun h => ?_, fun k h => ?_,
    fun k n st r h => ?_⟩⟩
  · exact (live_next hrst).trans (by simp only [frameStart, h]; rfl)
  · refine (live_next hrst).trans ?_
    obtain h | h := h <;> simp only [frameEnd, h]
  · exact (live_next hrst).trans (by simp [frameDiscard, h, frameRuns_of_short hshort])
  · exact (live_next hrst).trans (by simp only [frameDiscard, h])
  · have hs : Listening s := ⟨hrst, k, h⟩
    refine ⟨fun code hcode => ?_, flagsByte [s.frameError, attention s, s.hostError.isSome,
      !s.lossLog.isEmpty || s.summary.isSome], (exec_command hs (f := readStatus) rfl rfl).trans rfl, ?_, ?_, ?_, ?_,
      flagsByte_lt _ _ _ _⟩
    · exact exec_command hs (f := fun s => replyBad s .badCommand) (by simp [command, hcode]) rfl
    all_goals rw [getLsbD_flagsByte _ _ (by omega)]
    · rfl
    · rfl
    · rfl
    · rw [decide_ne_nil]
      rfl
  · obtain h | h := h <;> simp [sdoDriven, sdo, h, Frame.count]
  · simp [sdoDriven, sdo, sdoByte, h, Frame.count]
  · refine ⟨by simp only [sdoDriven, h], sdo_ran h m, fun hm => ?_, ?_, fun hst => ?_, fun hst => ?_⟩
    all_goals simp only [sdoByte, h]
    · exact if_pos hm
    · simp
    · simp [hst, Nat.not_lt.mpr (show n + 2 ≤ n + 3 + m by omega), show n + 3 + m ≠ n + 2 by omega]
    · simp [hst, Nat.not_lt.mpr (show n + 2 ≤ n + 3 + m by omega), show n + 3 + m ≠ n + 2 by omega]

end Sys2Proof.Machine
end

section
/-! PROOFS. The shared operations as the statements write them: changes of one bay beside the fields
of the part, so that a chain of them is one change. With it, mounting and the link's first statements
(chapters 4 and 5). -/

namespace Sys2Proof.Machine

/-- An event at once, out of reset, by its meaning. -/
theorem exec_to {c : Instr} {f : State → State} {s t : State} (hrst : s.rst = false)
    (hexec : exec c s = live f s) (hf : f s = t) : exec c s = .next t := by
  rw [hexec, live_next hrst, hf]

/-! ### Changes of one bay -/

theorem modBay_modBay (b : BayId) (f g : Bay → Bay) (s : State) :
    modBay b f (modBay b g s) = modBay b (fun x => f (g x)) s := by cases b <;> rfl

theorem modBay_congr {b : BayId} {f g : Bay → Bay} {s : State} (h : f (s.bay b) = g (s.bay b)) :
    modBay b f s = modBay b g s := by
  cases b
  · exact congrArg (fun x => { s with bayA := x }) h
  · exact congrArg (fun x => { s with bayB := x }) h

theorem modBay_self {b : BayId} {f : Bay → Bay} {s : State} (h : f (s.bay b) = s.bay b) :
    modBay b f s = s := by
  cases b
  · exact congrArg (fun x => { s with bayA := x }) h
  · exact congrArg (fun x => { s with bayB := x }) h

theorem raise_modBay (l : Latch) (b : BayId) (f : Bay → Bay) (s : State) :
    (modBay b f s).raise l = modBay b f (s.raise l) := by cases b <;> rfl

theorem reply_modBay (n : Nat) (st : Status) (r : List Byte) (b : BayId) (f : Bay → Bay) (s : State) :
    (modBay b f s).reply n st r = modBay b f (s.reply n st r) := by cases b <;> rfl

theorem reply_raise (n : Nat) (st : Status) (r : List Byte) (l : Latch) (s : State) :
    (s.raise l).reply n st r = (s.reply n st r).raise l := rfl

@[simp] theorem State.raise_bay (s : State) (l : Latch) (b : BayId) : (s.raise l).bay b = s.bay b := by
  cases b <;> rfl

@[simp] theorem State.reply_bay (s : State) (n : Nat) (st : Status) (r : List Byte) (b : BayId) :
    (s.reply n st r).bay b = s.bay b := by cases b <;> rfl

@[simp] theorem State.raise_items (s : State) (l : Latch) : (s.raise l).items = s.items := rfl

theorem reject_eq (b : BayId) (cause : MountCause) (s : State) : reject b cause s = s.rejected b cause := by
  cases b <;> rfl

theorem rejected_modBay (b : BayId) (cause : MountCause) (f : Bay → Bay) (s : State) :
    (modBay b f s).rejected b cause =
      modBay b (fun x => (f x).endMount.supplyOff.enter .rejected cause) (s.raise (.bay b .rejected)) := by
  cases b <;> rfl

/-! ### Grants -/

theorem grantLink_of_held {b : BayId} {s : State} (h : (s.bay b).link ≠ .free) : grantLink b s = s := by
  unfold grantLink
  cases hl : (s.bay b).link with
  | free => exact absurd hl h
  | held | abandoned => simp only [hl]

/-- A free link is granted to the host read that waits at it (R71). -/
theorem grantLink_read {b : BayId} {s : State} {a : Access} (hfree : (s.bay b).link = .free)
    (hw : waitingRead b s = some a) :
    grantLink b s =
      modBay b (fun x => { x with link := .held .read (s.readAttempt a x.reqHigh) })
        { s with host := .diverted a .onLink } := by
  unfold grantLink
  simp only [hfree, hw]
  cases b <;> rfl

theorem linkAsked_of_held {q : List QEntry} {r : Bool} {s : State} {l : Link} (h : l ≠ .free) :
    linkAsked q r s l = l := by
  cases l
  · exact absurd rfl h
  all_goals rfl

theorem linkAsked_nil (r : Bool) (s : State) (l : Link) : linkAsked [] r s l = l := by cases l <;> rfl

/-- An ask that leaves the link as it is changes nothing. -/
theorem asks_of_eq {b : BayId} {s : State}
    (h : linkAsked (s.bay b).queue (s.bay b).reqHigh s (s.bay b).link = (s.bay b).link) :
    s.asks b = s := by
  refine modBay_self ?_
  rw [h]

/-- A free link of a serving bay at which no read waits is the drain engine's (R71). -/
theorem grantLink_serving {b : BayId} {s : State} (hw : waitingRead b s = none)
    (hs : (s.bay b).state.serving = true) : grantLink b s = s.asks b := by
  by_cases hl : (s.bay b).link = .free
  · have hstate : (s.bay b).state ≠ .identifying := fun h => by simp [h, BayState.serving] at hs
    cases hq : (s.bay b).queue with
    | nil =>
      rw [asks_of_eq (by rw [hq, linkAsked_nil])]
      unfold grantLink
      simp only [hl, hw, hs, hq]
      split
      next h _ => exact absurd h hstate
      · rfl
    | cons e es =>
      unfold grantLink
      simp only [hl, hw, hs, hq]
      refine modBay_congr ?_
      simp only [hl, hq, linkAsked]
      rfl
  · rw [grantLink_of_held hl, asks_of_eq (linkAsked_of_held hl)]

/-- Otherwise the identification sequence takes it for its next transfer (R71, R86, R93). -/
theorem grantLink_ident {b : BayId} {s : State} {i : Ident} (hfree : (s.bay b).link = .free)
    (hst : (s.bay b).state = .identifying) (hi : (s.bay b).ident = some i) :
    grantLink b s =
      modBay b (fun x => { x with link := .held .ident (identTransfer i (s.firstAttempt x.reqHigh) s) })
        s := by
  have hw : waitingRead b s = none := by
    unfold waitingRead
    simp only [hst, BayState.servesReads, Bool.false_eq_true, and_false, if_false]
    split <;> rfl
  unfold grantLink
  simp only [hfree, hw, hst, hi, BayState.serving]
  exact modBay_congr rfl

/-! ### Detection, keys and power -/

/-- Settles O39: DETECT_MAKE samples both contacts before it looks at them. -/
theorem detectAndDebounce : Obligations.DetectAndDebounce := by
  refine fun b s hrst => ⟨fun h => exec_to hrst rfl ?_, fun k h => exec_to hrst rfl ?_⟩
  · rw [detectMake, if_pos h, detectSample]
    simp only [sampleDetect, modBay_bay, h, decide_true, Bool.and_self, if_true, modBay_modBay]
    exact modBay_congr (by simp [Bay.enter])
  · rw [debounceBreak, if_pos h, breakDetect, modBay_modBay]
    refine modBay_congr ?_
    cases k <;> rfl

/-- POWERING ends in IDENTIFYING with the first descriptor read (R84 to R86). -/
theorem enterIdentifying_modBay {b : BayId} {f : Bay → Bay} {s : State}
    (hfree : (f (s.bay b)).link = .free) :
    enterIdentifying b (modBay b f s) =
      modBay b
        (fun x => { f x with
          state := .identifying, powerTimer := none, identTimer := some 100, ident := some ⟨[], none⟩
          mount := { (f x).mount with cause := .none }
          link := .held .ident
            ⟨.descriptor, 0, .both, false, 0, s.items.retryLimit.toNat,
              s.firstAttempt (f x).reqHigh⟩ })
        s := by
  unfold enterIdentifying
  rw [modBay_modBay, grantLink_ident (i := ⟨[], none⟩) (by simpa using hfree) (by simp) (by simp),
    modBay_modBay]
  refine modBay_congr ?_
  simp [identTransfer, attemptsLeft, State.firstAttempt, Bay.enter]

/-- What a key read makes of the bay before it chooses: the contacts as sampled, the timer stopped, and
the fields of the mount record cleared (R79, R82). -/
def Bay.keyed (x : Bay) (k : KeySample) (supply : Supply) (cause : MountCause) : Bay :=
  { x with
    debounceTimer := none
    contacts := { x.contacts with k1 := k.k1, k2 := k.k2, pgood := k.pgood }
    mount :=
      { cause := cause, supply := supply, serial := none, capacity := none, stamp := none,
        locked := false, verdict := .none } }

theorem supplyMask_modBay (b c : BayId) (f : Bay → Bay) (s : State) :
    supplyMask b (modBay c f s) = supplyMask b s := by
  cases b <;> simp [supplyMask]

theorem keyRead_unsupported {b : BayId} {k : KeySample} {s : State} {cause : MountCause}
    (h : chooseSupply k.k1 k.k2 (supplyMask b s) = .inr cause) :
    keyRead b (sampleKeys b k s) =
      modBay b (fun x => { x.keyed k x.mount.supply cause with state := .unsupported })
        (s.raise (.bay b .unsupported)) := by
  unfold keyRead sampleKeys
  simp only [modBay_modBay, modBay_bay, supplyMask_modBay, h, setLatch_eq_raise, raise_modBay]
  exact modBay_congr rfl

theorem keyRead_powering {b : BayId} {k : KeySample} {s : State} {v : Supply}
    (h : chooseSupply k.k1 k.k2 (supplyMask b s) = .inl v) (hgood : k.pgood = false) :
    keyRead b (sampleKeys b k s) =
      modBay b (fun x => { x.keyed k v .none with state := .powering, powerTimer := some 50 }) s := by
  unfold keyRead sampleKeys
  simp only [modBay_modBay, modBay_bay, supplyMask_modBay, h, enterPowering]
  rw [if_neg (by simp [hgood])]
  exact modBay_congr rfl

theorem keyRead_identifying {b : BayId} {k : KeySample} {s : State} {v : Supply}
    (h : chooseSupply k.k1 k.k2 (supplyMask b s) = .inl v) (hgood : k.pgood = true)
    (hfree : (s.bay b).link = .free) :
    keyRead b (sampleKeys b k s) =
      modBay b
        (fun x => { x.keyed k v .none with
          state := .identifying, powerTimer := none, identTimer := some 100, ident := some ⟨[], none⟩
          link := .held .ident
            ⟨.descriptor, 0, .both, false, 0, s.items.retryLimit.toNat, s.firstAttempt x.reqHigh⟩ })
        s := by
  unfold keyRead sampleKeys
  simp only [modBay_modBay, modBay_bay, supplyMask_modBay, h, enterPowering]
  rw [if_pos (by simp [hgood]), enterIdentifying_modBay (by simpa using hfree)]
  exact modBay_congr rfl

theorem chooseSupply_none {k1 k2 : Bool} {mask : SupplyMask}
    (hlow : ¬(k2 = true ∧ (mask = .v18 ∨ mask = .both)))
    (hhigh : ¬(k1 = true ∧ (mask = .v33 ∨ mask = .both))) :
    chooseSupply k1 k2 mask =
      .inr (if k1 = false ∧ k2 = false then .noKey else .supplyNotAllowed) := by
  unfold chooseSupply
  cases k1 <;> cases k2 <;> simp_all

theorem chooseSupply_some {k1 k2 : Bool} {mask : SupplyMask} {v : Supply}
    (h : (k2 = true ∧ (mask = .v18 ∨ mask = .both)) ∧ v = .v18 ∨
      ¬(k2 = true ∧ (mask = .v18 ∨ mask = .both)) ∧ (k1 = true ∧ (mask = .v33 ∨ mask = .both)) ∧
        v = .v33) :
    chooseSupply k1 k2 mask = .inl v := by
  unfold chooseSupply
  obtain ⟨⟨rfl, hmask⟩, rfl⟩ | ⟨hlow, ⟨rfl, hmask⟩, rfl⟩ := h
  · cases k1 <;> simp [hmask]
  · cases k2 <;> simp_all

/-- A key read reaches one bay and its latches alone, so that it does not see the answer to its command. -/
theorem keyRead_reply {b : BayId} (k : KeySample) {s : State} (hfree : (s.bay b).link = .free) (n : Nat)
    (st : Status) (r : List Byte) :
    (keyRead b (sampleKeys b k s)).reply n st r = keyRead b (sampleKeys b k (s.reply n st r)) := by
  have hmask : supplyMask b (s.reply n st r) = supplyMask b s := by cases b <;> rfl
  cases hc : chooseSupply k.k1 k.k2 (supplyMask b s) with
  | inr cause =>
    rw [keyRead_unsupported hc, keyRead_unsupported (by rw [hmask, hc]), reply_modBay, reply_raise]
  | inl v =>
    cases hgood : k.pgood with
    | false => rw [keyRead_powering hc hgood, keyRead_powering (by rw [hmask, hc]) hgood, reply_modBay]
    | true =>
      rw [keyRead_identifying hc hgood hfree,
        keyRead_identifying (by rw [hmask, hc]) hgood (by rw [State.reply_bay, hfree]), reply_modBay]
      rfl

/-- Settles O40: both rows lead to `keyRead` of the sampled keys, which the choice of the supply and
power-good divide. -/
theorem keyReadChoosesTheSupply : Obligations.KeyReadChoosesTheSupply := by
  intro c b k s u hc hfree mask low high read
  have hread : exec c s = .next (keyRead b (sampleKeys b k u)) ∧ u.bay b = s.bay b ∧
      u.items = s.items := by
    obtain ⟨rfl, hrst, hst, htimer, rfl⟩ | ⟨n, rfl, hn, hs, rfl, hst⟩ := hc
    · refine ⟨exec_to hrst rfl ?_, State.raise_bay _ _ _, rfl⟩
      rw [debounceExpiry, if_pos ⟨hst, htimer⟩]
      simp only [sampleKeys, setLatch_eq_raise, raise_modBay]
    · refine ⟨?_, State.reply_bay _ _ _ _ _, rfl⟩
      rw [exec_command hs (f := onBay n (retryBay k)) rfl rfl, ← keyRead_reply k hfree]
      simp only [onBay, hn]
      obtain h | h | h := hst <;> simp only [retryBay, h] <;> rfl
  obtain ⟨hexec, hbay, hitems⟩ := hread
  have hmask : supplyMask b u = mask := by cases b <;> simp [supplyMask, hitems, mask]
  have hattempt (r : Bool) : u.firstAttempt r = s.firstAttempt r := by
    simp [State.firstAttempt, hitems]
  refine ⟨fun cause hlow hhigh hcause => ?_, fun v hv => ⟨fun hgood => ?_, fun hgood => ?_⟩⟩
  · rw [hexec, keyRead_unsupported (by rw [hmask, chooseSupply_none hlow hhigh, ← hcause])]
    rfl
  · rw [hexec, keyRead_powering (by rw [hmask, chooseSupply_some hv]) hgood]
    rfl
  · rw [hexec, keyRead_identifying (by rw [hmask, chooseSupply_some hv]) hgood (by rw [hbay, hfree])]
    simp only [hattempt, hitems]
    rfl

/-- Settles O41: power-good leads to `enterIdentifying`, the timers to `reject`. -/
theorem powerGoodAndMountTimers : Obligations.PowerGoodAndMountTimers := by
  refine fun b s hrst => ⟨fun hst hfree => exec_to hrst rfl ?_, fun hst ht => exec_to hrst rfl ?_,
    fun hst ht => exec_to hrst rfl ?_, fun hst => exec_to hrst rfl ?_⟩
  · rw [powerGoodRise, if_pos hst, samplePower, enterIdentifying_modBay hfree]
  · rw [powerTimerExpiry, if_pos ⟨hst, ht⟩, reject_eq]
  · rw [identTimerExpiry, if_pos ⟨hst, ht⟩, reject_eq]
  · rw [identTimerExpiry, if_neg fun h => hst h.1]

/-! ### Identification -/

/-- The ACK to a descriptor read, while its xREQ is asserted (R86). -/
theorem descriptorAnswer_eq {b : BayId} {data : Half} {lock : Bool} {tr : Transfer} {n : BitVec 8}
    {halves : List Half} {s : State} (hst : (s.bay b).state = .identifying)
    (hl : (s.bay b).link = .held .ident tr) (hp : tr.phase = .requested n)
    (hi : (s.bay b).ident = some ⟨halves, none⟩) :
    descriptorAnswer b data lock s =
      if halves.length < 15 then
        grantLink b (freeLink b
          (modBay b (fun x => { x with ident := some ⟨halves ++ [data], none⟩ }) s))
      else
        checkDescriptor b ⟨halves ++ [data], none⟩ (sampleLock b lock
          (modBay b (fun x => { x with ident := some ⟨halves ++ [data], none⟩ }) s)) := by
  unfold descriptorAnswer
  simp only [hst, hl, hi, hp, Phase.asserted, if_true, List.length_append, List.length_singleton]
  by_cases h : halves.length < 15
  · rw [if_pos h, if_pos (by omega)]
  · rw [if_neg h, if_neg (by omega)]

theorem descriptorValid_iff (d : List Half) : descriptorValid d = true ↔
    descSignature d = 0x5A3C#16 ∧ descVersion d = 1#8 ∧ descSerial d ≠ 0#64 ∧
      1 ≤ (descCapacity d).toNat ∧ (descCapacity d).toNat ≤ 16384 := by
  simp [descriptorValid, and_assoc]

theorem request_held {h : Holder} {tr : Transfer} {n : BitVec 8} (hp : tr.phase = .requested n) :
    (Link.held h tr).request = true := by
  simp [Link.request, hp, Phase.asserted]

/-- Settles O42: fewer than sixteen halfwords ask for the next, the sixteenth meets the descriptor check
and the conflict check in their order. -/
theorem descriptorIsReadAndChecked : Obligations.DescriptorIsReadAndChecked := by
  intro b data lock tr n halves s hrst hst hl hp hi d valid
  have hvalid : descriptorValid d = true ↔ valid := descriptorValid_iff d
  have hrequest := request_held (h := .ident) hp
  refine ⟨fun hlen => exec_to hrst rfl ?_, fun hlen hnot => exec_to hrst rfl ?_,
    fun hlen hyes hother hserial => exec_to hrst rfl ?_⟩
  all_goals rw [timed_false, descriptorAnswer_eq hst hl hp hi]
  · rw [if_pos hlen, freeLink, modBay_modBay, grantLink_ident (i := ⟨halves ++ [data], none⟩) (by simp)
      (by simp [hst]) (by simp), modBay_modBay]
    refine modBay_congr ?_
    simp [identTransfer, attemptsLeft, State.firstAttempt, Bay.dropLink, hl, hrequest, d]
  · have hbad : (!descriptorValid (halves ++ [data])) = true := by
      rw [Bool.not_eq_true', Bool.eq_false_iff]
      exact fun h => hnot (hvalid.mp h)
    rw [if_neg (by omega), checkDescriptor, if_pos hbad, reject_eq, sampleLock, modBay_modBay,
      rejected_modBay, rejected_modBay]
    exact modBay_congr rfl
  · have hgood : ¬(!descriptorValid (halves ++ [data])) = true := by
      rw [hvalid.mpr hyes]
      exact Bool.false_ne_true
    rw [if_neg (by omega), checkDescriptor, if_neg hgood]
    simp only [sampleLock, modBay_modBay, modBay_bay_other]
    rw [if_pos (by simp [hother, hserial, d]), reject_eq, rejected_modBay, rejected_modBay]
    exact modBay_congr rfl

end Sys2Proof.Machine
end

section
/-! PROOFS. Handling an access and settling a bay, as the statements write them: `State.meets` and
`State.replayed` are what the part does to the waiting access and to a bay in REPLAY. -/

namespace Sys2Proof.Machine

/-! ### Releases, acceptances and the absent policies -/

@[simp] theorem State.errorRelease_bay (s : State) (a : Access) (c : HostCause) (n : Option Word)
    (b : BayId) : (s.errorRelease a c n).bay b = s.bay b := by cases b <;> rfl

theorem State.setHost_bay (s : State) (h : HostPort) (b : BayId) :
    ({ s with host := h } : State).bay b = s.bay b := by cases b <;> rfl

theorem absentRead_eq (a : Access) (s : State) : absentRead a s = s.absentRead a := by
  unfold absentRead State.absentRead
  cases a.copy.absentReads <;> rfl

theorem acceptAbsent_eq (a : Access) (serial : Serial) (stamp : Stamp) (s : State) :
    acceptAbsent a serial stamp s =
      { (if s.items.holdThreshold.toNat ≤ s.hold.length + 1 then s.raise .holdHigh else s).accepts with
        host := .released false none
        hold := s.hold ++ [{ ord := s.nextOrd, write := s.write a serial stamp, stale := false }] } := by
  unfold acceptAbsent joinNewest holdHigh
  have hhold : (takeNumber s).hold = s.hold := rfl
  have hitems : (takeNumber s).items = s.items := rfl
  simp only [List.length_append, List.length_singleton, hhold, hitems]
  by_cases h : s.items.holdThreshold.toNat ≤ s.hold.length + 1
  · rw [if_pos h, if_pos h]
    rfl
  · rw [if_neg h, if_neg h]
    rfl

theorem absentWrite_eq (a : Access) (s : State) : absentWrite a s = s.absentWrite a := by
  unfold absentWrite State.absentWrite
  cases a.copy.absentWrites with
  | refuse => rfl
  | hold =>
    cases hl : (s.bay a.copy.bay).last with
    | none => rfl
    | some r =>
      obtain ⟨serial, capacity, stamp⟩ := r
      cases stamp with
      | locked => rfl
      | bound stamp =>
        dsimp only
        by_cases hmode : a.copy.mode = .readOnly
        · rw [if_pos hmode, if_pos hmode]
          rfl
        rw [if_neg hmode, if_neg hmode]
        cases hrange : inRange a.copy.region a.carrier capacity.toNat with
        | false => rfl
        | true =>
          by_cases hroom : s.hold.length < holdCapacity
          · have hfull : ¬48 ≤ s.hold.length := Nat.not_le.mpr hroom
            rw [if_neg (by simp), if_pos hroom, if_neg (by simp), if_neg hfull, acceptAbsent_eq]
          · have hfull : 48 ≤ s.hold.length := Nat.not_lt.mp hroom
            rw [if_neg (by simp), if_neg hroom, if_neg (by simp), if_pos hfull]
            rfl

theorem acceptQueue_eq (a : Access) (s : State) :
    acceptQueue a s =
      modBay a.copy.bay
        (fun x => { x with
          queue := x.queue ++ [s.entry a ((s.bay a.copy.bay).mount.serial.getD 0)
            ((s.bay a.copy.bay).mount.stamp.getD ⟨0, 0, 0⟩)] })
        { s.accepts with host := s.acceptedHost a } := by
  have hentry : acceptedEntry a s = s.entry a ((s.bay a.copy.bay).mount.serial.getD 0)
      ((s.bay a.copy.bay).mount.stamp.getD ⟨0, 0, 0⟩) := rfl
  unfold acceptQueue State.acceptedHost
  rw [hentry]
  generalize s.entry a _ _ = e
  by_cases hmode : a.copy.mode = .through
  · rw [if_pos hmode, if_pos hmode]
    cases a.copy.bay <;> rfl
  · rw [if_neg hmode, if_neg hmode]
    cases a.copy.bay <;> rfl

/-! ### The link after a change of the host -/

theorem linkAsked_congr {s t : State} (h : t.items = s.items) (q : List QEntry) (r : Bool) (l : Link) :
    linkAsked q r t l = linkAsked q r s l := by
  unfold linkAsked State.entryAttempt State.firstAttempt
  rw [h]

/-- No read waits for the grant of any link. -/
theorem waitingRead_of_not_grant {s : State} (h : ∀ a, s.host ≠ .diverted a .grant) (b : BayId) :
    waitingRead b s = none :=
  waitingRead_eq_none fun a ha _ => absurd ha (h a)

/-- A serving bay at which the host asks for nothing. -/
theorem grantLink_asks {b : BayId} {s : State} (h : ∀ a, s.host ≠ .diverted a .grant)
    (hs : (s.bay b).state.serving = true) : grantLink b s = s.asks b :=
  grantLink_serving (waitingRead_of_not_grant h b) hs

/-- A bay out of service that identifies nothing has no requester. -/
theorem grantLink_out {b : BayId} {s : State} (hs : (s.bay b).state.serving = false)
    (hi : (s.bay b).state ≠ .identifying) : grantLink b s = s := by
  exact grantLink_of_noGrantDue (NoGrantDue.of_out hs hi)

/-! ### The waiting access meets its bay -/

theorem readMatches_iff {a : Access} {x : Bay} : readMatches a x = true ↔
    a.copy.region = .data ∧ ∃ e ∈ x.queue, e.write.addr = a.carrier := by
  simp [readMatches]

theorem acceptedHost_ne_grant (s : State) (a b : Access) :
    s.acceptedHost a ≠ .diverted b .grant := by
  unfold State.acceptedHost
  split <;> exact fun h => nomatch h

/-- A write in READY, by the checks of R40. -/
theorem grantLink_writeReady {a : Access} {s : State} (hst : (s.bay a.copy.bay).state = .ready)
    (hw : a.write = true) :
    grantLink a.copy.bay (writeReady a s) = s.meets a fun t => t.asks a.copy.bay := by
  have hasks {t : State} (ht : (t.bay a.copy.bay).state = (s.bay a.copy.bay).state)
      (hh : ∀ b, t.host ≠ .diverted b .grant) : grantLink a.copy.bay t = t.asks a.copy.bay :=
    grantLink_asks hh (by rw [ht, hst]; rfl)
  unfold writeReady State.meets mountedCapacity
  simp only [hst, hw]
  cases inRange a.copy.region a.carrier ((s.bay a.copy.bay).mount.capacity.getD 0).toNat with
  | false => exact hasks (by simp) (fun _ h => nomatch h)
  | true =>
    by_cases hmode : a.copy.mode = .readOnly
    · simp only [hmode, if_true]
      exact hasks (by simp) (fun _ h => nomatch h)
    cases hlocked : (s.bay a.copy.bay).mount.locked with
    | true =>
      simp only [hmode, if_true, if_false]
      exact hasks (by simp) (fun _ h => nomatch h)
    | false =>
      by_cases hroom : (s.bay a.copy.bay).queue.length < queueCapacity
      · have hfull : ¬16 ≤ (s.bay a.copy.bay).queue.length := Nat.not_le.mpr hroom
        simp only [hmode, hroom, hfull, if_true, if_false, Bool.not_true, Bool.false_eq_true,
          acceptQueue_eq]
        exact hasks (by simp [State.accepts]) (fun b => by simpa using acceptedHost_ne_grant s a b)
      · have hfull : 16 ≤ (s.bay a.copy.bay).queue.length := Nat.not_lt.mp hroom
        simp only [hmode, hroom, hfull, if_true, if_false, Bool.not_true, Bool.false_eq_true]
        exact hasks (by simp) (fun _ h => nomatch h)

/-- What `State.meets` does to a read of a bay in READY or DRAINING (R46). -/
theorem grantLink_readServing {a : Access} {s : State}
    (hst : (s.bay a.copy.bay).state = .ready ∨ (s.bay a.copy.bay).state = .draining)
    (hw : a.write = false) :
    grantLink a.copy.bay (readServing a s) = s.meets a fun t => t.asks a.copy.bay := by
  have hserves : (s.bay a.copy.bay).state.servesReads = true := by
    obtain h | h := hst <;> rw [h] <;> rfl
  have hasks {t : State} (ht : (t.bay a.copy.bay).state = (s.bay a.copy.bay).state)
      (hh : ∀ b, t.host ≠ .diverted b .grant) : grantLink a.copy.bay t = t.asks a.copy.bay :=
    grantLink_asks hh (by rw [ht]; obtain h | h := hst <;> rw [h] <;> rfl)
  have hmeets : s.meets a (fun t => t.asks a.copy.bay) =
      if inRange a.copy.region a.carrier ((s.bay a.copy.bay).mount.capacity.getD 0).toNat = false then
        (s.errorRelease a .range none).asks a.copy.bay
      else if a.copy.region = .data ∧ ∃ e ∈ (s.bay a.copy.bay).queue, e.write.addr = a.carrier then
        State.asks { s with host := .diverted (a.stalled s) .queueMatch } a.copy.bay
      else if (s.bay a.copy.bay).link = .free then
        modBay a.copy.bay (fun x => { x with link := .held .read (s.readAttempt a x.reqHigh) })
          { s with host := .diverted (a.stalled s) .onLink }
      else State.asks { s with host := .diverted (a.stalled s) .grant } a.copy.bay := by
    unfold State.meets
    obtain h | h := hst <;> simp only [h, hw]
  rw [hmeets]
  unfold readServing mountedCapacity
  dsimp only
  cases inRange a.copy.region a.carrier ((s.bay a.copy.bay).mount.capacity.getD 0).toNat with
  | false => exact hasks (by simp) (fun _ h => nomatch h)
  | true =>
    by_cases hmatch : a.copy.region = .data ∧ ∃ e ∈ (s.bay a.copy.bay).queue, e.write.addr = a.carrier
    · have hyes : readMatches a (s.bay a.copy.bay) = true := readMatches_iff.mpr hmatch
      simp only [hyes, if_pos hmatch, Bool.not_true, Bool.true_eq_false, Bool.false_eq_true, if_true,
        if_false]
      exact hasks (by simp) (fun _ h => nomatch h)
    · have hno : readMatches a (s.bay a.copy.bay) = false :=
        Bool.eq_false_iff.mpr fun h => hmatch (readMatches_iff.mp h)
      simp only [hno, if_neg hmatch, Bool.not_true, Bool.true_eq_false, Bool.false_eq_true, if_false]
      have hwaits : waitingRead a.copy.bay (waitIn a .grant s) = some (a.stalled s) := by
        simp [waitingRead, hserves, Access.stalled]
      by_cases hfree : (s.bay a.copy.bay).link = .free
      · rw [if_pos hfree]
        exact grantLink_read (by simpa using hfree) hwaits
      · rw [if_neg hfree]
        have hheld : ((waitIn a .grant s).bay a.copy.bay).link ≠ .free := by simpa using hfree
        exact (grantLink_of_held hheld).trans (asks_of_eq (linkAsked_of_held hheld)).symm

theorem handleAccess_replay {a : Access} {s : State} (h : (s.bay a.copy.bay).state = .replay) :
    handleAccess a s = waitIn a .replay s := by
  unfold handleAccess
  simp only [h]

/-- What handling an access by its bay's state, and then the arbiter, make of it: `State.meets`, but for a
bay in REPLAY, where the access stalls (R36, R39). -/
theorem grantLink_handleAccess {a : Access} {s : State} (hr : (s.bay a.copy.bay).state ≠ .replay)
    (hdue : (s.bay a.copy.bay).state.serving = false → NoGrantDue a.copy.bay s) :
    grantLink a.copy.bay (handleAccess a s) = s.meets a fun t => t.asks a.copy.bay := by
  have hout (hs : (s.bay a.copy.bay).state.serving = false) {t : State}
      (ht : t.bay a.copy.bay = s.bay a.copy.bay) : grantLink a.copy.bay t = t := by
    refine grantLink_of_noGrantDue ((hdue hs).mono ?_ ?_ ?_ ?_ fun _ => waitingRead_eq_none
      fun b hb _ => ?_) <;> rw [ht]
    · exact id
    · exact id
    · cases hst : (s.bay a.copy.bay).state
      case replay | ready | draining =>
        rw [hst] at hs
        cases hs
      all_goals rfl
  have habsent (hs : (s.bay a.copy.bay).state.serving = false) :
      grantLink a.copy.bay (if a.write then absentWrite a s else absentRead a s) =
        if a.write then s.absentWrite a else s.absentRead a := by
    cases a.write with
    | true => exact (hout hs (by simp)).trans (absentWrite_eq a s)
    | false => exact (hout hs (by simp)).trans (absentRead_eq a s)
  cases hst : (s.bay a.copy.bay).state
  case replay => exact absurd hst hr
  case ready =>
    cases hw : a.write with
    | true =>
      rw [← grantLink_writeReady hst hw]
      simp only [handleAccess, hst, hw, if_true]
    | false =>
      rw [← grantLink_readServing (.inl hst) hw]
      simp only [handleAccess, hst, hw, Bool.false_eq_true, if_false]
  case draining =>
    cases hw : a.write with
    | true =>
      simp only [handleAccess, State.meets, hst, hw, if_true]
      exact grantLink_asks (fun _ h => nomatch h) (by simp [hst]; rfl)
    | false =>
      rw [← grantLink_readServing (.inr hst) hw]
      simp only [handleAccess, hst, hw, Bool.false_eq_true, if_false]
  all_goals
    rw [hst] at habsent
    simp only [handleAccess, State.meets, hst]
    rw [habsent rfl]
    cases a.write <;> rfl

theorem asks_of_noGrantDue {b : BayId} {s t : State} (h : NoGrantDue b s)
    (hs : (s.bay b).state.serving = true) (ht : t.bay b = s.bay b) : t.asks b = t := by
  refine asks_of_eq ?_
  rw [ht]
  by_cases hfree : (s.bay b).link = .free
  · obtain ⟨-, hq, -⟩ := requester_eq_none_iff.mp (h hfree)
    rw [hq hs, linkAsked_nil]
  · exact linkAsked_of_held hfree

/-! ### A host access begins -/

theorem findWindow_eq {windows : Vector Window 8} {page : Nat} {n : Fin 8}
    (hn : windows[n].claims page = true) (hother : ∀ i : Fin 8, i ≠ n → windows[i].claims page = false) :
    findWindow windows page = some n := by
  unfold findWindow
  cases hf : windowNumbers.find? fun i => windows[i].claims page with
  | none => exact absurd hn (by simpa using List.find?_eq_none.mp hf n (mem_windowNumbers n))
  | some m =>
    have hm := List.find?_some hf
    by_cases h : m = n
    · rw [h]
    · rw [hother m h] at hm
      cases hm

section Classification

variable {c : HostCycle} {l : Lanes} {n : Fin 8} {s : State}

/-- An access that a window diverts is handled by its bay's state (R26, R36). -/
theorem Diverts.exec (h : Diverts c l n s) :
    exec (.classification c) s =
      .next (grantLink s.windows[n].record.bay (handleAccess (divertedAccess c l n s) s)) := by
  refine exec_to h.live rfl ?_
  unfold classify
  rw [h.port, h.idle, h.lanes]
  simp only [findWindow_eq h.claims h.only]
  rfl

/-- It meets its bay, but in REPLAY. -/
theorem Diverts.exec_meets (h : Diverts c l n s)
    (hr : (s.bay s.windows[n].record.bay).state ≠ .replay)
    (hdue : (s.bay s.windows[n].record.bay).state.serving = false →
      NoGrantDue s.windows[n].record.bay s) :
    Machine.exec (.classification c) s =
      .next (s.meets (divertedAccess c l n s) fun t => t.asks s.windows[n].record.bay) :=
  h.exec.trans (congrArg _ (grantLink_handleAccess (a := divertedAccess c l n s) hr hdue))

end Classification

section Meets

variable {s : State} {a : Access} {asks : State → State}

theorem meets_replay (hst : (s.bay a.copy.bay).state = .replay) : s.meets a asks = asks s := by
  unfold State.meets
  simp only [hst]

theorem meets_write_range (hst : (s.bay a.copy.bay).state = .ready) (hw : a.write = true)
    (hfit : inRange a.copy.region a.carrier ((s.bay a.copy.bay).mount.capacity.getD 0).toNat = false) :
    s.meets a asks = asks (s.errorRelease a .range none) := by
  unfold State.meets
  simp only [hst, hw, hfit, if_true]

theorem meets_write_readOnly (hst : (s.bay a.copy.bay).state = .ready) (hw : a.write = true)
    (hfit : inRange a.copy.region a.carrier ((s.bay a.copy.bay).mount.capacity.getD 0).toNat = true)
    (hmode : a.copy.mode = .readOnly) : s.meets a asks = asks (s.errorRelease a .readOnly none) := by
  unfold State.meets
  simp only [hst, hw, hfit, hmode, if_true, Bool.true_eq_false, if_false]

theorem meets_write_locked (hst : (s.bay a.copy.bay).state = .ready) (hw : a.write = true)
    (hfit : inRange a.copy.region a.carrier ((s.bay a.copy.bay).mount.capacity.getD 0).toNat = true)
    (hmode : a.copy.mode ≠ .readOnly) (hlocked : (s.bay a.copy.bay).mount.locked = true) :
    s.meets a asks = asks (s.errorRelease a .locked none) := by
  unfold State.meets
  simp only [hst, hw, hfit, hmode, hlocked, if_true, Bool.true_eq_false, if_false]

theorem meets_write_full (hst : (s.bay a.copy.bay).state = .ready) (hw : a.write = true)
    (hfit : inRange a.copy.region a.carrier ((s.bay a.copy.bay).mount.capacity.getD 0).toNat = true)
    (hmode : a.copy.mode ≠ .readOnly) (hlocked : (s.bay a.copy.bay).mount.locked = false)
    (hfull : 16 ≤ (s.bay a.copy.bay).queue.length) :
    s.meets a asks = asks { s with host := .diverted (a.stalled s) .space } := by
  unfold State.meets
  simp only [hst, hw, hfit, hmode, hlocked, hfull, if_true, Bool.true_eq_false, Bool.false_eq_true,
    if_false]

theorem meets_write_room (hst : (s.bay a.copy.bay).state = .ready) (hw : a.write = true)
    (hfit : inRange a.copy.region a.carrier ((s.bay a.copy.bay).mount.capacity.getD 0).toNat = true)
    (hmode : a.copy.mode ≠ .readOnly) (hlocked : (s.bay a.copy.bay).mount.locked = false)
    (hroom : (s.bay a.copy.bay).queue.length < 16) {serial : Serial} {stamp : Stamp}
    (hserial : (s.bay a.copy.bay).mount.serial = some serial)
    (hstamp : (s.bay a.copy.bay).mount.stamp = some stamp) :
    s.meets a asks =
      asks (modBay a.copy.bay (fun x => { x with queue := x.queue ++ [s.entry a serial stamp] })
        { s.accepts with host := s.acceptedHost a }) := by
  unfold State.meets
  simp only [hst, hw, hfit, hmode, hlocked, hserial, hstamp, Nat.not_le.mpr hroom, Bool.true_eq_false,
    Bool.false_eq_true, if_false, Option.getD_some]

theorem meets_write_draining (hst : (s.bay a.copy.bay).state = .draining) (hw : a.write = true) :
    s.meets a asks = asks (s.errorRelease a .ejecting none) := by
  unfold State.meets
  simp only [hst, hw]

theorem meets_read_range (hst : (s.bay a.copy.bay).state = .ready ∨ (s.bay a.copy.bay).state = .draining)
    (hw : a.write = false)
    (hfit : inRange a.copy.region a.carrier ((s.bay a.copy.bay).mount.capacity.getD 0).toNat = false) :
    s.meets a asks = asks (s.errorRelease a .range none) := by
  unfold State.meets
  obtain h | h := hst <;> simp only [h, hw, hfit, if_true]

theorem meets_read_match (hst : (s.bay a.copy.bay).state = .ready ∨ (s.bay a.copy.bay).state = .draining)
    (hw : a.write = false)
    (hfit : inRange a.copy.region a.carrier ((s.bay a.copy.bay).mount.capacity.getD 0).toNat = true)
    (hmatch : a.copy.region = .data ∧ ∃ e ∈ (s.bay a.copy.bay).queue, e.write.addr = a.carrier) :
    s.meets a asks = asks { s with host := .diverted (a.stalled s) .queueMatch } := by
  unfold State.meets
  obtain h | h := hst <;>
    simp only [h, hw, hfit, Bool.true_eq_false, if_false] <;> exact if_pos hmatch

theorem meets_read_held (hst : (s.bay a.copy.bay).state = .ready ∨ (s.bay a.copy.bay).state = .draining)
    (hw : a.write = false)
    (hfit : inRange a.copy.region a.carrier ((s.bay a.copy.bay).mount.capacity.getD 0).toNat = true)
    (hmatch : ¬(a.copy.region = .data ∧ ∃ e ∈ (s.bay a.copy.bay).queue, e.write.addr = a.carrier))
    (hheld : (s.bay a.copy.bay).link ≠ .free) :
    s.meets a asks = asks { s with host := .diverted (a.stalled s) .grant } := by
  unfold State.meets
  obtain h | h := hst <;>
    simp only [h, hw, hfit, Bool.true_eq_false, if_false] <;>
    exact (if_neg hmatch).trans (if_neg hheld)

theorem meets_read_free (hst : (s.bay a.copy.bay).state = .ready ∨ (s.bay a.copy.bay).state = .draining)
    (hw : a.write = false)
    (hfit : inRange a.copy.region a.carrier ((s.bay a.copy.bay).mount.capacity.getD 0).toNat = true)
    (hmatch : ¬(a.copy.region = .data ∧ ∃ e ∈ (s.bay a.copy.bay).queue, e.write.addr = a.carrier))
    (hfree : (s.bay a.copy.bay).link = .free) :
    s.meets a asks =
      modBay a.copy.bay (fun x => { x with link := .held .read (s.readAttempt a x.reqHigh) })
        { s with host := .diverted (a.stalled s) .onLink } := by
  unfold State.meets
  obtain h | h := hst <;>
    simp only [h, hw, hfit, Bool.true_eq_false, if_false] <;>
    exact (if_neg hmatch).trans (if_pos hfree)

theorem meets_write_out (hst : (s.bay a.copy.bay).state.serving = false) (hw : a.write = true) :
    s.meets a asks = s.absentWrite a := by
  unfold State.meets
  cases h : (s.bay a.copy.bay).state
  case replay | ready | draining =>
    rw [h] at hst
    cases hst
  all_goals simp only [h, hw]

theorem meets_read_out (hst : (s.bay a.copy.bay).state.serving = false) (hw : a.write = false) :
    s.meets a asks = s.absentRead a := by
  unfold State.meets
  cases h : (s.bay a.copy.bay).state
  case replay | ready | draining =>
    rw [h] at hst
    cases hst
  all_goals simp only [h, hw]

/-- An acceptance, and the drain engine's ask for the entry that joins. -/
theorem asks_accepted (e : QEntry) :
    State.asks
        (modBay a.copy.bay (fun x => { x with queue := x.queue ++ [e] })
          { s.accepts with host := s.acceptedHost a })
        a.copy.bay =
      modBay a.copy.bay
        (fun x => { x with
          queue := x.queue ++ [e], link := linkAsked (x.queue ++ [e]) x.reqHigh s x.link })
        { s.accepts with host := s.acceptedHost a } := by
  unfold State.asks
  rw [modBay_modBay]
  refine modBay_congr ?_
  rw [linkAsked_congr (s := s) (by simp [State.accepts])]

end Meets

/-! ### The statements on a host access -/

theorem inRange_mounted {r : Region} {k : Nat} {x : Bay} {capacity : BitVec 16} {v : Bool}
    (h : x.mount.capacity = some capacity) (hfit : inRange r k capacity.toNat = v) :
    inRange r k (x.mount.capacity.getD 0).toNat = v := by
  rw [h]
  exact hfit

/-- Settles O20: the checks pass, so that `State.meets` accepts the write and asks for the link. -/
theorem writeAcceptedInReady : Obligations.WriteAcceptedInReady := by
  intro c l n capacity serial stamp s w x a e h hw hst hserial hstamp hcapacity hlocked hfit hmode hroom
  rw [h.exec_meets (by rw [hst]; exact fun h => nomatch h) (by rw [hst]; exact fun h => nomatch h),
    meets_write_room (a := a) hst hw (inRange_mounted hcapacity hfit) hmode hlocked hroom hserial hstamp]
  exact congrArg _ (asks_accepted (a := a) _)

/-- Settles O21: the place is there, so that `acceptWaiting` accepts the write and asks for the link. -/
theorem waitingWriteIsAccepted : Obligations.WaitingWriteIsAccepted := by
  intro a serial stamp s x e hrst hhost hst hserial hstamp hroom
  refine exec_to hrst rfl ?_
  unfold acceptWaiting
  simp only [hhost]
  rw [if_pos ⟨hst, hroom⟩, acceptQueue_eq, hserial, hstamp,
    grantLink_asks (fun b => by simpa using acceptedHost_ne_grant s a b)
      (by simp only [modBay_bay]; exact congrArg BayState.serving hst)]
  exact asks_accepted _

/-- Settles O22: each check of `State.meets` in READY, its DRAINING row, and the stall of REPLAY. -/
theorem writeRefusedOrStalled : Obligations.WriteRefusedOrStalled := by
  intro c l n capacity s w x a fits h hdue hcapacity
  have hasks (hs : (s.bay w.bay).state.serving = true) (t : State) (ht : t.bay w.bay = s.bay w.bay) :
      t.asks w.bay = t := asks_of_noGrantDue hdue hs ht
  refine ⟨fun hw hst => ?_, fun hw hst => ?_, fun hst => ?_⟩
  · have hmeets := h.exec_meets (by rw [hst]; exact fun h => nomatch h) fun _ => hdue
    have hs : (s.bay w.bay).state.serving = true := by rw [hst]; rfl
    refine ⟨fun hfit => ?_, fun hfit hmode => ?_, fun hfit hmode hlocked => ?_,
      fun hfit hmode hlocked hfull => ?_⟩
    · rw [hmeets, meets_write_range (a := a) hst hw (inRange_mounted hcapacity hfit)]
      exact congrArg _ (hasks hs _ (releaseError_bay _ _ _ _ _))
    · rw [hmeets, meets_write_readOnly (a := a) hst hw (inRange_mounted hcapacity hfit) hmode]
      exact congrArg _ (hasks hs _ (releaseError_bay _ _ _ _ _))
    · rw [hmeets, meets_write_locked (a := a) hst hw (inRange_mounted hcapacity hfit) hmode hlocked]
      exact congrArg _ (hasks hs _ (releaseError_bay _ _ _ _ _))
    · rw [hmeets, meets_write_full (a := a) hst hw (inRange_mounted hcapacity hfit) hmode hlocked hfull]
      exact congrArg _ (hasks hs _ (waitIn_bay a .space s _))
  · rw [h.exec_meets (by rw [hst]; exact fun h => nomatch h) fun _ => hdue,
      meets_write_draining (a := a) hst hw]
    exact congrArg _ (hasks (by rw [hst]; rfl) _ (releaseError_bay _ _ _ _ _))
  · rw [h.exec, handleAccess_replay (a := a) hst,
      grantLink_asks (s := waitIn a .replay s) (fun _ h => nomatch h) (by rw [waitIn_bay, hst]; rfl)]
    exact congrArg _ (hasks (by rw [hst]; rfl) _ (waitIn_bay a .replay s _))

/-- A host access to a bay out of service ends by its absent policy. -/
theorem Diverts.exec_out {c : HostCycle} {l : Lanes} {n : Fin 8} {s : State} (h : Diverts c l n s)
    (hdue : NoGrantDue s.windows[n].record.bay s)
    (hst : (s.bay s.windows[n].record.bay).state.serving = false) :
    Machine.exec (.classification c) s =
      .next (s.meets (divertedAccess c l n s) fun t => t.asks s.windows[n].record.bay) :=
  h.exec_meets (fun hr => by rw [hr] at hst; cases hst) fun _ => hdue

/-- Settles O23: the checks of `State.absentWrite` in their order. -/
theorem absentWriteIsHeldOrRefused : Obligations.AbsentWriteIsHeldOrRefused := by
  intro c l n s w x a h hdue hw hst
  have hexec : exec (.classification c) s = .next (s.absentWrite a) :=
    (h.exec_out hdue hst).trans (congrArg _ (meets_write_out (a := a) hst hw))
  have hlast : (s.bay a.copy.bay).last = x.last := rfl
  rw [hexec]
  unfold State.absentWrite
  refine ⟨fun hp => ?_, fun hp hl => ?_, fun serial capacity slot hp hl => ?_,
    fun serial capacity stamp hp hl => ⟨fun hmode => ?_, fun hmode hfit => ?_,
      fun hmode hfit hfull => ?_, fun hmode hfit hroom => ?_⟩⟩
  all_goals have hpolicy : a.copy.absentWrites = w.absentWrites := rfl
  · rw [hpolicy, hp]
  · rw [hpolicy, hp, hlast, hl]
  · rw [hpolicy, hp, hlast, hl]
  all_goals
    rw [hpolicy, hp, hlast, hl]
    have hmode' : a.copy.mode = w.mode := rfl
    simp only [hmode']
  · rw [if_pos hmode]
  · rw [if_neg hmode]
    exact congrArg _ (if_pos hfit)
  · rw [if_neg hmode]
    exact congrArg _ ((if_neg fun h => Bool.noConfusion (hfit.symm.trans h)).trans (if_pos hfull))
  · rw [if_neg hmode]
    refine congrArg _ (((if_neg fun h => Bool.noConfusion (hfit.symm.trans h)).trans
      (if_neg (Nat.not_le.mpr hroom))).trans ?_)
    by_cases hhigh : s.items.holdThreshold.toNat ≤ s.hold.length + 1
    · simp only [if_pos hhigh]
      rfl
    · simp only [if_neg hhigh]
      rfl

/-- Settles O24: the absent-reads policy of `State.absentRead`. -/
theorem absentReadFillsOrRefuses : Obligations.AbsentReadFillsOrRefuses := by
  intro c l n s w h hdue hw hst
  have hexec := (h.exec_out hdue hst).trans
    (congrArg _ (meets_read_out (a := divertedAccess c l n s) hst hw))
  rw [hexec]
  unfold State.absentRead
  have hpolicy : (divertedAccess c l n s).copy.absentReads = w.absentReads := rfl
  exact ⟨fun hp => by rw [hpolicy, hp], fun hp => by rw [hpolicy, hp]⟩

/-- Settles O25: the four rows of `State.meets` for a read of a bay in READY or DRAINING. -/
theorem readServedFromTheCarrier : Obligations.ReadServedFromTheCarrier := by
  intro c l n capacity s w x a matched h hdue hw hst hcapacity
  have hs : (s.bay w.bay).state.serving = true := by obtain h | h := hst <;> rw [h] <;> rfl
  have hasks (t : State) (ht : t.bay w.bay = s.bay w.bay) :
      t.asks w.bay = t := asks_of_noGrantDue hdue hs ht
  have hmeets := h.exec_meets (by obtain h | h := hst <;> rw [h] <;> exact fun h => nomatch h)
    fun _ => hdue
  refine ⟨fun hfit => ?_, fun hfit hmatch => ?_, fun hfit hmatch hheld => ?_,
    fun hfit hmatch hfree => ?_⟩
  · rw [hmeets, meets_read_range (a := a) hst hw (inRange_mounted hcapacity hfit)]
    exact congrArg _ (hasks _ (releaseError_bay _ _ _ _ _))
  · rw [hmeets, meets_read_match (a := a) hst hw (inRange_mounted hcapacity hfit) hmatch]
    exact congrArg _ (hasks _ (waitIn_bay a .queueMatch s _))
  · rw [hmeets, meets_read_held (a := a) hst hw (inRange_mounted hcapacity hfit) hmatch hheld]
    exact congrArg _ (hasks _ (waitIn_bay a .grant s _))
  · rw [hmeets, meets_read_free (a := a) hst hw (inRange_mounted hcapacity hfit) hmatch hfree]
    rfl

end Sys2Proof.Machine
end

section
/-! PROOFS. The statements on a host access as it goes on and ends, and on the bay link (chapters 3
and 4). -/

namespace Sys2Proof.Machine

/-! ### A stalled access is handled again -/

theorem rehandle_eq {a : Access} {s : State}
    (h : s.host = .diverted a .replay ∧ (s.bay a.copy.bay).state ≠ .replay ∨
      s.host = .diverted a .space ∧ (s.bay a.copy.bay).state ≠ .ready) :
    rehandle s = grantLink a.copy.bay (handleAccess a s) := by
  unfold rehandle
  obtain ⟨hh, hst⟩ | ⟨hh, hst⟩ := h <;> rw [hh] <;> exact if_neg hst

/-- Settles O28: the access meets its bay (`State.meets`), and no grant was due before. -/
theorem stalledAccessIsHandledAgain : Obligations.StalledAccessIsHandledAgain := by
  intro a s hrst hdue x
  have hasks (hs : x.state.serving = true) (t : State) (ht : t.bay a.copy.bay = x) :
      t.asks a.copy.bay = t := asks_of_noGrantDue hdue hs ht
  have hmeets (hr : x.state ≠ .replay)
      (h : s.host = .diverted a .replay ∨ s.host = .diverted a .space ∧ x.state ≠ .ready) :
      exec .stalledAccessRehandled s = .next (s.meets a fun t => t.asks a.copy.bay) := by
    refine exec_to hrst rfl ?_
    rw [rehandle_eq (h.imp_left fun h => ⟨h, hr⟩), grantLink_handleAccess hr fun _ => hdue]
  refine ⟨fun hw hh => ⟨fun hst => ?_, fun hst => ?_⟩, fun hh hst => ?_, fun hw hh hst => ?_,
    fun capacity serial stamp hcapacity hserial hh => ⟨fun hw hst => ?_, fun hw hst => ?_⟩⟩
  · rw [hmeets (by rw [hst]; exact fun h => nomatch h)
      (hh.imp_right fun h => ⟨h, by rw [hst]; exact fun h => nomatch h⟩), meets_write_draining hst hw,
      hasks (by rw [hst]; rfl) _ (State.errorRelease_bay _ _ _ _ _)]
  · have hne {st : BayState} (hs : st.serving = true) : x.state ≠ st := fun h => by
      rw [h, hs] at hst
      cases hst
    rw [hmeets (hne rfl) (hh.imp_right fun h => ⟨h, hne rfl⟩), meets_write_out hst hw]
  · refine exec_to hrst rfl ?_
    rw [rehandle_eq (.inr ⟨hh, by rw [hst]; exact fun h => nomatch h⟩), handleAccess_replay hst,
      grantLink_asks (s := waitIn a .replay s) (fun _ h => nomatch h) (by rw [waitIn_bay, hst]; rfl),
      hasks (by rw [hst]; rfl) _ (waitIn_bay _ _ _ _)]
    rfl
  · rw [hmeets (fun h => by rw [h] at hst; cases hst) (.inl hh), meets_read_out hst hw]
  · have hexec := hmeets (by rw [hst]; exact fun h => nomatch h) (.inl hh)
    have hs : x.state.serving = true := by rw [hst]; rfl
    refine ⟨fun hfit => ?_, fun hfit hmode => ?_, fun hfit hmode hlocked => ?_,
      fun hfit hmode hlocked hfull => ?_, fun hfit hmode hlocked hroom hstamp => ?_⟩
    · rw [hexec, meets_write_range hst hw (inRange_mounted hcapacity hfit),
        hasks hs _ (State.errorRelease_bay _ _ _ _ _)]
    · rw [hexec, meets_write_readOnly hst hw (inRange_mounted hcapacity hfit) hmode,
        hasks hs _ (State.errorRelease_bay _ _ _ _ _)]
    · rw [hexec, meets_write_locked hst hw (inRange_mounted hcapacity hfit) hmode hlocked,
        hasks hs _ (State.errorRelease_bay _ _ _ _ _)]
    · rw [hexec, meets_write_full hst hw (inRange_mounted hcapacity hfit) hmode hlocked hfull,
        hasks hs _ (State.setHost_bay _ _ _)]
    · rw [hexec, meets_write_room hst hw (inRange_mounted hcapacity hfit) hmode hlocked hroom hserial
        hstamp, asks_accepted]
  · have hs : x.state.serving = true := by obtain h | h := hst <;> rw [h] <;> rfl
    have hexec := hmeets (by obtain h | h := hst <;> rw [h] <;> exact fun h => nomatch h) (.inl hh)
    refine ⟨fun hfit => ?_, fun hfit hmatch => ?_, fun hfit hmatch hheld => ?_,
      fun hfit hmatch hfree => ?_⟩
    · rw [hexec, meets_read_range hst hw (inRange_mounted hcapacity hfit),
        hasks hs _ (State.errorRelease_bay _ _ _ _ _)]
    · rw [hexec, meets_read_match hst hw (inRange_mounted hcapacity hfit) hmatch,
        hasks hs _ (State.setHost_bay _ _ _)]
    · rw [hexec, meets_read_held hst hw (inRange_mounted hcapacity hfit) hmatch hheld,
        hasks hs _ (State.setHost_bay _ _ _)]
    · rw [hexec, meets_read_free hst hw (inRange_mounted hcapacity hfit) hmatch hfree]

/-! ### Main accesses -/

theorem accessLanes_none {c : HostCycle} (h : c.rd = c.wr ∨ c.lb = false ∧ c.ub = false) :
    accessLanes c = none := by
  unfold accessLanes
  obtain h | ⟨hl, hu⟩ := h
  · rw [if_pos (by simpa using h)]
  · rw [hl, hu]
    split <;> rfl

theorem findWindow_none {windows : Vector Window 8} {page : Nat}
    (h : ∀ i : Fin 8, windows[i].claims page = false) : findWindow windows page = none :=
  List.find?_eq_none.mpr fun i _ => by simpa using h i

/-- Settles O19: a main access by its three stages. -/
theorem mainAccessIsMirrored : Obligations.MainAccessIsMirrored := by
  refine ⟨fun c s h => ?_, fun c l s hrst hport hhost hlanes hclaims => ?_,
    fun md d s hrst hhost => ?_, fun s hrst h => exec_to hrst rfl ?_⟩
  · have hnone : classify c s = s := by
      unfold classify
      rw [accessLanes_none h]
      cases s.hrst <;> cases s.host <;> rfl
    change live (classify c) s = _
    simp [live, hnone]
  · have hmain : classify c s = beginMain c l s := by
      unfold classify
      rw [hport, hhost, hlanes]
      simp only [findWindow_none hclaims]
    refine ⟨beginMain c l s, exec_to hrst rfl hmain, ?_⟩
    unfold beginMain
    cases c.mrdy <;> cases c.wr <;> exact ⟨rfl, rfl, rfl, rfl, rfl⟩
  · refine ⟨mainReady md s, exec_to hrst rfl rfl, ?_⟩
    have hready : mainReady md s =
        { s with host := .mainDone d (if d.write then none else some (busBoth md)) } := by
      unfold mainReady
      rw [hhost]
    rw [hready]
    exact ⟨rfl, rfl, rfl, rfl, rfl⟩
  · unfold accessEnd
    obtain ⟨d, hd, h⟩ | ⟨e, hd, h⟩ := h <;> rw [h]

/-! ### The access is given up -/

/-- A read whose xREQ is asserted leaves its transfer on the link (R73). -/
theorem abandonRead_requested {b : BayId} {s : State} {tr : Transfer} {n : BitVec 8}
    (hl : (s.bay b).link = .held .read tr) (hp : tr.phase = .requested n) :
    abandonRead b s = modBay b (fun x => { x with link := .abandoned tr }) s := by
  unfold abandonRead
  simp only [hl, hp, Phase.asserted, if_true]

/-- A read whose xREQ is not asserted leaves the link free (R166). -/
theorem abandonRead_presenting {b : BayId} {s : State} {tr : Transfer}
    (hl : (s.bay b).link = .held .read tr) (hp : tr.phase.asserted = false) :
    abandonRead b s = modBay b (fun x => { x with link := .free }) s := by
  unfold abandonRead
  simp only [hl, hp, Bool.false_eq_true, if_false]

/-- What a read that is given up leaves of its link: its transfer, or a free link for the drain engine. -/
theorem grantLink_abandonRead {b : BayId} {s u : State} {tr : Transfer} {f : State → State}
    (hf : ∀ g : Bay → Bay, f (modBay b g s) = modBay b g u) (hitems : u.items = s.items)
    (hbay : u.bay b = s.bay b) (hh : ∀ a, u.host ≠ .diverted a .grant)
    (hs : (s.bay b).state.serving = true) (hl : (s.bay b).link = .held .read tr) :
    grantLink b (f (abandonRead b s)) =
      modBay b
        (fun x => { x with
          link :=
            match tr.phase with
            | .requested _ => .abandoned tr
            | .afterAck | .presenting => linkAsked x.queue x.reqHigh s .free })
        u := by
  have hfree (hp : tr.phase.asserted = false) :
      grantLink b (f (abandonRead b s)) =
        modBay b (fun x => { x with link := linkAsked x.queue x.reqHigh s .free }) u := by
    rw [abandonRead_presenting hl hp, hf, grantLink_asks (fun a => by simpa using hh a)
      (by simpa [hbay] using hs), State.asks, modBay_modBay]
    refine modBay_congr ?_
    rw [linkAsked_congr (s := s) (by simpa using hitems)]
  cases hp : tr.phase with
  | requested n =>
    rw [abandonRead_requested hl hp, hf, grantLink_of_held (by simp)]
  | afterAck => exact hfree (by rw [hp]; rfl)
  | presenting => exact hfree (by rw [hp]; rfl)

/-- The diverted access in progress is given up (R53, R54). -/
theorem abandonAccess_onLink {s : State} {a : Access} {tr : Transfer}
    (hh : s.host = .diverted a .onLink) (hl : (s.bay a.copy.bay).link = .held .read tr)
    (hs : (s.bay a.copy.bay).state.serving = true) :
    abandonAccess s =
      modBay a.copy.bay
        (fun x => { x with
          link :=
            match tr.phase with
            | .requested _ => .abandoned tr
            | .afterAck | .presenting => linkAsked x.queue x.reqHigh s .free })
        { s with host := .idle } := by
  have he : abandonAccess s =
      grantLink a.copy.bay (id (abandonRead a.copy.bay { s with host := .idle })) := by
    unfold abandonAccess
    rw [hh]
    rfl
  rw [he, grantLink_abandonRead (f := id) (s := { s with host := .idle }) (u := { s with host := .idle })
    (fun _ => rfl) rfl rfl (fun _ h => nomatch h) (by rw [State.setHost_bay, hs])
    (by rw [State.setHost_bay, hl])]
  rfl

theorem abandonAccess_idle {s : State} (h : s.host = .idle) : abandonAccess s = s := by
  unfold abandonAccess
  simp only [h]

theorem hostReset_over {s : State}
    (h : (∃ d hd, s.host = .mainDone d hd) ∨ ∃ e hd, s.host = .released e hd) :
    hostReset s = { s with host := .idle } := by
  unfold hostReset
  obtain ⟨d, hd, h⟩ | ⟨e, hd, h⟩ := h <;> simp only [h]

theorem hostReset_active {s : State}
    (h : s.host = .idle ∨ (∃ d, s.host = .mainWait d) ∨ ∃ a w, s.host = .diverted a w) :
    hostReset s = abandonAccess s := by
  unfold hostReset
  obtain h | ⟨d, h⟩ | ⟨a, w, h⟩ := h <;> simp only [h]

theorem setHrst_modBay (b : BayId) (f : Bay → Bay) (level : Bool) (s : State) :
    { modBay b f s with hrst := level } = modBay b f { s with hrst := level } := by cases b <;> rfl

/-- Settles O26: HRST# and a withdrawal lead to `abandonAccess`, which gives up the access by its wait. -/
theorem accessIsAbandoned : Obligations.AccessIsAbandoned := by
  refine ⟨fun s hrst => ⟨fun hh => exec_to hrst rfl ?_, fun hh => exec_to hrst rfl ?_, exec_to hrst rfl rfl,
    fun c hport => exec_to hrst rfl ?_⟩, fun c level s hc hrst => ?_⟩
  · change { hostReset s with hrst := true } = _
    rw [hostReset_active (.inl hh), abandonAccess_idle hh]
  · change { hostReset s with hrst := true } = _
    rw [hostReset_over hh]
  · unfold classify
    rw [hport]
  have hexec {t : State} (hactive : (∃ d, s.host = .mainWait d) ∨ ∃ a w, s.host = .diverted a w)
      (ht : abandonAccess s = t) : exec c s = .next { t with hrst := level } := by
    obtain ⟨rfl, rfl⟩ | ⟨rfl, rfl⟩ := hc
    · refine exec_to hrst rfl ?_
      change { hostReset s with hrst := true } = _
      rw [hostReset_active (.inr hactive), ht]
    · refine exec_to hrst rfl (ht.trans ?_)
      have hport : t.hrst = s.hrst := by rw [← ht]; simp
      rw [← hport]
  refine ⟨fun d hh => ?_, fun a w hh hw => ?_, fun a num hh => ?_, fun a tr hh hl hs => ?_⟩
  · refine hexec (t := { s with host := .idle }) (.inl ⟨d, hh⟩) ?_
    unfold abandonAccess
    rw [hh]
  · refine hexec (t := { s with host := .idle }) (.inr ⟨a, w, hh⟩) ?_
    unfold abandonAccess
    rw [hh]
    obtain rfl | rfl | rfl | rfl := hw <;> rfl
  · refine (hexec (.inr ⟨a, _, hh⟩) (t := modBay a.copy.bay (fun x => { x with queue := noThrough x.queue })
      { s with host := .idle }) ?_).trans (congrArg _ (setHrst_modBay _ _ _ _))
    unfold abandonAccess
    rw [hh]
    rfl
  · refine (hexec (.inr ⟨a, _, hh⟩) (abandonAccess_onLink hh hl hs)).trans
      (congrArg _ (setHrst_modBay _ _ _ _))

/-- Settles O27: the stall limit by the wait of the access. -/
theorem stallLimitEndsTheAccess : Obligations.StallLimitEndsTheAccess := by
  intro a w s hrst hh hstall
  have hruns : a.stall.isNone = false := by simpa using hstall
  have hexpiry : exec (.stallTimerExpiry false) s = .next (stallExpiry s) := exec_to hrst rfl rfl
  rw [hexpiry]
  unfold stallExpiry
  simp only [hh, hruns, Bool.false_eq_true, if_false]
  refine ⟨fun hw => ?_, fun num hw => ?_, fun tr hw hl hs => ?_⟩
  · obtain rfl | rfl | rfl | rfl := hw <;> rfl
  · subst hw
    refine congrArg _ ?_
    cases a.copy.bay <;> rfl
  · subst hw
    refine congrArg _ ?_
    exact grantLink_abandonRead (f := releaseError a .stalled none) (u := s.errorRelease a .stalled none)
      (fun g => by cases a.copy.bay <;> rfl) rfl (State.errorRelease_bay _ _ _ _ _)
      (fun _ h => nomatch h) hs hl

end Sys2Proof.Machine
end

section
/-! PROOFS. The bay link: its grants and lines, its failed attempts, its answers (chapter 4), and the
rest of mounting and of leaving outside service (chapters 5 and 6). -/

namespace Sys2Proof.Machine

/-! ### The link comes free in a serving bay -/

/-- The holder gives the link back in a serving bay at which no read waits: the drain engine asks, and
its xREQ waits for the request-high time (R71, R166). -/
theorem grantLink_freeLink {b : BayId} {s : State} (hw : waitingRead b s = none)
    (hs : (s.bay b).state.serving = true) (hr : (s.bay b).link.request = true) :
    grantLink b (freeLink b s) =
      modBay b (fun x => { x with reqHigh := true, link := linkAsked x.queue true s .free }) s := by
  have hw' : waitingRead b (freeLink b s) = none := by
    rw [waitingRead_congr (s := s) (by simp [freeLink]) (by simp [freeLink]), hw]
  rw [grantLink_serving hw' (by simpa [freeLink] using hs), State.asks, freeLink, modBay_modBay]
  refine modBay_congr ?_
  rw [linkAsked_congr (s := s) (by simp)]
  simp [Bay.dropLink, hr]

theorem waitingRead_released {s : State} {e : Bool} {d : Option BusHalf} (h : s.host = .released e d)
    (b : BayId) : waitingRead b s = none :=
  waitingRead_of_not_grant (fun a ha => by rw [h] at ha; cases ha) b

theorem setHost_modBay (b : BayId) (f : Bay → Bay) (h : HostPort) (s : State) :
    { modBay b f s with host := h } = modBay b f { s with host := h } := by cases b <;> rfl

theorem freeLink_releaseOk (b : BayId) (d : Option BusHalf) (s : State) :
    releaseOk d (freeLink b s) = freeLink b (releaseOk d s) := by cases b <;> rfl

theorem freeLink_releaseError (b : BayId) (a : Access) (c : HostCause) (n : Option Word) (s : State) :
    releaseError a c n (freeLink b s) = freeLink b (s.errorRelease a c n) := by cases b <;> rfl

/-- Settles O37: the released host asks for nothing, so that the link is the drain engine's. -/
theorem readAnswerReleasesTheHost : Obligations.ReadAnswerReleasesTheHost := by
  intro b data a tr n s hrst hh hb hl hp hs
  refine ⟨busLanes a.lanes data (Config.freeByte s.free), exec_to hrst rfl ?_, ?_, ?_⟩
  · have hanswer : readAnswer b data s =
        grantLink b (releaseOk (some (busLanes a.lanes data (Config.freeByte s.free)))
          (freeLink b { s with free := s.free + 1 })) := by
      unfold readAnswer
      split
      next t a' ht ha =>
        rw [hl] at ht
        rw [hh] at ha
        cases ht
        cases ha
        exact if_pos ⟨hb, by rw [hp]; rfl⟩
      next hno => exact absurd hh (hno tr a hl)
    rw [timed_false, hanswer, freeLink_releaseOk]
    generalize hd : some (busLanes a.lanes data (Config.freeByte s.free)) = d
    have hbay : (releaseOk d { s with free := s.free + 1 }).bay b = s.bay b := by cases b <;> rfl
    rw [grantLink_freeLink (waitingRead_released (releaseOk_host d _) b) (by rw [hbay, hs])
      (by rw [hbay, hl]; exact request_held hp)]
    rfl
  · cases a.lanes <;> simp [busLanes, busBoth]
  · cases a.lanes <;> simp [busLanes, busBoth]

/-- Settles O38: the link that comes free is the waiting read's, or the drain engine's. -/
theorem abandonedTransferFreesTheLink : Obligations.AbandonedTransferFreesTheLink := by
  intro b tr n s hrst hl hp hs
  have hrequest : (s.bay b).link.request = true := by rw [hl]; simp [Link.request, hp, Phase.asserted]
  have hend : exec (.abandonedTransferEnd b) s = .next (grantLink b (freeLink b s)) := by
    refine exec_to hrst rfl ?_
    unfold abandonedEnd
    rw [hl]
  rw [hend]
  refine ⟨fun a hh hb hst => congrArg _ ?_, fun hno => congrArg _ ?_⟩
  · have hserves : (s.bay b).state.servesReads = true := by obtain h | h := hst <;> rw [h] <;> rfl
    have hw : waitingRead b (freeLink b s) = some a := by
      simp [waitingRead, freeLink, hh, hb, hserves]
    rw [grantLink_read (by simp [freeLink]) hw, freeLink, setHost_modBay, modBay_modBay]
    refine modBay_congr ?_
    simp [Bay.dropLink, hrequest, State.readAttempt, State.firstAttempt]
  · refine grantLink_freeLink (waitingRead_eq_none fun a hh hb => ?_) hs hrequest
    obtain h | h := hno a hh
    · exact absurd hb h
    · rw [h]
      rfl

/-! ### Failed attempts -/

theorem failAttempt_again {b : BayId} {h : Holder} {tr : Transfer} {n : BitVec 8} {k : Nat} {s : State}
    (hl : (s.bay b).link = .held h tr) (hp : tr.phase = .requested n) (hk : tr.left = k + 1) :
    failAttempt b s =
      modBay b
        (fun x => { x with
          link := .held h { tr with left := k, phase := .presenting }, reqHigh := true }) s := by
  unfold failAttempt
  simp only [hl, hp, hk, Phase.asserted, if_true]

theorem failAttempt_last {b : BayId} {h : Holder} {tr : Transfer} {n : BitVec 8} {s : State}
    (hl : (s.bay b).link = .held h tr) (hp : tr.phase = .requested n) (hk : tr.left = 0) :
    failAttempt b s = failTransfer b h s := by
  unfold failAttempt
  simp only [hl, hp, hk, Phase.asserted, if_true]

/-- Both rows that fail an attempt. -/
theorem exec_fails {c : Instr} {b : BayId} {s t : State}
    (hc : c = .failedAttempt b false ∨ c = .responseTimeout b false) (hrst : s.rst = false)
    (h : failAttempt b s = t) : exec c s = .next t := by
  obtain rfl | rfl := hc <;> exact exec_to hrst rfl h

theorem asserted_of_request {b : BayId} {s : State} {h : Holder} {tr : Transfer}
    (hr : linkRequest s b = false) (hl : (s.bay b).link = .held h tr) : tr.phase.asserted = false := by
  rw [linkRequest, hl] at hr
  exact hr

/-- Settles O31: the next attempt has the lines of this one, and no answer is taken while xREQ is
negated. -/
theorem failedAttemptIsRepeated : Obligations.FailedAttemptIsRepeated := by
  refine ⟨fun c b h tr n k s hc hrst hl hp hk => ?_, fun b s hrst hr data lock c hc => ?_⟩
  · refine ⟨_, exec_fails hc hrst (failAttempt_again hl hp hk), rfl, ?_, ?_, ?_, ?_⟩
    · simp [linkRequest, hl, Link.request, hp, Phase.asserted]
    · simp [linkRequest, Link.request, Phase.asserted]
    · simp [linkLines, hl, Link.presented]
    · simp [linkData, hl, Link.presented]
  · have hfails : failAttempt b s = s := by
      unfold failAttempt
      cases hl : (s.bay b).link with
      | held h tr => simp [asserted_of_request hr hl]
      | free | abandoned => rfl
    simp only [List.mem_cons, List.not_mem_nil, or_false] at hc
    obtain rfl | rfl | rfl | rfl | rfl | rfl := hc
    · refine exec_to hrst rfl ?_
      change commitHead b s = s
      have hrequest : (s.bay b).link.request = false := hr
      unfold commitHead
      dsimp only
      split
      · rw [if_neg (by rw [hrequest]; exact Bool.false_ne_true)]
      · rfl
    · exact exec_to hrst rfl hfails
    · exact exec_to hrst rfl hfails
    · refine exec_to hrst rfl ?_
      change readAnswer b data s = s
      unfold readAnswer
      split
      next hl _ => simp [asserted_of_request hr hl]
      · rfl
    · refine exec_to hrst rfl ?_
      change descriptorAnswer b data lock s = s
      unfold descriptorAnswer
      dsimp only
      split
      next hl _ => simp [asserted_of_request hr hl]
      · rfl
    · refine exec_to hrst rfl ?_
      change bindingAnswer b s = s
      unfold bindingAnswer
      dsimp only
      split
      next hl _ => simp [asserted_of_request hr hl]
      · rfl

/-- Settles O32: a read's last attempt releases the host, an identification's rejects the carrier. -/
theorem lastAttemptOfARead : Obligations.LastAttemptOfARead := by
  intro c b h tr n s hc hrst hl hp hk
  have hrequest : (s.bay b).link.request = true := by rw [hl]; exact request_held hp
  refine ⟨fun a hh ha hb hs => exec_fails hc hrst ?_, fun i hh hi => exec_fails hc hrst ?_⟩
  · rw [failAttempt_last hl hp hk, hh, failTransfer]
    simp only [ha]
    rw [if_pos hb, freeLink_releaseError, grantLink_freeLink (s := s.errorRelease a .readFault none)
      (waitingRead_released rfl b) (by simpa using hs) (by simpa using hrequest)]
    rfl
  · rw [failAttempt_last hl hp hk, hh, failTransfer]
    simp only [hi]
    rw [reject_eq]

/-! ### Grants and lines -/

theorem asserted_iff {p : Phase} : p.asserted = true ↔ ∃ n, p = .requested n := by
  cases p <;> simp [Phase.asserted]

theorem request_iff {l : Link} : l.request = true ↔
    ∃ tr n, tr.phase = .requested n ∧ ((∃ h, l = .held h tr) ∨ l = .abandoned tr) := by
  cases l with
  | free => simp [Link.request]
  | held h t => simp [Link.request, asserted_iff]
  | abandoned t => simp [Link.request, asserted_iff]

theorem presented_eq {l : Link} {tr : Transfer} (h : (∃ k, l = .held k tr) ∨ l = .abandoned tr) :
    l.presented = some tr := by
  obtain ⟨k, rfl⟩ | rfl := h <;> rfl

theorem beq_supply {x : Supply} (v : Supply) : (x == v) = true ↔ x = v := by simp

/-- Settles O30: the requesters in the order of `grantLink`, and the pins by what the link presents. -/
theorem linkIsGranted : Obligations.LinkIsGranted := by
  refine ⟨fun b s hrst hfree => ?_, fun b s => ⟨request_iff, fun tr h => ?_, fun hfree => ?_,
    beq_supply .v18, beq_supply .v33⟩⟩
  · intro p
    refine ⟨fun a hh hb hst => exec_to hrst rfl ?_, fun e es hno hs hq => exec_to hrst rfl ?_,
      fun halves hst hi => exec_to hrst rfl ?_, fun halves w hst hi => ?_,
      fun hnone => exec_to hrst rfl ?_⟩
    · have hserves : (s.bay b).state.servesReads = true := by obtain h | h := hst <;> rw [h] <;> rfl
      rw [grantLink_read hfree (a := a) (by simp [waitingRead, hh, hb, hserves])]
      exact modBay_congr (by simp only [State.setHost_bay]; rfl)
    · have hw : waitingRead b s = none := waitingRead_eq_none fun a hh hb => by
        obtain h | h := hno a hh
        · exact absurd hb h
        · rw [h]
          rfl
      rw [grantLink_serving hw hs]
      refine modBay_congr ?_
      rw [hfree, hq]
      rfl
    · rw [grantLink_ident hfree hst hi]
      exact modBay_congr rfl
    · intro t check data
      refine exec_to hrst rfl ?_
      rw [grantLink_ident hfree hst hi]
      exact modBay_congr rfl
    · exact grantLink_of_noGrantDue fun _ => hnone
  · unfold linkLines linkData
    rw [presented_eq h]
    refine ⟨?_, rfl⟩
    simp only [beq_eq_decide]
  · unfold linkRequest linkLines linkData
    rw [hfree]
    exact ⟨rfl, fun h => if_neg h, fun h => ⟨if_pos h, if_pos h⟩⟩

/-! ### Removal and power loss outside service -/

/-- Settles O48: each row by the bay's state. -/
theorem mountEndsAndCarriersLeave : Obligations.MountEndsAndCarriersLeave := by
  intro b d s hrst broken ended
  refine ⟨fun hst => exec_to hrst rfl ?_, fun hst => exec_to hrst rfl ?_,
    fun hst hs => exec_to hrst rfl ?_, fun hst => exec_to hrst rfl ?_⟩
  · rw [removeMounting, if_pos hst, breakDetect, modBay_modBay, setLatch_eq_raise, raise_modBay]
    refine modBay_congr ?_
    cases d <;> rfl
  · have hs : (s.bay b).state.serving = false := by rw [hst]; rfl
    rw [timed_false, powerLoss]
    dsimp only
    rw [if_neg (by rw [hs]; exact Bool.false_ne_true), if_pos hst, samplePower, modBay_modBay,
      setLatch_eq_raise, raise_modBay]
    exact modBay_congr rfl
  · rw [timed_false, powerLoss]
    rw [if_neg (by rw [hs]; exact Bool.false_ne_true), if_neg hst]
  · have hstopped : (s.bay b).state.stoppedCarrier = true := by
      obtain h | h | h | h := hst <;> rw [h] <;> rfl
    rw [removeStopped, if_pos hstopped, breakDetect, modBay_modBay, setLatch_eq_raise, raise_modBay]
    refine modBay_congr ?_
    cases d <;> rfl

end Sys2Proof.Machine
end

section
/-! PROOFS. Settling a bay, as the statements write it: `State.replayed` is the work of replay and of
the end of a drain, `State.meets` is what becomes of the access that waits at the bay, and where nobody
waits there the drain engine asks for the link. -/

namespace Sys2Proof.Machine

variable {b : BayId} {s t : State} {a : Access}

/-! ### The work of a bay -/

theorem drainEnd_idle (hd : (s.bay b).state = .draining → (s.bay b).queue ≠ []) : drainEnd b s = s := by
  obtain ⟨-, e⟩ | ⟨hst, hq, -⟩ := drainEnd_cases b s
  · exact e
  · exact absurd hq (hd hst)

/-- A bay that neither replays nor ends a drain has no work. -/
theorem afterWork_idle (hr : (s.bay b).state ≠ .replay)
    (hd : (s.bay b).state = .draining → (s.bay b).queue ≠ []) : afterWork b s = s := by
  have hw : replayWork b s = s := if_neg hr
  rw [afterWork, hw, drainEnd_idle hd]

/-- What the clean end of a drain makes of its bay (R114, R118). -/
def Bay.drained (x : Bay) : Bay :=
  { x with
    state := .released, lamp := true, link := .free, reqHigh := x.link.request || x.reqHigh
    drainTimer := none, ejectPending := false
    mount := { x.mount with supply := .none, cause := .none } }

theorem drainEnd_drained (hst : (s.bay b).state = .draining) (hq : (s.bay b).queue = []) :
    drainEnd b s = modBay b Bay.drained (s.raise (.bay b .ejectDone)) := by
  obtain ⟨h, -⟩ | ⟨-, -, e⟩ := drainEnd_cases b s
  · exact absurd hq (h hst)
  · rw [e, leaveServing, evacuate_of_nil hq, setLatch_eq_raise, raise_modBay]
    rfl

theorem replayEnd_eq (hany : s.hold.any (eligible (s.bay b).mount) = false) :
    replayEnd b s =
      if (s.bay b).ejectPending then
        modBay b
          (fun x => { x with
            state := .draining, ejectPending := false, drainTimer := some s.items.drainMs
            mount := { x.mount with cause := .none } })
          (s.raise (.bay b .resumed))
      else
        modBay b (fun x => { x with state := .ready, mount := { x.mount with cause := .none } })
          (s.raise (.bay b .resumed)) := by
  unfold replayEnd
  rw [if_neg (by rw [hany]; exact Bool.false_ne_true), setLatch_eq_raise]
  cases (s.bay b).ejectPending with
  | false => rfl
  | true =>
    simp only [enterDraining, modBay_modBay, if_true]
    exact modBay_congr (by simp [Bay.enter])

theorem replayMoves_eq (b : BayId) (s : State) :
    replayMoves b s =
      modBay b
        (fun x => { x with
          queue := (s.bay b).queue ++ ((s.hold.filter (eligible (s.bay b).mount)).take
            (16 - (s.bay b).queue.length)).map fun e => ⟨e.ord, e.write, false⟩ })
        { s with
          hold := withoutFirst (eligible (s.bay b).mount) (16 - (s.bay b).queue.length) s.hold } := by
  unfold replayMoves
  simp only [takeFirst_eq]
  exact modBay_congr (by simp [queueCapacity])

/-- The work of a bay in REPLAY (R130 to R132, R111, R114). -/
theorem afterWork_replay (hst : (s.bay b).state = .replay) : afterWork b s = s.replayed b := by
  have hwork : replayWork b s = replayEnd b (replayMoves b s) := if_pos hst
  have hany := any_withoutFirst (eligible (s.bay b).mount) (16 - (s.bay b).queue.length) s.hold
  rw [afterWork, hwork, replayMoves_eq]
  unfold State.replayed
  dsimp only
  generalize hmoved : ({ s with
    hold := withoutFirst (eligible (s.bay b).mount) (16 - (s.bay b).queue.length) s.hold } : State) = u
  have hbay : u.bay b = s.bay b := by rw [← hmoved]; simp
  have hitems : u.items = s.items := by rw [← hmoved]
  rw [show withoutFirst (eligible (s.bay b).mount) (16 - (s.bay b).queue.length) s.hold = u.hold by
    rw [← hmoved]] at hany
  generalize (s.bay b).queue ++ _ = q
  by_cases hroom : 16 - (s.bay b).queue.length < (s.hold.filter (eligible (s.bay b).mount)).length
  · have hend : replayEnd b (modBay b (fun x => { x with queue := q }) u) =
        modBay b (fun x => { x with queue := q }) u :=
      if_pos (by simpa [hbay] using hany.trans (decide_eq_true hroom))
    rw [if_pos hroom, hend]
    exact drainEnd_idle fun h => by simp [hbay, hst] at h
  · have hend := replayEnd_eq (b := b) (s := modBay b (fun x => { x with queue := q }) u)
      (by simpa [hbay] using hany.trans (decide_eq_false hroom))
    have hitems' : (modBay b (fun x => { x with queue := q }) u).items = s.items := by simp [hitems]
    simp only [modBay_bay, hbay, raise_modBay, modBay_modBay, hitems'] at hend
    rw [if_neg hroom, hend]
    cases hej : (s.bay b).ejectPending with
    | false => exact drainEnd_idle fun h => by simp at h
    | true =>
      by_cases hq : q = []
      · rw [if_pos rfl, if_neg (by simp), if_neg (by simp [hq]),
          drainEnd_drained (by simp) (by simpa using hq), raise_modBay, modBay_modBay]
        refine modBay_congr ?_
        simp [Bay.drained, hq]
      · rw [if_pos rfl, if_neg (by simp), if_pos hq]
        refine drainEnd_idle fun _ => ?_
        simpa using hq

/-! ### Nobody waits at the bay -/

/-- The ask after a change of the bay, as one change. -/
theorem asks_modBay (b : BayId) (f : Bay → Bay) (s : State) :
    (modBay b f s).asks b =
      modBay b (fun x => { f x with link := linkAsked (f x).queue (f x).reqHigh s (f x).link }) s := by
  rw [State.asks, modBay_modBay]
  refine modBay_congr ?_
  rw [linkAsked_congr (s := s) (by simp)]

theorem NothingStalled.fateMet (h : NothingStalled b s) (hf : FateMet s t)
    (ho : t.bay (otherBay b) = s.bay (otherBay b)) : NothingStalled b t := by
  obtain hh | ⟨-, e, d, hh⟩ := hf
  · exact h.congr hh (.of_eq ho)
  · intro a w ha
    rw [hh] at ha
    cases ha

theorem NothingStalled.afterWork (h : NothingStalled b s) : NothingStalled b (afterWork b s) :=
  h.congr (afterWork_host b s) (.of_eq (afterWork_bay_other b s))

theorem NothingStalled.meetHost (h : NothingStalled b s) : Machine.meetHost s = s := by
  refine meetHost_of_agrees fun a w ha => ?_
  have hn := h a w ha
  split at hn
  · obtain ⟨num, rfl⟩ := hn
    rfl
  · exact hn

theorem NothingStalled.waitingRead (h : NothingStalled b s) : Machine.waitingRead b s = none := by
  refine waitingRead_eq_none fun a ha hb => ?_
  have hn := h a _ ha
  rw [if_pos hb] at hn
  obtain ⟨num, hw⟩ := hn
  cases hw

/-- Where nobody waits, settling is the work and the grant. -/
theorem settle_unmet (h : NothingStalled b s) : settle b s = grantLink b (afterWork b s) := by
  rw [settle_eq, h.afterWork.meetHost]

/-- A bay that goes on serving: the drain engine asks for the link (R71). -/
theorem settle_serving (h : NothingStalled b s) (hs : ((afterWork b s).bay b).state.serving = true) :
    settle b s = (afterWork b s).asks b := by
  rw [settle_unmet h, grantLink_serving h.afterWork.waitingRead hs]

/-- A bay that has left service asks for nothing. -/
theorem settle_out (h : NothingStalled b s) (hs : ((afterWork b s).bay b).state.serving = false)
    (hi : ((afterWork b s).bay b).state ≠ .identifying) : settle b s = afterWork b s := by
  rw [settle_unmet h, grantLink_out hs hi]

/-! ### What replay leaves of its bay -/

theorem replayed_cases (b : BayId) (s : State) :
    (((s.replayed b).bay b).state = .ready ∨ ((s.replayed b).bay b).state = .draining ∨
        ((s.replayed b).bay b).state = (s.bay b).state) ∧
      ((s.replayed b).bay b).link = (s.bay b).link ∧ ((s.replayed b).bay b).reqHigh = (s.bay b).reqHigh ∨
    ((s.replayed b).bay b).state = .released ∧ ((s.replayed b).bay b).queue = [] ∧
      ((s.replayed b).bay b).link = .free ∧
      ((s.replayed b).bay b).reqHigh = ((s.bay b).link.request || (s.bay b).reqHigh) := by
  unfold State.replayed
  dsimp only
  repeat' split
  all_goals simp

/-- Where all that satisfy `p` are taken, the others are left. -/
theorem withoutFirst_all {α : Type} {p : α → Bool} {n : Nat} {l : List α}
    (h : (l.filter p).length ≤ n) : withoutFirst p n l = l.filter fun x => !p x := by
  induction l generalizing n with
  | nil => cases n <;> rfl
  | cons x xs ih =>
    cases hx : p x with
    | false =>
      rw [List.filter_cons_of_neg (by simp [hx])] at h
      rw [List.filter_cons_of_pos (by simp [hx]), ← ih h]
      cases n with
      | zero =>
        have hnil : withoutFirst p 0 xs = xs := by cases xs <;> rfl
        rw [hnil]
        rfl
      | succ n => simp [withoutFirst, hx]
    | true =>
      rw [List.filter_cons_of_pos hx, List.length_cons] at h
      rw [List.filter_cons_of_neg (by simp [hx])]
      cases n with
      | zero => omega
      | succ n => simpa [withoutFirst, hx] using ih (Nat.le_of_succ_le_succ h)

/-- While eligible entries are left the bay stays in REPLAY (R131). -/
theorem replayed_goesOn {q : List QEntry}
    (hroom : 16 - (s.bay b).queue.length < (s.hold.filter (eligible (s.bay b).mount)).length)
    (hq : (s.bay b).queue ++ ((s.hold.filter (eligible (s.bay b).mount)).take
      (16 - (s.bay b).queue.length)).map (fun e => ⟨e.ord, e.write, false⟩) = q) :
    s.replayed b =
      modBay b (fun x => { x with queue := q })
        { s with
          hold := withoutFirst (eligible (s.bay b).mount) (16 - (s.bay b).queue.length) s.hold } := by
  unfold State.replayed
  dsimp only
  rw [if_pos hroom, hq]

section LastMoves

variable {q : List QEntry}
  (hroom : (s.hold.filter (eligible (s.bay b).mount)).length ≤ 16 - (s.bay b).queue.length)
  (hq : (s.bay b).queue ++
    (s.hold.filter (eligible (s.bay b).mount)).map (fun e => ⟨e.ord, e.write, false⟩) = q)
include hroom hq

/-- All find room, and the bay enters READY (R132). -/
theorem replayed_ready (hpending : (s.bay b).ejectPending = false) :
    s.replayed b =
      modBay b (fun x => { x with state := .ready, queue := q, mount := { x.mount with cause := .none } })
        { s.raise (.bay b .resumed) with
          hold := s.hold.filter fun e => !eligible (s.bay b).mount e } := by
  unfold State.replayed
  dsimp only
  rw [if_neg (Nat.not_lt.mpr hroom), if_pos hpending, List.take_of_length_le hroom, hq,
    withoutFirst_all hroom]
  rfl

/-- All find room, and the bay enters DRAINING with an eject pending (R111). -/
theorem replayed_draining (hpending : (s.bay b).ejectPending = true) (hne : q ≠ []) :
    s.replayed b =
      modBay b
        (fun x => { x with
          state := .draining, ejectPending := false, drainTimer := some s.items.drainMs, queue := q
          mount := { x.mount with cause := .none } })
        { s.raise (.bay b .resumed) with
          hold := s.hold.filter fun e => !eligible (s.bay b).mount e } := by
  unfold State.replayed
  dsimp only
  rw [if_neg (Nat.not_lt.mpr hroom), if_neg (by rw [hpending]; exact Bool.noConfusion),
    List.take_of_length_le hroom, hq, if_pos hne, withoutFirst_all hroom]
  rfl

end LastMoves

/-- What replay leaves of a free link, whose request-high time runs. -/
theorem replayed_free (hl : (s.bay b).link = .free) (hr : (s.bay b).reqHigh = true) :
    ((s.replayed b).bay b).link = .free ∧ ((s.replayed b).bay b).reqHigh = true := by
  obtain ⟨-, hlink, hhigh⟩ | ⟨-, -, hlink, hhigh⟩ := replayed_cases b s
  · exact ⟨hlink.trans hl, hhigh.trans hr⟩
  · exact ⟨hlink, by rw [hhigh, hr, Bool.or_true]⟩

@[simp] theorem replayed_host (b : BayId) (s : State) : (s.replayed b).host = s.host := by
  unfold State.replayed
  dsimp only
  repeat' split
  all_goals simp [State.raise]

/-- Replay, and nobody waits at the bay (R71, R131, R132). -/
theorem settle_replay (hst : (s.bay b).state = .replay) (h : NothingStalled b s) :
    settle b s = (s.replayed b).asks b := by
  have hwork := afterWork_replay hst
  obtain ⟨hs, -, -⟩ | ⟨hs, hq, -, -⟩ := replayed_cases b s
  · rw [← hwork]
    refine settle_serving h ?_
    rw [hwork]
    obtain hs | hs | hs := hs <;> rw [hs]
    · rfl
    · rfl
    · rw [hst]
      rfl
  · rw [asks_of_eq (by rw [hq, linkAsked_nil]), ← hwork]
    refine settle_out h ?_ ?_ <;> rw [hwork, hs]
    · rfl
    · exact BayState.noConfusion

/-- The access that waits in REPLAY meets what replay leaves of its bay (R39, R71). -/
theorem settle_replay_waiting (hst : (s.bay a.copy.bay).state = .replay)
    (hh : s.host = .diverted a .replay) :
    settle a.copy.bay s = (s.replayed a.copy.bay).meets a fun t => t.asks a.copy.bay := by
  have hwait : (s.replayed a.copy.bay).host = .diverted a .replay := (replayed_host _ _).trans hh
  rw [settle_eq, afterWork_replay hst, meetHost_replay hwait]
  split
  next hr =>
    rw [meets_replay hr, grantLink_asks (fun c hc => ?_) (by rw [hr]; rfl)]
    rw [hwait] at hc
    cases hc
  next hr =>
    refine grantLink_handleAccess hr fun hs => .of_out hs ?_
    obtain ⟨h | h | h, -⟩ | ⟨h, -⟩ := replayed_cases a.copy.bay s <;> rw [h]
    · exact BayState.noConfusion
    · exact BayState.noConfusion
    · rw [hst]
      exact BayState.noConfusion
    · exact BayState.noConfusion

/-! ### An access waits at a bay that reads are served from -/

/-- A bay that serves on and whose work is done. -/
structure Serves (b : BayId) (s : State) : Prop where
  state : (s.bay b).state = .ready ∨ (s.bay b).state = .draining ∧ (s.bay b).queue ≠ []

theorem Serves.serving (h : Serves b s) : (s.bay b).state.serving = true := by
  obtain h | ⟨h, -⟩ := h.state <;> rw [h] <;> rfl

theorem Serves.reads (h : Serves b s) : (s.bay b).state.servesReads = true := by
  obtain h | ⟨h, -⟩ := h.state <;> rw [h] <;> rfl

theorem Serves.idle (h : Serves b s) : Machine.afterWork b s = s := by
  refine afterWork_idle (fun hr => ?_) fun hd => ?_
  · obtain h | ⟨h, -⟩ := h.state <;> rw [h] at hr <;> cases hr
  · obtain h | ⟨-, h⟩ := h.state
    · rw [h] at hd
      cases hd
    · exact h

theorem Serves.settle (h : Serves b s) (hn : NothingStalled b s) : Machine.settle b s = s.asks b := by
  rw [settle_serving hn (by rw [h.idle, h.serving]), h.idle]

/-- A write that waits for space finds it (R41). -/
theorem settle_space (hst : (s.bay a.copy.bay).state = .ready) (hh : s.host = .diverted a .space)
    (hroom : (s.bay a.copy.bay).queue.length < 16) {serial : Serial} {stamp : Stamp}
    (hserial : (s.bay a.copy.bay).mount.serial = some serial)
    (hstamp : (s.bay a.copy.bay).mount.stamp = some stamp) :
    settle a.copy.bay s =
      modBay a.copy.bay
        (fun x => { x with
          queue := x.queue ++ [s.entry a serial stamp]
          link := linkAsked (x.queue ++ [s.entry a serial stamp]) x.reqHigh s x.link })
        { s.accepts with host := s.acceptedHost a } := by
  rw [settle_eq, Serves.idle ⟨.inl hst⟩, meetHost_space hh, if_pos hst,
    if_pos (show _ < queueCapacity from hroom), acceptQueue_eq,
    hserial, hstamp, ← asks_accepted]
  refine grantLink_asks (fun c => ?_) ?_
  · simpa using acceptedHost_ne_grant s a c
  · simp [State.accepts, hst]
    rfl

/-- A read whose match is still queued waits on (R46). -/
theorem Serves.settle_match (h : Serves a.copy.bay s) (hh : s.host = .diverted a .queueMatch)
    (hregion : a.copy.region = .data) (hmatch : ∃ e ∈ (s.bay a.copy.bay).queue, e.write.addr = a.carrier) :
    Machine.settle a.copy.bay s = s.asks a.copy.bay := by
  rw [settle_eq, h.idle, meetHost_queueMatch hh, if_pos h.reads,
    if_pos (readMatches_iff.mpr ⟨hregion, hmatch⟩)]
  refine grantLink_asks (fun c hc => ?_) h.serving
  rw [hh] at hc
  cases hc

/-- A read that waits for a free link, or whose last match has left, is granted it (R46, R71). -/
theorem Serves.settle_read (h : Serves a.copy.bay s) (hfree : (s.bay a.copy.bay).link = .free)
    (hh : s.host = .diverted a .grant ∨
      s.host = .diverted a .queueMatch ∧ ∀ e ∈ (s.bay a.copy.bay).queue, e.write.addr ≠ a.carrier) :
    Machine.settle a.copy.bay s =
      modBay a.copy.bay (fun x => { x with link := .held .read (s.readAttempt a x.reqHigh) })
        { s with host := .diverted a .onLink } := by
  rw [settle_eq, h.idle]
  obtain hh | ⟨hh, hno⟩ := hh
  · rw [meetHost_grant hh, if_pos h.reads]
    exact grantLink_read hfree (by simp [Machine.waitingRead, hh, h.reads])
  · have hmatch : ¬readMatches a (s.bay a.copy.bay) = true := fun hm => by
      obtain ⟨-, e, he, hea⟩ := readMatches_iff.mp hm
      exact hno e he hea
    rw [meetHost_queueMatch hh, if_pos h.reads, if_neg hmatch]
    exact grantLink_read (by simpa using hfree) (by simp [Machine.waitingRead, h.reads])

/-! ### An access waits at a bay that leaves service -/

/-- The waits of an access that its bay's leaving service ends by an absent policy (R39, R48). -/
def Wait.endsAbsent (write : Bool) : Wait → Bool
  | .replay => true
  | .space => write
  | .queueMatch | .grant | .onLink => !write
  | .fate _ => false

theorem settle_absent (hs : ((afterWork a.copy.bay s).bay a.copy.bay).state.serving = false)
    (hi : ((afterWork a.copy.bay s).bay a.copy.bay).state ≠ .identifying)
    (hl : ((afterWork a.copy.bay s).bay a.copy.bay).link = .free) {w : Wait}
    (hh : s.host = .diverted a w) (hw : w.endsAbsent a.write = true) :
    settle a.copy.bay s =
      if a.write then (afterWork a.copy.bay s).absentWrite a
      else (afterWork a.copy.bay s).absentRead a := by
  have hwait : (afterWork a.copy.bay s).host = .diverted a w := (afterWork_host _ _).trans hh
  rw [settle_eq]
  generalize afterWork a.copy.bay s = u at *
  have hreads : ¬(u.bay a.copy.bay).state.servesReads = true := fun h => by
    cases hst : (u.bay a.copy.bay).state <;> rw [hst] at h hs <;> cases h <;> cases hs
  have hhandle : handleAccess a u = if a.write then absentWrite a u else absentRead a u := by
    unfold handleAccess
    cases hst : (u.bay a.copy.bay).state
    case replay | ready | draining => rw [hst] at hs; cases hs
    all_goals rfl
  have habandon : abandonRead a.copy.bay u = u := by
    unfold abandonRead
    rw [hl]
  have hmeet : meetHost u = if a.write then u.absentWrite a else u.absentRead a := by
    rw [absentWrite_eq, absentRead_eq] at hhandle
    cases w with
    | replay =>
      rw [meetHost_replay hwait, if_neg (fun h => by rw [h] at hs; cases hs), hhandle]
    | space =>
      rw [meetHost_space hwait, if_neg (fun h => by rw [h] at hs; cases hs), hhandle]
    | fate => cases hw
    | queueMatch =>
      rw [meetHost_queueMatch hwait, if_neg hreads, absentRead_eq, if_neg (by simpa [Wait.endsAbsent] using hw)]
    | grant =>
      rw [meetHost_grant hwait, if_neg hreads, absentRead_eq, if_neg (by simpa [Wait.endsAbsent] using hw)]
    | onLink =>
      rw [meetHost_onLink hwait, if_neg hreads, habandon, absentRead_eq,
        if_neg (by simpa [Wait.endsAbsent] using hw)]
  rw [hmeet]
  have hbay : (if a.write then u.absentWrite a else u.absentRead a).bay a.copy.bay = u.bay a.copy.bay := by
    rw [← absentWrite_eq, ← absentRead_eq]
    split <;> simp
  refine grantLink_out ?_ ?_ <;> rw [hbay]
  · exact hs
  · exact hi

end Sys2Proof.Machine
end

section
/-! PROOFS. The ends of the head entry: its commit, and its loss below the threshold (chapter 4). -/

namespace Sys2Proof.Machine

variable {b : BayId} {s t : State} {a : Access}

theorem modBay_host (b : BayId) (f : Bay → Bay) (s : State) : (modBay b f s).host = s.host := by simp

theorem accepts_modBay (b : BayId) (f : Bay → Bay) (h : HostPort) (s : State) :
    { (modBay b f s).accepts with host := h } = modBay b f { s.accepts with host := h } := by
  cases b <;> rfl

@[simp] theorem entry_modBay (b : BayId) (f : Bay → Bay) (s : State) (a : Access) (serial : Serial) (stamp : Stamp) :
    (modBay b f s).entry a serial stamp = s.entry a serial stamp := by
  cases b <;> rfl

@[simp] theorem acceptedHost_modBay (b : BayId) (f : Bay → Bay) (s : State) (a : Access) :
    (modBay b f s).acceptedHost a = s.acceptedHost a := by
  cases b <;> rfl

@[simp] theorem readAttempt_modBay (b : BayId) (f : Bay → Bay) (s : State) (a : Access) (r : Bool) :
    (modBay b f s).readAttempt a r = s.readAttempt a r := by
  cases b <;> rfl

@[simp] theorem linkAsked_modBay (b : BayId) (f : Bay → Bay) (q : List QEntry) (r : Bool) (s : State) (l : Link) :
    linkAsked q r (modBay b f s) l = linkAsked q r s l := by
  cases b <;> rfl

/-! ### The mark of an ACK -/

theorem markAck_asked (q : List QEntry) (s : State) :
    (linkAsked q true s .free).markAck = linkAfterAck q s := by
  cases q <;> rfl

theorem markAck_of_free (hl : (s.bay b).link = .free) : markAck b s = s :=
  modBay_self (by rw [hl]; exact (congrArg (fun l => { s.bay b with link := l }) hl.symm : _))

theorem markAck_modBay (f : Bay → Bay) :
    markAck b (modBay b f s) = modBay b (fun x => { f x with link := (f x).link.markAck }) s :=
  modBay_modBay b _ f s

/-- An entry that is granted the link in the step of an ACK (R65, R75). -/
theorem markAck_asks (hl : (s.bay b).link = .free) (hr : (s.bay b).reqHigh = true) :
    markAck b (s.asks b) = s.asksAfterAck b := by
  rw [State.asks, markAck_modBay]
  refine modBay_congr ?_
  simp only [hl, hr, markAck_asked]

theorem State.absentRead_bay (s : State) (a : Access) (b : BayId) : (s.absentRead a).bay b = s.bay b := by
  rw [← absentRead_eq]
  simp

theorem State.absentWrite_bay (s : State) (a : Access) (b : BayId) : (s.absentWrite a).bay b = s.bay b := by
  rw [← absentWrite_eq]
  simp

/-- The access meets its bay in the step of an ACK. -/
theorem markAck_meets (hl : (s.bay a.copy.bay).link = .free) (hr : (s.bay a.copy.bay).reqHigh = true) :
    markAck a.copy.bay (s.meets a fun t => t.asks a.copy.bay) =
      s.meets a fun t => t.asksAfterAck a.copy.bay := by
  have hasks (u : State) (hu : (u.bay a.copy.bay).link = (s.bay a.copy.bay).link)
      (hv : (u.bay a.copy.bay).reqHigh = (s.bay a.copy.bay).reqHigh) :
      markAck a.copy.bay (u.asks a.copy.bay) = u.asksAfterAck a.copy.bay :=
    markAck_asks (hu.trans hl) (hv.trans hr)
  have hread : markAck a.copy.bay (s.absentRead a) = s.absentRead a :=
    markAck_of_free (by rw [State.absentRead_bay, hl])
  have hwrite : markAck a.copy.bay (s.absentWrite a) = s.absentWrite a :=
    markAck_of_free (by rw [State.absentWrite_bay, hl])
  unfold State.meets
  dsimp only
  split
  · exact hasks s rfl rfl
  · split
    · exact hasks _ (by simp) (by simp)
    split
    · exact hasks _ (by simp) (by simp)
    split
    · exact hasks _ (by simp) (by simp)
    split
    · exact hasks _ (by simp) (by simp)
    · exact hasks _ (by simp [State.accepts]) (by simp [State.accepts])
  · exact hasks _ (by simp) (by simp)
  · split
    · exact hasks _ (by simp) (by simp)
    split
    · exact hasks _ (by simp) (by simp)
    exact markAck_modBay _
  · split
    · exact hasks _ (by simp) (by simp)
    split
    · exact hasks _ (by simp) (by simp)
    exact markAck_modBay _
  · exact hwrite
  · exact hread

/-! ### Settling takes no write out of the account -/

/-- What the losses and the consecutive-loss count of a bay are made of. -/
def State.losses (s : State) (b : BayId) : Word × List LossRecord × Option Summary × Nat :=
  (s.lost, s.lossLog, s.summary, (s.bay b).lossCount)

theorem replayed_losses (b : BayId) (s : State) : (s.replayed b).losses b = s.losses b := by
  unfold State.replayed
  dsimp only
  repeat' split
  all_goals simp [State.losses, State.raise]

theorem afterWork_losses (b : BayId) (s : State) : (afterWork b s).losses b = s.losses b := by
  by_cases hr : (s.bay b).state = .replay
  · rw [afterWork_replay hr, replayed_losses]
  · have hw : replayWork b s = s := if_neg hr
    rw [afterWork, hw]
    obtain ⟨-, e⟩ | ⟨hst, hq, -⟩ := drainEnd_cases b s
    · rw [e]
    · rw [drainEnd_drained hst hq]
      simp [State.losses, Bay.drained, State.raise]

/-- Settling loses nothing (R5, R67). -/
theorem settle_losses (b : BayId) (s : State) : (settle b s).losses b = s.losses b := by
  rw [settle_eq, ← afterWork_losses b s]
  have hmeet := (alike_meetHost (afterWork b s) b).lossCount
  have hgrant := (alike_grantLink b (meetHost (afterWork b s)) b).lossCount
  simp [State.losses, hgrant, hmeet]

/-! ### The head entry has left the queue -/

/-- The head entry has left the queue `es`, and its transfer the link, which is `l` (R65, R66). -/
def State.headGone (s : State) (b : BayId) (es : List QEntry) (g : Nat → Nat) (l : Link) : State :=
  modBay b (fun x => { x with queue := es, lossCount := g x.lossCount, link := l, reqHigh := true }) s

section HeadGone

variable {es : List QEntry} {g : Nat → Nat} {l : Link}

@[simp] theorem headGone_bay : (s.headGone b es g l).bay b =
    { s.bay b with queue := es, lossCount := g (s.bay b).lossCount, link := l, reqHigh := true } := by
  simp [State.headGone]

@[simp] theorem headGone_bay_other : (s.headGone b es g l).bay (otherBay b) = s.bay (otherBay b) := by
  simp [State.headGone]

@[simp] theorem headGone_host : (s.headGone b es g l).host = s.host := modBay_host _ _ _

theorem NothingStalled.headGone (h : NothingStalled b s) : NothingStalled b (s.headGone b es g l) :=
  h.congr headGone_host (.of_eq headGone_bay_other)

theorem markAck_headGone : markAck b (s.headGone b es g l) = s.headGone b es g l.markAck :=
  markAck_modBay _

theorem headGone_asks :
    (s.headGone b es g .free).asks b = s.headGone b es g (linkAsked es true s .free) := by
  rw [State.asks, State.headGone, modBay_modBay]
  exact modBay_congr (by simp)

variable (hst : (s.bay b).state = .ready ∨ (s.bay b).state = .draining ∧ es ≠ [])
include hst

theorem serves_headGone : Serves b (s.headGone b es g l) := ⟨by rw [headGone_bay]; exact hst⟩

/-- The drain engine goes on to the next entry (R67, R71). -/
theorem settle_headGone (hn : NothingStalled b s) :
    settle b (s.headGone b es g .free) = s.headGone b es g (linkAsked es true s .free) := by
  rw [(serves_headGone hst).settle hn.headGone, headGone_asks]

omit hst in
/-- The place that frees takes a write that waits for it (R41). -/
theorem settle_headGone_space (hst : (s.bay a.copy.bay).state = .ready) (hh : s.host = .diverted a .space)
    (hroom : es.length < 16) {serial : Serial} {stamp : Stamp}
    (hserial : (s.bay a.copy.bay).mount.serial = some serial)
    (hstamp : (s.bay a.copy.bay).mount.stamp = some stamp) :
    settle a.copy.bay (s.headGone a.copy.bay es g .free) =
      State.headGone { s.accepts with host := s.acceptedHost a } a.copy.bay (es ++ [s.entry a serial stamp]) g
        (linkAsked (es ++ [s.entry a serial stamp]) true s .free) := by
  rw [settle_space (by rw [headGone_bay]; exact hst) (headGone_host.trans hh) (by rw [headGone_bay]; exact hroom)
    (by rw [headGone_bay]; exact hserial) (by rw [headGone_bay]; exact hstamp)]
  simp only [State.headGone, accepts_modBay, modBay_modBay, entry_modBay, acceptedHost_modBay, linkAsked_modBay]

/-- A read goes on waiting for an entry that it matches (R46). -/
theorem settle_headGone_match (hb : a.copy.bay = b) (hh : s.host = .diverted a .queueMatch)
    (hregion : a.copy.region = .data) (hm : ∃ f ∈ es, f.write.addr = a.carrier) :
    settle b (s.headGone b es g .free) = s.headGone b es g (linkAsked es true s .free) := by
  subst hb
  rw [(serves_headGone hst).settle_match (headGone_host.trans hh) hregion (by rw [headGone_bay]; exact hm),
    headGone_asks]

/-- A read that no entry holds up any more is granted the link (R46, R71). -/
theorem settle_headGone_read (hb : a.copy.bay = b)
    (hh : s.host = .diverted a .grant ∨
      s.host = .diverted a .queueMatch ∧ ∀ f ∈ es, f.write.addr ≠ a.carrier) :
    settle b (s.headGone b es g .free) =
      State.headGone { s with host := .diverted a .onLink } b es g (.held .read (s.readAttempt a true)) := by
  subst hb
  rw [(serves_headGone hst).settle_read (by rw [headGone_bay]) (by rwa [headGone_host, headGone_bay]),
    State.headGone, setHost_modBay, modBay_modBay]
  refine modBay_congr ?_
  simp only [readAttempt_modBay]

end HeadGone

/-! ### A commit -/

/-- What a commit does beside the bay (R4, R43, R65). -/
def State.commitOf (s : State) (e : QEntry) : State :=
  { s with committed := s.committed + 1, host := s.committedHost e.through }

section Commit

variable {tr : Transfer} {n : BitVec 8} {e : QEntry} {es : List QEntry}

@[simp] theorem commitOf_bay (s : State) (e : QEntry) (b : BayId) : (s.commitOf e).bay b = s.bay b := by
  simp [State.commitOf]

theorem commitHead_eq (hs : (s.bay b).state.serving = true) (hl : (s.bay b).link = .held .drain tr)
    (hp : tr.phase = .requested n) (hq : (s.bay b).queue = e :: es) :
    commitHead b s = markAck b (settle b ((s.commitOf e).headGone b es (fun _ => 0) .free)) := by
  have hrequest : (s.bay b).link.request = true := by rw [hl]; exact request_held hp
  have hengine : (s.bay b).engine = .writing := by simp [Bay.engine, hs, hl, Link.heldByDrain]
  have hdrop : modBay b (fun x => { x with lossCount := 0 })
      (dropHead b { s with committed := s.committed + 1 }) =
      State.headGone { s with committed := s.committed + 1 } b es (fun _ => 0) .free := by
    rw [dropHead, modBay_modBay]
    exact modBay_congr (by simp [Bay.dropLink, hrequest, hq])
  unfold commitHead
  simp only [hengine, hq, hrequest, if_true, hdrop]
  congr 2
  unfold State.commitOf State.committedHost releaseThrough
  rw [headGone_host]
  cases s.host with
  | diverted a w =>
    cases w with
    | fate num =>
      cases e.through with
      | false => simp
      | true => exact setHost_modBay b _ _ _
    | _ => simp
  | _ => simp

theorem committedHost_of_wait {w : Wait} (h : s.host = .diverted a w) (hw : ∀ num, w ≠ .fate num)
    (through : Bool) : s.committedHost through = .diverted a w := by
  unfold State.committedHost
  split
  next b num hb =>
    rw [h] at hb
    cases hb
    exact absurd rfl (hw num)
  · exact h

theorem fateMet_commitOf (s : State) (e : QEntry) : FateMet s (s.commitOf e) := by
  have hhost : (s.commitOf e).host = s.committedHost e.through := rfl
  rw [FateMet, hhost]
  unfold State.committedHost
  split
  next a num ha =>
    cases e.through with
    | false => exact .inl rfl
    | true => exact .inr ⟨⟨a, num, ha⟩, _, _, rfl⟩
  · exact .inl rfl

theorem NothingStalled.commitOf (h : NothingStalled b s) : NothingStalled b (s.commitOf e) :=
  h.fateMet (fateMet_commitOf s e) (commitOf_bay s e _)

/-- A commit does nothing to an access that does not wait for a fate. -/
theorem commitOf_of_wait {w : Wait} (h : s.host = .diverted a w) (hw : ∀ num, w ≠ .fate num) :
    s.commitOf e = { s with committed := s.committed + 1 } := by
  unfold State.commitOf
  rw [committedHost_of_wait h hw, ← h]

theorem exec_commit (hrst : s.rst = false) (hs : (s.bay b).state.serving = true)
    (hl : (s.bay b).link = .held .drain tr) (hp : tr.phase = .requested n) (hq : (s.bay b).queue = e :: es) :
    exec (.commit b false) s =
      .next (markAck b (settle b ((s.commitOf e).headGone b es (fun _ => 0) .free))) :=
  exec_to hrst rfl (commitHead_eq hs hl hp hq)

/-- Settles O34: the settling of the bay commits nothing, loses nothing and keeps the count. -/
theorem commitCountsOnce : Obligations.CommitCountsOnce := by
  intro b tr n e es s hrst hs hl hp hq
  refine ⟨_, exec_commit hrst hs hl hp hq, ?_⟩
  have hlosses := settle_losses b ((s.commitOf e).headGone b es (fun _ => 0) .free)
  simp only [State.losses, Prod.mk.injEq] at hlosses
  obtain ⟨hlost, hlog, hsummary, hcount⟩ := hlosses
  refine ⟨?_, ?_, ?_, ?_, ?_⟩
  · simp [State.headGone, State.commitOf]
  · simpa [State.headGone, State.commitOf] using hlost
  · simpa [State.headGone, State.commitOf] using hlog
  · simpa [State.headGone, State.commitOf] using hsummary
  · simp [hcount]

/-- Settles O33: the bay settles after the head has left it, and the grant is marked (R75). -/
theorem commitTakesTheHead : Obligations.CommitTakesTheHead := by
  intro b tr n e es s hrst hl hp hq took
  have hcommit (hs : (s.bay b).state.serving = true) := exec_commit (s := s) hrst hs hl hp hq
  refine ⟨fun hst => ?_, fun hst => ?_⟩
  · have hst' : ((s.commitOf e).bay b).state = .ready ∨ ((s.commitOf e).bay b).state = .draining ∧ es ≠ [] := by
      rwa [commitOf_bay]
    have hs : (s.bay b).state.serving = true := by obtain h | ⟨h, -⟩ := hst <;> rw [h] <;> rfl
    refine ⟨fun hn => ?_, fun a hb => ?_⟩
    · rw [hcommit hs, settle_headGone hst' hn.commitOf, markAck_headGone, markAck_asked]
      rfl
    · have hread (hh : s.host = .diverted a .grant ∨
          s.host = .diverted a .queueMatch ∧ ∀ f ∈ es, f.write.addr ≠ a.carrier) :
          exec (.commit b false) s =
            .next (took es (.held .read (s.readAttempt a true)) { s with host := .diverted a .onLink }) := by
        have hwait : s.commitOf e = { s with committed := s.committed + 1 } := by
          obtain h | ⟨h, -⟩ := hh <;> exact commitOf_of_wait h (by simp)
        rw [hcommit hs, settle_headGone_read hst' hb (by rw [hwait]; exact hh), markAck_headGone, hwait]
        rfl
      refine ⟨fun serial stamp hh hready hroom hserial hstamp => ?_, fun hh hregion => ⟨fun hm => ?_, fun hm => ?_⟩,
        fun hh => ?_⟩
      · subst hb
        have hwait := commitOf_of_wait (e := e) hh (by simp)
        rw [hcommit hs, settle_headGone_space (by rwa [commitOf_bay]) (by rw [hwait]; exact hh) hroom
          (by rwa [commitOf_bay]) (by rwa [commitOf_bay]), markAck_headGone, markAck_asked, hwait]
        rfl
      · have hwait := commitOf_of_wait (e := e) hh (by simp)
        rw [hcommit hs, settle_headGone_match hst' hb (by rw [hwait]; exact hh) hregion hm, markAck_headGone,
          markAck_asked, hwait]
        rfl
      · exact hread (.inr ⟨hh, hm⟩)
      · exact hread (.inl hh)
  · have hs : (s.bay b).state.serving = true := by rw [hst]; rfl
    have hst' : (((s.commitOf e).headGone b es (fun _ => 0) .free).bay b).state = .replay := by
      rw [headGone_bay, commitOf_bay]
      exact hst
    obtain ⟨hl', hr'⟩ := replayed_free (b := b) (s := (s.commitOf e).headGone b es (fun _ => 0) .free)
      (by rw [headGone_bay]) (by rw [headGone_bay])
    refine ⟨fun hn => ?_, ?_⟩
    · rw [hcommit hs, settle_replay hst' hn.commitOf.headGone, markAck_asks hl' hr']
      rfl
    · rintro a hh rfl
      have hwait := commitOf_of_wait (e := e) hh (by simp)
      have hmeets : exec (.commit a.copy.bay false) s =
          .next (((took es .free s).replayed a.copy.bay).meets a fun t => t.asksAfterAck a.copy.bay) := by
        rw [hcommit hs, settle_replay_waiting hst' (by rw [headGone_host, hwait]; exact hh),
          markAck_meets hl' hr', hwait]
        rfl
      refine ⟨hmeets, fun f capacity hcap hlocked hfit hlen hpending hw hmode hrange => ?_⟩
      intro q
      have hbay : (took es .free s).bay a.copy.bay =
          { s.bay a.copy.bay with queue := es, lossCount := 0, link := .free, reqHigh := true } := by
        simp [took]
      have hhold : (took es .free s).hold = s.hold := by simp [took]
      have hready := replayed_ready (s := took es .free s) (b := a.copy.bay) (q := q)
        (by rw [hbay, hhold, hfit]; simp [hlen]) (by rw [hbay, hhold, hfit]; rfl) (by rw [hbay]; exact hpending)
      rw [hmeets, hready, hbay, hhold]
      rw [meets_write_full (by simp) hw (by simpa [took, hcap] using hrange) hmode (by simpa [took] using hlocked)
        (by simp [q, hlen])]
      refine congrArg _ ?_
      simp only [took]
      cases a.copy.bay <;> rfl

end Commit

end Sys2Proof.Machine
end

section
/-! PROOFS. The evacuation of a posting queue, and the bay's leaving service with it (sections 4.4 and
6.2). -/

namespace Sys2Proof.Machine

variable {b : BayId} {s t : State} {a : Access}

/-! ### Latches -/

theorem BayLatch.index_lt (l : BayLatch) : l.index < 10 := by cases l <;> decide

theorem BayLatch.index_injective {k l : BayLatch} (h : k.index = l.index) : k = l := by
  cases k <;> cases l <;> simp_all [BayLatch.index]

theorem Latch.number_lt (l : Latch) : l.number < 23 := by
  cases l with
  | bay b l =>
    have := l.index_lt
    cases b <;> simp only [Latch.number] <;> omega
  | _ => decide

theorem Latch.number_injective {k l : Latch} (h : k.number = l.number) : k = l := by
  cases k with
  | bay b k =>
    have := k.index_lt
    cases l with
    | bay c l =>
      have := l.index_lt
      cases b <;> cases c <;> simp only [Latch.number] at h
      · rw [BayLatch.index_injective h]
      · omega
      · omega
      · rw [BayLatch.index_injective (by omega : k.index = l.index)]
    | _ => cases b <;> simp only [Latch.number] at h <;> omega
  | _ =>
    cases l with
    | bay c l =>
      have := l.index_lt
      cases c <;> simp only [Latch.number] at h <;> omega
    | _ => simp_all [Latch.number]

/-- Setting a latch sets that latch alone (R142). -/
theorem State.raise_latch (s : State) (l k : Latch) :
    (s.raise l).latch k = (s.latch k || decide (k = l)) := by
  have hbit : (1#23 <<< l.number).getLsbD k.number = decide (k = l) := by
    have hk := k.number_lt
    rw [BitVec.getLsbD_shiftLeft, BitVec.getLsbD_one]
    by_cases h : k = l
    · subst h
      simp [hk]
    · have hne : k.number ≠ l.number := fun he => h (Latch.number_injective he)
      simp [h]
      omega
  rw [State.latch, State.raise, State.latch, BitVec.getLsbD_or, hbit]

@[simp] theorem modBay_latch (b : BayId) (f : Bay → Bay) (s : State) (l : Latch) :
    (modBay b f s).latch l = s.latch l := by simp [State.latch]

theorem setLatch_latch (s : State) (l : Latch) : (setLatch l s).latch l = true := by
  rw [setLatch_eq_raise, State.raise_latch]
  simp

/-! ### The order of the offers -/

theorem ordSort_rising {α : Type} (key : α → Nat) (l : List α) (h : (l.map key).Nodup) :
    ((ordSort key l).map key).Pairwise (· < ·) := by
  induction l with
  | nil => exact .nil
  | cons x xs ih =>
    rw [List.map_cons, List.nodup_cons] at h
    exact ordInsert_rising key x _ (ih h.2) fun hx => h.1 (((ordSort_perm key xs).map key).mem_iff.mp hx)

theorem evacuees_rising (h : InOrder s) : ((evacuees b s).map QEntry.ord).Pairwise (· < ·) := by
  refine ordSort_rising _ _ ?_
  rw [flagHead_map_ord]
  have hnodup := ((outstanding_perm b s).nodup_iff.mp h.distinct)
  exact (List.nodup_append.mp hnodup).1

/-- The offered entries are those of the queue, the head with its flag (R74). -/
theorem evacuees_perm (b : BayId) (s : State) :
    (evacuees b s).Perm (flagHead (s.bay b).link.flagsHead (s.bay b).queue) := ordSort_perm _ _

/-! ### The account of an evacuation -/

/-- What the losses of writes are made of (R5). -/
def State.lossAccount (s : State) : Word × List LossRecord × Option Summary :=
  (s.lost, s.lossLog, s.summary)

theorem lose_lossAccount (h : s.lossAccount = t.lossAccount) (r : LossRecord) :
    (lose r s).lossAccount = (lose r t).lossAccount := by
  simp only [State.lossAccount, Prod.mk.injEq] at h
  obtain ⟨hlost, hlog, hsum⟩ := h
  unfold lose logLoss
  simp only [setLatch_frame, hsum, hlog]
  cases t.summary with
  | some m => simp [State.lossAccount, hlost]
  | none =>
    dsimp only
    split <;> simp [State.lossAccount, hlost]

theorem foldl_lose_lossAccount {α : Type} (f : α → LossRecord) (l : List α)
    (h : s.lossAccount = t.lossAccount) :
    (l.foldl (fun s e => lose (f e) s) s).lossAccount =
      (l.foldl (fun s e => lose (f e) s) t).lossAccount := by
  induction l generalizing s t with
  | nil => exact h
  | cons e es ih => exact ih (lose_lossAccount h (f e))

section Offers

variable {e : QEntry}

theorem evacuateOne_lossAccount_room (hroom : s.hold.length < holdCapacity) :
    (evacuateOne s e).lossAccount = s.lossAccount := by
  unfold evacuateOne
  rw [if_pos hroom]
  dsimp only
  split <;> simp [State.lossAccount]

theorem evacuateOne_lossAccount_full (hfull : ¬s.hold.length < holdCapacity) :
    (evacuateOne s e).lossAccount = (lose ⟨.holdFull, e.write, false⟩ s).lossAccount := by
  unfold evacuateOne
  rw [if_neg hfull]
  dsimp only
  split
  · simp only [State.lossAccount, releaseThrough_frame]
  · rfl

/-- The entries past the hold store's room are lost, one at a time (R125). -/
theorem foldl_evacuateOne_lossAccount (q : List QEntry) (s : State) :
    (q.foldl evacuateOne s).lossAccount =
      ((q.drop (48 - s.hold.length)).foldl (fun s e => lose ⟨.holdFull, e.write, false⟩ s)
        s).lossAccount := by
  induction q generalizing s with
  | nil => simp
  | cons e es ih =>
    rw [List.foldl_cons, ih, evacuateOne_hold]
    by_cases hroom : s.hold.length < holdCapacity
    · have hk : 48 - s.hold.length = (48 - (s.hold.length + 1)) + 1 := by
        unfold holdCapacity at hroom
        omega
      rw [if_pos hroom, ordInsert_length, hk, List.drop_succ_cons]
      exact foldl_lose_lossAccount _ _ (evacuateOne_lossAccount_room hroom)
    · have hk : 48 - s.hold.length = 0 := by
        unfold holdCapacity at hroom
        omega
      rw [if_neg hroom, hk, List.drop_zero, List.drop_zero, List.foldl_cons]
      exact foldl_lose_lossAccount _ _ (evacuateOne_lossAccount_full hroom)

/-- The oldest entries join the hold store while it has room, with stale clear (R125). -/
theorem foldl_evacuateOne_hold (q : List QEntry) (s : State) :
    (q.foldl evacuateOne s).hold.Perm
      (s.hold ++ (q.take (48 - s.hold.length)).map fun e => ⟨e.ord, e.write, false⟩) := by
  induction q generalizing s with
  | nil => simp
  | cons e es ih =>
    rw [List.foldl_cons]
    refine (ih _).trans ?_
    rw [evacuateOne_hold]
    by_cases hroom : s.hold.length < holdCapacity
    · have hk : 48 - s.hold.length = (48 - (s.hold.length + 1)) + 1 := by
        unfold holdCapacity at hroom
        omega
      rw [if_pos hroom, ordInsert_length, hk, List.take_succ_cons, List.map_cons]
      exact ((ordInsert_perm _ _ _).append_right _).trans List.perm_middle.symm
    · have hk : 48 - s.hold.length = 0 := by
        unfold holdCapacity at hroom
        omega
      rw [if_neg hroom, hk]
      simp

/-! ### The host of an evacuation -/

/-- What the host port and the host error record show. -/
def State.port (s : State) : HostPort × Option HostError := (s.host, s.hostError)

/-- A host that waits for no fate is not released. -/
theorem releaseThrough_of_ne (h : ∀ a num, s.host ≠ .diverted a (.fate num)) (c : Option HostCause) :
    releaseThrough c s = s := by
  unfold releaseThrough
  split
  next a num ha => exact absurd ha (h a num)
  next => rfl

theorem releaseThrough_port (h : ∀ a num, s.host ≠ .diverted a (.fate num)) (c : Option HostCause) :
    (releaseThrough c s).port = s.port := by rw [releaseThrough_of_ne h]

/-- The port after the error release of a host that waited for a fate. -/
theorem releaseThrough_error {num : Word} (h : s.host = .diverted a (.fate num)) (c : HostCause) :
    releaseThrough (some c) s = s.errorRelease a c (some num) := by
  unfold releaseThrough
  rw [h]
  rfl

theorem errorRelease_port (h : s.port = t.port) (c : HostCause) (n : Option Word) :
    (s.errorRelease a c n).port = (t.errorRelease a c n).port := by
  simp only [State.port, Prod.mk.injEq] at h
  simp [State.port, State.errorRelease, h.2]

theorem evacuateOne_port (h : e.through = false ∨ ∀ a num, s.host ≠ .diverted a (.fate num)) :
    (evacuateOne s e).port = s.port := by
  have hjoin (u : State) (hu : u.port = s.port) (c : Option HostCause) :
      (if e.through then releaseThrough c u else u).port = s.port := by
    have hhost : u.host = s.host := congrArg Prod.fst hu
    split
    next ht =>
      obtain h | h := h
      · rw [h] at ht
        cases ht
      · rw [releaseThrough_port (by rwa [hhost]), hu]
    · exact hu
  unfold evacuateOne
  split
  · exact hjoin _ (by simp [State.port]) _
  · exact hjoin _ (by simp [State.port]) _

theorem foldl_evacuateOne_port (q : List QEntry) (s : State)
    (h : (∀ e ∈ q, e.through = false) ∨ ∀ a num, s.host ≠ .diverted a (.fate num)) :
    (q.foldl evacuateOne s).port = s.port := by
  induction q generalizing s with
  | nil => rfl
  | cons e es ih =>
    have hone : (evacuateOne s e).port = s.port :=
      evacuateOne_port (h.imp (fun h => h e List.mem_cons_self) id)
    have hhost : (evacuateOne s e).host = s.host := congrArg Prod.fst hone
    rw [List.foldl_cons, ih _ (h.imp (fun h x hx => h x (List.mem_cons_of_mem _ hx)) (by rw [hhost]; exact id)),
      hone]

/-- The offer of the entry that the host waits on releases it (R43, R74). -/
theorem evacuateOne_release {num : Word} (h : s.host = .diverted a (.fate num)) (he : e.through = true) :
    (evacuateOne s e).port =
      (s.errorRelease a (if s.hold.length < holdCapacity then .held else .lost) (some num)).port := by
  unfold evacuateOne
  by_cases hroom : s.hold.length < holdCapacity
  · rw [if_pos hroom, if_pos hroom]
    simp only [he, if_true]
    rw [releaseThrough_error (by simpa using h)]
    exact errorRelease_port (by simp [State.port]) _ _
  · rw [if_neg hroom, if_neg hroom]
    simp only [he, if_true]
    rw [releaseThrough_error (by simpa using h)]
    exact errorRelease_port (by simp [State.port]) _ _

theorem foldl_evacuateOne_release {num : Word} (q : List QEntry) (s : State) (i : Nat)
    (hh : s.host = .diverted a (.fate num)) (hi : q[i]? = some e) (he : e.through = true)
    (hbefore : ∀ j < i, ∀ x, q[j]? = some x → x.through = false) :
    (q.foldl evacuateOne s).port =
      (s.errorRelease a (if i < 48 - s.hold.length then .held else .lost) (some num)).port := by
  induction q generalizing s i with
  | nil => simp at hi
  | cons x xs ih =>
    rw [List.foldl_cons]
    cases i with
    | zero =>
      obtain rfl : x = e := by simpa using hi
      have hone := evacuateOne_release hh he
      have hreleased : ∀ a num, (evacuateOne s x).host ≠ .diverted a (.fate num) := by
        have : (evacuateOne s x).host = _ := congrArg Prod.fst hone
        rw [this]
        exact fun _ _ h => nomatch h
      rw [foldl_evacuateOne_port xs _ (.inr hreleased), hone]
      have hiff : s.hold.length < holdCapacity ↔ 0 < 48 - s.hold.length := by
        unfold holdCapacity
        omega
      simp only [hiff]
    | succ i =>
      have hx : x.through = false := hbefore 0 (Nat.succ_pos i) x rfl
      have hone : (evacuateOne s x).port = s.port := evacuateOne_port (.inl hx)
      have hhost : (evacuateOne s x).host = s.host := congrArg Prod.fst hone
      rw [ih _ i (hhost.trans hh) hi fun j hj y hy => hbefore (j + 1) (Nat.succ_lt_succ hj) y hy,
        errorRelease_port hone]
      have hiff : i < 48 - (evacuateOne s x).hold.length ↔ i + 1 < 48 - s.hold.length := by
        rw [evacuateOne_hold]
        unfold holdCapacity
        split
        · rw [ordInsert_length]
          omega
        · omega
      simp only [hiff]

/-! ### The latches of an evacuation -/

/-- A join sets HOLD_HIGH when it reaches the threshold (R127). -/
theorem evacuateOne_holdHigh (hroom : s.hold.length < holdCapacity)
    (hhigh : s.items.holdThreshold.toNat ≤ s.hold.length + 1) : (evacuateOne s e).latch .holdHigh = true := by
  have hjoin : (joinEvacuated ⟨e.ord, e.write, false⟩ s).latch .holdHigh = true := by
    unfold joinEvacuated holdHigh
    rw [if_pos (by simpa using hhigh)]
    exact setLatch_latch _ _
  unfold evacuateOne
  rw [if_pos hroom]
  dsimp only
  split
  · exact (Raises.refl _).releaseThrough _ .holdHigh hjoin
  · exact hjoin

theorem evacuateOne_loss (hfull : ¬s.hold.length < holdCapacity) : (evacuateOne s e).latch .loss = true := by
  have hlose : (lose ⟨.holdFull, e.write, false⟩ s).latch .loss = true := by
    have hlatches : (lose ⟨.holdFull, e.write, false⟩ s).latches =
        (setLatch .loss { s with lost := s.lost + 1 }).latches := by simp [lose]
    rw [State.latch, hlatches]
    exact setLatch_latch _ _
  unfold evacuateOne
  rw [if_neg hfull]
  dsimp only
  split
  · exact (Raises.refl _).releaseThrough _ .loss hlose
  · exact hlose

/-- The last join decides: every offer before it leaves the hold store smaller (R127). -/
theorem foldl_evacuateOne_holdHigh (q : List QEntry) (s : State) (hroom : 0 < 48 - s.hold.length) (hq : q ≠ [])
    (hhigh : s.items.holdThreshold.toNat ≤ (q.foldl evacuateOne s).hold.length) :
    (q.foldl evacuateOne s).latch .holdHigh = true := by
  induction q generalizing s with
  | nil => exact absurd rfl hq
  | cons e es ih =>
    rw [List.foldl_cons] at hhigh ⊢
    have hspace : s.hold.length < holdCapacity := by
      unfold holdCapacity
      omega
    have hlength : (evacuateOne s e).hold.length = s.hold.length + 1 := by
      rw [evacuateOne_hold, if_pos hspace, ordInsert_length]
    by_cases hmore : 0 < 48 - (evacuateOne s e).hold.length ∧ es ≠ []
    · exact ih _ hmore.1 hmore.2 (by simpa using hhigh)
    · have hfinal := (foldl_evacuateOne_hold es (evacuateOne s e)).length_eq
      have hnone : (es.take (48 - (evacuateOne s e).hold.length)).length = 0 := by
        rw [List.length_take]
        by_cases hes : es = []
        · simp [hes]
        · have : ¬0 < 48 - (evacuateOne s e).hold.length := fun h => hmore ⟨h, hes⟩
          omega
      rw [List.length_append, List.length_map, hnone, hlength] at hfinal
      rw [hfinal] at hhigh
      exact Raises.foldl_evacuateOne (.refl _) es .holdHigh (evacuateOne_holdHigh hspace hhigh)

/-- An entry past the room is lost, and LOSS set (R5, R125). -/
theorem foldl_evacuateOne_loss (q : List QEntry) (s : State) (h : 48 - s.hold.length < q.length) :
    (q.foldl evacuateOne s).latch .loss = true := by
  induction q generalizing s with
  | nil => simp at h
  | cons e es ih =>
    rw [List.foldl_cons]
    by_cases hroom : s.hold.length < holdCapacity
    · refine ih _ ?_
      rw [evacuateOne_hold, if_pos hroom, ordInsert_length]
      unfold holdCapacity at hroom
      rw [List.length_cons] at h
      omega
    · exact Raises.foldl_evacuateOne (.refl _) es .loss (evacuateOne_loss hroom)

end Offers

/-! ### An evacuation -/

@[simp] theorem emptied_hold (b : BayId) (s : State) : (emptied b s).hold = s.hold := by simp [emptied]

theorem emptied_lossAccount (b : BayId) (s : State) : (emptied b s).lossAccount = s.lossAccount := by
  simp [State.lossAccount, emptied]

theorem emptied_port (b : BayId) (s : State) : (emptied b s).port = s.port := by
  simp [State.port, emptied]

theorem emptied_host (b : BayId) (s : State) : (emptied b s).host = s.host := modBay_host _ _ _

/-- Settles O47: the entries that are offered are `evacuees`, one after the other. -/
theorem evacuationKeepsTheOldest : Obligations.EvacuationKeepsTheOldest := by
  intro b s t room
  have ht : t = (evacuees b s).foldl evacuateOne (emptied b s) := evacuate_eq b s
  have hroom : 48 - (emptied b s).hold.length = room := by rw [emptied_hold]
  refine ⟨evacuees b s, ?_, fun h => ⟨evacuees_rising h, (evacuate_inOrder b h).rising⟩, evacuate_bay b s,
    evacuate_bay_other b s, ?_, ?_, ?_, ?_, fun hq => ?_, fun a num i e hh hi he hbefore => ?_,
    fun hr hq hhigh => ?_, fun hlong => ?_⟩
  · refine (evacuees_perm b s).trans (.of_eq ?_)
    cases (s.bay b).queue with
    | nil => rfl
    | cons e es =>
      cases (s.bay b).link with
      | free => simp [flagHead, Link.flagsHead]
      | abandoned => simp [flagHead, Link.flagsHead]
      | held h tr =>
        cases h with
        | read => simp [flagHead, Link.flagsHead]
        | ident => simp [flagHead, Link.flagsHead]
        | drain => by_cases hp : tr.phase = .afterAck <;> simp [flagHead, Link.flagsHead, hp]
  · rw [ht, ← hroom]
    exact (foldl_evacuateOne_hold _ _).trans (by rw [emptied_hold])
  · intro lost
    have hlosses := (foldl_evacuateOne_lossAccount (evacuees b s) (emptied b s)).trans
      (foldl_lose_lossAccount _ _ (emptied_lossAccount b s))
    rw [← ht, hroom] at hlosses
    simpa [State.lossAccount] using hlosses
  · simp [t]
  · simp [t]
  · have hport := (foldl_evacuateOne_port _ (emptied b s) (.inl hq)).trans (emptied_port b s)
    rw [← ht] at hport
    simpa [State.port] using hport
  · have hport := (foldl_evacuateOne_release _ _ i ((emptied_host b s).trans hh) hi he hbefore).trans
      (errorRelease_port (emptied_port b s) _ _)
    rw [← ht, hroom] at hport
    simpa only [State.port, Prod.mk.injEq] using hport
  · rw [ht] at hhigh ⊢
    exact foldl_evacuateOne_holdHigh _ _ (by rwa [hroom]) hq (by simpa [emptied] using hhigh)
  · rw [ht]
    exact foldl_evacuateOne_loss _ _ (by rwa [hroom])

/-! ### A bay that leaves service -/

theorem joinEvacuated_modBay (b : BayId) (f : Bay → Bay) (e : HoldEntry) (s : State) :
    joinEvacuated e (modBay b f s) = modBay b f (joinEvacuated e s) := by
  have hhold : (modBay b f s).hold = s.hold := by simp
  have hitems : (modBay b f s).items = s.items := by simp
  unfold joinEvacuated holdHigh
  dsimp only
  rw [hhold, hitems]
  split <;> cases b <;> rfl

theorem logLoss_modBay (b : BayId) (f : Bay → Bay) (r : LossRecord) (s : State) :
    logLoss r (modBay b f s) = modBay b f (logLoss r s) := by
  have hsummary : (modBay b f s).summary = s.summary := by simp
  have hlog : (modBay b f s).lossLog = s.lossLog := by simp
  unfold logLoss
  rw [hsummary, hlog]
  cases s.summary with
  | some m => cases b <;> rfl
  | none =>
    dsimp only
    split <;> cases b <;> rfl

theorem lose_modBay (b : BayId) (f : Bay → Bay) (r : LossRecord) (s : State) :
    lose r (modBay b f s) = modBay b f (lose r s) := by
  have hcount : setLatch .loss { modBay b f s with lost := (modBay b f s).lost + 1 } =
      modBay b f (setLatch .loss { s with lost := s.lost + 1 }) := by cases b <;> rfl
  unfold lose
  rw [hcount, logLoss_modBay]

theorem releaseThrough_modBay (b : BayId) (f : Bay → Bay) (c : Option HostCause) (s : State) :
    releaseThrough c (modBay b f s) = modBay b f (releaseThrough c s) := by
  unfold releaseThrough
  rw [modBay_host]
  split
  · cases c <;> cases b <;> rfl
  · rfl

theorem evacuateOne_modBay (b : BayId) (f : Bay → Bay) (s : State) (e : QEntry) :
    evacuateOne (modBay b f s) e = modBay b f (evacuateOne s e) := by
  have hhold : (modBay b f s).hold = s.hold := by simp
  unfold evacuateOne
  rw [hhold, joinEvacuated_modBay, lose_modBay]
  dsimp only
  rw [releaseThrough_modBay, releaseThrough_modBay]
  repeat' split
  all_goals rfl

theorem foldl_evacuateOne_modBay (b : BayId) (f : Bay → Bay) (q : List QEntry) (s : State) :
    q.foldl evacuateOne (modBay b f s) = modBay b f (q.foldl evacuateOne s) := by
  induction q generalizing s with
  | nil => rfl
  | cons e es ih => rw [List.foldl_cons, evacuateOne_modBay, ih, List.foldl_cons]

/-- The contacts of a bay have no part in its evacuation. -/
theorem evacuate_contacts (b : BayId) (k : Contacts → Contacts) (s : State) :
    evacuate b (modBay b (fun x => { x with contacts := k x.contacts }) s) =
      modBay b (fun x => { x with contacts := k x.contacts }) (evacuate b s) := by
  have hq : evacuees b (modBay b (fun x => { x with contacts := k x.contacts }) s) = evacuees b s := by
    simp [evacuees]
  rw [evacuate_eq, evacuate_eq, hq, ← foldl_evacuateOne_modBay]
  unfold emptied
  rw [modBay_modBay, modBay_modBay]

/-- What leaving service does to a bay whose contacts break (R102, R118). -/
theorem leaveServing_contacts (b : BayId) (st : BayState) (cause : MountCause) (k : Contacts → Contacts)
    (s : State) :
    leaveServing b st cause (modBay b (fun x => { x with contacts := k x.contacts }) s) =
      modBay b
        (fun x => { x with
          state := st, link := .free, reqHigh := x.link.request || x.reqHigh
          drainTimer := none, ejectPending := false
          lamp := decide (st = .released), contacts := k x.contacts
          mount := { x.mount with supply := .none, cause := cause } })
        (evacuate b s) := by
  rw [leaveServing, evacuate_contacts, modBay_modBay]
  refine modBay_congr ?_
  simp [Bay.enter, Bay.supplyOff, Bay.dropLink]
  cases st <;> rfl

theorem fateMet_evacuate (b : BayId) (s : State) : FateMet s (evacuate b s) := by
  rw [evacuate_eq]
  exact (FateMet.of_eq (emptied_host b s)).trans (fateMet_foldl_evacuateOne _ _)

/-- An access that does not wait for a fate waits on. -/
theorem FateMet.of_wait (h : FateMet s t) {w : Wait} (hh : s.host = .diverted a w)
    (hw : ∀ num, w ≠ .fate num) : t.host = .diverted a w := by
  obtain h | ⟨⟨c, num, hc⟩, -⟩ := h
  · exact h.trans hh
  · rw [hh] at hc
    cases hc
    exact absurd rfl (hw num)

/-- A bay that has left service, its link free. -/
structure Gone (b : BayId) (s : State) : Prop where
  state : (s.bay b).state = .empty ∨ (s.bay b).state = .faulted ∨ (s.bay b).state = .released
  link : (s.bay b).link = .free

theorem Gone.idle (h : Gone b s) : afterWork b s = s := by
  refine afterWork_idle (fun hr => ?_) fun hd => ?_
  · obtain h | h | h := h.state <;> rw [h] at hr <;> cases hr
  · obtain h | h | h := h.state <;> rw [h] at hd <;> cases hd

theorem Gone.out (h : Gone b s) : (s.bay b).state.serving = false ∧ (s.bay b).state ≠ .identifying := by
  obtain h | h | h := h.state <;> rw [h] <;> exact ⟨rfl, BayState.noConfusion⟩

/-- It has nothing to settle where nobody waits. -/
theorem Gone.settle (h : Gone b s) (hn : NothingStalled b s) : Machine.settle b s = s := by
  rw [settle_out hn (by rw [h.idle]; exact h.out.1) (by rw [h.idle]; exact h.out.2), h.idle]

/-- And an access that waits ends by its absent policy (R39, R48). -/
theorem Gone.settle_waiting (h : Gone b s) {w : Wait} (hh : s.host = .diverted a w) (hb : a.copy.bay = b)
    (hw : w.endsAbsent a.write = true) :
    Machine.settle b s = if a.write then s.absentWrite a else s.absentRead a := by
  subst hb
  have hidle := h.idle
  rw [settle_absent (by rw [hidle]; exact h.out.1) (by rw [hidle]; exact h.out.2) (by rw [hidle]; exact h.link)
    hh hw, hidle]

theorem Gone.settle_read (h : Gone b s) {w : Wait} (hh : s.host = .diverted a w) (hb : a.copy.bay = b)
    (hread : a.write = false) (hw : w = .replay ∨ w = .queueMatch ∨ w = .grant ∨ w = .onLink) :
    Machine.settle b s = s.absentRead a := by
  rw [h.settle_waiting hh hb (by rw [hread]; obtain rfl | rfl | rfl | rfl := hw <;> rfl), hread]
  rfl

theorem Gone.settle_write (h : Gone b s) {w : Wait} (hh : s.host = .diverted a w) (hb : a.copy.bay = b)
    (hwrite : a.write = true) (hw : w = .replay ∨ w = .space) :
    Machine.settle b s = s.absentWrite a := by
  rw [h.settle_waiting hh hb (by rw [hwrite]; obtain rfl | rfl := hw <;> rfl), hwrite]
  rfl

theorem foldl_raise_bay (l : List Latch) (s : State) (b : BayId) : (l.foldl State.raise s).bay b = s.bay b := by
  induction l generalizing s with
  | nil => rfl
  | cons k l ih => rw [List.foldl_cons, ih, State.raise_bay]

theorem foldl_raise_host (l : List Latch) (s : State) : (l.foldl State.raise s).host = s.host := by
  induction l generalizing s with
  | nil => rfl
  | cons k l ih => exact ih _

/-- Settles O46: each event leaves the bay gone, and settles it. -/
theorem serviceEnds : Obligations.ServiceEnds := by
  intro c b st cause l k s hrst hc left
  have hstep : exec c s = .next (settle b left) := by
    obtain ⟨hs, ⟨d, rfl, rfl, rfl, rfl, rfl⟩ | ⟨rfl, rfl, rfl, rfl, rfl⟩⟩ | ⟨hst, hd, rfl, rfl, rfl, rfl, rfl⟩ := hc
    · refine exec_to hrst rfl ?_
      rw [timed_false, removeServing, if_pos hs, breakDetect]
      cases d with
      | det1 =>
        rw [leaveServing_contacts b _ _ fun x => { x with det1 := false }]
        rfl
      | det2 =>
        rw [leaveServing_contacts b _ _ fun x => { x with det2 := false }]
        rfl
    · refine exec_to hrst rfl ?_
      rw [timed_false, powerLoss]
      rw [if_pos hs, samplePower, leaveServing_contacts b _ _ (fun x => { x with pgood := false })]
      rfl
    · refine exec_to hrst rfl ?_
      rw [timed_false, drainTimeout, if_pos ⟨hst, hd⟩]
      have hcontacts := leaveServing_contacts b .released .none (fun x => x) s
      rw [modBay_self rfl] at hcontacts
      rw [hcontacts]
      rfl
  have hst : st = .empty ∨ st = .faulted ∨ st = .released := by
    obtain ⟨-, ⟨d, -, h, -⟩ | ⟨-, h, -⟩⟩ | ⟨-, -, -, h, -⟩ := hc
    · exact .inl h
    · exact .inr (.inl h)
    · exact .inr (.inr h)
  have hgone : Gone b left := by
    refine ⟨?_, ?_⟩ <;> rw [foldl_raise_bay, modBay_bay]
    exact hst
  have hfate : FateMet s left := (fateMet_evacuate b s).trans (.of_eq (by rw [foldl_raise_host, modBay_host]))
  rw [hstep]
  refine ⟨fun hn => congrArg _ (hgone.settle (hn.fateMet hfate ?_)), fun a w hh hb => ⟨fun hr hw => ?_, fun hw' hw => ?_⟩⟩
  · rw [foldl_raise_bay]
    simp
  · refine congrArg _ (hgone.settle_read (hfate.of_wait hh ?_) hb hr hw)
    obtain rfl | rfl | rfl | rfl := hw <;> simp
  · refine congrArg _ (hgone.settle_write (hfate.of_wait hh ?_) hb hw' hw)
    obtain rfl | rfl := hw <;> simp

end Sys2Proof.Machine
end

section
/-! PROOFS. The loss of the head entry below and at the threshold, and the clean end of a drain
(sections 4.2, 6.3 and 6.4). -/

namespace Sys2Proof.Machine

variable {b : BayId} {s t : State} {a : Access} {tr : Transfer} {n : BitVec 8} {e : QEntry} {es : List QEntry}

/-! ### One loss of the head entry -/

@[simp] theorem lose_items (r : LossRecord) (s : State) : (lose r s).items = s.items := by simp

@[simp] theorem losesHead_bay (s : State) (e : QEntry) (b : BayId) : (s.losesHead e).bay b = s.bay b := by
  unfold State.losesHead
  dsimp only
  repeat' split
  all_goals simp

@[simp] theorem losesHead_items (s : State) (e : QEntry) : (s.losesHead e).items = s.items := by
  unfold State.losesHead
  dsimp only
  repeat' split
  all_goals simp [State.errorRelease]

@[simp] theorem losesHead_accepted (s : State) (e : QEntry) :
    (s.losesHead e).accepted = s.accepted ∧ (s.losesHead e).committed = s.committed := by
  unfold State.losesHead
  dsimp only
  repeat' split
  all_goals simp [State.errorRelease, State.raise]

@[simp] theorem losesHead_hold (s : State) (e : QEntry) : (s.losesHead e).hold = s.hold := by
  unfold State.losesHead
  dsimp only
  repeat' split
  all_goals simp [State.errorRelease, State.raise]

theorem losesHead_eq (s : State) (e : QEntry) :
    s.losesHead e =
      if e.through then releaseThrough (some .lost) (lose ⟨.writeFault, e.write, false⟩ s)
      else lose ⟨.writeFault, e.write, false⟩ s := by
  have hhost : (lose ⟨.writeFault, e.write, false⟩ s).host = s.host := by simp
  by_cases hfate : ∃ a num, s.host = .diverted a (.fate num)
  · obtain ⟨a, num, hh⟩ := hfate
    rw [releaseThrough_error (hhost.trans hh)]
    unfold State.losesHead
    rw [hh]
  · have hne (a : Access) (num : Word) : s.host ≠ .diverted a (.fate num) := fun h => hfate ⟨a, num, h⟩
    rw [releaseThrough_of_ne (by rwa [hhost]), ite_self]
    unfold State.losesHead
    split
    next a num hh => exact absurd hh (hne a num)
    next => rfl

theorem fateMet_losesHead (s : State) (e : QEntry) : FateMet s (s.losesHead e) := by
  rw [losesHead_eq]
  have hhost : (lose ⟨.writeFault, e.write, false⟩ s).host = s.host := by simp
  split
  · exact (FateMet.of_eq hhost).trans (fateMet_releaseThrough _ _)
  · exact .of_eq hhost

theorem NothingStalled.losesHead (h : NothingStalled b s) : NothingStalled b (s.losesHead e) :=
  h.fateMet (fateMet_losesHead s e) (losesHead_bay s e _)

/-- A loss does nothing to an access that does not wait for a fate. -/
theorem losesHead_of_wait {w : Wait} (h : s.host = .diverted a w) (hw : ∀ num, w ≠ .fate num) :
    s.losesHead e = lose ⟨.writeFault, e.write, false⟩ s := by
  unfold State.losesHead
  dsimp only
  split
  next c num hc =>
    rw [h] at hc
    cases hc
    exact absurd rfl (hw num)
  · rfl

/-- The loss of the head, before the threshold is looked at (R66). -/
theorem countLoss_eq (hl : (s.bay b).link = .held .drain tr) (hp : tr.phase = .requested n)
    (hq : (s.bay b).queue = e :: es) :
    countLoss b e s = (s.losesHead e).headGone b es (· + 1) .free := by
  have hrequest : (s.bay b).link.request = true := by rw [hl]; exact request_held hp
  have hdrop : modBay b (fun x => { x with lossCount := x.lossCount + 1 })
      (lose ⟨.writeFault, e.write, false⟩ (dropHead b s)) =
      (lose ⟨.writeFault, e.write, false⟩ s).headGone b es (· + 1) .free := by
    rw [dropHead, lose_modBay, modBay_modBay]
    exact modBay_congr (by simp [Bay.dropLink, hrequest, hq])
  unfold countLoss
  rw [hdrop, losesHead_eq]
  dsimp only
  split
  · exact releaseThrough_modBay _ _ _ _
  · rfl

theorem exec_loses {c : Instr} (hc : c = .failedAttempt b false ∨ c = .responseTimeout b false)
    (hrst : s.rst = false) (hl : (s.bay b).link = .held .drain tr) (hp : tr.phase = .requested n)
    (hk : tr.left = 0) (hq : (s.bay b).queue = e :: es) :
    exec c s = .next (settle b (checkThreshold b ((s.losesHead e).headGone b es (· + 1) .free))) := by
  refine exec_fails hc hrst ?_
  rw [failAttempt_last hl hp hk, ← countLoss_eq hl hp hq, failTransfer]
  simp only [hq]
  rfl

/-- Below the threshold the bay goes on (R67). -/
theorem checkThreshold_below
    (h : (s.bay b).lossCount + 1 < s.items.faultThreshold.toNat) :
    checkThreshold b ((s.losesHead e).headGone b es (· + 1) .free) =
      (s.losesHead e).headGone b es (· + 1) .free := by
  refine if_neg ?_
  have hitems : ((s.losesHead e).headGone b es (· + 1) .free).items = s.items := by simp [State.headGone]
  rw [hitems, headGone_bay, losesHead_bay]
  exact Nat.not_le.mpr h

/-! ### The clean end of a drain -/

theorem afterWork_drained (hst : (s.bay b).state = .draining) (hq : (s.bay b).queue = []) :
    afterWork b s = modBay b Bay.drained (s.raise (.bay b .ejectDone)) := by
  have hwork : replayWork b s = s := if_neg (by rw [hst]; exact BayState.noConfusion)
  rw [afterWork, hwork, drainEnd_drained hst hq]

section Drained

variable (hst : (s.bay b).state = .draining) (hq : (s.bay b).queue = [])
include hst hq

theorem settle_drained (hn : NothingStalled b s) :
    settle b s = modBay b Bay.drained (s.raise (.bay b .ejectDone)) := by
  have hwork := afterWork_drained hst hq
  rw [← hwork]
  refine settle_out hn ?_ ?_ <;> rw [hwork, modBay_bay]
  · rfl
  · exact BayState.noConfusion

/-- A read that waits at the bay is finished (R48). -/
theorem settle_drained_read (hb : a.copy.bay = b) (hr : a.write = false) {w : Wait}
    (hh : s.host = .diverted a w) (hw : w = .queueMatch ∨ w = .grant ∨ w = .onLink) :
    settle b s = (modBay b Bay.drained (s.raise (.bay b .ejectDone))).absentRead a := by
  subst hb
  have hwork := afterWork_drained hst hq
  have hends : w.endsAbsent a.write = true := by rw [hr]; obtain rfl | rfl | rfl := hw <;> rfl
  rw [settle_absent ?_ ?_ ?_ hh hends, hr, hwork]
  · rfl
  all_goals rw [hwork, modBay_bay]
  · rfl
  · exact BayState.noConfusion
  · rfl

end Drained

/-- Settles O35: with the last entry gone the bay drains, committed or below the threshold. -/
theorem cleanEndOfADrain : Obligations.CleanEndOfADrain := by
  intro b tr n e s hrst hst hl hp hq left committed
  have hs : (s.bay b).state.serving = true := by rw [hst]; rfl
  have hleft (u : State) (g : Nat → Nat) (hu : u.bay b = s.bay b) :
      modBay b Bay.drained ((u.headGone b [] g .free).raise (.bay b .ejectDone)) =
        left (g (s.bay b).lossCount) u := by
    rw [State.headGone, raise_modBay, modBay_modBay]
    refine modBay_congr ?_
    simp [Bay.drained, hu, Link.request]
  have hfree (u : State) (m : Nat) : ((left m u).bay b).link = .free := by simp [left]
  refine ⟨fun hn => ?_, fun a w hh hb hr hw => ?_, fun c hc hk => ?_⟩
  · rw [exec_commit hrst hs hl hp hq, settle_drained (by rw [headGone_bay, commitOf_bay]; exact hst)
      (by rw [headGone_bay]) hn.commitOf.headGone, hleft _ _ (commitOf_bay s e b), markAck_of_free (hfree _ _)]
    refine congrArg _ ?_
    cases b <;> rfl
  · have hwait : s.commitOf e = { s with committed := s.committed + 1 } := by
      obtain rfl | rfl := hw <;> exact commitOf_of_wait hh (by simp)
    rw [exec_commit hrst hs hl hp hq, settle_drained_read (by rw [headGone_bay, commitOf_bay]; exact hst)
      (by rw [headGone_bay]) hb hr (by rw [headGone_host, hwait]; exact hh) (hw.imp_right .inl),
      hleft _ _ (commitOf_bay s e b), hwait, markAck_of_free (by rw [State.absentRead_bay, hfree])]
  · intro count hcount
    have hexec := exec_loses hc hrst hl hp hk hq
    rw [checkThreshold_below hcount] at hexec
    refine ⟨fun hn => ?_, fun a w hh hb hr hw => ?_⟩
    · rw [hexec, settle_drained (by rw [headGone_bay, losesHead_bay]; exact hst) (by rw [headGone_bay])
        hn.losesHead.headGone, hleft _ _ (losesHead_bay s e b)]
    · have hwait : s.losesHead e = lose ⟨.writeFault, e.write, false⟩ s := by
        obtain rfl | rfl := hw <;> exact losesHead_of_wait hh (by simp)
      rw [hexec, settle_drained_read (by rw [headGone_bay, losesHead_bay]; exact hst) (by rw [headGone_bay]) hb hr
        (by rw [headGone_host, hwait]; simpa using hh) (hw.imp_right .inl), hleft _ _ (losesHead_bay s e b), hwait]

/-! ### The fall of a bay at the threshold -/

/-- The latches of the bays are as they were. -/
def BayLatchesKept (s t : State) : Prop := ∀ c k, t.latch (.bay c k) = s.latch (.bay c k)

namespace BayLatchesKept

theorem of_eq (h : t.latches = s.latches) : BayLatchesKept s t := fun c k => by
  rw [State.latch, State.latch, h]

theorem trans {u : State} (h : BayLatchesKept s t) (k : BayLatchesKept t u) : BayLatchesKept s u :=
  fun c l => (k c l).trans (h c l)

theorem raise (h : BayLatchesKept s t) {l : Latch} (hl : ∀ c k, l ≠ .bay c k) : BayLatchesKept s (t.raise l) :=
  fun c k => by rw [State.raise_latch, decide_eq_false (hl c k).symm, Bool.or_false, h c k]

theorem lose (h : BayLatchesKept s t) (r : LossRecord) : BayLatchesKept s (lose r t) := by
  have hraise : BayLatchesKept s (State.raise { t with lost := t.lost + 1 } .loss) :=
    raise (h.trans (of_eq rfl)) (by simp)
  exact hraise.trans (of_eq (by simp [Machine.lose, setLatch_eq_raise]))

theorem joinEvacuated (h : BayLatchesKept s t) (e : HoldEntry) : BayLatchesKept s (joinEvacuated e t) := by
  have hjoin : BayLatchesKept s { t with hold := ordInsert HoldEntry.ord e t.hold } := h.trans (of_eq rfl)
  unfold Machine.joinEvacuated holdHigh
  split
  · exact raise hjoin (l := .holdHigh) (by simp)
  · exact hjoin

theorem releaseThrough (h : BayLatchesKept s t) (c : Option HostCause) :
    BayLatchesKept s (releaseThrough c t) := by
  unfold Machine.releaseThrough
  split
  · cases c with
    | none => exact h.trans (of_eq rfl)
    | some c => exact (raise h (l := .hostError) (by simp)).trans (of_eq rfl)
  · exact h

theorem losesHead (h : BayLatchesKept s t) (e : QEntry) : BayLatchesKept s (t.losesHead e) := by
  rw [losesHead_eq]
  split
  · exact (h.lose _).releaseThrough _
  · exact h.lose _

theorem evacuateOne (h : BayLatchesKept s t) (e : QEntry) : BayLatchesKept s (evacuateOne t e) := by
  unfold Machine.evacuateOne
  dsimp only
  repeat' split
  · exact (h.joinEvacuated _).releaseThrough _
  · exact h.joinEvacuated _
  · exact (h.lose _).releaseThrough _
  · exact h.lose _

theorem evacuate (h : BayLatchesKept s t) (b : BayId) : BayLatchesKept s (evacuate b t) := by
  have hfold (q : List QEntry) {u : State} (hu : BayLatchesKept s u) :
      BayLatchesKept s (q.foldl Machine.evacuateOne u) := by
    induction q generalizing u with
    | nil => exact hu
    | cons e es ih => exact ih (hu.evacuateOne e)
  rw [evacuate_eq]
  exact hfold _ (h.trans (of_eq (by simp [emptied])))

end BayLatchesKept

theorem lose_loss (r : LossRecord) (s : State) : (lose r s).latch .loss = true := by
  have hlatches : (lose r s).latches = (setLatch .loss { s with lost := s.lost + 1 }).latches := by simp [lose]
  rw [State.latch, hlatches]
  exact setLatch_latch _ _

theorem losesHead_loss (s : State) (e : QEntry) : (s.losesHead e).latch .loss = true := by
  rw [losesHead_eq]
  split
  · exact (Raises.refl _).releaseThrough _ .loss (lose_loss _ s)
  · exact lose_loss _ s

theorem losesHead_lossAccount (s : State) (e : QEntry) :
    (s.losesHead e).lossAccount = (lose ⟨.writeFault, e.write, false⟩ s).lossAccount := by
  rw [losesHead_eq]
  split
  · simp only [State.lossAccount, releaseThrough_frame]
  · rfl

/-- Where all entries find room none is lost (R125). -/
theorem evacuate_lossAccount_room (h : s.hold.length + (s.bay b).queue.length ≤ 48) :
    (evacuate b s).lossAccount = s.lossAccount := by
  rw [evacuate_eq, foldl_evacuateOne_lossAccount,
    List.drop_of_length_le (by rw [evacuees_length, emptied_hold]; omega)]
  exact emptied_lossAccount b s

/-- And all are held, none of them flagged on a free link (R74, R125). -/
theorem evacuate_hold_room (h : s.hold.length + (s.bay b).queue.length ≤ 48)
    (hl : (s.bay b).link = .free) :
    (evacuate b s).hold.Perm (s.hold ++ (s.bay b).queue.map fun q => ⟨q.ord, q.write, false⟩) := by
  have hq : (evacuees b s).Perm (s.bay b).queue := by
    refine (evacuees_perm b s).trans (.of_eq ?_)
    rw [hl]
    cases (s.bay b).queue <;> rfl
  rw [evacuate_eq]
  refine (foldl_evacuateOne_hold _ _).trans ?_
  rw [emptied_hold, List.take_of_length_le (by rw [evacuees_length]; omega)]
  exact (hq.map _).append_left _

theorem checkThreshold_at (h : s.items.faultThreshold.toNat ≤ (s.bay b).lossCount)
    (hl : (s.bay b).link = .free) (hr : (s.bay b).reqHigh = true) :
    checkThreshold b s =
      (modBay b
        (fun x => { x with
          state := .faulted, mount := { x.mount with supply := .none, cause := .writeFaults }
          drainTimer := none, ejectPending := false, lamp := false })
        (evacuate b s)).raise (.bay b .faulted) := by
  unfold checkThreshold
  rw [if_pos h, setLatch_eq_raise, leaveServing]
  refine congrArg (State.raise · _) (modBay_congr ?_)
  rw [evacuate_bay]
  simp [Bay.enter, Bay.supplyOff, Bay.dropLink, hl, hr]

/-- Settles O36: the loss of the head, the threshold, and then the bay settles. -/
theorem writeFaultLosesTheHead : Obligations.WriteFaultLosesTheHead := by
  intro c b tr n e es s hc hrst hl hp hk hq lost took fallen
  have hexec := exec_loses hc hrst hl hp hk hq
  have hwait {a : Access} {w : Wait} (h : s.host = .diverted a w) (hw : ∀ num, w ≠ .fate num) :
      s.losesHead e = lost := losesHead_of_wait h hw
  have hlosthost : lost.host = s.host := by simp [lost]
  have hlost (q : List QEntry) : linkAsked q true lost .free = linkAsked q true s .free :=
    linkAsked_congr (lose_items _ s) _ _ _
  refine ⟨fun hcount => ?_, fun hcount hs => ?_⟩
  · rw [checkThreshold_below hcount] at hexec
    refine ⟨fun hst => ?_, fun hst => ?_⟩
    · have hst' : ((s.losesHead e).bay b).state = .ready ∨ ((s.losesHead e).bay b).state = .draining ∧ es ≠ [] := by
        rwa [losesHead_bay]
      refine ⟨fun hn => ?_, fun a hb => ⟨fun serial stamp hh hready hroom hserial hstamp => ?_,
        fun hh hregion hm => ?_, fun hh => ?_⟩⟩
      · rw [hexec, settle_headGone hst' hn.losesHead, linkAsked_congr (losesHead_items s e)]
        rfl
      · subst hb
        intro q
        have hentry : lost.entry a serial stamp = s.entry a serial stamp := by
          simp [State.entry, State.write, lost]
        have haccepted : lost.acceptedHost a = s.acceptedHost a := by
          simp [State.acceptedHost, Access.stalled, lost]
        rw [hwait hh (by simp)] at hexec hst'
        rw [hexec, settle_headGone_space (by simpa [lost] using hready) (hlosthost.trans hh) hroom
          (by simpa [lost] using hserial) (by simpa [lost] using hstamp), hentry, haccepted, hlost]
        rfl
      · rw [hwait hh (by simp)] at hexec hst'
        rw [hexec, settle_headGone_match hst' hb (hlosthost.trans hh) hregion hm, hlost]
        rfl
      · have hw : s.losesHead e = lost := by obtain h | ⟨h, -⟩ := hh <;> exact hwait h (by simp)
        have hread : lost.readAttempt a true = s.readAttempt a true := by
          simp [State.readAttempt, State.firstAttempt, lost]
        rw [hw] at hexec hst'
        rw [hexec, settle_headGone_read hst' hb (by rwa [hlosthost]), hread]
        rfl
    · have hst' : (((s.losesHead e).headGone b es (· + 1) .free).bay b).state = .replay := by
        rw [headGone_bay, losesHead_bay]
        exact hst
      refine ⟨fun hn => ?_, ?_⟩
      · rw [hexec, settle_replay hst' hn.losesHead.headGone]
        rfl
      · rintro a hh rfl
        have hw := hwait hh (by simp)
        rw [hexec, settle_replay_waiting hst' (by rw [headGone_host, hw, hlosthost, hh]), hw]
        rfl
  · have hgone : ((s.losesHead e).headGone b es (· + 1) .free).bay b =
        { s.bay b with queue := es, lossCount := (s.bay b).lossCount + 1, link := .free, reqHigh := true } := by
      rw [headGone_bay, losesHead_bay]
    have hitems : ((s.losesHead e).headGone b es (· + 1) .free).items = s.items := by simp [State.headGone]
    rw [checkThreshold_at (by rw [hgone, hitems]; exact hcount) (by rw [hgone]) (by rw [hgone])] at hexec
    change exec c s = .next (settle b fallen) at hexec
    have hout : Gone b fallen := by
      refine ⟨?_, ?_⟩ <;> simp [fallen, took]
    have hfate : FateMet s fallen := by
      have hleft : fallen.host = (evacuate b ((s.losesHead e).headGone b es (· + 1) .free)).host :=
        modBay_host b _ _
      exact (fateMet_losesHead s e).trans (FateMet.trans (.of_eq headGone_host)
        ((fateMet_evacuate b ((s.losesHead e).headGone b es (· + 1) .free)).trans (.of_eq hleft)))
    rw [hexec]
    refine ⟨fun a w hh hb => ⟨fun hr hw => ?_, fun hwrite hw => ?_⟩, fun hn => ⟨congrArg _ (hout.settle (hn.fateMet hfate ?_)),
      fun hroom => ?_⟩⟩
    · refine congrArg _ (hout.settle_read (hfate.of_wait hh ?_) hb hr ?_)
      · obtain rfl | rfl | rfl := hw <;> simp
      · exact hw.imp_right fun h => h.imp_right .inl
    · refine congrArg _ (hout.settle_write (hfate.of_wait hh ?_) hb hwrite hw)
      obtain rfl | rfl := hw <;> simp
    · simp [fallen, took]
    · generalize hu : (s.losesHead e).headGone b es (· + 1) .free = u at hgone hitems
      have hfallen : fallen = State.raise (modBay b
          (fun x => { x with
            state := .faulted, mount := { x.mount with supply := .none, cause := .writeFaults }
            drainTimer := none, ejectPending := false, lamp := false }) (evacuate b u)) (.bay b .faulted) := by
        rw [← hu]
        rfl
      have hhold : u.hold = s.hold := by simp [← hu, State.headGone]
      have hfits : u.hold.length + (u.bay b).queue.length ≤ 48 := by rwa [hhold, hgone]
      have hlosses : fallen.lossAccount = lost.lossAccount := by
        refine Eq.trans (b := (evacuate b u).lossAccount) (by simp [hfallen, State.lossAccount, State.raise]) ?_
        rw [evacuate_lossAccount_room hfits, ← losesHead_lossAccount, ← hu]
        simp [State.lossAccount, State.headGone]
      have hkept : BayLatchesKept s (evacuate b u) := by
        refine BayLatchesKept.evacuate ?_ b
        rw [← hu]
        exact ((BayLatchesKept.of_eq rfl).losesHead e).trans (.of_eq (by simp [State.headGone]))
      have hraised : Raises (s.losesHead e) (evacuate b u) := by
        rw [← hu, evacuate_eq]
        exact Raises.foldl_evacuateOne (.of_eq (by simp [emptied, State.headGone])) _
      have hlatch (l : Latch) : fallen.latch l = ((evacuate b u).latch l || decide (l = .bay b .faulted)) := by
        rw [hfallen, State.raise_latch]
        simp [State.latch]
      simp only [State.lossAccount, Prod.mk.injEq] at hlosses
      obtain ⟨hlostCount, hlog, hsummary⟩ := hlosses
      refine ⟨?_, ?_, ?_, hlog, hsummary, ?_, ?_, ?_, ?_, ?_, ?_, ?_⟩
      · rw [hfallen, State.raise_bay, modBay_bay, evacuate_bay, hgone]
      · rw [hfallen, State.raise_bay, modBay_bay_other, evacuate_bay_other, ← hu, headGone_bay_other, losesHead_bay]
      · rw [hlostCount, lose_lost]
      · rw [hfallen, ← hu]
        simp [State.raise, State.headGone]
      · rw [hfallen, ← hu]
        simp [State.raise, State.headGone]
      · rw [hlatch]
        simp
      · rw [hlatch, hraised _ (losesHead_loss s e), Bool.true_or]
      · rw [hlatch, hkept]
        simp
      · rw [hlatch, hkept]
        simp
      · have hhold' : fallen.hold = (evacuate b u).hold := by simp [hfallen, State.raise]
        have hperm := evacuate_hold_room hfits (by rw [hgone])
        rw [hhold']
        rwa [hhold, hgone] at hperm

end Sys2Proof.Machine
end

section
/-! PROOFS. The end of identification: the locked carrier, the binding and its verdict (sections 5.5 and
5.6). -/

namespace Sys2Proof.Machine

variable {b : BayId} {s t : State} {n : BitVec 8} {tr : Transfer} {data : Half} {halves : List Half}

/-! ### The verdict on the hold store -/

/-- The stale test marks the entries of the serial that the slot's stamp does not vouch for (R90, R94). -/
theorem judgeHold_eq (b : BayId) (serial : Serial) (slot : Option Stamp) (s : State) :
    judgeHold b serial slot s =
      { (if s.hold.any fun e => !e.stale && (e.write.serial == serial && slot != some e.write.stamp) then
          s.raise (.bay b .staleFound) else s) with
        hold := s.hold.map fun e =>
          { e with stale := e.stale || (e.write.serial == serial && slot != some e.write.stamp) } } := by
  have hmark (e : HoldEntry) : marksStale serial slot e =
      (!e.stale && (e.write.serial == serial && slot != some e.write.stamp)) := by
    unfold marksStale
    cases e.stale <;> simp [beq_eq_decide]
  have hmap : (fun e : HoldEntry => if marksStale serial slot e then { e with stale := true } else e) =
      fun e => { e with stale := e.stale || (e.write.serial == serial && slot != some e.write.stamp) } := by
    funext e
    rw [hmark]
    obtain ⟨o, w, stale⟩ := e
    cases stale
    · cases w.serial == serial && slot != some w.stamp <;> rfl
    · rfl
  have hany : (s.hold.any fun e => !e.stale && (e.write.serial == serial && slot != some e.write.stamp)) =
      s.hold.any (marksStale serial slot) := by
    congr 1
    funext e
    exact (hmark e).symm
  rw [hany, ← hmap]
  unfold judgeHold
  by_cases h : s.hold.any (marksStale serial slot)
  · rw [if_pos h, if_pos h]
    rfl
  · rw [if_neg h, if_neg h]

theorem judgeHold_modBay (b : BayId) (serial : Serial) (slot : Option Stamp) (f : Bay → Bay) (s : State) :
    judgeHold b serial slot (modBay b f s) = modBay b f (judgeHold b serial slot s) := by
  have hhold : (modBay b f s).hold = s.hold := by simp
  rw [judgeHold_eq, judgeHold_eq, hhold]
  cases s.hold.any _ <;> cases b <;> rfl

/-! ### The sixteenth halfword -/

/-- The step that takes a valid descriptor with no conflict (R87 to R90). -/
theorem descriptorAnswer_passes {lock : Bool} (hst : (s.bay b).state = .identifying)
    (hl : (s.bay b).link = .held .ident tr) (hp : tr.phase = .requested n)
    (hi : (s.bay b).ident = some ⟨halves, none⟩) (hlen : halves.length = 15)
    (hvalid : descriptorValid (halves ++ [data]) = true)
    (hother : (s.bay (otherBay b)).identified = true →
      (s.bay (otherBay b)).mount.serial ≠ some (descSerial (halves ++ [data]))) :
    descriptorAnswer b data lock s =
      if lock then
        mountLocked b (descSerial (halves ++ [data])) (descCapacity (halves ++ [data]))
          (slotStamp (halves ++ [data]))
          (modBay b
            (fun x => { x with
              contacts := { x.contacts with lock := lock }
              ident := some ⟨halves ++ [data], none⟩
              mount := { x.mount with
                serial := some (descSerial (halves ++ [data]))
                capacity := some (descCapacity (halves ++ [data])) } }) s)
      else
        beginBinding b ⟨halves ++ [data], none⟩ (descSerial (halves ++ [data]))
          (judgeHold b (descSerial (halves ++ [data])) (slotStamp (halves ++ [data]))
            (modBay b
              (fun x => { x with
                contacts := { x.contacts with lock := lock }
                ident := some ⟨halves ++ [data], none⟩
                mount := { x.mount with
                  serial := some (descSerial (halves ++ [data]))
                  capacity := some (descCapacity (halves ++ [data])) } }) s)) := by
  rw [descriptorAnswer_eq hst hl hp hi, if_neg (by omega)]
  generalize halves ++ [data] = d at *
  unfold checkDescriptor
  rw [if_neg (by rw [hvalid]; exact Bool.false_ne_true)]
  simp only [sampleLock, modBay_modBay, modBay_bay, modBay_bay_other]
  rw [if_neg]
  simpa using hother

/-- Settles O43: the queue is empty and nobody waits, so that the mount has nothing to settle. -/
theorem lockedCarrierIsMountedReadable : Obligations.LockedCarrierIsMountedReadable := by
  intro b data tr n halves s hrst hst hl hp hi hlen hq hn d slot hvalid hother
  have hrequest := request_held (h := .ident) hp
  refine exec_to hrst rfl ?_
  rw [timed_false, descriptorAnswer_passes hst hl hp hi hlen hvalid hother, if_pos rfl, mountLocked, completeMount_eq,
    mounted, modBay_modBay, modBay_modBay, setLatch_eq_raise, raise_modBay]
  generalize hf : (fun x : Bay => Bay.enter _ _ _) = f
  have hbay : (modBay b f (s.raise (.bay b .identified))).bay b = f (s.bay b) := by
    rw [modBay_bay, State.raise_bay]
  have hready : (f (s.bay b)).state = .ready := by rw [← hf]; rfl
  have hqueue : (f (s.bay b)).queue = [] := by rw [← hf]; exact hq
  rw [Serves.settle ⟨.inl (by rw [hbay, hready])⟩, asks_of_eq (by rw [hbay, hqueue, linkAsked_nil])]
  · refine modBay_congr ?_
    rw [← hf]
    simp [Bay.enter, Bay.endMount, Bay.dropLink, hl, hrequest, d]
    rfl
  · exact hn.congr (modBay_host _ _ _) (.of_eq (by simp))

/-- The beginning of a binding on a link that comes free (R90 to R93). -/
theorem beginBinding_modBay {f : Bay → Bay} {i : Ident} (serial : Serial)
    (hst : (f (s.bay b)).state = .identifying) (hr : (f (s.bay b)).link.request = true) :
    beginBinding b i serial (modBay b f s) =
      modBay b
        (fun x => { f x with
          ident := some { i with
            binding := some ⟨⟨s.deviceNumber, s.items.epoch, s.mountSeq⟩, 0, verdictOn serial s.hold⟩ }
          reqHigh := true
          link := .held .ident
            ⟨.descriptor, 8, .both, true, s.deviceNumber.extractLsb' 0 16, s.items.retryLimit.toNat,
              .presenting⟩ })
        { s with mountSeq := s.mountSeq + 1 } := by
  have hseq : { modBay b f s with mountSeq := (modBay b f s).mountSeq + 1 } =
      modBay b f { s with mountSeq := s.mountSeq + 1 } := by cases b <;> rfl
  unfold beginBinding
  dsimp only
  rw [hseq, modBay_modBay, grantLink_ident (i := { i with
    binding := some ⟨⟨s.deviceNumber, s.items.epoch, s.mountSeq⟩, 0, verdictOn serial s.hold⟩ }) (by simp [Bay.dropLink])
    (by simpa [Bay.dropLink] using hst) (by simp), modBay_modBay]
  refine modBay_congr ?_
  simp [identTransfer, attemptsLeft, State.firstAttempt, Bay.dropLink, hr, bindingHalves]

/-- Settles O44: the binding is begun on a link that comes free, and so is each of its writes. -/
theorem bindingIsWritten : Obligations.BindingIsWritten := by
  refine ⟨fun b data tr n halves s hrst hst hl hp hi hlen => ?_, fun b tr n halves w s hrst hst hl hp hi hw => ?_⟩
  · intro d unvouched stamp hvalid hother
    have hrequest := request_held (h := .ident) hp
    have hjudged := judgeHold_eq b (descSerial d) (slotStamp d) s
    obtain ⟨u, hu⟩ : ∃ u, judgeHold b (descSerial d) (slotStamp d) s = u := ⟨_, rfl⟩
    rw [hu] at hjudged
    have hbay : u.bay b = s.bay b := by
      rw [hjudged]
      split <;> simp
    refine ⟨verdictOn (descSerial d) u.hold, exec_to hrst rfl ?_⟩
    rw [timed_false, descriptorAnswer_passes hst hl hp hi hlen hvalid hother, if_neg Bool.false_ne_true,
      judgeHold_modBay, hu, beginBinding_modBay _ (by rw [hbay]; exact hst) (by rw [hbay, hl]; exact hrequest), hjudged]
    cases s.hold.any fun e => !e.stale && unvouched e
    · cases b <;> rfl
    · cases b <;> rfl
  · intro t check data
    have hrequest := request_held (h := .ident) hp
    refine exec_to hrst rfl ?_
    have hanswer : bindingAnswer b s =
        grantLink b (modBay b (fun x => { x.dropLink with
            ident := some ⟨halves, some { w with answered := w.answered + 1 }⟩ }) s) := by
      unfold bindingAnswer
      simp only [hst, hl, hi, hp, Phase.asserted, hw, if_true]
      rfl
    rw [timed_false, hanswer, grantLink_ident (i := ⟨halves, some { w with answered := w.answered + 1 }⟩)
      (by simp [Bay.dropLink]) (by simp [hst]) (by simp), modBay_modBay]
    refine modBay_congr ?_
    have haddr : 8 + (w.answered + 1) = 9 + w.answered := by omega
    have hdata : (bindingHalves w.stamp)[w.answered + 1]?.getD 0#16 = data := rfl
    simp [identTransfer, attemptsLeft, State.firstAttempt, Bay.dropLink, hl, hrequest, haddr, hdata]

/-! ### The eighth answer -/

/-- The entries of serial `n` that the slot's stamp vouches for: not stale after the test (R90, R94). -/
def vouches (n : Serial) (slot : Option Stamp) (e : HoldEntry) : Bool :=
  e.write.serial == n && !e.stale && slot == some e.write.stamp

/-- What the stale test and the re-stamping make of a hold entry (R94). -/
def boundEntry (n : Serial) (slot : Option Stamp) (stamp : Stamp) (e : HoldEntry) : HoldEntry :=
  if vouches n slot e then { e with write := { e.write with stamp := stamp } }
  else { e with stale := e.stale || e.write.serial == n }

theorem boundEntry_of_vouches {n : Serial} {slot : Option Stamp} {stamp : Stamp} {e : HoldEntry}
    (h : vouches n slot e = true) :
    boundEntry n slot stamp e = { e with write := { e.write with stamp := stamp } } := if_pos h

theorem boundEntry_of_not {n : Serial} {slot : Option Stamp} {stamp : Stamp} {e : HoldEntry}
    (h : vouches n slot e = false) :
    boundEntry n slot stamp e = { e with stale := e.stale || e.write.serial == n } :=
  if_neg (by rw [h]; exact Bool.false_ne_true)

/-- The entries that replay after the binding are those that the slot vouched for (R94, R130). -/
theorem eligible_boundEntry {n : Serial} {slot : Option Stamp} {stamp : Stamp} {m : MountRecord}
    (hserial : m.serial = some n) (hstamp : m.stamp = some stamp) (e : HoldEntry) :
    eligible m (boundEntry n slot stamp e) = vouches n slot e := by
  cases h : vouches n slot e with
  | true =>
    rw [boundEntry_of_vouches h]
    simp only [vouches, Bool.and_eq_true, beq_iff_eq, Bool.not_eq_true'] at h
    obtain ⟨⟨hn, hstale⟩, -⟩ := h
    simp [eligible, hserial, hstamp, hn, hstale]
  | false =>
    rw [boundEntry_of_not h]
    by_cases hn : e.write.serial = n
    · simp [eligible, hn]
    · have hne : ¬m.serial = some e.write.serial := by
        rw [hserial]
        exact fun hc => hn (Option.some.inj hc).symm
      simp [eligible, hne]

theorem boundState_hold_eq (b : BayId) (i : Ident) (w : Binding) (s : State) :
    (boundState b i w s).hold = s.hold.map (boundEntry (descSerial i.halves) (slotStamp i.halves) w.stamp) := by
  rw [boundState_hold, judgeHold_eq, restamp, List.map_map]
  refine List.map_congr_left fun e _ => ?_
  unfold boundEntry vouches Function.comp
  by_cases hn : e.write.serial = descSerial i.halves
  · by_cases hslot : slotStamp i.halves = some e.write.stamp
    · cases hs : e.stale <;> simp [hn, hslot, hs]
    · cases hs : e.stale <;> simp [hn, hslot, hs]
  · have hbeq : (e.write.serial == descSerial i.halves) = false := beq_eq_false_iff_ne.mpr hn
    simp [hn, hbeq]

theorem boundVerdict_eq (b : BayId) (i : Ident) (s : State) :
    boundVerdict b i s =
      if s.hold.any (vouches (descSerial i.halves) (slotStamp i.halves)) then .resume
      else if s.hold.any fun e => e.write.serial == descSerial i.halves then .stale
      else .clean := by
  unfold boundVerdict verdictOn
  rw [judgeHold_eq, List.any_map, List.any_map]
  have hfresh : ((fun e : HoldEntry => decide (e.write.serial = descSerial i.halves) && !e.stale) ∘ fun e =>
      { e with stale := e.stale || (e.write.serial == descSerial i.halves &&
        slotStamp i.halves != some e.write.stamp) }) = vouches (descSerial i.halves) (slotStamp i.halves) := by
    funext e
    unfold vouches Function.comp
    by_cases hn : e.write.serial = descSerial i.halves
    · cases hs : e.stale <;> simp [hn, hs, bne]
    · simp [hn]
  rw [hfresh]
  rfl

theorem withoutFirst_map {α β : Type} (f : α → β) (p : β → Bool) (n : Nat) (l : List α) :
    withoutFirst p n (l.map f) = (withoutFirst (fun x => p (f x)) n l).map f := by
  induction l generalizing n with
  | nil => cases n <;> rfl
  | cons x xs ih =>
    cases n with
    | zero => rfl
    | succ n =>
      rw [List.map_cons]
      unfold withoutFirst
      cases p (f x) with
      | true => exact ih n
      | false => exact congrArg (f x :: ·) (ih (n + 1))

/-- What a bay holds when a binding has been answered, before its step settles (R94, R95). -/
theorem bound_bay {w : Binding} (hl : (s.bay b).link = .held .ident tr) (hp : tr.phase = .requested n) :
    (mounted b (boundVerdict b ⟨halves, some w⟩ s) (boundState b ⟨halves, some w⟩ w s)).bay b =
      { s.bay b with
        state := if s.hold.any (vouches (descSerial halves) (slotStamp halves)) then .replay else .ready
        lossCount := 0, ident := none, powerTimer := none, identTimer := none, reqHigh := true, link := .free
        last := some ⟨descSerial halves, descCapacity halves, .bound w.stamp⟩
        mount :=
          { (s.bay b).mount with
            cause := .none, stamp := some w.stamp, locked := false
            verdict :=
              if s.hold.any (vouches (descSerial halves) (slotStamp halves)) then .resume
              else if s.hold.any fun e => e.write.serial == descSerial halves then .stale
              else .clean } } := by
  have hrequest : (s.bay b).link.request = true := by rw [hl]; exact request_held hp
  have hstate : (if boundVerdict b ⟨halves, some w⟩ s = Verdict.resume then BayState.replay else .ready) =
      if s.hold.any (vouches (descSerial halves) (slotStamp halves)) then .replay else .ready := by
    rw [boundVerdict_eq]
    cases s.hold.any (vouches (descSerial halves) (slotStamp halves)) with
    | true => rfl
    | false => cases s.hold.any fun e => e.write.serial == descSerial halves <;> rfl
  rw [mounted_bay, boundState_bay, hstate, boundVerdict_eq]
  simp [Bay.enter, Bay.endMount, Bay.dropLink, hrequest]

theorem bindingAnswer_last {w : Binding} (hst : (s.bay b).state = .identifying)
    (hl : (s.bay b).link = .held .ident tr) (hp : tr.phase = .requested n)
    (hi : (s.bay b).ident = some ⟨halves, some w⟩) (hw : w.answered = 7) :
    bindingAnswer b s =
      settle b (mounted b (boundVerdict b ⟨halves, some w⟩ s) (boundState b ⟨halves, some w⟩ w s)) := by
  unfold bindingAnswer
  simp only [hst, hl, hi, hp, hw, Phase.asserted]
  rfl

theorem bound_latch (b : BayId) (i : Ident) (w : Binding) (v : Verdict) (s : State) (l : Latch) :
    (mounted b v (boundState b i w s)).latch l =
      (s.latch l || (s.hold.any fun e => e.write.serial == descSerial i.halves && !e.stale &&
          slotStamp i.halves != some e.write.stamp) && decide (l = .bay b .staleFound) ||
        decide (l = .bay b .identified)) := by
  have hmounted : (mounted b v (boundState b i w s)).latch l =
      ((judgeHold b (descSerial i.halves) (slotStamp i.halves) s).latch l || decide (l = .bay b .identified)) := by
    rw [mounted, setLatch_eq_raise, State.raise_latch]
    simp [State.latch, boundState]
  have hany : (s.hold.any fun e => !e.stale && (e.write.serial == descSerial i.halves &&
      slotStamp i.halves != some e.write.stamp)) =
      s.hold.any fun e => e.write.serial == descSerial i.halves && !e.stale &&
        slotStamp i.halves != some e.write.stamp := by
    congr 1
    funext e
    cases e.stale <;> simp
  rw [hmounted, judgeHold_eq, hany]
  cases s.hold.any fun e => e.write.serial == descSerial i.halves && !e.stale &&
      slotStamp i.halves != some e.write.stamp with
  | false => simp [State.latch]
  | true =>
    have hraise := State.raise_latch s (.bay b .staleFound) l
    change ((s.raise (.bay b .staleFound)).latch l || _) = _
    rw [hraise, Bool.true_and]

/-- Settles O45: the re-stamped entries are the eligible ones of the mount, and replay as any do. -/
theorem bindingCompletes : Obligations.BindingCompletes := by
  intro b tr k halves w s hrst hst hl hp hi hw hq hpending hserial hn n vouched unvouched bound judged moved
  have hbay : (mounted b (boundVerdict b ⟨halves, some w⟩ s) (boundState b ⟨halves, some w⟩ w s)).bay b =
      { s.bay b with
        state := if s.hold.any vouched then .replay else .ready
        lossCount := 0, ident := none, powerTimer := none, identTimer := none, reqHigh := true, link := .free
        last := some ⟨n, descCapacity halves, .bound w.stamp⟩
        mount :=
          { (s.bay b).mount with
            cause := .none, stamp := some w.stamp, locked := false
            verdict :=
              if s.hold.any vouched then .resume
              else if s.hold.any fun e => e.write.serial == n then .stale
              else .clean } } := bound_bay hl hp
  have hother : (mounted b (boundVerdict b ⟨halves, some w⟩ s) (boundState b ⟨halves, some w⟩ w s)).bay (otherBay b) =
      { s.bay (otherBay b) with
        last := (s.bay (otherBay b)).last.filter fun r => decide (r.serial ≠ n) } := by
    rw [mounted_bay_other, boundState_bay_other]
  have hhold : (mounted b (boundVerdict b ⟨halves, some w⟩ s) (boundState b ⟨halves, some w⟩ w s)).hold =
      s.hold.map (boundEntry n (slotStamp halves) w.stamp) := by
    rw [mounted_hold, boundState_hold_eq]
  have hlatch : ∀ l, (mounted b (boundVerdict b ⟨halves, some w⟩ s) (boundState b ⟨halves, some w⟩ w s)).latch l =
      (s.latch l || s.hold.any unvouched && decide (l = .bay b .staleFound) || decide (l = .bay b .identified)) :=
    bound_latch b ⟨halves, some w⟩ w _ s
  have hhost : (mounted b (boundVerdict b ⟨halves, some w⟩ s) (boundState b ⟨halves, some w⟩ w s)).host = s.host := by
    simp [mounted, boundState]
  have hanswer := bindingAnswer_last hst hl hp hi hw
  have hframe : let u := mounted b (boundVerdict b ⟨halves, some w⟩ s) (boundState b ⟨halves, some w⟩ w s)
      u.accepted = s.accepted ∧ u.committed = s.committed ∧ u.lost = s.lost ∧ u.mountSeq = s.mountSeq ∧
        u.hostError = s.hostError ∧ u.items = s.items := by
    simp [mounted, boundState]
  generalize mounted b (boundVerdict b ⟨halves, some w⟩ s) (boundState b ⟨halves, some w⟩ w s) = u at *
  have hnu : NothingStalled b u := by
    refine hn.congr hhost ?_
    rw [hother]
    exact ⟨rfl, rfl, rfl, rfl, rfl, .rfl⟩
  have hel (e : HoldEntry) : eligible (u.bay b).mount (boundEntry n (slotStamp halves) w.stamp e) = vouched e :=
    eligible_boundEntry (by rw [hbay]; exact hserial) (by rw [hbay]) e
  obtain ⟨haccepted, hcommitted, hlost, hseq, herror, hitems⟩ := hframe
  have hfilter : u.hold.filter (eligible (u.bay b).mount) =
      (s.hold.filter vouched).map (boundEntry n (slotStamp halves) w.stamp) := by
    rw [hhold, List.filter_map]
    exact congrArg _ (List.filter_congr fun e _ => hel e)
  have hmoved (m : Nat) : ((u.hold.filter (eligible (u.bay b).mount)).take m).map
      (fun e => (⟨e.ord, e.write, false⟩ : QEntry)) =
      ((s.hold.filter vouched).take m).map fun e => ⟨e.ord, (bound e).write, false⟩ := by
    rw [hfilter, ← List.map_take, List.map_map]
    refine List.map_congr_left fun e he => ?_
    have hv : vouched e = true := (List.mem_filter.mp (List.mem_of_mem_take he)).2
    simp only [Function.comp, boundEntry_of_vouches hv]
    rfl
  have hnot : (s.hold.filter fun e => !vouched e).map (boundEntry n (slotStamp halves) w.stamp) =
      (s.hold.filter fun e => !vouched e).map judged := by
    refine List.map_congr_left fun e he => boundEntry_of_not ?_
    have hv : (!vouched e) = true := (List.mem_filter.mp he).2
    exact (Bool.not_eq_true' _).mp hv
  have hroom : 16 - (u.bay b).queue.length = 16 := by rw [hbay, hq]; rfl
  have hasked : linkAsked moved true u .free = linkAsked moved true s .free := linkAsked_congr hitems _ _ _
  cases hany : s.hold.any vouched with
  | false =>
    have hready : (u.bay b).state = .ready := by
      rw [hbay]
      exact if_neg (by rw [hany]; exact Bool.false_ne_true)
    have hnone : s.hold.filter vouched = [] := by
      rw [List.filter_eq_nil_iff]
      exact List.any_eq_false.mp hany
    have hall : (s.hold.filter fun e => !vouched e) = s.hold := by
      rw [List.filter_eq_self]
      exact fun e he => by simpa using List.any_eq_false.mp hany e he
    have hempty : moved = [] := by simp only [moved, hnone, List.take_nil, List.map_nil]
    have hstep : exec (.bindingWriteAnswer b false) s = .next u := by
      refine exec_to hrst rfl ?_
      rw [timed_false, hanswer, Serves.settle ⟨.inl hready⟩ hnu, asks_of_eq]
      rw [hbay, hq, linkAsked_nil]
    refine ⟨u, hstep, ?_, hother, ?_, ?_, fun _ => ⟨hready, ?_, fun h => ?_⟩, fun h => ?_, haccepted, hcommitted,
      hlost, hseq, hhost, herror⟩
    · rw [hready, hempty, linkAsked_nil, hbay, ← hq, hany]
      rfl
    · simp [hlatch]
    · simp [hlatch]
    · rw [hhold, ← hnot, hall]
    · cases h
    · rw [hnone] at h
      exact absurd h (by simp)
  | true =>
    have hreplay : (u.bay b).state = .replay := by
      rw [hbay]
      exact if_pos hany
    have hstep : exec (.bindingWriteAnswer b false) s = .next ((u.replayed b).asks b) := by
      refine exec_to hrst rfl ?_
      rw [timed_false, hanswer, settle_replay hreplay hnu]
    by_cases hlen : (s.hold.filter vouched).length ≤ 16
    · have hall := hmoved 16
      rw [hfilter, List.take_of_length_le (by rwa [List.length_map]), ← hfilter] at hall
      have hready := replayed_ready (s := u) (b := b) (q := moved) (by rw [hroom, hfilter, List.length_map]; exact hlen)
        (by rw [hall, hbay, hq]; rfl) (by rw [hbay]; exact hpending)
      rw [hready, asks_modBay] at hstep
      have hlink (r : List HoldEntry) : linkAsked moved true { u.raise (.bay b .resumed) with hold := r } .free =
          linkAsked moved true s .free := hasked
      have hraised (l : Latch) (r : List HoldEntry) :
          State.latch { u.raise (.bay b .resumed) with hold := r } l = (u.latch l || decide (l = .bay b .resumed)) :=
        State.raise_latch u _ l
      refine ⟨_, hstep, ?_, ?_, ?_, ?_, fun _ => ⟨?_, ?_, fun _ => ?_⟩, fun h => absurd hlen (Nat.not_le.mpr h), ?_⟩
      · rw [modBay_bay, State.bay_mk, State.raise_bay, hbay, hany]
        dsimp only
        rw [hlink]
      · rw [modBay_bay_other, State.bay_mk, State.raise_bay, hother]
      · rw [modBay_latch, hraised, hlatch]
        simp
      · rw [modBay_latch, hraised, hlatch]
        simp
      · rw [modBay_bay]
      · simp only [modBay_hold]
        rw [hhold, List.filter_map, ← hnot]
        exact congrArg _ (List.filter_congr fun e _ => congrArg _ (hel e))
      · rw [modBay_latch, hraised]
        simp
      · simp [State.raise, haccepted, hcommitted, hlost, hseq, hhost, herror]
    · have hgoes := replayed_goesOn (s := u) (b := b) (q := moved) (by rw [hroom, hfilter, List.length_map]; omega)
        (by rw [hroom, hmoved, hbay, hq]; rfl)
      rw [hgoes, asks_modBay] at hstep
      have hlink (r : List HoldEntry) : linkAsked moved true { u with hold := r } .free =
          linkAsked moved true s .free := hasked
      have hraised (l : Latch) (r : List HoldEntry) : State.latch { u with hold := r } l = u.latch l := rfl
      refine ⟨_, hstep, ?_, ?_, ?_, ?_, fun h => absurd h hlen, fun _ => ⟨?_, ?_, ?_⟩, ?_⟩
      · rw [modBay_bay, State.bay_mk, hbay, hany]
        dsimp only
        rw [hlink]
      · rw [modBay_bay_other, State.bay_mk, hother]
      · rw [modBay_latch, hraised, hlatch]
        simp
      · rw [modBay_latch, hraised, hlatch]
        simp
      · rw [modBay_bay, State.bay_mk, hreplay]
      · simp only [modBay_hold]
        rw [hroom, hhold, withoutFirst_map, funext hel]
        rfl
      · rw [modBay_latch, hraised, hlatch]
        simp
      · simp [haccepted, hcommitted, hlost, hseq, hhost, herror]

end Sys2Proof.Machine
end

section
/-! PROOFS. Ejecting a carrier, and the moves of replay (sections 6.4 and 7.4). -/

namespace Sys2Proof.Machine

variable {b : BayId} {s t : State} {a : Access}

/-! ### Commands that answer -/

/-- A command that returns OK (R152 to R154). -/
theorem exec_ok {c : Instr} {n : Nat} {f : State → Reply} {l : List Byte} (h : Listening s)
    (hf : command c = some (n, f)) (hp : c.passed = false) (hr : f s = replyOk t l) :
    exec c s = .next (t.reply n .ok l) := by
  rw [exec_command h hf hp, hr]
  rfl

/-- A command that returns another status (R157). -/
theorem exec_bad {c : Instr} {n : Nat} {f : State → Reply} {st : Status} (h : Listening s)
    (hf : command c = some (n, f)) (hp : c.passed = false) (hr : f s = replyBad s st) :
    exec c s = .next (s.reply n st []) := by
  rw [exec_command h hf hp, hr]
  rfl

theorem onBay_eq {n : Byte} (hb : bayArg n = some b) (f : BayId → State → Reply) (s : State) :
    onBay n f s = f b s := by
  simp [onBay, hb]

/-! ### Eject -/

theorem errorRelease_asks (b : BayId) (s : State) (a : Access) (c : HostCause) (n : Option Word) :
    (s.errorRelease a c n).asks b = (s.asks b).errorRelease a c n := by
  cases b <;> rfl

theorem enterDraining_eq (b : BayId) (s : State) :
    enterDraining b s =
      modBay b
        (fun x => { x with
          state := .draining, drainTimer := some s.items.drainMs, mount := { x.mount with cause := .none } })
        s := rfl

theorem NothingStalled.enterDraining (h : NothingStalled b s) : NothingStalled b (enterDraining b s) :=
  h.congr (modBay_host _ _ _) (.of_eq (by simp))

/-- An access that a read of its bay in READY waits in waits on in DRAINING (R46, R110). -/
theorem agrees_draining {w : Wait} {x y : Bay} (h : w.agrees a x) (hst : x.state = .ready)
    (hr : a.write = false) (hy : y.state = .draining) (hq : y.queue = x.queue) (hl : y.link = x.link) :
    w.agrees a y := by
  cases w <;> simp_all [Wait.agrees, readMatches, BayState.servesReads]

/-- Settles O49: EJECT enters DRAINING and settles the bay. -/
theorem ejectAndCancel : Obligations.EjectAndCancel := by
  intro n b s hs hb drained released back
  have heject (hst : (s.bay b).state = .ready) {t : State} (ht : settle b (enterDraining b s) = t) :
      exec (.eject n) s = .next (t.reply 1 .ok []) := by
    refine exec_ok hs (f := onBay n eject) rfl rfl ?_
    rw [onBay_eq hb, eject, hst, ht]
  have hdrained : (enterDraining b s).asks b = drained := by
    rw [enterDraining_eq, asks_modBay]
  have hreleased : modBay b Bay.drained ((enterDraining b s).raise (.bay b .ejectDone)) = released := by
    rw [enterDraining_eq, raise_modBay, modBay_modBay]
    rfl
  have hbay := enterDraining_bay b s
  have hhost : (enterDraining b s).host = s.host := modBay_host _ _ _
  refine ⟨fun hst hq hwait => heject hst ?_, fun a hst hq hh hab hw => heject hst ?_,
    fun hst hq => ⟨fun hn => heject hst ?_, fun a w hh hab hr hw => heject hst ?_⟩, fun hst => ?_,
    fun hready hreplay => ?_, fun hst => ?_, fun hst hp => ?_, fun hdr hno => ?_⟩
  · have hserves : Serves b (enterDraining b s) := ⟨.inr (by rw [hbay]; exact ⟨rfl, hq⟩)⟩
    obtain hn | ⟨hset, a, w, hh, hab, hr⟩ := hwait
    · rw [hserves.settle hn.enterDraining, hdrained]
    · have hheld : (s.bay b).link ≠ .free := fun hfree => by
        obtain ⟨-, hempty, -⟩ := requester_eq_none_iff.mp (hset.grant b hfree)
        exact hq (hempty (by rw [hst]; rfl))
      have hmeet : meetHost (enterDraining b s) = enterDraining b s := by
        refine meetHost_of_agrees fun c v hc => ?_
        have hc' : s.host = .diverted c v := (modBay_host b _ s).symm.trans hc
        rw [hh] at hc'
        cases hc'
        have hag := (hset.host a w hh).2
        rw [hab] at hag ⊢
        exact agrees_draining hag hst hr (by rw [hbay]) (by rw [hbay]) (by rw [hbay])
      rw [settle_eq, hserves.idle, hmeet, grantLink_of_held (by rw [hbay]; exact hheld), ← hdrained]
      exact (asks_of_eq (linkAsked_of_held (by rw [hbay]; exact hheld))).symm
  · subst hab
    have hserves : Serves a.copy.bay (enterDraining a.copy.bay s) := ⟨.inr (by rw [hbay]; exact ⟨rfl, hq⟩)⟩
    have hdr : ((enterDraining a.copy.bay s).bay a.copy.bay).state = .draining := by rw [hbay]
    rw [settle_eq, hserves.idle, meetHost_space (hhost.trans hh),
      if_neg (by rw [hdr]; exact BayState.noConfusion),
      grantLink_handleAccess (by rw [hdr]; exact BayState.noConfusion) (fun h => by rw [hdr] at h; cases h),
      meets_write_draining hdr hw, ← hdrained, errorRelease_asks]
  · rw [settle_drained (by rw [hbay]) (by rw [hbay]; exact hq) hn.enterDraining, hreleased]
  · rw [settle_drained_read (by rw [hbay]) (by rw [hbay]; exact hq) hab hr (hhost.trans hh) hw,
      hreleased]
  · refine exec_ok hs (f := onBay n eject) rfl rfl ?_
    rw [onBay_eq hb, eject, hst]
  · refine exec_bad hs (f := onBay n eject) rfl rfl ?_
    rw [onBay_eq hb, eject]
    cases hst : (s.bay b).state
    case ready => exact absurd hst hready
    case replay => exact absurd hst hreplay
    all_goals rfl
  · refine exec_ok hs (f := onBay n cancelEject) rfl rfl ?_
    rw [onBay_eq hb, cancelEject, hst]
    rfl
  · refine exec_ok hs (f := onBay n cancelEject) rfl rfl ?_
    rw [onBay_eq hb, cancelEject, hst]
    exact if_pos hp
  · refine exec_bad hs (f := onBay n cancelEject) rfl rfl ?_
    rw [onBay_eq hb, cancelEject]
    cases hst : (s.bay b).state
    case draining => exact absurd hst hdr
    case replay => exact if_neg fun hp => hno ⟨hst, hp⟩
    all_goals rfl

/-! ### The moves of replay -/

theorem withoutFirst_none {α : Type} {p : α → Bool} {l : List α} (n : Nat) (h : ∀ x ∈ l, p x = false) :
    withoutFirst p n l = l := by
  induction l generalizing n with
  | nil => cases n <;> rfl
  | cons x xs ih =>
    cases n with
    | zero => rfl
    | succ n =>
      unfold withoutFirst
      rw [if_neg (by rw [h x List.mem_cons_self]; exact Bool.false_ne_true),
        ih (n + 1) fun y hy => h y (List.mem_cons_of_mem _ hy)]

theorem withoutFirst_sublist {α : Type} (p : α → Bool) (n : Nat) (l : List α) :
    (withoutFirst p n l).Sublist l := by
  induction l generalizing n with
  | nil => cases n <;> exact .slnil
  | cons x xs ih =>
    cases n with
    | zero => exact .refl _
    | succ n =>
      unfold withoutFirst
      split
      · exact (ih n).cons x
      · exact (ih (n + 1)).cons_cons x

theorem filter_not_withoutFirst {α : Type} (p : α → Bool) (n : Nat) (l : List α) :
    (withoutFirst p n l).filter (fun x => !p x) = l.filter fun x => !p x := by
  induction l generalizing n with
  | nil => cases n <;> rfl
  | cons x xs ih =>
    cases n with
    | zero => rfl
    | succ n =>
      unfold withoutFirst
      cases hx : p x with
      | true => simp [hx, ih]
      | false => simp [hx, ih]

/-- Nothing replays, and an eject is pending on an empty queue (R111, R114). -/
theorem replayed_released (hnone : ∀ e ∈ s.hold, eligible (s.bay b).mount e = false)
    (hpending : (s.bay b).ejectPending = true) (hq : (s.bay b).queue = []) :
    s.replayed b =
      modBay b
        (fun x => { x with
          state := .released, ejectPending := false, drainTimer := none, lamp := true, queue := []
          link := .free, reqHigh := x.link.request || x.reqHigh
          mount := { x.mount with supply := .none, cause := .none } })
        ((s.raise (.bay b .resumed)).raise (.bay b .ejectDone)) := by
  have hfit : s.hold.filter (eligible (s.bay b).mount) = [] := by
    rw [List.filter_eq_nil_iff]
    exact fun e he => by rw [hnone e he]; exact Bool.false_ne_true
  unfold State.replayed
  dsimp only
  rw [if_neg (by simp [hfit]), if_neg (by rw [hpending]; exact Bool.noConfusion), hfit, hq,
    if_neg (by simp), withoutFirst_none _ hnone]

/-- Settles O52: the bay settles, by `State.replayed` and, for an access that waits, `State.meets`. -/
theorem replayMovesTheOldest : Obligations.ReplayMovesTheOldest := by
  intro b s hrst hst m fit room moved queue
  have hmove : exec (.replayMove b) s = .next (settle b s) := by
    refine exec_to hrst rfl ?_
    rw [replayMove, if_pos hst]
  have hall (hroom : (s.hold.filter fit).length ≤ room) :
      (s.bay b).queue ++ (s.hold.filter fit).map (fun e => (⟨e.ord, e.write, false⟩ : QEntry)) = queue := by
    simp only [queue, moved, List.take_of_length_le hroom]
  refine ⟨fun hn => ⟨fun hroom hp => ?_, fun hroom hp hq => ?_, fun hnone hp hq => ?_, fun hroom => ?_⟩,
    fun a hh hb => ?_⟩
  · rw [hmove, settle_replay hst hn, replayed_ready hroom (hall hroom) hp, asks_modBay]
    rfl
  · rw [hmove, settle_replay hst hn, replayed_draining hroom (hall hroom) hp hq, asks_modBay]
    rfl
  · rw [hmove, settle_replay hst hn, replayed_released hnone hp hq, asks_modBay]
    refine congrArg _ (modBay_congr ?_)
    simp [linkAsked, hq]
  · refine ⟨withoutFirst fit room s.hold, ?_, withoutFirst_sublist _ _ _, filter_withoutFirst _ _ _,
      filter_not_withoutFirst _ _ _⟩
    rw [hmove, settle_replay hst hn, replayed_goesOn (q := queue) hroom rfl, asks_modBay]
    rfl
  · subst hb
    rw [hmove, settle_replay_waiting hst hh]

end Sys2Proof.Machine
end

section
/-! PROOFS. Discarding held writes: both bays settle, each by itself (section 7.6). -/

namespace Sys2Proof.Machine

variable {b : BayId} {s t : State} {a : Access}

/-! ### Settling what is settled -/

/-- A full queue takes no entry, and with an eligible entry left replay goes on (R131, R132). -/
theorem replayed_full (hfull : 16 ≤ (s.bay b).queue.length)
    (hany : ∃ e ∈ s.hold, eligible (s.bay b).mount e = true) : s.replayed b = s := by
  have hroom : 16 - (s.bay b).queue.length = 0 := Nat.sub_eq_zero_of_le hfull
  obtain ⟨e, he, hel⟩ := hany
  have hsome : 0 < (s.hold.filter (eligible (s.bay b).mount)).length :=
    List.length_pos_of_mem (List.mem_filter.mpr ⟨he, hel⟩)
  have hkeep : withoutFirst (eligible (s.bay b).mount) 0 s.hold = s.hold := by cases s.hold <;> rfl
  rw [replayed_goesOn (q := (s.bay b).queue) (by rwa [hroom]) (by simp [hroom]), hroom, hkeep, modBay_self rfl]

/-- Where nothing is due at a bay, settling it changes nothing. -/
theorem SettledPort.settle (h : SettledPort s) (hr : ReplayDone b s) : Machine.settle b s = s := by
  have hwork : afterWork b s = s := by
    by_cases hst : (s.bay b).state = .replay
    · obtain ⟨hfull, hany⟩ := hr hst
      rw [afterWork_replay hst, replayed_full hfull (List.any_eq_true.mp hany)]
    · exact afterWork_idle hst (h.drain b)
  rw [settle_eq, hwork, meetHost_of_agrees fun a w ha => (h.host a w ha).2, grantLink_of_noGrantDue (h.grant b)]

/-- A replay that has nothing to move and a full queue ends, in READY or with an eject in DRAINING
(R111, R132). -/
theorem replayed_ended (hfull : 16 ≤ (s.bay b).queue.length)
    (hnone : ∀ e ∈ s.hold, eligible (s.bay b).mount e = false) :
    s.replayed b =
      modBay b
        (fun x => { x with
          state := if x.ejectPending then .draining else .ready, ejectPending := false
          drainTimer := if x.ejectPending then some s.items.drainMs else x.drainTimer
          mount := { x.mount with cause := .none } })
        (s.raise (.bay b .resumed)) := by
  have hfit : s.hold.filter (eligible (s.bay b).mount) = [] := by
    rw [List.filter_eq_nil_iff]
    exact fun e he => by rw [hnone e he]; exact Bool.false_ne_true
  have hall : (s.hold.filter fun e => !eligible (s.bay b).mount e) = s.hold := by
    rw [List.filter_eq_self]
    exact fun e he => by rw [hnone e he]; rfl
  have hne : (s.bay b).queue ≠ [] := fun h => by rw [h] at hfull; exact absurd hfull (by decide)
  cases hp : (s.bay b).ejectPending with
  | false =>
    rw [replayed_ready (q := (s.bay b).queue) (by simp [hfit]) (by simp [hfit]) hp, hall]
    refine modBay_congr ?_
    simp [hp]
  | true =>
    rw [replayed_draining (q := (s.bay b).queue) (by simp [hfit]) (by simp [hfit]) hp hne, hall]
    refine modBay_congr ?_
    simp [hp]

/-! ### What an access that meets a serving bay leaves -/

@[simp] theorem asks_host (b : BayId) (s : State) : (s.asks b).host = s.host := modBay_host _ _ _

@[simp] theorem asks_hold (b : BayId) (s : State) : (s.asks b).hold = s.hold := by simp [State.asks]

@[simp] theorem asks_bay_other (b : BayId) (s : State) : (s.asks b).bay (otherBay b) = s.bay (otherBay b) := by
  simp [State.asks]

/-- The access stays the access of its bay, and the rest of the part keeps what replay there looks at. -/
theorem meets_serving (hst : (s.bay a.copy.bay).state = .ready ∨ (s.bay a.copy.bay).state = .draining)
    (ht : s.meets a (fun u => u.asks a.copy.bay) = t) :
    t.bay (otherBay a.copy.bay) = s.bay (otherBay a.copy.bay) ∧ t.hold = s.hold ∧
      ∀ c w, t.host = .diverted c w → c.copy.bay = a.copy.bay := by
  have hasks (u : State) (hu : u.bay (otherBay a.copy.bay) = s.bay (otherBay a.copy.bay)) (hh : u.hold = s.hold)
      (hc : ∀ c w, u.host = .diverted c w → c.copy.bay = a.copy.bay) :
      (u.asks a.copy.bay).bay (otherBay a.copy.bay) = s.bay (otherBay a.copy.bay) ∧
        (u.asks a.copy.bay).hold = s.hold ∧
        ∀ c w, (u.asks a.copy.bay).host = .diverted c w → c.copy.bay = a.copy.bay := by
    simpa using ⟨hu, hh, hc⟩
  have herror (c : HostCause) := hasks (s.errorRelease a c none) (by simp) rfl (fun _ _ h => nomatch h)
  have hwaits (w : Wait) := hasks { s with host := .diverted (a.stalled s) w } (by simp) rfl
    (fun c v h => by cases h; rfl)
  have haccept (e : QEntry) := hasks (modBay a.copy.bay (fun x => { x with queue := x.queue ++ [e] })
    { s.accepts with host := s.acceptedHost a }) (by simp [State.accepts]) (by simp [State.accepts]) (by
      intro c w hc
      rw [modBay_host] at hc
      change s.acceptedHost a = _ at hc
      unfold State.acceptedHost at hc
      split at hc <;> cases hc
      rfl)
  have hgrant (f : Bay → Bay) :
      let u := modBay a.copy.bay f { s with host := .diverted (a.stalled s) .onLink }
      u.bay (otherBay a.copy.bay) = s.bay (otherBay a.copy.bay) ∧ u.hold = s.hold ∧
        ∀ c w, u.host = .diverted c w → c.copy.bay = a.copy.bay := by
    refine ⟨by simp, by simp, fun c w hc => ?_⟩
    rw [modBay_host] at hc
    cases hc
    rfl
  have hread : (s.bay a.copy.bay).state.servesReads = true := by obtain h | h := hst <;> rw [h] <;> rfl
  subst ht
  unfold State.meets
  dsimp only
  split
  case h_1 h => rw [h] at hread; cases hread
  case h_2 =>
    repeat' split
    · exact herror _
    · exact herror _
    · exact herror _
    · exact hwaits _
    · exact haccept _
  case h_3 => exact herror _
  case h_4 | h_5 =>
    repeat' split
    · exact herror _
    · exact hwaits _
    · exact hgrant _
    · exact hwaits _
  all_goals
    obtain h | h := hst
    · simp_all
    · simp_all

/-! ### The entries that are discarded -/

theorem lose_setHold (r : LossRecord) (s : State) (l : List HoldEntry) :
    lose r { s with hold := l } = { lose r s with hold := l } := by
  unfold lose logLoss setLatch
  dsimp only
  split
  · rfl
  · split <;> rfl

/-- The losses of DISCARD_HELD, taken before the entries are taken out (R139). -/
theorem discardEntries_eq (p : HoldEntry → Bool) (s : State) :
    discardEntries p s =
      { (s.hold.filter p).foldl (fun s e => lose ⟨.discarded, e.write, e.stale⟩ s) s with
        hold := s.hold.filter fun e => !p e } := by
  have hfold (q : List HoldEntry) (u : State) (l : List HoldEntry) :
      q.foldl (fun s e => lose ⟨.discarded, e.write, e.stale⟩ s) { u with hold := l } =
        { q.foldl (fun s e => lose ⟨.discarded, e.write, e.stale⟩ s) u with hold := l } := by
    induction q generalizing u with
    | nil => rfl
    | cons e es ih => rw [List.foldl_cons, lose_setHold, ih, List.foldl_cons]
  exact hfold _ _ _

theorem scopeArg_of_le {scope : Byte} (h : scope.toNat ≤ 1) : scopeArg scope = some (scope != 1#8) := by
  obtain rfl | rfl : scope = 0#8 ∨ scope = 1#8 := by bv_omega
  · rfl
  · rfl

theorem scopeArg_of_gt {scope : Byte} (h : 1 < scope.toNat) : scopeArg scope = none := by
  unfold scopeArg
  rw [if_neg (by bv_omega), if_neg (by bv_omega)]

theorem discards_eq (serial : Serial) (scope : Byte) :
    discards serial (scope != 1#8) =
      fun e => (serial == 0 || e.write.serial == serial) && (scope == 1 || e.stale) := by
  funext e
  unfold discards bne
  simp [beq_eq_decide]

/-- DISCARD_HELD with a scope (R139). -/
theorem discardHeld_eq {serial : Serial} {scope : Byte} (hscope : scope.toNat ≤ 1) (s : State) :
    discardHeld serial scope s =
      if (s.hold.filter (discards serial (scope != 1#8))).length = 0 then replyOk s [natByte 0]
      else
        replyOk (settle .B (settle .A (discardEntries (discards serial (scope != 1#8)) s)))
          [natByte (s.hold.filter (discards serial (scope != 1#8))).length] := by
  unfold discardHeld
  rw [scopeArg_of_le hscope]

/-- The end of a bay's replay, where nobody waits at it. -/
theorem settle_ended (hst : (s.bay b).state = .replay) (hfull : 16 ≤ (s.bay b).queue.length)
    (hnone : ∀ e ∈ s.hold, eligible (s.bay b).mount e = false) (hn : NothingStalled b s) :
    settle b s =
      modBay b
        (fun x => { x with
          state := if x.ejectPending then .draining else .ready, ejectPending := false
          drainTimer := if x.ejectPending then some s.items.drainMs else x.drainTimer
          link := linkAsked x.queue x.reqHigh s x.link
          mount := { x.mount with cause := .none } })
        (s.raise (.bay b .resumed)) := by
  rw [settle_replay hst hn, replayed_ended hfull hnone, asks_modBay]
  rfl

/-- Where nobody waits at either bay, nobody does after a change of both. -/
theorem NothingStalled.of_both (hA : NothingStalled .A s) (hB : NothingStalled .B s) (hh : t.host = s.host)
    (b : BayId) : NothingStalled b t := by
  intro a w ha
  rw [hh] at ha
  have hfate : ∃ num, w = .fate num := by
    cases hb : a.copy.bay with
    | A =>
      have hn := hA a w ha
      rwa [if_pos hb] at hn
    | B =>
      have hn := hB a w ha
      rwa [if_pos hb] at hn
  split
  · exact hfate
  · obtain ⟨num, rfl⟩ := hfate
    rfl

/-- Settles O53: bay A settles and then bay B, and a bay that goes on has nothing to settle. -/
theorem discardHeldLosesTheSelected : Obligations.DiscardHeldLosesTheSelected := by
  intro serial scope s hs chosen lost count goesOn ends ended
  have hchosen : discards serial (scope != 1#8) = chosen := discards_eq serial scope
  refine ⟨fun hscope => ?_, fun hscope hnone => ?_, fun hscope hsome hset => ?_⟩
  · refine exec_bad hs (f := discardHeld serial scope) rfl rfl ?_
    unfold discardHeld
    rw [scopeArg_of_gt hscope]
  · refine exec_ok hs (f := discardHeld serial scope) rfl rfl ?_
    have hzero : (s.hold.filter chosen).length = 0 := by
      rw [List.length_eq_zero_iff, List.filter_eq_nil_iff]
      exact fun e he => by rw [hnone e he]; exact Bool.false_ne_true
    rw [discardHeld_eq hscope, hchosen, if_pos hzero]
    rfl
  · have hdiscard : discardHeld serial scope s =
        replyOk (settle .B (settle .A (discardEntries chosen s))) [count] := by
      obtain ⟨e, he, hp⟩ := hsome
      rw [discardHeld_eq hscope, hchosen,
        if_neg (List.length_pos_of_mem (List.mem_filter.mpr ⟨he, hp⟩)).ne']
      rfl
    have hlost : discardEntries chosen s = lost := discardEntries_eq chosen s
    have hport : SettledPort lost := hlost ▸ discardEntries_settled hset
    have hbay (b : BayId) : lost.bay b = s.bay b := by rw [← hlost]; simp
    have hhost : lost.host = s.host := by rw [← hlost]; simp
    have hitems : lost.items = s.items := by rw [← hlost]; simp
    have hexec {t : State} (h : settle .B (settle .A lost) = t) :
        exec (.discardHeld serial scope) s = .next (t.reply 9 .ok [count]) := by
      refine exec_ok hs (f := discardHeld serial scope) rfl rfl ?_
      rw [hdiscard, hlost, h]
    have hgoes (b : BayId) (h : goesOn b) : ReplayDone b lost := fun hst => by
      rw [hbay] at hst ⊢
      exact ⟨(hset.replay b hst).1, List.any_eq_true.mpr (h hst)⟩
    have hended (b : BayId) (u : State) (h : ends b) (hb : u.bay b = s.bay b) (hh : u.hold = lost.hold)
        (hi : u.items = s.items) (hn : NothingStalled b u) : settle b u = ended b u := by
      rw [settle_ended (by rw [hb]; exact h.1) (by rw [hb]; exact (hset.replay b h.1).1)
        (by rw [hb, hh]; exact h.2) hn]
      refine modBay_congr ?_
      rw [hi, linkAsked_congr hi]
    have hunmet {b : BayId} (hn : NothingStalled b s) : NothingStalled b lost := hn.congr hhost (.of_eq (hbay _))
    have hAport := (hport.dueAt .A).settle (hport.fitsReplay .A)
    have halone (b : BayId) (h : ends b) (ho : goesOn (otherBay b)) :
        settle .B (settle .A lost) = settle b lost := by
      cases b with
      | A =>
        refine hAport.1.settle ((hport.dueAt .A).settle_other (hport.fitsReplay .A) (fun _ _ e he _ => ?_)
          (hgoes .B ho))
        rw [hbay]
        exact h.2 e he
      | B => rw [hport.settle (hgoes .A ho)]
    have hbayB : (ended .A lost).bay .B = s.bay .B := (modBay_bay_other .A _ _).trans (hbay .B)
    refine ⟨fun hall => hexec ?_, fun b h ho => ⟨fun hn => hexec ?_, fun a hh hb => hexec ?_⟩,
      fun hA hB hnA hnB => hexec ?_, fun a hA hB hh => hexec ?_⟩
    · rw [hport.settle (hgoes .A (hall .A)), hport.settle (hgoes .B (hall .B))]
    · rw [halone b h ho, hended b lost h (hbay b) rfl hitems (hunmet hn)]
    · subst hb
      rw [halone a.copy.bay h ho, settle_replay_waiting (by rw [hbay]; exact h.1) (hhost.trans hh)]
    · rw [hended .A lost hA (hbay .A) rfl hitems (hunmet hnA)]
      refine hended .B _ hB ?_ ?_ ?_ (hnA.of_both hnB ?_ .B)
      · exact hbayB
      · simp [ended, State.raise]
      · simp [ended, State.raise, hitems]
      · exact (modBay_host _ _ _).trans hhost
    · cases hb : a.copy.bay with
      | A =>
        have hreplayed := replayed_ended (b := .A) (s := lost) (by rw [hbay]; exact (hset.replay .A hA.1).1)
          (by rw [hbay]; exact hA.2)
        have hmeets : settle .A lost = (lost.replayed .A).meets a fun t => t.asks .A := by
          rw [← hb]
          exact settle_replay_waiting (by rw [hbay, hb]; exact hA.1) (hhost.trans hh)
        have hserves : ((lost.replayed .A).bay .A).state = .ready ∨ ((lost.replayed .A).bay .A).state = .draining := by
          rw [hreplayed, modBay_bay]
          cases ((lost.raise (.bay .A .resumed)).bay .A).ejectPending with
          | false => exact .inl rfl
          | true => exact .inr rfl
        have hkept := meets_serving (s := lost.replayed .A) (a := a) (by rw [hb]; exact hserves) rfl
        rw [hb, ← hmeets] at hkept
        obtain ⟨hother, hhold, hwait⟩ := hkept
        rw [← hmeets]
        refine hended .B _ hB (hother.trans ?_) (hhold.trans ?_) ?_ fun c w hc => ?_
        · rw [hreplayed]
          exact (modBay_bay_other .A _ _).trans (hbay .B)
        · rw [hreplayed]
          simp [State.raise]
        · simp [hitems]
        · rw [if_neg (by rw [hwait c w hc]; exact BayId.noConfusion)]
          exact (hAport.1.host c w hc).2
      | B =>
        have hnA : NothingStalled .A lost := fun c w hc => by
          rw [hhost, hh] at hc
          cases hc
          rw [if_neg (by rw [hb]; exact BayId.noConfusion), hbay, hb]
          exact beq_iff_eq.mpr hB.1
        rw [hended .A lost hA (hbay .A) rfl hitems hnA]
        have hreplay : ((ended .A lost).bay a.copy.bay).state = .replay := by
          rw [hb]
          exact (congrArg Bay.state hbayB).trans hB.1
        have hmeets := settle_replay_waiting hreplay ((modBay_host _ _ _).trans (hhost.trans hh))
        rwa [hb] at hmeets

end Sys2Proof.Machine
end

section
/-! PROOFS. Forced replay (section 7.5). -/

namespace Sys2Proof.Machine

variable {b : BayId} {s t : State} {a : Access} {serial : Serial} {stamp : Stamp} {m : MountRecord}

/-! ### The entries that are brought back -/

/-- A stale entry of the serial is brought back under the mount's stamp (R138). -/
def forcedEntry (serial : Serial) (stamp : Stamp) (e : HoldEntry) : HoldEntry :=
  if e.stale && e.write.serial == serial then
    { e with stale := false, write := { e.write with stamp := stamp, forced := true } }
  else e

/-- The entries that replay after FORCE_REPLAY: those that it brings back and those that were eligible
before it (R130, R138). -/
def forcedGoes (serial : Serial) (stamp : Stamp) (e : HoldEntry) : Bool :=
  e.write.serial == serial && (e.stale || e.write.stamp == stamp)

theorem forceEntry_eq (hserial : m.serial = some serial) (hstamp : m.stamp = some stamp) (e : HoldEntry) :
    forceEntry m e = forcedEntry serial stamp e := by
  have hcond : forceable m e = (e.stale && e.write.serial == serial) := by
    unfold forceable
    rw [hserial]
    congr 1
    by_cases h : e.write.serial = serial
    · simp [h]
    · have h' : ¬serial = e.write.serial := fun hc => h hc.symm
      simp [h, h']
  unfold forceEntry forcedEntry
  rw [hcond, hstamp]
  rfl

theorem eligible_forcedEntry (hserial : m.serial = some serial) (hstamp : m.stamp = some stamp)
    (e : HoldEntry) : eligible m (forcedEntry serial stamp e) = forcedGoes serial stamp e := by
  unfold forcedEntry forcedGoes eligible
  rw [hserial, hstamp]
  by_cases hn : e.write.serial = serial
  · cases hs : e.stale with
    | true => simp [hn]
    | false =>
      have hcomm : (stamp == e.write.stamp) = (e.write.stamp == stamp) := Bool.beq_comm
      simp [hn, hs, hcomm]
  · have hleft : (e.write.serial == serial) = false := beq_eq_false_iff_ne.mpr hn
    have hright : (serial == e.write.serial) = false := beq_eq_false_iff_ne.mpr fun hc => hn hc.symm
    simp [hleft, hright]

theorem forcedEntry_of_not {e : HoldEntry} (h : forcedGoes serial stamp e = false) :
    forcedEntry serial stamp e = e := by
  refine if_neg fun hc => ?_
  simp only [Bool.and_eq_true] at hc
  simp [forcedGoes, hc.1, hc.2] at h

theorem forcedEntry_write {e : HoldEntry} (h : forcedGoes serial stamp e = true) :
    (forcedEntry serial stamp e).write =
      { e.write with stamp := stamp, forced := e.write.forced || e.stale } := by
  simp only [forcedGoes, Bool.and_eq_true, Bool.or_eq_true, beq_iff_eq] at h
  obtain ⟨hn, hs⟩ := h
  unfold forcedEntry
  cases hstale : e.stale with
  | true => simp [hn]
  | false =>
    rw [hstale] at hs
    have ht : e.write.stamp = stamp := hs.resolve_left Bool.false_ne_true
    simp [← ht]

theorem forcedEntry_ord (e : HoldEntry) : (forcedEntry serial stamp e).ord = e.ord := by
  unfold forcedEntry
  split <;> rfl

/-! ### The bay that FORCE_REPLAY enters -/

/-- The bay in REPLAY with the entries brought back, before the host meets it (R138). -/
def State.forced (s : State) (b : BayId) (serial : Serial) (stamp : Stamp) : State :=
  modBay b (fun x => { x with state := .replay, mount := { x.mount with cause := .none } })
    { s with hold := s.hold.map (forcedEntry serial stamp) }

@[simp] theorem forced_bay : (s.forced b serial stamp).bay b =
    { s.bay b with state := .replay, mount := { (s.bay b).mount with cause := .none } } := by
  simp [State.forced]

@[simp] theorem forced_bay_other : (s.forced b serial stamp).bay (otherBay b) = s.bay (otherBay b) := by
  simp [State.forced]

@[simp] theorem forced_host : (s.forced b serial stamp).host = s.host := modBay_host _ _ _

@[simp] theorem forced_hold : (s.forced b serial stamp).hold = s.hold.map (forcedEntry serial stamp) := by
  simp [State.forced]

@[simp] theorem forced_items : (s.forced b serial stamp).items = s.items := by simp [State.forced]

theorem forced_ended (f : Bay → Bay) (l : List HoldEntry) :
    modBay b f { (s.forced b serial stamp).raise (.bay b .resumed) with hold := l } =
      modBay b (fun x => f { x with state := .replay, mount := { x.mount with cause := .none } })
        { s.raise (.bay b .resumed) with hold := l } := by
  cases b <;> rfl

theorem forced_going (f : Bay → Bay) (l : List HoldEntry) :
    modBay b f { s.forced b serial stamp with hold := l } =
      modBay b (fun x => f { x with state := .replay, mount := { x.mount with cause := .none } })
        { s with hold := l } := by
  cases b <;> rfl

theorem absentRead_modBay (a : Access) (f : Bay → Bay) (s : State) :
    (modBay b f s).absentRead a = modBay b f (s.absentRead a) := by
  unfold State.absentRead
  cases a.copy.absentReads with
  | fill => cases b <;> rfl
  | refuse => cases b <;> rfl

theorem absentRead_forced (a : Access) :
    (s.forced b serial stamp).absentRead a = (s.absentRead a).forced b serial stamp := by
  rw [State.forced, absentRead_modBay]
  unfold State.absentRead
  cases a.copy.absentReads <;> rfl

theorem waitIn_forced (a : Access) (w : Wait) :
    waitIn a w (s.forced b serial stamp) =
      State.forced { s with host := .diverted (a.stalled s) w } b serial stamp := by
  cases b <;> rfl

theorem abandonRead_forced {tr : Transfer} (hl : (s.bay b).link = .held .read tr) :
    abandonRead b (s.forced b serial stamp) =
      modBay b (fun x => { x with link := if tr.phase.asserted then .abandoned tr else .free })
        (s.forced b serial stamp) := by
  unfold abandonRead
  simp only [forced_bay, hl]

/-- The host is released, so that nobody waits. -/
theorem absentRead_unmet (h : t.host = (s.absentRead a).host) : NothingStalled b t := fun c w hc => by
  rw [h, State.absentRead] at hc
  split at hc <;> cases hc

theorem forceReplay_eq (hst : (s.bay b).state = .ready) (hlocked : (s.bay b).mount.locked = false)
    (hserial : (s.bay b).mount.serial = some serial) (hstamp : (s.bay b).mount.stamp = some stamp)
    (hsome : ∃ e ∈ s.hold, e.stale = true ∧ e.write.serial = serial) :
    forceReplay b s = replyOk (settle b (meetHost (s.forced b serial stamp))) [] := by
  have hany : s.hold.any (forceable (s.bay b).mount) = true := by
    obtain ⟨e, he, hstale, hn⟩ := hsome
    exact List.any_eq_true.mpr ⟨e, he, by simp [forceable, hstale, hserial, hn]⟩
  have hmap : s.hold.map (forceEntry (s.bay b).mount) = s.hold.map (forcedEntry serial stamp) :=
    List.map_congr_left fun e _ => forceEntry_eq hserial hstamp e
  unfold forceReplay
  simp only [hst, hlocked, hany, hmap]
  rfl

/-! ### What replays, and what the waiting access leaves -/

section Replays

variable (hserial : (s.bay b).mount.serial = some serial) (hstamp : (s.bay b).mount.stamp = some stamp)

include hserial hstamp

theorem eligible_forced (e : HoldEntry) :
    eligible ((s.forced b serial stamp).bay b).mount (forcedEntry serial stamp e) =
      forcedGoes serial stamp e := by
  rw [forced_bay]
  exact eligible_forcedEntry hserial hstamp e

theorem forced_eligible :
    (s.forced b serial stamp).hold.filter (eligible ((s.forced b serial stamp).bay b).mount) =
      (s.hold.filter (forcedGoes serial stamp)).map (forcedEntry serial stamp) := by
  rw [forced_hold, List.filter_map]
  exact congrArg _ (List.filter_congr fun e _ => eligible_forced hserial hstamp e)

theorem forced_not_eligible :
    ((s.forced b serial stamp).hold.filter fun e => !eligible ((s.forced b serial stamp).bay b).mount e) =
      s.hold.filter fun e => !forcedGoes serial stamp e := by
  have hnot (e : HoldEntry) :
      (!eligible ((s.forced b serial stamp).bay b).mount (forcedEntry serial stamp e)) =
        !forcedGoes serial stamp e := by rw [eligible_forced hserial hstamp]
  rw [forced_hold, List.filter_map]
  refine Eq.trans (congrArg _ (List.filter_congr fun e _ => hnot e)) ?_
  refine (List.map_congr_left fun e he => forcedEntry_of_not ?_).trans (List.map_id _)
  exact (Bool.not_eq_true' _).mp (List.mem_filter.mp he).2

/-- A full queue takes none of the entries brought back. -/
theorem forced_replayed_full (hfull : 16 ≤ (s.bay b).queue.length)
    (hsome : ∃ e ∈ s.hold, e.stale = true ∧ e.write.serial = serial) :
    (s.forced b serial stamp).replayed b = s.forced b serial stamp := by
  obtain ⟨e, he, hstale, hn⟩ := hsome
  refine replayed_full (by rwa [forced_bay]) ⟨forcedEntry serial stamp e, ?_, ?_⟩
  · rw [forced_hold]
    exact List.mem_map_of_mem he
  · rw [eligible_forced hserial hstamp]
    simp [forcedGoes, hstale, hn]

end Replays

theorem forcedEntry_moves (l : List HoldEntry) :
    ((l.filter (forcedGoes serial stamp)).map (forcedEntry serial stamp)).map
        (fun e => (⟨e.ord, e.write, false⟩ : QEntry)) =
      (l.filter (forcedGoes serial stamp)).map fun e =>
        ⟨e.ord, { e.write with stamp := stamp, forced := e.write.forced || e.stale }, false⟩ := by
  rw [List.map_map]
  refine List.map_congr_left fun e he => ?_
  exact congrArg₂ (fun o w => (⟨o, w, false⟩ : QEntry)) (forcedEntry_ord e)
    (forcedEntry_write (List.mem_filter.mp he).2)

theorem forced_state : ((s.forced b serial stamp).bay b).state = .replay := by rw [forced_bay]

/-- No read is served in REPLAY (R48). -/
theorem forced_servesReads : ¬(((s.forced b serial stamp).bay b).state.servesReads = true) := by
  rw [forced_state]
  exact Bool.false_ne_true

theorem settle_forced_unmet (hn : NothingStalled b s) :
    settle b (meetHost (s.forced b serial stamp)) = ((s.forced b serial stamp).replayed b).asks b := by
  have hforced : NothingStalled b (s.forced b serial stamp) := hn.congr forced_host (.of_eq forced_bay_other)
  rw [hforced.meetHost, settle_replay forced_state hforced]

/-- A write that waits for queue space stalls in REPLAY, where a full queue leaves it (R39). -/
theorem settle_forced_space (hh : s.host = .diverted a .space) (hfull : 16 ≤ (s.bay a.copy.bay).queue.length)
    (hserial : (s.bay a.copy.bay).mount.serial = some serial)
    (hstamp : (s.bay a.copy.bay).mount.stamp = some stamp)
    (hsome : ∃ e ∈ s.hold, e.stale = true ∧ e.write.serial = serial) :
    settle a.copy.bay (meetHost (s.forced a.copy.bay serial stamp)) =
      (State.forced { s with host := .diverted (a.stalled s) .replay } a.copy.bay serial stamp).asks
        a.copy.bay := by
  let v : State := { s with host := .diverted (a.stalled s) .replay }
  have hmeet : meetHost (s.forced a.copy.bay serial stamp) = v.forced a.copy.bay serial stamp := by
    rw [meetHost_space (forced_host.trans hh), if_neg (by rw [forced_state]; exact BayState.noConfusion),
      handleAccess_replay forced_state, waitIn_forced]
  have hbay : v.bay a.copy.bay = s.bay a.copy.bay := rfl
  have hstays : (v.forced a.copy.bay serial stamp).replayed a.copy.bay = v.forced a.copy.bay serial stamp :=
    forced_replayed_full (hbay ▸ hserial) (hbay ▸ hstamp) (hbay ▸ hfull) hsome
  have hsettle : settle a.copy.bay (v.forced a.copy.bay serial stamp) =
      ((v.forced a.copy.bay serial stamp).replayed a.copy.bay).meets (a.stalled s)
        fun u => u.asks a.copy.bay :=
    settle_replay_waiting (a := a.stalled s) forced_state forced_host
  rw [hmeet, hsettle, hstays]
  exact meets_replay (a := a.stalled s) forced_state

/-- A read that is not on the link is finished under its absent-reads policy (R48). -/
theorem settle_forced_read (hh : s.host = .diverted a .queueMatch ∨ s.host = .diverted a .grant) :
    settle a.copy.bay (meetHost (s.forced a.copy.bay serial stamp)) =
      (((s.absentRead a).forced a.copy.bay serial stamp).replayed a.copy.bay).asks a.copy.bay := by
  have hmeet : meetHost (s.forced a.copy.bay serial stamp) =
      (s.absentRead a).forced a.copy.bay serial stamp := by
    rw [← absentRead_forced, ← absentRead_eq]
    obtain hh | hh := hh
    · rw [meetHost_queueMatch (forced_host.trans hh), if_neg forced_servesReads]
    · rw [meetHost_grant (forced_host.trans hh), if_neg forced_servesReads]
  rw [hmeet, settle_replay forced_state (absentRead_unmet forced_host)]

/-- So is a read on the link, which leaves its transfer there when its xREQ is asserted (R48, R73, R166). -/
theorem settle_forced_onLink {tr : Transfer} (hh : s.host = .diverted a .onLink)
    (hl : (s.bay a.copy.bay).link = .held .read tr) :
    settle a.copy.bay (meetHost (s.forced a.copy.bay serial stamp)) =
      ((modBay a.copy.bay
        (fun x => { x with link := if tr.phase.asserted then .abandoned tr else .free })
        ((s.absentRead a).forced a.copy.bay serial stamp)).replayed a.copy.bay).asks a.copy.bay := by
  rw [meetHost_onLink (forced_host.trans hh), if_neg forced_servesReads, abandonRead_forced hl, absentRead_eq,
    absentRead_modBay, absentRead_forced,
    settle_replay (by simp) (absentRead_unmet (a := a) (s := s) (by simp))]

/-- Settles O51: the host meets the bay in REPLAY, and then the bay settles. -/
theorem forcedEntriesReplay : Obligations.ForcedEntriesReplay := by
  intro n b s hs hb m
  refine ⟨fun hst => ?_, fun hlocked => ?_, fun hst hlocked hnone => ?_,
    fun serial t hst hlocked hserial hstamp hpending hsome => ?_⟩
  · refine exec_bad hs (f := onBay n forceReplay) rfl rfl ?_
    rw [onBay_eq hb, forceReplay]
    exact if_pos hst
  · refine exec_bad hs (f := onBay n forceReplay) rfl rfl ?_
    rw [onBay_eq hb, forceReplay]
    by_cases hst : (s.bay b).state ≠ .ready
    · exact if_pos hst
    · exact (if_neg hst).trans (if_pos hlocked)
  · refine exec_bad hs (f := onBay n forceReplay) rfl rfl ?_
    have hany : s.hold.any (forceable (s.bay b).mount) = false := by
      rw [List.any_eq_false]
      intro e he hf
      simp only [forceable, Bool.and_eq_true, beq_iff_eq] at hf
      exact hnone e he hf.1 hf.2
    rw [onBay_eq hb, forceReplay, if_neg (not_not.mpr hst), if_neg (by rw [hlocked]; exact Bool.false_ne_true), hany]
    rfl
  · intro force goes moved room entered
    have hexec {u : State} (h : settle b (meetHost (s.forced b serial t)) = u) :
        exec (.forceReplay n false) s = .next (u.reply 1 .ok []) := by
      refine exec_ok hs (f := onBay n forceReplay) rfl rfl ?_
      rw [onBay_eq hb, forceReplay_eq hst hlocked hserial hstamp hsome, h]
    have hqueue : ((s.forced b serial t).bay b).queue = (s.bay b).queue := by rw [forced_bay]
    have hfilter : (s.forced b serial t).hold.filter (eligible ((s.forced b serial t).bay b).mount) =
        (s.hold.filter goes).map force := forced_eligible hserial hstamp
    have hmoved : ((s.hold.filter goes).map force).map (fun e => (⟨e.ord, e.write, false⟩ : QEntry)) = moved :=
      forcedEntry_moves s.hold
    have hlength : (s.hold.filter goes).length = moved.length := by simp [moved]
    have hlink {v : State} (hi : v.items = s.items) (q : List QEntry) (r : Bool) (l : Link) :
        linkAsked q r v l = linkAsked q r s l := linkAsked_congr hi q r l
    have hentered (a : Access) : (s.absentRead a).forced b serial t = entered (s.absentRead a) := by
      have hhold : (s.absentRead a).hold = s.hold := by
        rw [← absentRead_eq]
        simp
      unfold State.forced
      rw [hhold]
      rfl
    refine ⟨fun hn => ⟨fun hroom => hexec ?_, fun hroom => hexec ?_⟩, fun a hab =>
      ⟨fun hh hfull => ?_, fun hh => ?_, fun tr hh hl => ?_⟩⟩
    · rw [settle_forced_unmet hn, replayed_ready (q := (s.bay b).queue ++ moved)
          (by rw [hfilter, hqueue, List.length_map]; omega)
          (by rw [hfilter, hqueue, hmoved]) (by rw [forced_bay]; exact hpending),
        forced_not_eligible hserial hstamp, asks_modBay, forced_ended]
      refine modBay_congr ?_
      simp [hst, hlink]
    · rw [settle_forced_unmet hn, replayed_goesOn (q := (s.bay b).queue ++ moved.take room)
          (by rw [hfilter, hqueue, List.length_map, hlength]; exact hroom)
          (by rw [hfilter, hqueue, List.map_take, hmoved]),
        hqueue, forced_hold, withoutFirst_map, funext (eligible_forced hserial hstamp), asks_modBay, forced_going]
      refine modBay_congr ?_
      simp [hlink]
    · subst hab
      exact hexec (settle_forced_space hh hfull hserial hstamp hsome)
    · subst hab
      exact hexec (hentered a ▸ settle_forced_read hh)
    · subst hab
      intro left
      have hleft : (if tr.phase.asserted then .abandoned tr else .free : Link) = left := by
        unfold left
        cases tr.phase <;> rfl
      refine hexec ((settle_forced_onLink hh hl).trans ?_)
      rw [hleft, hentered]

end Sys2Proof.Machine
end
